-- ==== Sys2Proof/Word.lean ====
section
/-! DEFINITION. The byte, the saturating gain the spec's counters use (00_scope.md, "Arithmetic"), and indexed
registers: a vector read and written at an index that its type bounds. -/

namespace Sys2Proof

/-- A byte of a sense frame, a request frame or a reply frame. -/
abbrev Byte := BitVec 8

/-- A gain of `k` that saturates at `bound`. -/
def satAdd (bound n k : Nat) : Nat := min (n + k) bound

/-- The entry of an indexed register file. -/
def entry {α : Type} {n : Nat} (v : Vector α n) (i : Fin n) : α := v[i.val]'i.isLt

/-- The register file with one entry written. -/
def setEntry {α : Type} {n : Nat} (v : Vector α n) (i : Fin n) (x : α) : Vector α n := v.set i.val x i.isLt

/-- The register file with every entry changed. -/
def mapEntries {α : Type} {n : Nat} (f : α → α) (v : Vector α n) : Vector α n :=
  ⟨(v.toList.map f).toArray, by simp⟩

end Sys2Proof
end

