-- ==== Sys2Proof/Syntax.lean ====
section
/-! DEFINITION. The commands of the part: one constructor of `Instr` per row of spec/opcode_table.json, with the
operands that the row's rule gives it. -/

namespace Sys2Proof

/-- The three links (00_scope.md): traction, auxiliary and vehicle control units. -/
inductive Link where
  | t
  | a
  | v
  deriving DecidableEq, Repr, Inhabited

/-- The two sense channels (01). -/
inductive Channel where
  | a
  | b
  deriving DecidableEq, Repr, Inhabited

/-- The two cycle generators (06, R123). -/
inductive CycleGen where
  | a
  | b
  deriving DecidableEq, Repr, Inhabited

/-- The fields of a sample frame (R1, Table 1-1). A measured field is `none` when its valid flag is clear (tainted);
I and the laterals are two's complement. -/
structure Sample where
  seq : BitVec 8
  v : Option (BitVec 10)
  i : Option (BitVec 12)
  elevPos : Option (BitVec 10)
  elevNeg : Option (BitVec 10)
  latPos : Option (BitVec 10)
  latNeg : Option (BitVec 10)
  status : BitVec 4
  inc : BitVec 8
  deriving DecidableEq, Repr

/-- What follows the kind byte of a request frame as it was received: the payload, whose length is the length byte,
and the check byte (R171, Table 9-1). -/
structure RequestBody where
  payload : List Byte
  check : Byte
  deriving DecidableEq, Repr

/-- The commands: pins, clock, lines, the events of the tables of operations, and the completed request frames.
`body` of a request is the frame as received, so a bad check and a wrong length are commands too (R175). -/
inductive Instr where
  | powerOnReset
  | resetRelease
  | millisecondTick
  | sampleFrame (ch : Channel)
  | presentCountReached (set : Sample)
  | confirmCountReached (set : Sample)
  | raiseLimitExpiry (set : Sample)
  | unloadLimitExpiry (set : Sample)
  | cyclePeriodWrap (g : CycleGen)
  | idleLimitPark (slot : Fin 24)
  | observationPeriodEnd
  | derateWindowEnd (v : Option (BitVec 10))
  | freezeLimitReached
  | slotStart
  | silenceTimerExpiry (ch : Channel)
  | selectAsserted (l : Link)
  | requestLengthOverrange (l : Link) (n : Byte)
  | frameAbandoned (l : Link) (edges : BitVec 3)
  | selectReleased (l : Link) (edges : BitVec 3)
  | unknownKind (l : Link) (code : Byte) (body : RequestBody)
  | readStatus (l : Link) (body : RequestBody)
  | readBudget (l : Link) (body : RequestBody)
  | dropSeen (l : Link) (body : RequestBody)
  | takeAlarm (l : Link) (body : RequestBody)
  | doneAlarm (l : Link) (body : RequestBody)
  | tractionRequest (l : Link) (body : RequestBody)
  | loadSetup (l : Link) (body : RequestBody)
  | loadDemand (l : Link) (body : RequestBody)
  | loadReEnable (l : Link) (body : RequestBody)
  | readLoads (l : Link) (body : RequestBody)
  | raise (l : Link) (body : RequestBody)
  | lower (l : Link) (body : RequestBody)
  | clearDrop (l : Link) (body : RequestBody)
  | readDropLog (l : Link) (body : RequestBody)
  | popDropLog (l : Link) (body : RequestBody)
  | setPosition (l : Link) (body : RequestBody)
  | restoreChannel (l : Link) (body : RequestBody)
  | featurePut (l : Link) (body : RequestBody)
  | featureEvict (l : Link) (body : RequestBody)
  | featureRead (l : Link) (body : RequestBody)
  | tableClear (l : Link) (body : RequestBody)
  | armedRead (l : Link) (body : RequestBody)
  | zoneSet (l : Link) (body : RequestBody)
  | zoneRead (l : Link) (body : RequestBody)
  | clearConditions (l : Link) (body : RequestBody)
  | alarmRouteSet (l : Link) (body : RequestBody)
  | readAlarmRoutes (l : Link) (body : RequestBody)
  | setParam (l : Link) (body : RequestBody)
  | readParam (l : Link) (body : RequestBody)
  | reinit (l : Link) (body : RequestBody)
  | senseCharacter (ch : Channel) (c : Byte) (stop : Bool)
  | linkByteComplete (l : Link) (b : Byte)
  deriving DecidableEq, Repr

end Sys2Proof
end

