-- ==== Sys2Proof/Decode.lean ====
section
/-! DEFINITION. Commands spelled by table words. No row of spec/opcode_table.json gives bits (its "fields" are empty
and it has no "fixed"), so no word spells a command. -/

namespace Sys2Proof

/-- The command that a word of the opcode table spells: none, because the table gives no row any bits. -/
def decodeTableWord (nbits w : Nat) : Option Instr :=
  match nbits, w with
  | _, _ => none

end Sys2Proof
end

