-- ==== Sys2Proof/Config.lean ====
section
/-! DEFINITION. The one free choice of the model. -/

namespace Sys2Proof

/-- Which channel's silence expiry is taken first when both are overdue at a millisecond tick. R11 allows both orders
and prefers none, so the choice is free: no body, applied to the time base (log 7). DESIGN CHOICE, safe. -/
opaque Config.firstExpiry : BitVec 32 → Channel

end Sys2Proof
end

