-- ==== Sys2Proof/Machine/Tables.lean ====
section
/-! DEFINITION. The fixed tables of the spec: parameters (Table 10-1), alarm sources (Table 8-1), result codes
(Table 9-2), request kinds with their lengths (Table 9-3) and permissions (R178). -/

namespace Sys2Proof.Machine

/-- The 52 parameters of Table 10-1, in its order. -/
inductive Param where
  | silenceMs | plausLimit | vPlausMax | iPlausMax | vPresent | presentCount | confirmCount | rateLimit | elevMax
  | latMax | latMaxFrog | stow | raiseLimit | unloadLimit | iQuiet | lowerBoth | learn | learnFactor | lead | margin
  | iLim | vLow | vTaper | vHigh | regenMax | reserve | window | stepUp | stepDown | dMin | dMax | freezeLimit
  | escalate | battery | bAvail | bTrac | bRegen | restoreMargin | restoreInterval | startGap | vAuxLow | vAuxHigh
  | bandRestartLimit | idleLong | idleShort | parkObs | parkHi | parkLo | cycleAPeriod | cycleBPeriod | cycleAOn
  | cycleBOn
  deriving DecidableEq, Repr

/-- The number of a parameter (Table 10-1, column "No."). -/
def paramNumber : Param → Fin 52
  | .silenceMs => 0 | .plausLimit => 1 | .vPlausMax => 2 | .iPlausMax => 3 | .vPresent => 4 | .presentCount => 5
  | .confirmCount => 6 | .rateLimit => 7 | .elevMax => 8 | .latMax => 9 | .latMaxFrog => 10 | .stow => 11
  | .raiseLimit => 12 | .unloadLimit => 13 | .iQuiet => 14 | .lowerBoth => 15 | .learn => 16 | .learnFactor => 17
  | .lead => 18 | .margin => 19 | .iLim => 20 | .vLow => 21 | .vTaper => 22 | .vHigh => 23 | .regenMax => 24
  | .reserve => 25 | .window => 26 | .stepUp => 27 | .stepDown => 28 | .dMin => 29 | .dMax => 30
  | .freezeLimit => 31 | .escalate => 32 | .battery => 33 | .bAvail => 34 | .bTrac => 35 | .bRegen => 36
  | .restoreMargin => 37 | .restoreInterval => 38 | .startGap => 39 | .vAuxLow => 40 | .vAuxHigh => 41
  | .bandRestartLimit => 42 | .idleLong => 43 | .idleShort => 44 | .parkObs => 45 | .parkHi => 46 | .parkLo => 47
  | .cycleAPeriod => 48 | .cycleBPeriod => 49 | .cycleAOn => 50 | .cycleBOn => 51

/-- One row of Table 10-1: the ends of the range and the default. -/
structure ParamRow where
  lower : Nat
  upper : Nat
  dflt : Nat
  deriving DecidableEq, Repr

/-- Rows 0 to 17 of Table 10-1. -/
def paramRowsLow : List ParamRow :=
  [⟨1, 255, 10⟩, ⟨1, 255, 40⟩, ⟨0, 1023, 1000⟩, ⟨0, 2047, 2000⟩, ⟨0, 1023, 250⟩, ⟨1, 255, 5⟩, ⟨1, 255, 20⟩,
   ⟨1, 255, 30⟩, ⟨0, 1023, 650⟩, ⟨0, 511, 150⟩, ⟨0, 511, 250⟩, ⟨0, 1023, 80⟩, ⟨1, 65535, 3000⟩, ⟨1, 255, 50⟩,
   ⟨0, 255, 20⟩, ⟨0, 1, 1⟩, ⟨0, 1, 1⟩, ⟨0, 16, 16⟩]

/-- Rows 18 to 36 of Table 10-1. The ends of rows 29 and 30 that are other parameters are given by `paramBounds`. -/
def paramRowsMid : List ParamRow :=
  [⟨0, 63, 20⟩, ⟨0, 63, 10⟩, ⟨0, 2047, 1000⟩, ⟨0, 1023, 480⟩, ⟨0, 1023, 720⟩, ⟨0, 1023, 800⟩, ⟨0, 2047, 600⟩,
   ⟨0, 255, 20⟩, ⟨1, 255, 100⟩, ⟨1, 15, 2⟩, ⟨1, 15, 1⟩, ⟨0, 15, 0⟩, ⟨0, 15, 12⟩, ⟨1, 63, 8⟩, ⟨0, 15, 0⟩,
   ⟨0, 1, 1⟩, ⟨0, 511, 120⟩, ⟨0, 255, 60⟩, ⟨0, 255, 40⟩]

/-- Rows 37 to 51 of Table 10-1. The upper ends of rows 50 and 51 are the stored periods (`paramBounds`). -/
def paramRowsHigh : List ParamRow :=
  [⟨0, 255, 15⟩, ⟨1, 255, 200⟩, ⟨0, 255, 50⟩, ⟨0, 1023, 420⟩, ⟨0, 1023, 950⟩, ⟨1, 15, 3⟩, ⟨1, 65535, 30000⟩,
   ⟨1, 65535, 5000⟩, ⟨1, 65535, 60000⟩, ⟨0, 255, 12⟩, ⟨0, 255, 4⟩, ⟨1, 65535, 10000⟩, ⟨1, 65535, 10000⟩,
   ⟨0, 65535, 5000⟩, ⟨0, 65535, 5000⟩]

/-- Table 10-1, by parameter number (R184). -/
def paramTable : Vector ParamRow 52 := ⟨(paramRowsLow ++ paramRowsMid ++ paramRowsHigh).toArray, rfl⟩

/-- The 16 alarm sources (Table 8-1). -/
inductive Source where
  | poleDrop | senseLost | budgetSafe | grantOver | dropSuspect | gapOverrun | channelFailover | budgetFrozen
  | raiseFailed | shedRise | derateRise | bandShed | loadLockout | armedOverflow | tableRefused | learnedGap
  deriving DecidableEq, Repr

/-- The number of a source (Table 8-1). -/
def sourceNumber : Source → Fin 16
  | .poleDrop => 0 | .senseLost => 1 | .budgetSafe => 2 | .grantOver => 3 | .dropSuspect => 4 | .gapOverrun => 5
  | .channelFailover => 6 | .budgetFrozen => 7 | .raiseFailed => 8 | .shedRise => 9 | .derateRise => 10
  | .bandShed => 11 | .loadLockout => 12 | .armedOverflow => 13 | .tableRefused => 14 | .learnedGap => 15

/-- The source numbers in ascending order. -/
def sourceNumbers : List (Fin 16) := [0, 1, 2, 3, 4, 5, 6, 7, 8, 9, 10, 11, 12, 13, 14, 15]

/-- A row of the source table: the level and the route mask (bit 0 T, bit 1 A, bit 2 V; R154). -/
structure SourceRow where
  level : Fin 4
  mask : BitVec 3
  deriving DecidableEq, Repr

/-- Table 8-1's defaults, by source number. -/
def sourceDefaults : Vector SourceRow 16 :=
  ⟨#[⟨0, 7⟩, ⟨0, 7⟩, ⟨0, 7⟩, ⟨1, 1⟩, ⟨1, 5⟩, ⟨1, 5⟩, ⟨1, 4⟩, ⟨1, 5⟩, ⟨2, 4⟩, ⟨2, 6⟩, ⟨2, 5⟩, ⟨2, 6⟩, ⟨2, 6⟩,
     ⟨2, 4⟩, ⟨3, 4⟩, ⟨3, 4⟩], rfl⟩

/-- The result codes (Table 9-2). -/
inductive Result where
  | ok | clamped | already | denied | unknown | length | checkFail | badValue | busy | inZone | senseLost | dropped
  | notStowed | notFound | tableRefused | lockLimit | none | stackFull | notInService
  deriving DecidableEq, Repr

/-- The number a result code is sent as (Table 9-2). -/
def resultCode : Result → Byte
  | .ok => 0 | .clamped => 1 | .already => 2 | .denied => 3 | .unknown => 4 | .length => 5 | .checkFail => 6
  | .badValue => 7 | .busy => 8 | .inZone => 9 | .senseLost => 10 | .dropped => 11 | .notStowed => 12
  | .notFound => 13 | .tableRefused => 14 | .lockLimit => 15 | .none => 16 | .stackFull => 17 | .notInService => 18

/-- The 30 request kinds (Table 9-3). -/
inductive Kind where
  | readStatus | readBudget | dropSeen | takeAlarm | doneAlarm | tractionRequest | loadSetup | loadDemand
  | loadReEnable | readLoads | raise | lower | clearDrop | readDropLog | popDropLog | setPosition | restoreChannel
  | featurePut | featureEvict | featureRead | tableClear | armedRead | zoneSet | zoneRead | clearConditions
  | alarmRouteSet | readAlarmRoutes | setParam | readParam | reinit
  deriving DecidableEq, Repr

/-- The kind code on the wire (Table 9-3). -/
def kindCode : Kind → Byte
  | .readStatus => 0x01 | .readBudget => 0x02 | .dropSeen => 0x03 | .takeAlarm => 0x04 | .doneAlarm => 0x05
  | .tractionRequest => 0x10 | .loadSetup => 0x20 | .loadDemand => 0x21 | .loadReEnable => 0x22 | .readLoads => 0x23
  | .raise => 0x30 | .lower => 0x31 | .clearDrop => 0x32 | .readDropLog => 0x33 | .popDropLog => 0x34
  | .setPosition => 0x38 | .restoreChannel => 0x39 | .featurePut => 0x40 | .featureEvict => 0x41
  | .featureRead => 0x42 | .tableClear => 0x43 | .armedRead => 0x44 | .zoneSet => 0x48 | .zoneRead => 0x49
  | .clearConditions => 0x50 | .alarmRouteSet => 0x58 | .readAlarmRoutes => 0x59 | .setParam => 0x60
  | .readParam => 0x61 | .reinit => 0x7E

/-- All the kinds, in the order of Table 9-3. -/
def allKinds : List Kind :=
  [.readStatus, .readBudget, .dropSeen, .takeAlarm, .doneAlarm, .tractionRequest, .loadSetup, .loadDemand,
   .loadReEnable, .readLoads, .raise, .lower, .clearDrop, .readDropLog, .popDropLog, .setPosition, .restoreChannel,
   .featurePut, .featureEvict, .featureRead, .tableClear, .armedRead, .zoneSet, .zoneRead, .clearConditions,
   .alarmRouteSet, .readAlarmRoutes, .setParam, .readParam, .reinit]

/-- The kind a code names; none for "every other kind code, 0x00 included" (Table 9-3). -/
def kindOfCode (code : Byte) : Option Kind := allKinds.find? (fun k => kindCode k == code)

/-- The payload length a kind's length byte must carry (Table 9-3). -/
def kindLength : Kind → Nat
  | .readStatus | .readBudget | .dropSeen | .takeAlarm | .doneAlarm | .readLoads | .raise | .lower | .clearDrop
  | .readDropLog | .popDropLog | .tableClear | .armedRead | .clearConditions | .readAlarmRoutes | .reinit => 0
  | .loadReEnable | .restoreChannel | .zoneRead | .readParam => 1
  | .tractionRequest | .setPosition | .featureRead => 2
  | .loadDemand | .featureEvict | .alarmRouteSet | .setParam => 3
  | .loadSetup | .featurePut => 6
  | .zoneSet => 12

/-- The permission table (R178). -/
def permitted : Link → Kind → Bool
  | .t, k => k ∈ [Kind.tractionRequest, .readBudget, .dropSeen, .takeAlarm, .doneAlarm, .readStatus]
  | .a, k => k ∈ [Kind.loadDemand, .loadSetup, .loadReEnable, .readLoads, .readBudget, .dropSeen, .takeAlarm,
      .doneAlarm, .readStatus]
  | .v, k => !(k ∈ [Kind.tractionRequest, .loadDemand, .loadSetup, .loadReEnable])

end Sys2Proof.Machine
end

