-- ==== Sys2Proof/Machine/Blocks.lean ====
section
/-! DEFINITION. The state of each block as plain data, in the spec's own shape (00_scope.md, "Block diagram").
Counts and quantities are natural numbers kept in range by the operations; what wraps or is carried on a wire is a
bit vector of the spec's width. -/

namespace Sys2Proof.Machine

/-! ### One value per link, channel, pole or generator -/

/-- One value per link. -/
structure PerLink (α : Type) where
  t : α
  a : α
  v : α
  deriving DecidableEq, Repr

/-- The value of a link. -/
def PerLink.get {α : Type} (p : PerLink α) : Link → α
  | .t => p.t
  | .a => p.a
  | .v => p.v

/-- The value of one link written. -/
def PerLink.put {α : Type} (p : PerLink α) (l : Link) (x : α) : PerLink α :=
  match l with
  | .t => { p with t := x }
  | .a => { p with a := x }
  | .v => { p with v := x }

/-- One value per sense channel. -/
structure PerChannel (α : Type) where
  a : α
  b : α
  deriving DecidableEq, Repr

/-- The value of a channel. -/
def PerChannel.get {α : Type} (p : PerChannel α) : Channel → α
  | .a => p.a
  | .b => p.b

/-- The value of one channel written. -/
def PerChannel.put {α : Type} (p : PerChannel α) (c : Channel) (x : α) : PerChannel α :=
  match c with
  | .a => { p with a := x }
  | .b => { p with b := x }

/-- One value per cycle generator. -/
structure PerGen (α : Type) where
  a : α
  b : α
  deriving DecidableEq, Repr

/-- The value of a generator. -/
def PerGen.get {α : Type} (p : PerGen α) : CycleGen → α
  | .a => p.a
  | .b => p.b

/-- The value of one generator written. -/
def PerGen.put {α : Type} (p : PerGen α) (g : CycleGen) (x : α) : PerGen α :=
  match g with
  | .a => { p with a := x }
  | .b => { p with b := x }

/-- One value per pole: positive (L+) and negative (L−). -/
structure PerPole (α : Type) where
  pos : α
  neg : α
  deriving DecidableEq, Repr

/-! ### Sense Interface and Position Tracker (01) -/

/-- The health of a sense channel. -/
inductive Health where
  | healthy
  | failed
  deriving DecidableEq, Repr

/-- Why a channel failed (R6, R11). -/
inductive FailReason where
  | plausibility
  | silence
  deriving DecidableEq, Repr

/-- The state of one sense channel. `silence` counts the increments of the time base since the silence timer was
restarted (log 17). -/
structure SenseChannel where
  health : Health
  reason : Option FailReason
  plaus : Nat
  seqRecord : Option (BitVec 8)
  silence : Nat
  status : BitVec 4
  deriving DecidableEq, Repr

/-- A frame being received (R2): at most 13 bytes are kept, every character is counted, and `stopMissing` records a
character without its stop bit. -/
structure OpenFrame where
  bytes : List Byte
  count : Nat
  stopMissing : Bool
  deriving DecidableEq, Repr

/-- The Sense Interface. A receiver that hunts for a start byte holds no open frame. -/
structure SenseInterface where
  chan : PerChannel SenseChannel
  rx : PerChannel (Option OpenFrame)
  active : Option Channel
  senseLost : Bool
  epoch : BitVec 16
  prevElev : PerPole (Option (BitVec 10))
  deriving DecidableEq, Repr

/-- The Position Tracker: P, the centimetre remainder and POSITION_SET. -/
structure Position where
  metre : Nat
  cm : Nat
  isSet : Bool
  deriving DecidableEq, Repr

/-! ### Route Feature Table (02) -/

/-- The kinds of point entry (R21; codes in section 2.3). -/
inductive FeatureKind where
  | sectionGap
  | crossing
  | frog
  | learnedGap
  deriving DecidableEq, Repr

/-- The two ways of a set. -/
inductive Way where
  | w0
  | w1
  deriving DecidableEq, Repr

/-- A point entry (R21). -/
structure PointEntry where
  valid : Bool
  start : Nat
  length : Nat
  kind : FeatureKind
  factor : Nat
  locked : Bool
  deriving DecidableEq, Repr

/-- A set of the point table: two ways and the older marker (R22). -/
structure PointSet where
  way0 : PointEntry
  way1 : PointEntry
  older : Way
  deriving DecidableEq, Repr

/-- An armed copy (R36). -/
structure ArmedCopy where
  kind : FeatureKind
  factor : Nat
  start : Nat
  length : Nat
  windowEnd : Nat
  set : Fin 64
  way : Way
  deriving DecidableEq, Repr

/-- The kinds of zone (R41). -/
inductive ZoneKind where
  | offWire
  | limit
  | noRegen
  deriving DecidableEq, Repr

/-- A zone entry (R41) with its previous-match flag (R43). -/
structure Zone where
  enable : Bool
  kind : ZoneKind
  base : BitVec 12
  mask : BitVec 12
  autoLower : Bool
  iLim : Nat
  vLow : Nat
  prevMatch : Bool
  deriving DecidableEq, Repr

/-- The Route Feature Table. `armed` is in list order. -/
structure RouteTable where
  points : Vector PointSet 64
  lockCount : Nat
  armed : List ArmedCopy
  lastQ : Nat
  zones : Vector Zone 8
  deriving DecidableEq, Repr

/-! ### Collector Monitor (03) -/

/-- The eight collector states (R45). -/
inductive CollectorState where
  | down
  | raising
  | onWire
  | gap
  | suspect
  | dropped
  | unloading
  | lowering
  deriving DecidableEq, Repr

/-- The poles of a drop, and of the drop mask (R60, R61). -/
inductive DropPoles where
  | pos
  | neg
  | both
  | unknown
  deriving DecidableEq, Repr

/-- The cause of a drop (R68). -/
inductive DropCause where
  | rate
  | elevation
  | lateral
  | voltageLoss
  deriving DecidableEq, Repr

/-- A drop record (R68). A field that may be absent is an `Option`. -/
structure DropRecord where
  number : BitVec 8
  stamp : BitVec 32
  metre : Option Nat
  poles : DropPoles
  cause : DropCause
  before : CollectorState
  v : Option (BitVec 10)
  i : Option (BitVec 12)
  elevPos : Option (BitVec 10)
  elevNeg : Option (BitVec 10)
  latPos : Option (BitVec 10)
  latNeg : Option (BitVec 10)
  firstArmed : Option FeatureKind
  deriving DecidableEq, Repr

/-- The Collector Monitor. `lines` are L+ and L− (true: asserted); `log` is oldest first. -/
structure Collector where
  state : CollectorState
  presentCount : Nat
  confirmCount : Nat
  epochsIn : Nat
  lossMetre : Option Nat
  lossEpoch : Option (BitVec 16)
  dropMask : Option DropPoles
  lastElev : PerPole (Option (BitVec 10))
  lines : PerPole Bool
  marks : PerLink Bool
  log : List DropRecord
  lost : Nat
  dropNumber : BitVec 8
  deriving DecidableEq, Repr

/-! ### Budget Engine and Traction Grant Unit (04, 05) -/

/-- Where power comes from (R46). -/
inductive Supply where
  | none
  | battery
  | line
  deriving DecidableEq, Repr

/-- The published budget record (R97). -/
structure BudgetRecord where
  epoch : BitVec 16
  supply : Supply
  pAvail : Nat
  served : Nat
  r : Nat
  t : Nat
  g : Nat
  d : Nat
  h : Nat
  coast : Nat
  frozen : Bool
  safe : Bool
  shortfall : Bool
  vHeld : Bool
  senseLost : Bool
  deriving DecidableEq, Repr

/-- One flag per condition: TAINT, OVERRANGE, SHORTFALL, ZERO_SPAN. -/
structure Conditions where
  taint : Bool
  overrange : Bool
  shortfall : Bool
  zeroSpan : Bool
  deriving DecidableEq, Repr

/-- The Budget Engine. -/
structure Budget where
  record : BudgetRecord
  heldV : BitVec 10
  d : Nat
  windowCount : Nat
  windowLength : Nat
  sag : Bool
  h : Nat
  hStar : Nat
  sinceH : Nat
  causes : Conditions
  sticky : Conditions
  freeze : Nat
  deriving DecidableEq, Repr

/-- The Traction Grant Unit (R102). -/
structure Grants where
  lastGrant : Int
  lastEpoch : BitVec 16
  reported : Bool
  deriving DecidableEq, Repr

/-! ### Load Scheduler (06, 07) -/

/-- The mode of a slot (R114). -/
inductive SlotMode where
  | off
  | on
  | onDemand
  | cycle (g : CycleGen)
  deriving DecidableEq, Repr

/-- Why a slot was shed (R114). -/
inductive ShedReason where
  | budget
  | supply
  | band
  | sense
  deriving DecidableEq, Repr

/-- The state of a slot; the shed reason is present in SHED alone (R114). -/
inductive SlotState where
  | off
  | waiting
  | running
  | parked
  | shed (r : ShedReason)
  | lockedOut
  deriving DecidableEq, Repr

/-- A slot record (R114). -/
structure Slot where
  demand : Nat
  level : Fin 4
  mode : SlotMode
  rideThrough : Bool
  autoRecover : Bool
  state : SlotState
  bandCount : Nat
  idle : Nat
  deriving DecidableEq, Repr

/-- Which idle limit applies (R125). -/
inductive IdlePeriod where
  | short
  | long
  deriving DecidableEq, Repr

/-- The Load Scheduler. Bit i of `demand` is slot i's demand bit; `queue` is head first. -/
structure Loads where
  slots : Vector Slot 24
  demand : BitVec 24
  gens : PerGen Nat
  idlePeriod : IdlePeriod
  parkEntries : Nat
  observation : Nat
  queue : List (Fin 24)
  sinceStart : Nat
  deriving DecidableEq, Repr

/-! ### Alarm Dispatcher (08) -/

/-- A pending entry (R153). -/
structure PendingEntry where
  pending : Bool
  count : Nat
  level : Fin 4
  deriving DecidableEq, Repr

/-- A frame of a service stack (R153). -/
structure AlarmFrame where
  source : Fin 16
  level : Fin 4
  deriving DecidableEq, Repr

/-- The alarm state of one link; `stack` is bottom first. -/
structure LinkAlarms where
  pending : Vector PendingEntry 16
  stack : List AlarmFrame
  attention : Bool
  deriving DecidableEq, Repr

/-- The Alarm Dispatcher. -/
structure Alarms where
  sources : Vector SourceRow 16
  links : PerLink LinkAlarms
  deriving DecidableEq, Repr

/-! ### Link Ports and Parameter Table (09, 10) -/

/-- The transaction phase of a port (R170). -/
inductive Phase where
  | idle
  | request
  | turnaround
  | reply
  | fill
  deriving DecidableEq, Repr

/-- A link port: the level of its select line, its phase, byte position, the request bytes received, the reply frame
and the bad-frame counter (09, state table). -/
structure Port where
  select : Bool
  phase : Phase
  pos : Nat
  request : List Byte
  reply : List Byte
  bad : Nat
  deriving DecidableEq, Repr

/-- The Parameter Table: the stored values and the values in force (R184). -/
structure Params where
  stored : Vector Nat 52
  inForce : Vector Nat 52
  deriving DecidableEq, Repr

end Sys2Proof.Machine
end

