-- ==== Sys2Proof/Machine/ResetValues.lean ====
section
/-! DEFINITION. The power-on values of each block, from the reset tables of the chapters. -/

namespace Sys2Proof.Machine

/-- R16: a channel after power-on reset. -/
def resetChannel : SenseChannel :=
  { health := .healthy, reason := none, plaus := 0, seqRecord := none, silence := 0, status := 0 }

/-- R16: the Sense Interface after power-on reset; both receivers hunt. -/
def resetSense : SenseInterface :=
  { chan := ⟨resetChannel, resetChannel⟩, rx := ⟨none, none⟩, active := some .a, senseLost := false, epoch := 0,
    prevElev := ⟨none, none⟩ }

/-- R19: P 0, remainder 0, POSITION_SET clear. -/
def resetPosition : Position := { metre := 0, cm := 0, isSet := false }

/-- R21: an invalid entry has valid 0 and all other fields 0 (kind code 0 is SECTION_GAP). -/
def invalidEntry : PointEntry :=
  { valid := false, start := 0, length := 0, kind := .sectionGap, factor := 0, locked := false }

/-- R33, R44: an empty set with its older marker on way 0. -/
def emptySet : PointSet := { way0 := invalidEntry, way1 := invalidEntry, older := .w0 }

/-- R44: a zone entry with enable 0 and all other fields 0, its previous-match flag clear. -/
def resetZone : Zone :=
  { enable := false, kind := .offWire, base := 0, mask := 0, autoLower := false, iLim := 0, vLow := 0,
    prevMatch := false }

/-- R44: the Route Feature Table after power-on reset. -/
def resetRoute : RouteTable :=
  { points := Vector.replicate 64 emptySet, lockCount := 0, armed := [], lastQ := 0,
    zones := Vector.replicate 8 resetZone }

/-- R73: the Collector Monitor after power-on reset. -/
def resetCollector : Collector :=
  { state := .down, presentCount := 0, confirmCount := 0, epochsIn := 0, lossMetre := none, lossEpoch := none,
    dropMask := none, lastElev := ⟨none, none⟩, lines := ⟨true, true⟩, marks := ⟨false, false, false⟩, log := [],
    lost := 0, dropNumber := 0 }

/-- All four conditions clear. -/
def noConditions : Conditions := { taint := false, overrange := false, shortfall := false, zeroSpan := false }

/-- R101: the reset record: figures 0, marks clear, the supply of DOWN. -/
def resetRecord (supply : Supply) : BudgetRecord :=
  { epoch := 0, supply := supply, pAvail := 0, served := 0, r := 0, t := 0, g := 0, d := 0, h := 0, coast := 0,
    frozen := false, safe := false, shortfall := false, vHeld := false, senseLost := false }

/-- R101: the Budget Engine after either reset, from the supply of DOWN, P_D_MIN and P_WINDOW. -/
def resetBudget (supply : Supply) (dMin window : Nat) : Budget :=
  { record := resetRecord supply, heldV := 0, d := dMin, windowCount := 0, windowLength := window, sag := false,
    h := 0, hStar := 0, sinceH := 0, causes := noConditions, sticky := noConditions, freeze := 0 }

/-- R113: the Traction Grant Unit after either reset. -/
def resetGrants : Grants := { lastGrant := 0, lastEpoch := 0, reported := true }

/-- R130: a slot after power-on reset. -/
def resetSlot : Slot :=
  { demand := 0, level := 3, mode := .off, rideThrough := false, autoRecover := false, state := .off, bandCount := 0,
    idle := 0 }

/-- R130, R152: the Load Scheduler after power-on reset. -/
def resetLoads : Loads :=
  { slots := Vector.replicate 24 resetSlot, demand := 0, gens := ⟨0, 0⟩, idlePeriod := .short, parkEntries := 0,
    observation := 0, queue := [], sinceStart := 0 }

/-- R169: an entry that is not pending. Its level has no meaning; 0 is what READ STATUS reads (R181, log 18). -/
def clearEntry : PendingEntry := { pending := false, count := 0, level := 0 }

/-- R169: a link's alarm state after either reset. -/
def resetLinkAlarms : LinkAlarms := { pending := Vector.replicate 16 clearEntry, stack := [], attention := false }

/-- R169: the Alarm Dispatcher after power-on reset. -/
def resetAlarms : Alarms :=
  { sources := sourceDefaults, links := ⟨resetLinkAlarms, resetLinkAlarms, resetLinkAlarms⟩ }

/-- R182: a port after power-on reset, its select line at the given level (an input, log 20). -/
def resetPort (select : Bool) : Port :=
  { select := select, phase := .idle, pos := 0, request := [], reply := [], bad := 0 }

/-- The defaults of Table 10-1 by number. -/
def paramDefaults : Vector Nat 52 :=
  ⟨((paramRowsLow ++ paramRowsMid ++ paramRowsHigh).map ParamRow.dflt).toArray, rfl⟩

/-- R185: every default both stored and in force. -/
def resetParams : Params := { stored := paramDefaults, inForce := paramDefaults }

end Sys2Proof.Machine
end

