-- ==== Sys2Proof/Machine/State.lean ====
section
/-! DEFINITION. The whole state of the part, its reset, and why a step can stop. -/

namespace Sys2Proof.Machine

/-- The state of the part: one field per block of 00_scope.md, the time base (R10), the level of the reset pin
(true: asserted, R182), and the model's queue of waiting commands (log 1). -/
structure State where
  si : SenseInterface
  pt : Position
  rft : RouteTable
  cm : Collector
  be : Budget
  tg : Grants
  ls : Loads
  ad : Alarms
  lp : PerLink Port
  pm : Params
  timeBase : BitVec 32
  resetPin : Bool
  pending : List Instr
  deriving DecidableEq, Repr

/-- The block has no fault: a bad frame, a refused request or a failed channel is a state or a result code of the
spec, never a stop. The type is closed and empty, so no step can raise one (safe). -/
inductive Fault where
  deriving DecidableEq, Repr

/-- Why a command has no meaning. -/
inductive Refusal where
  /-- Raised only by an arm of `exec` for a row that has no meaning yet (none is left); safe. -/
  | notModelled (mnemonic : String)
  deriving DecidableEq, Repr

/-- The power-on values of every block, with the reset pin, the select lines (inputs) and the waiting commands as
given (R16, R19, R44, R73, R101, R113, R130, R152, R169, R182, R185). -/
def State.powerOn (pin : Bool) (select : PerLink Bool) (waiting : List Instr) : State :=
  { si := resetSense, pt := resetPosition, rft := resetRoute, cm := resetCollector,
    be := resetBudget .battery (entry paramDefaults (paramNumber .dMin)) (entry paramDefaults (paramNumber .window)),
    tg := resetGrants, ls := resetLoads, ad := resetAlarms,
    lp := ⟨resetPort select.t, resetPort select.a, resetPort select.v⟩, pm := resetParams, timeBase := 0,
    resetPin := pin, pending := waiting }

/-- The part right after a power-on reset: every field at its power-on value and the reset pin just released
(log 2), no select line asserted (log 20), no command waiting. -/
def State.reset : State := State.powerOn false ⟨false, false, false⟩ []

/-! ### The updates of the state, one per field -/

/-- Write the Sense Interface. -/
def State.setSi (s : State) (x : SenseInterface) : State := { s with si := x }
/-- Write the Position Tracker. -/
def State.setPt (s : State) (x : Position) : State := { s with pt := x }
/-- Write the Route Feature Table. -/
def State.setRft (s : State) (x : RouteTable) : State := { s with rft := x }
/-- Write the Collector Monitor. -/
def State.setCm (s : State) (x : Collector) : State := { s with cm := x }
/-- Write the Budget Engine. -/
def State.setBe (s : State) (x : Budget) : State := { s with be := x }
/-- Write the Traction Grant Unit. -/
def State.setTg (s : State) (x : Grants) : State := { s with tg := x }
/-- Write the Load Scheduler. -/
def State.setLs (s : State) (x : Loads) : State := { s with ls := x }
/-- Write the Alarm Dispatcher. -/
def State.setAd (s : State) (x : Alarms) : State := { s with ad := x }
/-- Write the Link Ports. -/
def State.setLp (s : State) (x : PerLink Port) : State := { s with lp := x }
/-- Write the Parameter Table. -/
def State.setPm (s : State) (x : Params) : State := { s with pm := x }
/-- Write the time base. -/
def State.setTimeBase (s : State) (x : BitVec 32) : State := { s with timeBase := x }
/-- Write the level of the reset pin. -/
def State.setResetPin (s : State) (x : Bool) : State := { s with resetPin := x }
/-- Write the queue of waiting commands. -/
def State.setPending (s : State) (x : List Instr) : State := { s with pending := x }

end Sys2Proof.Machine
end

