-- ==== Sys2Proof/Machine/Operands.lean ====
section
/-! DEFINITION. Operand forms: the check byte (R3, R173), the sample frame's layout (R1, Table 1-1), the payload fields
of requests, the codes of section 2.3, R41, R45, R46, R68 and R114, and the packing of reply payloads. -/

namespace Sys2Proof.Machine

/-! ### The check byte -/

/-- One bit of the CRC register: generator x^8+x^5+x^4+1, most significant bit first (R3). -/
def crcBit (r : Byte) : Byte := if r.msb then (r <<< 1) ^^^ 0x31#8 else r <<< 1

/-- One byte fed into the CRC register, nothing reflected or inverted (R3). -/
def crcByte (r b : Byte) : Byte :=
  crcBit (crcBit (crcBit (crcBit (crcBit (crcBit (crcBit (crcBit (r ^^^ b))))))))

/-- The check of a run of bytes: the register starts at 0x00 (R3, R173). -/
def crc (bytes : List Byte) : Byte := bytes.foldl crcByte 0x00#8

/-! ### The sample frame -/

/-- A byte of a frame by its number; a frame that is too short reads 0 there (never asked of a right-length frame). -/
def byteAt (bytes : List Byte) (n : Nat) : Byte := bytes.getD n 0

/-- A measured field with its valid flag: `none` is tainted (R1). -/
def measured {w : Nat} (valid : Bool) (x : BitVec w) : Option (BitVec w) := if valid then some x else none

/-- The fields of a sample frame, read from its 13 bytes by Table 1-1 (R1). -/
def decodeSample (f : List Byte) : Sample :=
  { seq := byteAt f 1
    v := measured ((byteAt f 3).getLsbD 5) (byteAt f 2 ++ (byteAt f 3).extractLsb' 6 2 : BitVec 10)
    i := measured ((byteAt f 3).getLsbD 4) ((byteAt f 3).extractLsb' 0 4 ++ byteAt f 4 : BitVec 12)
    elevPos := measured ((byteAt f 6).getLsbD 5) (byteAt f 5 ++ (byteAt f 6).extractLsb' 6 2 : BitVec 10)
    elevNeg := measured ((byteAt f 6).getLsbD 4)
      ((byteAt f 6).extractLsb' 0 4 ++ (byteAt f 7).extractLsb' 2 6 : BitVec 10)
    latPos := measured ((byteAt f 7).getLsbD 1) (byteAt f 8 ++ (byteAt f 9).extractLsb' 6 2 : BitVec 10)
    latNeg := measured ((byteAt f 7).getLsbD 0)
      ((byteAt f 9).extractLsb' 0 6 ++ (byteAt f 10).extractLsb' 4 4 : BitVec 10)
    status := (byteAt f 10).extractLsb' 0 4
    inc := byteAt f 11 }

/-- A flag as one bit. -/
def flagBit (b : Bool) : BitVec 1 := BitVec.ofBool b

/-- The value a field is sent with: 0 where it is tainted. -/
def fieldBits {w : Nat} (x : Option (BitVec w)) : BitVec w := x.getD 0

/-- Bytes 0 to 11 of the sample frame that carries these fields (Table 1-1). -/
def sampleBody (x : Sample) : List Byte :=
  [0xC3#8,
   x.seq,
   (fieldBits x.v).extractLsb' 2 8,
   ((fieldBits x.v).extractLsb' 0 2 ++ flagBit x.v.isSome ++ flagBit x.i.isSome ++
     (fieldBits x.i).extractLsb' 8 4 : BitVec 8),
   (fieldBits x.i).extractLsb' 0 8,
   (fieldBits x.elevPos).extractLsb' 2 8,
   ((fieldBits x.elevPos).extractLsb' 0 2 ++ flagBit x.elevPos.isSome ++ flagBit x.elevNeg.isSome ++
     (fieldBits x.elevNeg).extractLsb' 6 4 : BitVec 8),
   ((fieldBits x.elevNeg).extractLsb' 0 6 ++ flagBit x.latPos.isSome ++ flagBit x.latNeg.isSome : BitVec 8),
   (fieldBits x.latPos).extractLsb' 2 8,
   ((fieldBits x.latPos).extractLsb' 0 2 ++ (fieldBits x.latNeg).extractLsb' 4 6 : BitVec 8),
   ((fieldBits x.latNeg).extractLsb' 0 4 ++ x.status : BitVec 8),
   x.inc]

/-- The whole sample frame: its 12 bytes and their check byte (R1, R3). -/
def encodeSample (x : Sample) : List Byte := sampleBody x ++ [crc (sampleBody x)]

/-- R2, R3: what a closed frame holds: `none` for a bad frame (a wrong length, a character without its stop bit, or a
check that is not good), else its fields. -/
def frameSample (f : OpenFrame) : Option Sample :=
  if f.count = 13 ∧ f.stopMissing = false ∧ crc (f.bytes.take 12) = byteAt f.bytes 12 then some (decodeSample f.bytes)
  else none

/-! ### Payload fields -/

/-- A two-byte field, its more significant byte first (Table 9-1). -/
def word (p : List Byte) (n : Nat) : Nat := (byteAt p n).toNat * 256 + (byteAt p (n + 1)).toNat

/-- A two-byte two's complement field (Table 5-1). -/
def signedWord (p : List Byte) (n : Nat) : Int := (byteAt p n ++ byteAt p (n + 1) : BitVec 16).toInt

/-- A slot number field: 0..23, or out of range (R116, R128). -/
def slotField (b : Byte) : Option (Fin 24) := if h : b.toNat < 24 then some ⟨b.toNat, h⟩ else none

/-- A level field: 0..3, or out of range (R116, R157). -/
def levelField (b : Byte) : Option (Fin 4) := if h : b.toNat < 4 then some ⟨b.toNat, h⟩ else none

/-- A field that is 0 or 1, or out of range (R29, R41, R116). -/
def flagField (b : Byte) : Option Bool := if b = 0 then some false else if b = 1 then some true else none

/-- A feature kind code (section 2.3). -/
def featureField (b : Byte) : Option FeatureKind :=
  if b = 0 then some .sectionGap else if b = 1 then some .crossing else if b = 2 then some .frog
  else if b = 3 then some .learnedGap else none

/-- A zone kind code (R41). -/
def zoneKindField (b : Byte) : Option ZoneKind :=
  if b = 0 then some .offWire else if b = 1 then some .limit else if b = 2 then some .noRegen else none

/-- A slot mode code (R114). -/
def modeField (b : Byte) : Option SlotMode :=
  if b = 0 then some .off else if b = 1 then some .on else if b = 2 then some .onDemand
  else if b = 3 then some (.cycle .a) else if b = 4 then some (.cycle .b) else none

/-- A channel field: 0 names A, 1 names B (R15). -/
def channelField (b : Byte) : Option Channel := if b = 0 then some .a else if b = 1 then some .b else none

/-- A parameter number, 0..51, or out of range (R186, R190). -/
def paramField (b : Byte) : Option (Fin 52) := if h : b.toNat < 52 then some ⟨b.toNat, h⟩ else none

/-- R29, R187: a traction factor rounded down to the nearest of 0, 4, 8, 12 and 16. -/
def roundFactor (n : Nat) : Nat := min (n / 4 * 4) 16

/-! ### Codes -/

/-- Section 2.3: the code of a feature kind. -/
def featureCode : FeatureKind → Byte
  | .sectionGap => 0 | .crossing => 1 | .frog => 2 | .learnedGap => 3

/-- R41: the code of a zone kind. -/
def zoneKindCode : ZoneKind → Nat
  | .offWire => 0 | .limit => 1 | .noRegen => 2

/-- The number of a way. -/
def wayCode : Way → Nat
  | .w0 => 0 | .w1 => 1

/-- R45: the code of a collector state. -/
def collectorCode : CollectorState → Nat
  | .down => 0 | .raising => 1 | .onWire => 2 | .gap => 3 | .suspect => 4 | .dropped => 5 | .unloading => 6
  | .lowering => 7

/-- R46: the code of a supply. -/
def supplyCode : Supply → Nat
  | .none => 0 | .battery => 1 | .line => 2

/-- R68: the code of a pole mask; 0 is no mask (Table 9-4). -/
def polesCode : Option DropPoles → Nat
  | none => 0 | some .pos => 1 | some .neg => 2 | some .both => 3 | some .unknown => 4

/-- R68: the code of a cause. -/
def causeCode : DropCause → Nat
  | .rate => 0 | .elevation => 1 | .lateral => 2 | .voltageLoss => 3

/-- R114: the code of a slot mode. -/
def modeCode : SlotMode → Nat
  | .off => 0 | .on => 1 | .onDemand => 2 | .cycle .a => 3 | .cycle .b => 4

/-- R114: the code of a slot state. -/
def slotStateCode : SlotState → Nat
  | .off => 0 | .waiting => 1 | .running => 2 | .parked => 3 | .shed _ => 4 | .lockedOut => 5

/-- R114: the code of a shed reason. -/
def shedCode : ShedReason → Nat
  | .budget => 0 | .supply => 1 | .band => 2 | .sense => 3

/-- R114: the shed reason, present in SHED alone. -/
def shedReason : SlotState → Option ShedReason
  | .shed r => some r
  | .off | .waiting | .running | .parked | .lockedOut => none

/-- Table 9-4: the code of the active channel. -/
def activeCode : Option Channel → Nat
  | some .a => 0 | some .b => 1 | none => 2

/-- Table 9-4: the code of a failure reason. -/
def failCode : Option FailReason → Nat
  | none => 0 | some .plausibility => 1 | some .silence => 2

/-! ### Packing of reply payloads -/

/-- A byte of a reply payload. -/
def byteOf (n : Nat) : Byte := BitVec.ofNat 8 n

/-- A two-byte field, more significant byte first. -/
def wordOf (n : Nat) : List Byte := [byteOf (n / 256), byteOf n]

/-- A two-byte two's complement field. -/
def signedWordOf (n : Int) : List Byte := wordOf (BitVec.ofInt 16 n).toNat

/-- A 16-bit register as two bytes. -/
def word16 (x : BitVec 16) : List Byte := wordOf x.toNat

/-- A flag as a bit of the given weight. -/
def bitAt (k : Nat) (b : Bool) : Nat := if b then 2 ^ k else 0

/-- The fields of one byte, given as value and lowest bit, added up. -/
def packByte (fields : List (Nat × Nat)) : Byte := byteOf (fields.foldl (fun acc f => acc + f.1 * 2 ^ f.2) 0)

end Sys2Proof.Machine
end

