-- ==== Sys2Proof/Machine/Flags.lean ====
section
/-! DEFINITION. What the spec computes from the state and never stores apart: parameters in force, supply, segments and
zones, effective features, permits, generator phases, escalation, eligibility, data out, and the header flags (log 16). -/

namespace Sys2Proof.Machine

/-! ### Parameters -/

/-- The value of a parameter in a column of the table. -/
def paramValue (v : Vector Nat 52) (p : Param) : Nat := entry v (paramNumber p)

/-- The value in force of a parameter: what every block reads (R184, R189). -/
def State.par (s : State) (p : Param) : Nat := paramValue s.pm.inForce p

/-! ### Position, zones, features -/

/-- R17: the segment of a route metre. -/
def segmentOf (metre : Nat) : Nat := metre / 16

/-- R21: the set a metre files in. -/
def setOf (metre : Nat) : Fin 64 := ⟨segmentOf metre % 64, Nat.mod_lt _ (by decide)⟩

/-- R21: the tag of a metre. -/
def tagOf (metre : Nat) : Nat := segmentOf metre / 64

/-- R42: does a zone entry match at a metre? -/
def zoneMatches (pt : Position) (z : Zone) : Bool :=
  z.enable && pt.isSet && ((BitVec.ofNat 12 (segmentOf pt.metre) ^^^ z.base) &&& z.mask == 0#12)

/-- R42: the lowest-numbered matching entry of a kind. -/
def matchingZone (k : ZoneKind) (s : State) : Option Zone :=
  s.rft.zones.toList.find? (fun z => zoneMatches s.pt z && decide (z.kind = k))

/-- R43: the set enters an off-wire zone with auto-lower: the resolved OFF_WIRE entry has auto-lower 1 and its
previous-match flag is clear. -/
def offWireEntry (s : State) : Bool :=
  match matchingZone .offWire s with
  | some z => z.autoLower && !z.prevMatch
  | none => false

/-- R39: is a gap expected? -/
def gapExpected (armed : List ArmedCopy) : Bool :=
  armed.any (fun c => decide (c.kind = .sectionGap ∨ c.kind = .crossing ∨ c.kind = .learnedGap))

/-- R39: is a frog effective? -/
def frogEffective (armed : List ArmedCopy) : Bool := armed.any (fun c => decide (c.kind = .frog))

/-- R39: the smallest traction factor among the copies, or 16. -/
def coastFactor (armed : List ArmedCopy) : Nat := armed.foldl (fun m c => min m c.factor) 16

/-! ### Supply, lower lines -/

/-- R46: the supply of a collector state. -/
def supplyOf (st : CollectorState) (battery : Nat) : Supply :=
  match st with
  | .onWire | .unloading => .line
  | .down | .raising | .gap | .suspect | .dropped | .lowering => if battery = 1 then .battery else .none

/-- R46: the supply as it stands. -/
def State.supply (s : State) : Supply := supplyOf s.cm.state (s.par .battery)

/-- R47: the lower lines of a collector state and drop mask. -/
def linesOf (st : CollectorState) (mask : Option DropPoles) (lowerBoth : Nat) : PerPole Bool :=
  match st with
  | .down | .lowering => ⟨true, true⟩
  | .raising | .onWire | .gap | .suspect | .unloading => ⟨false, false⟩
  | .dropped =>
    if lowerBoth = 1 then ⟨true, true⟩
    else
      match mask with
      | some .both | some .unknown => ⟨true, true⟩
      | some .pos => ⟨true, false⟩
      | some .neg => ⟨false, true⟩
      | none => ⟨false, false⟩

/-! ### Voltage presence -/

/-- R48: what a set's V says of the line voltage. -/
inductive Presence where
  | present
  | absent
  | tainted
  deriving DecidableEq, Repr

/-- R48: a valid V at or above P_V_PRESENT is present, below it absent; a tainted V is neither. -/
def presenceOf (limit : Nat) : Option (BitVec 10) → Presence
  | some v => if limit ≤ v.toNat then .present else .absent
  | none => .tainted

/-! ### Budget -/

/-- R77: the effective line current limit. -/
def effectiveILim (s : State) : Nat :=
  match matchingZone .limit s with
  | some z => z.iLim
  | none => s.par .iLim

/-- R77: the effective low-voltage threshold. -/
def effectiveVLow (s : State) : Nat :=
  match matchingZone .limit s with
  | some z => z.vLow
  | none => s.par .vLow

/-- R93, R184: the escalate enables are the four flags of P_ESCALATE in force. -/
def escalateEnables (n : Nat) : Conditions :=
  { taint := n.testBit 0, overrange := n.testBit 1, shortfall := n.testBit 2, zeroSpan := n.testBit 3 }

/-- R94: does a caused condition have its escalate enable set? -/
def escalated (causes enables : Conditions) : Bool :=
  (causes.taint && enables.taint) || (causes.overrange && enables.overrange) ||
    (causes.shortfall && enables.shortfall) || (causes.zeroSpan && enables.zeroSpan)

/-! ### Loads -/

/-- R114: RUNNING or WAITING, the states a shed moves (R133). -/
def isActive : SlotState → Bool
  | .running | .waiting => true
  | .off | .parked | .shed _ | .lockedOut => false

/-- R82: the states whose demand counts in A_k: RUNNING, WAITING, or SHED with reason BUDGET. -/
def countsInDemand : SlotState → Bool
  | .running | .waiting | .shed .budget => true
  | .off | .parked | .shed .supply | .shed .band | .shed .sense | .lockedOut => false

/-- R115: the permit of a slot. -/
def permit (ls : Loads) (i : Fin 24) : Bool := decide ((entry ls.slots i).state = .running)

/-- R83: is a level in the shed range, at or above 4 − H? -/
def inShedRange (h : Nat) (level : Fin 4) : Bool := decide (4 - h ≤ level.val)

/-- R82: S(h), the declared demand of the counted slots at levels below 4 − h. -/
def demandSum (ls : Loads) (h : Nat) : Nat :=
  (ls.slots.toList.map fun sl => if countsInDemand sl.state && !inShedRange h sl.level then sl.demand else 0).sum

/-- R86: served: the demand of the RUNNING slots; in NONE supply the ride-through slots are left out. -/
def servedBy (ls : Loads) (supply : Supply) : Nat :=
  (ls.slots.toList.map fun sl =>
    if decide (sl.state = .running) && !(decide (supply = .none) && sl.rideThrough) then sl.demand else 0).sum

/-- The parameters of a generator: its period and on count in force (R123). -/
def genPeriod (s : State) : CycleGen → Nat
  | .a => s.par .cycleAPeriod
  | .b => s.par .cycleBPeriod

/-- R123: the on count in force of a generator. -/
def genOn (s : State) : CycleGen → Nat
  | .a => s.par .cycleAOn
  | .b => s.par .cycleBOn

/-- R123: a generator is in its on phase while its counter is below the effective on count. -/
def genOnPhase (s : State) (g : CycleGen) : Bool := decide (s.ls.gens.get g < min (genOn s g) (genPeriod s g))

/-- R125: the idle limit in force. -/
def idleLimit (s : State) : Nat :=
  match s.ls.idlePeriod with
  | .short => s.par .idleShort
  | .long => s.par .idleLong

/-! ### Alarms -/

/-- R161: is a pending entry eligible against a stack (bottom first)? -/
def eligible (stack : List AlarmFrame) (e : PendingEntry) : Bool :=
  e.pending &&
    match stack.getLast? with
    | none => true
    | some f => decide (e.level < f.level) || (decide (e.level = 0) && decide (f.level = 0))

/-- R162: what the attention line stands for: an eligible entry, and fewer than 4 frames. -/
def wantsAttention (a : LinkAlarms) : Bool :=
  decide (a.stack.length < 4) && sourceNumbers.any (fun n => eligible a.stack (entry a.pending n))

/-- The entries pending on a link (R163, R164). -/
def pendingCount (a : LinkAlarms) : Nat := sourceNumbers.countP (fun n => (entry a.pending n).pending)

/-! ### Ports -/

/-- R170, R182, R183: what a port drives on its data-out line: nothing (high impedance) while select is released, the
reply frame in REPLY, 0xFF otherwise. -/
def Port.dataOut (p : Port) : Option Byte :=
  if p.select then
    match p.phase with
    | .reply => some (p.reply.getD p.pos 0xFF)
    | .idle | .request | .turnaround | .fill => some 0xFF
  else none

/-- R174: header byte 1 of a reply on a link. -/
def headerOne (l : Link) (s : State) : Byte :=
  packByte [(collectorCode s.cm.state, 0), (supplyCode s.supply, 3), ((s.cm.marks.get l).toNat, 5),
    ((s.ad.links.get l).attention.toNat, 6), (s.si.senseLost.toNat, 7)]

/-- R174: header byte 2 of a reply. -/
def headerTwo (s : State) : Byte :=
  packByte [(s.be.record.frozen.toNat, 0), (s.be.record.safe.toNat, 1), (s.be.record.shortfall.toNat, 2),
    (s.pt.isSet.toNat, 3), (s.be.record.vHeld.toNat, 4)]

/-- R174: header byte 3 of a reply: the low byte of the epoch number. -/
def headerThree (s : State) : Byte := s.si.epoch.extractLsb' 0 8

end Sys2Proof.Machine
end

