-- ==== Sys2Proof/Machine/Ops.lean ====
section
/-! DEFINITION. The named operations that several commands share: commands under the reset pin, alarm occurrences
(R155), slot moves and the start queue (R114, R133, R145), and entry into a collector state (R45, R47). -/

namespace Sys2Proof.Machine

/-! ### Commands and the reset pin -/

/-- Every state piece holds its power-on value while the reset pin is asserted, so a command then changes nothing
(R16, R182; log 3). -/
def whilePowered (f : State → State) (s : State) : Host.Outcome State Fault Refusal :=
  .next (if s.resetPin then s else f s)

/-- An event of the table acts when it is due; commanded when it is not due, it has not occurred and nothing changes
(log 5). -/
def whenDue (due : Bool) (f : State → State) (s : State) : State := if due then f s else s

/-! ### Alarm occurrences -/

/-- R162: set the attention line afresh. -/
def refreshAttention (a : LinkAlarms) : LinkAlarms := { a with attention := wantsAttention a }

/-- R155: an occurrence at one pending entry: it becomes pending with count 1 at the source's level, or counts again
with its level kept. -/
def occurEntry (level : Fin 4) (e : PendingEntry) : PendingEntry :=
  if e.pending then { e with count := satAdd 15 e.count 1 } else { pending := true, count := 1, level := level }

/-- R155: an occurrence reaching one link. -/
def occurOnLink (n : Fin 16) (level : Fin 4) (a : LinkAlarms) : LinkAlarms :=
  refreshAttention { a with pending := setEntry a.pending n (occurEntry level (entry a.pending n)) }

/-- R154: the bit of a link in a route mask. -/
def routedTo (mask : BitVec 3) : Link → Bool
  | .t => mask.getLsbD 0
  | .a => mask.getLsbD 1
  | .v => mask.getLsbD 2

/-- R155: an occurrence of a source reaches every link in its route mask, and no other. -/
def Alarms.occurrence (src : Source) (ad : Alarms) : Alarms :=
  let n := sourceNumber src
  let row := entry ad.sources n
  let reach := fun (l : Link) (a : LinkAlarms) => if routedTo row.mask l then occurOnLink n row.level a else a
  { ad with links := ⟨reach .t ad.links.t, reach .a ad.links.a, reach .v ad.links.v⟩ }

/-- Raise a source at the Alarm Dispatcher, once. -/
def raise (src : Source) (s : State) : State := s.setAd (s.ad.occurrence src)

/-- Raise a source a number of times (each one event, R156). -/
def raiseTimes (src : Source) : Nat → State → State
  | 0, s => s
  | k + 1, s => raiseTimes src k (raise src s)

/-! ### Slots and the start queue -/

/-- The slot numbers in ascending order. -/
def slotNumbers : List (Fin 24) :=
  [0, 1, 2, 3, 4, 5, 6, 7, 8, 9, 10, 11] ++ [12, 13, 14, 15, 16, 17, 18, 19, 20, 21, 22, 23]

/-- Write one slot record. -/
def Loads.setSlot (i : Fin 24) (sl : Slot) (ls : Loads) : Loads := { ls with slots := setEntry ls.slots i sl }

/-- R146: a slot leaves the queue; the entries behind it close up. -/
def leaveQueue (i : Fin 24) (ls : Loads) : Loads := { ls with queue := ls.queue.filter (· ≠ i) }

/-- Is a slot of level 0? -/
def isLevelZero (ls : Loads) (i : Fin 24) : Bool := decide ((entry ls.slots i).level = 0)

/-- R145: the insertion rule: a level-0 slot goes immediately behind the last level-0 entry, or to the head; any other
goes to the tail. -/
def joinQueue (i : Fin 24) (ls : Loads) : Loads :=
  { ls with
    queue :=
      if isLevelZero ls i then
        ls.queue.rdropWhile (fun j => !isLevelZero ls j) ++ i :: ls.queue.rtakeWhile (fun j => !isLevelZero ls j)
      else ls.queue ++ [i] }

/-- R114: a change of a slot's state: the idle count becomes 0, the slot leaves the queue when it leaves WAITING and
joins it when it enters WAITING. The shed reason lives in the state SHED alone. -/
def moveSlot (st : SlotState) (i : Fin 24) (ls : Loads) : Loads :=
  let old := entry ls.slots i
  let left := if old.state = .waiting then leaveQueue i ls else ls
  let moved := left.setSlot i { old with state := st, idle := 0 }
  if st = .waiting then joinQueue i moved else moved

/-- Do `f` at each slot that passes `p` when its turn comes, in ascending slot order (R133). -/
def forSlots (p : Slot → Bool) (f : Fin 24 → Loads → Loads) (ls : Loads) : Loads :=
  slotNumbers.foldl (fun acc i => if p (entry acc.slots i) then f i acc else acc) ls

/-- R133: shed every RUNNING or WAITING slot that passes `p`, with one reason. -/
def shedWhere (p : Slot → Bool) (r : ShedReason) (ls : Loads) : Loads :=
  forSlots (fun sl => isActive sl.state && p sl) (moveSlot (.shed r)) ls

/-- Make WAITING every slot shed for one reason that passes `p` (R136, R138, R144). -/
def restoreWhere (p : Slot → Bool) (r : ShedReason) (ls : Loads) : Loads :=
  forSlots (fun sl => decide (sl.state = .shed r) && p sl) (moveSlot .waiting) ls

/-- R143: at the loss of sense every non-ride-through slot is shed with reason SENSE. -/
def senseShed (ls : Loads) : Loads := shedWhere (fun sl => !sl.rideThrough) .sense ls

/-- R144: when SENSE_LOST ends, the slots shed with reason SENSE rejoin the queue. -/
def senseRestore (ls : Loads) : Loads := restoreWhere (fun _ => true) .sense ls

/-! ### Collector state entry -/

/-- R45, R47, R53: entry into a collector state: the counts start at 0, the loss metre and loss epoch become absent
when the state leaves SUSPECT, the drop mask is that of the state entered, and the lower lines follow. -/
def enterState (st : CollectorState) (mask : Option DropPoles) (s : State) : State :=
  let cm := s.cm
  s.setCm { cm with
    state := st, presentCount := 0, confirmCount := 0, epochsIn := 0
    lossMetre := if cm.state = .suspect then none else cm.lossMetre
    lossEpoch := if cm.state = .suspect then none else cm.lossEpoch
    dropMask := mask
    lines := linesOf st mask (s.par .lowerBoth) }

end Sys2Proof.Machine
end

