-- ==== Sys2Proof/Machine/RouteFeatures.lean ====
section
/-! DEFINITION. The Route Feature Table (02): the insert rule (R21 to R27), the look-ahead probe and the armed list
(R34 to R38), and the zone flags (R43). -/

namespace Sys2Proof.Machine

/-! ### The insert rule -/

/-- The entry of a way. -/
def PointSet.at (ps : PointSet) : Way → PointEntry
  | .w0 => ps.way0
  | .w1 => ps.way1

/-- Write the entry of a way. -/
def PointSet.write (ps : PointSet) (w : Way) (e : PointEntry) : PointSet :=
  match w with
  | .w0 => { ps with way0 := e }
  | .w1 => { ps with way1 := e }

/-- The other way. -/
def otherWay : Way → Way
  | .w0 => .w1
  | .w1 => .w0

/-- R25: the way an insert fills; none when both ways are locked. -/
def chooseWay (ps : PointSet) : Option Way :=
  if !ps.way0.valid then some .w0
  else if !ps.way1.valid then some .w1
  else
    match ps.way0.locked, ps.way1.locked with
    | true, false => some .w1
    | false, true => some .w0
    | true, true => none
    | false, false => some ps.older

/-- R25, R26: fill a way; the older marker then names the other way. -/
def fillWay (w : Way) (e : PointEntry) (ps : PointSet) : PointSet := { ps.write w e with older := otherWay w }

/-- R23, R31: the way that holds a valid entry with this start metre and kind. -/
def findSame (start : Nat) (kind : FeatureKind) (ps : PointSet) : Option Way :=
  let same := fun (e : PointEntry) => e.valid && decide (e.start = start) && decide (e.kind = kind)
  if same ps.way0 then some .w0 else if same ps.way1 then some .w1 else none

/-- R27: the locked flag a PUT's entry ends with, and the lock count, from whether the entry was locked already. -/
def lockEntry (lock already : Bool) (count : Nat) : Bool × Nat :=
  if lock then
    if already then (true, count) else if count < 64 then (true, count + 1) else (false, count)
  else if already then (false, count - 1) else (false, count)

/-- The table with one set written. -/
def RouteTable.setPoints (rt : RouteTable) (i : Fin 64) (ps : PointSet) : RouteTable :=
  { rt with points := setEntry rt.points i ps }

/-- R23, R25 to R27: a FEATURE PUT's insert: the table and the way written, or none when it is refused. -/
def putInsert (start length : Nat) (kind : FeatureKind) (factor : Nat) (lock : Bool) (rt : RouteTable) :
    Option (RouteTable × Way) :=
  let i := setOf start
  let ps := entry rt.points i
  match findSame start kind ps with
  | some w =>
    let (locked, count) := lockEntry lock (ps.at w).locked rt.lockCount
    some ({ rt.setPoints i (ps.write w { ps.at w with length := length, factor := factor, locked := locked }) with
      lockCount := count }, w)
  | none =>
    match chooseWay ps with
    | none => none
    | some w =>
      let (locked, count) := lockEntry lock false rt.lockCount
      some ({ rt.setPoints i (fillWay w ⟨true, start, length, kind, factor, locked⟩ ps) with lockCount := count }, w)

/-- The difference of two metres taken without sign (R24). -/
def metreDistance (a b : Nat) : Nat := if a ≤ b then b - a else a - b

/-- R24: the learned entry that a learned insert updates in place: within 8 m, the nearest, way 0 when two are equally
near. -/
def findNear (start : Nat) (ps : PointSet) : Option Way :=
  let near := fun (e : PointEntry) =>
    e.valid && decide (e.kind = .learnedGap) && decide (metreDistance e.start start ≤ 8)
  match near ps.way0, near ps.way1 with
  | true, true =>
    if metreDistance ps.way0.start start ≤ metreDistance ps.way1.start start then some .w0 else some .w1
  | true, false => some .w0
  | false, true => some .w1
  | false, false => none

/-- R24 to R26: a learned insert: the table, or none when it is refused. -/
def learnedInsert (start length factor : Nat) (rt : RouteTable) : Option RouteTable :=
  let i := setOf start
  let ps := entry rt.points i
  match findNear start ps with
  | some w =>
    let e := ps.at w
    some (rt.setPoints i (ps.write w { e with length := max e.length length, factor := factor, locked := false }))
  | none =>
    match chooseWay ps with
    | none => none
    | some w => some (rt.setPoints i (fillWay w ⟨true, start, length, .learnedGap, factor, false⟩ ps))

/-! ### Arming -/

/-- R36: the high bound of an effect window. -/
def windowHigh (margin start length : Nat) : Nat := min (start + length + margin) 65535

/-- R36: does the effect window of an entry contain a metre? -/
def windowContains (lead margin : Nat) (e : PointEntry) (metre : Nat) : Bool :=
  decide (e.start - lead ≤ metre) && decide (metre ≤ windowHigh margin e.start e.length)

/-- R30, R35: does the list hold a copy with this set, way and start metre? -/
def hasCopy (armed : List ArmedCopy) (set : Fin 64) (w : Way) (start : Nat) : Bool :=
  armed.any (fun c => decide (c.set = set) && decide (c.way = w) && decide (c.start = start))

/-- R37: place a copy in start order, after a copy of equal start. -/
def placeCopy (c : ArmedCopy) (armed : List ArmedCopy) : List ArmedCopy :=
  armed.takeWhile (fun x => decide (x.start ≤ c.start)) ++ c :: armed.dropWhile (fun x => decide (x.start ≤ c.start))

/-- R36: the copy an entry is armed with. -/
def copyOf (set : Fin 64) (w : Way) (e : PointEntry) (margin : Nat) : ArmedCopy :=
  { kind := e.kind, factor := e.factor, start := e.start, length := e.length,
    windowEnd := windowHigh margin e.start e.length, set := set, way := w }

/-- R30, R35: may this entry be armed now: its window contains P and the list holds no copy of it? -/
def armable (set : Fin 64) (w : Way) (e : PointEntry) (s : State) : Bool :=
  windowContains (s.par .lead) (s.par .margin) e s.pt.metre && !hasCopy s.rft.armed set w e.start

/-- R37: arm a candidate, or refuse it with ARMED_OVERFLOW when the list holds 4 copies. -/
def armCandidate (set : Fin 64) (w : Way) (e : PointEntry) (s : State) : State :=
  if armable set w e s then
    if s.rft.armed.length < 4 then
      s.setRft { s.rft with armed := placeCopy (copyOf set w e (s.par .margin)) s.rft.armed }
    else raise .armedOverflow s
  else s

/-- R35: the look-ahead metre. -/
def lookAhead (s : State) : Nat := min (s.pt.metre + s.par .lead) 65535

/-- R35: does an entry match the probe at Q? -/
def probeMatches (q : Nat) (e : PointEntry) : Bool :=
  e.valid && decide (tagOf e.start = tagOf q) && decide (e.start ≤ q)

/-- R35: the candidates at Q, the lower start metre first, way 0 first when equal. -/
def candidates (q : Nat) (ps : PointSet) : List (Way × PointEntry) :=
  let c0 := if probeMatches q ps.way0 then [(Way.w0, ps.way0)] else []
  let c1 := if probeMatches q ps.way1 then [(Way.w1, ps.way1)] else []
  if ps.way1.start < ps.way0.start then c1 ++ c0 else c0 ++ c1

/-- R35: the probe, made while POSITION_SET is set. -/
def probe (s : State) : State :=
  if s.pt.isSet then
    let q := lookAhead s
    let noted := s.setRft { s.rft with lastQ := q }
    (candidates q (entry s.rft.points (setOf q))).foldl (fun acc c => armCandidate (setOf q) c.1 c.2 acc) noted
  else s

/-- R38: every copy whose window end is below P leaves the list. -/
def removePassed (s : State) : State :=
  s.setRft { s.rft with armed := s.rft.armed.filter (fun c => decide (s.pt.metre ≤ c.windowEnd)) }

/-- R43: set every previous-match flag to whether its entry matches at this set. -/
def notePrevMatch (s : State) : State :=
  s.setRft { s.rft with zones := mapEntries (fun z => { z with prevMatch := zoneMatches s.pt z }) s.rft.zones }

/-- R34, steps 1 and 2: removal and probe. -/
def armForSet (s : State) : State := probe (removePassed s)

/-- R18, R38: empty the armed list. -/
def emptyArmed (s : State) : State := s.setRft { s.rft with armed := [] }

end Sys2Proof.Machine
end

