-- ==== Sys2Proof/Machine/CollectorMonitor.lean ====
section
/-! DEFINITION. The Collector Monitor's work on an accepted set (R45 to R62, R68, R69): counts, angle checks, the
transition, and drops. -/

namespace Sys2Proof.Machine

/-! ### Counts -/

/-- R45, R48: the counts at a set that CM finds in its present state: the epochs in state gain 1, and the present and
confirm counts move in the states that count them. An angle hit ends the set before presence is judged (R49). -/
def countSet (presence : Presence) (cm : Collector) : Collector :=
  let counting := decide (cm.state = .raising ∨ cm.state = .gap ∨ cm.state = .suspect)
  { cm with
    presentCount :=
      if counting then
        match presence with
        | .present => satAdd 255 cm.presentCount 1
        | .absent => 0
        | .tainted => cm.presentCount
      else cm.presentCount
    confirmCount :=
      if cm.state = .suspect ∧ presence = .absent then satAdd 255 cm.confirmCount 1 else cm.confirmCount }

/-- R45: the epochs in state gain 1. -/
def countEpoch (cm : Collector) : Collector := { cm with epochsIn := satAdd 65535 cm.epochsIn 1 }

/-! ### Angle checks -/

/-- R59: the RATE test of one pole. -/
def rateHit (limit : Nat) (elev prev : Option (BitVec 10)) : Bool :=
  match elev, prev with
  | some e, some p => decide (p.toNat + limit < e.toNat)
  | some _, none | none, _ => false

/-- R59: the ELEVATION test of one pole. -/
def elevationHit (limit : Nat) (elev : Option (BitVec 10)) : Bool :=
  match elev with
  | some e => decide (limit < e.toNat)
  | none => false

/-- R59: the LATERAL test of one pole. -/
def lateralHit (limit : Nat) (lat : Option (BitVec 10)) : Bool :=
  match lat with
  | some l => decide (limit < l.toInt.natAbs)
  | none => false

/-- The three tests of one pole. -/
structure PoleHits where
  rate : Bool
  elevation : Bool
  lateral : Bool
  deriving DecidableEq, Repr

/-- R60: has the pole at least one hit? -/
def PoleHits.any (h : PoleHits) : Bool := h.rate || h.elevation || h.lateral

/-- R59: the tests of one pole; a pole that is not checked has no hit. -/
def poleHits (checked : Bool) (elev prev lat : Option (BitVec 10)) (s : State) : PoleHits :=
  let latLimit := if frogEffective s.rft.armed then s.par .latMaxFrog else s.par .latMax
  { rate := checked && rateHit (s.par .rateLimit) elev prev
    elevation := checked && elevationHit (s.par .elevMax) elev
    lateral := checked && lateralHit latLimit lat }

/-- R58, R59: which poles are checked in the present state. -/
def polesChecked (cm : Collector) : PerPole Bool :=
  match cm.state with
  | .onWire | .gap | .suspect | .unloading => ⟨true, true⟩
  | .dropped =>
    match cm.dropMask with
    | some .pos => ⟨false, true⟩
    | some .neg => ⟨true, false⟩
    | some .both | some .unknown => ⟨false, false⟩
    | none => ⟨true, true⟩
  | .down | .raising | .lowering => ⟨false, false⟩

/-- R60: the poles and the cause of an angle drop, or none. The cause is taken over the hits of both poles in the
precedence RATE, ELEVATION, LATERAL. -/
def angleDrop (pos neg : PoleHits) : Option (DropPoles × DropCause) :=
  let cause :=
    if pos.rate || neg.rate then DropCause.rate
    else if pos.elevation || neg.elevation then DropCause.elevation
    else DropCause.lateral
  match pos.any, neg.any with
  | true, true => some (.both, cause)
  | true, false => some (.pos, cause)
  | false, true => some (.neg, cause)
  | false, false => none

/-- R49, R59: the angle checks of a set. -/
def angleCheck (x : Sample) (prev : PerPole (Option (BitVec 10))) (s : State) : Option (DropPoles × DropCause) :=
  let checked := polesChecked s.cm
  angleDrop (poleHits checked.pos x.elevPos prev.pos x.latPos s) (poleHits checked.neg x.elevNeg prev.neg x.latNeg s)

/-! ### Drops -/

/-- R68: the record of a drop at this set. -/
def dropRecord (poles : DropPoles) (cause : DropCause) (x : Sample) (s : State) : DropRecord :=
  { number := s.cm.dropNumber, stamp := s.timeBase, metre := if s.pt.isSet then some s.pt.metre else none,
    poles := poles, cause := cause, before := s.cm.state, v := x.v, i := x.i, elevPos := x.elevPos,
    elevNeg := x.elevNeg, latPos := x.latPos, latNeg := x.latNeg, firstArmed := s.rft.armed.head?.map ArmedCopy.kind }

/-- R69: offer a record to the log, and advance the drop number. -/
def offerRecord (r : DropRecord) (cm : Collector) : Collector :=
  if cm.log.length < 8 then { cm with log := cm.log ++ [r], dropNumber := cm.dropNumber + 1 }
  else { cm with lost := satAdd 255 cm.lost 1, dropNumber := cm.dropNumber + 1 }

/-- R60, R61, R62: a drop. An entry into DROPPED takes the drop's poles as its mask; a further drop extends the mask
to BOTH and is no entry into a state (log 13). -/
def makeDrop (poles : DropPoles) (cause : DropCause) (x : Sample) (s : State) : State :=
  let record := dropRecord poles cause x s
  let moved :=
    if s.cm.state = .dropped then
      s.setCm { s.cm with dropMask := some .both, lines := linesOf .dropped (some .both) (s.par .lowerBoth) }
    else enterState .dropped (some poles) s
  let marked := moved.setCm (offerRecord record { moved.cm with marks := ⟨true, true, true⟩ })
  raise .poleDrop marked

/-! ### The transition -/

/-- R53: entry into SUSPECT with its loss metre and loss epoch; DROP_SUSPECT is raised. -/
def enterSuspect (s : State) : State :=
  let entered := enterState .suspect none s
  raise .dropSuspect (entered.setCm { entered.cm with
    lossMetre := if s.pt.isSet then some s.pt.metre else none
    lossEpoch := some s.si.epoch })

/-- R55: the length of a learned gap. -/
def learnedLength (metre loss : Nat) : Nat := min (max (metre - loss) 1) 255

/-- R55: the learned-gap insert a SUSPECT that ends in ON_WIRE makes. -/
def learnGap (s : State) : State :=
  match s.cm.lossMetre with
  | none => s
  | some loss =>
    if s.par .learn = 1 ∧ s.pt.isSet = true then
      match learnedInsert loss (learnedLength s.pt.metre loss) (s.par .learnFactor) s.rft with
      | some rt => raise .learnedGap (s.setRft rt)
      | none => raise .tableRefused s
    else s

/-- R54, R55: SUSPECT ends in ON_WIRE, with its learned-gap insert. -/
def recoverFromSuspect (s : State) : State := enterState .onWire none (learnGap s)

/-- R50: the rules of RAISING on a counted set. -/
def takeRaising (presence : Presence) (s : State) : State :=
  if presence = .present ∧ s.par .presentCount ≤ s.cm.presentCount then enterState .onWire none s
  else if s.par .raiseLimit ≤ s.cm.epochsIn then raise .raiseFailed (enterState .down none s)
  else s

/-- R51: the rules of ON_WIRE. -/
def takeOnWire (presence : Presence) (offWire : Bool) (s : State) : State :=
  if offWire then enterState .unloading none s
  else if presence = .absent then
    if gapExpected s.rft.armed then enterState .gap none s else enterSuspect s
  else s

/-- R52: the rules of GAP on a counted set. -/
def takeGap (presence : Presence) (offWire : Bool) (s : State) : State :=
  if offWire then enterState .unloading none s
  else if presence = .present ∧ s.par .presentCount ≤ s.cm.presentCount then enterState .onWire none s
  else if presence = .absent ∧ gapExpected s.rft.armed = false then raise .gapOverrun (enterSuspect s)
  else s

/-- R54: the rules of SUSPECT on a counted set. -/
def takeSuspect (presence : Presence) (x : Sample) (s : State) : State :=
  if gapExpected s.rft.armed then enterState .gap none s
  else if presence = .absent ∧ s.par .confirmCount ≤ s.cm.confirmCount then makeDrop .unknown .voltageLoss x s
  else if presence = .present ∧ s.par .presentCount ≤ s.cm.presentCount then recoverFromSuspect s
  else s

/-- R56: the rules of UNLOADING. -/
def takeUnloading (x : Sample) (s : State) : State :=
  let quiet := match x.i with
    | some i => decide (i.toInt.natAbs ≤ s.par .iQuiet)
    | none => false
  if quiet = true ∨ s.par .unloadLimit ≤ s.cm.epochsIn then enterState .lowering none s else s

/-- R57, R65: is an elevation present and at or below P_STOW? -/
def stowed (limit : Nat) (elev : Option (BitVec 10)) : Bool :=
  match elev with
  | some e => decide (e.toNat ≤ limit)
  | none => false

/-- R57: the rule of LOWERING. -/
def takeLowering (x : Sample) (s : State) : State :=
  if stowed (s.par .stow) x.elevPos && stowed (s.par .stow) x.elevNeg then enterState .down none s else s

/-- R49: the transition of a set without an angle hit. -/
def takeTransition (x : Sample) (offWire : Bool) (s : State) : State :=
  let presence := presenceOf (s.par .vPresent) x.v
  let counted := s.setCm (countSet presence s.cm)
  match s.cm.state with
  | .down | .dropped => counted
  | .raising => takeRaising presence counted
  | .onWire => takeOnWire presence offWire counted
  | .gap => takeGap presence offWire counted
  | .suspect => takeSuspect presence x counted
  | .unloading => takeUnloading x counted
  | .lowering => takeLowering x counted

/-- R49: CM's whole work on a set: the epoch count, the angle checks, else the transition, and then the last
elevations. -/
def collectorTake (x : Sample) (prev : PerPole (Option (BitVec 10))) (offWire : Bool) (s : State) : State :=
  let ticked := s.setCm (countEpoch s.cm)
  let moved :=
    match angleCheck x prev ticked with
    | some (poles, cause) => makeDrop poles cause x ticked
    | none => takeTransition x offWire ticked
  moved.setCm { moved.cm with lastElev := ⟨x.elevPos, x.elevNeg⟩ }

end Sys2Proof.Machine
end

