-- ==== Sys2Proof/Machine/LoadScheduler.lean ====
section
/-! DEFINITION. The Load Scheduler's work on an accepted set (R122 to R126, R132 to R151): mode work, supply and band
steps, budget shed and restoration, and the start decision. -/

namespace Sys2Proof.Machine

/-! ### Mode work -/

/-- R123: one advance of a generator's counter. -/
def advanceCounter (period n : Nat) : Nat := if period ≤ n + 1 then 0 else n + 1

/-- R123: both generators advance. -/
def advanceGens (s : State) : State :=
  s.setLs { s.ls with
    gens := ⟨advanceCounter (genPeriod s .a) s.ls.gens.a, advanceCounter (genPeriod s .b) s.ls.gens.b⟩ }

/-- R124: is the slot one that its generator's phase moves, given both phases? -/
def phaseMoves (onA onB : Bool) (sl : Slot) : Bool :=
  match sl.mode with
  | .cycle g =>
    let on := match g with
      | .a => onA
      | .b => onB
    if on then decide (sl.state = .parked) else isActive sl.state
  | .off | .on | .onDemand => false

/-- R124: where the phase moves it: a parked slot becomes WAITING, another PARKED. -/
def followPhase (i : Fin 24) (ls : Loads) : Loads :=
  if (entry ls.slots i).state = .parked then moveSlot .waiting i ls else moveSlot .parked i ls

/-- R125: an ON_DEMAND slot parks, and the park entry count gains 1. -/
def idlePark (i : Fin 24) (ls : Loads) : Loads :=
  let parked := moveSlot .parked i ls
  { parked with parkEntries := satAdd 65535 parked.parkEntries 1 }

/-- R125: one ON_DEMAND slot at an accepted set, under the idle limit in force. -/
def demandSlot (limit : Nat) (i : Fin 24) (ls : Loads) : Loads :=
  let sl := entry ls.slots i
  if sl.state = .parked then
    if ls.demand.getLsbD i.val then moveSlot .waiting i ls else ls
  else if isActive sl.state then
    if ls.demand.getLsbD i.val then ls.setSlot i { sl with idle := 0 }
    else if limit ≤ satAdd 65535 sl.idle 1 then idlePark i ls
    else ls.setSlot i { sl with idle := satAdd 65535 sl.idle 1 }
  else ls

/-- R124, R125: is the slot one that its mode gives work at an accepted set, given both phases? -/
def modeTakes (onA onB : Bool) (sl : Slot) : Bool := phaseMoves onA onB sl || decide (sl.mode = .onDemand)

/-- R124, R125: one slot at an accepted set, by its mode. -/
def modeSlot (limit : Nat) (i : Fin 24) (ls : Loads) : Loads :=
  if (entry ls.slots i).mode = .onDemand then demandSlot limit i ls else followPhase i ls

/-- R124, R125: the slots follow their modes. The slots that wake join the queue in ascending slot order, whatever their
modes (R145), so all are taken in one pass: no slot's work reads another slot, and what R125's "after the cycle slots" puts
in order is seen in the joins alone, whose order R145 gives. -/
def slotsFollow (s : State) : State :=
  s.setLs (forSlots (modeTakes (genOnPhase s .a) (genOnPhase s .b)) (modeSlot (idleLimit s)) s.ls)

/-- R126: the end of an observation period. -/
def endObservation (s : State) : State :=
  s.setLs { s.ls with
    idlePeriod :=
      if s.par .parkHi ≤ s.ls.parkEntries then .long
      else if s.ls.parkEntries < s.par .parkLo then .short
      else s.ls.idlePeriod
    parkEntries := 0
    observation := 0 }

/-- R126: the observation count gains 1, and the period may end. -/
def advanceObservation (s : State) : State :=
  let n := satAdd 65535 s.ls.observation 1
  if s.par .parkObs ≤ n then endObservation s else s.setLs { s.ls with observation := n }

/-- R122: the mode work of a set. -/
def modeWork (s : State) : State := advanceObservation (slotsFollow (advanceGens s))

/-! ### Supply and band -/

/-- R137, R138: the supply step. -/
def supplyStep (s : State) : State :=
  match s.supply with
  | .none => s.setLs (shedWhere (fun sl => !sl.rideThrough) .supply s.ls)
  | .battery | .line => s.setLs (restoreWhere (fun _ => true) .supply s.ls)

/-- R139: is a V out of the auxiliary band? -/
def outOfBand (low high : Nat) (v : BitVec 10) : Bool := decide (v.toNat < low) || decide (high < v.toNat)

/-- R140: the slots an out-of-band set takes. -/
def bandTaken (sl : Slot) : Bool := isActive sl.state && !sl.rideThrough

/-- R140: does this shed lock the slot out? -/
def bandLocks (limit : Nat) (sl : Slot) : Bool := decide (limit ≤ satAdd 15 sl.bandCount 1)

/-- R140: one slot shed for the band, or locked out at the limit. -/
def bandShedSlot (limit : Nat) (i : Fin 24) (ls : Loads) : Loads :=
  let sl := entry ls.slots i
  let counted := ls.setSlot i { sl with bandCount := satAdd 15 sl.bandCount 1 }
  if bandLocks limit sl then moveSlot .lockedOut i counted else moveSlot (.shed .band) i counted

/-- R140: an out-of-band set: the sheds and lockouts, LOAD_LOCKOUT for each slot locked out, and BAND_SHED once when
any slot was taken. -/
def bandShed (s : State) : State :=
  let limit := s.par .bandRestartLimit
  let shed := s.setLs (forSlots bandTaken (bandShedSlot limit) s.ls)
  let locked := raiseTimes .loadLockout (s.ls.slots.toList.countP (fun sl => bandTaken sl && bandLocks limit sl)) shed
  if s.ls.slots.toList.any bandTaken then raise .bandShed locked else locked

/-- R141: one slot returns from the band, or locks out without auto-recover. -/
def bandReturnSlot (i : Fin 24) (ls : Loads) : Loads :=
  if (entry ls.slots i).autoRecover then moveSlot .waiting i ls else moveSlot .lockedOut i ls

/-- R141: an in-band set. -/
def bandReturn (s : State) : State :=
  let back := s.setLs (forSlots (fun sl => decide (sl.state = .shed .band)) bandReturnSlot s.ls)
  raiseTimes .loadLockout
    (s.ls.slots.toList.countP (fun sl => decide (sl.state = .shed .band) && !sl.autoRecover)) back

/-- R139: the band step, in LINE supply with a valid V. -/
def bandStep (v : Option (BitVec 10)) (s : State) : State :=
  match s.supply, v with
  | .line, some v => if outOfBand (s.par .vAuxLow) (s.par .vAuxHigh) v then bandShed s else bandReturn s
  | .line, none | .battery, _ | .none, _ => s

/-- R132, steps 1 to 3: LS's work before stage 4. -/
def loadsBeforeBudget (v : Option (BitVec 10)) (s : State) : State := bandStep v (supplyStep (modeWork s))

/-! ### Budget shed and restoration -/

/-- R134: a rise of H sheds every RUNNING and WAITING slot in the shed range. -/
def budgetShed (h : Nat) (ls : Loads) : Loads := shedWhere (fun sl => inShedRange h sl.level) .budget ls

/-- R136: a fall of H makes WAITING the slots shed for budget whose level is now below 4 − H. -/
def budgetRestore (h : Nat) (ls : Loads) : Loads := restoreWhere (fun sl => !inShedRange h sl.level) .budget ls

/-! ### The start decision -/

/-- R148: heads in the shed range leave the queue and are shed with reason BUDGET. -/
def shedHeads (h : Nat) (ls : Loads) : Loads :=
  (ls.queue.takeWhile (fun i => inShedRange h (entry ls.slots i).level)).foldl
    (fun acc i => moveSlot (.shed .budget) i acc) ls

/-- R149: the power test of a slot against the published record, with live served. -/
def powerTest (i : Fin 24) (s : State) : Bool :=
  match s.supply with
  | .none => true
  | .battery | .line =>
    decide (servedBy s.ls s.supply + (entry s.ls.slots i).demand + s.be.record.r ≤ s.be.record.pAvail)

/-- R149, R151: may this head start, with this count of epochs since the last start? -/
def mayStart (since : Nat) (i : Fin 24) (s : State) : Bool :=
  decide (s.par .startGap ≤ since) && powerTest i s && (!s.cm.marks.a || isLevelZero s.ls i)

/-- R150: a start: the head becomes RUNNING, leaves the queue, and the epochs since the last start become 0. -/
def startSlot (i : Fin 24) (ls : Loads) : Loads := { moveSlot .running i ls with sinceStart := 0 }

/-- R147: the epochs since the last start gain 1. -/
def countSinceStart (ls : Loads) : Loads := { ls with sinceStart := satAdd 65535 ls.sinceStart 1 }

/-- R149, R150: test the head, and start it when it passes. -/
def tryStart (s : State) : State :=
  match s.ls.queue.head? with
  | some i => if mayStart s.ls.sinceStart i s then s.setLs (startSlot i s.ls) else s
  | none => s

/-- R147, R148: the start decision of a set. -/
def startDecision (s : State) : State := tryStart (s.setLs (shedHeads s.be.h (countSinceStart s.ls)))

end Sys2Proof.Machine
end

