-- ==== Sys2Proof/Machine/BudgetEngine.lean ====
section
/-! DEFINITION. The budget computation stage by stage (R75 to R96), the over-grant check (R110) and the SAFE
publication at the loss of sense (R98). -/

namespace Sys2Proof.Machine

/-! ### The over-grant check -/

/-- R110: is the last grant over the record's ceilings? -/
def grantOver (r : BudgetRecord) (grant : Int) : Bool :=
  if 0 < grant then decide ((r.t : Int) < grant) else if grant < 0 then decide ((r.g : Int) < -grant) else false

/-- R110: the check at each offered record. -/
def overGrantCheck (s : State) : State :=
  if s.tg.reported = false ∧ grantOver s.be.record s.tg.lastGrant = true then
    raise .grantOver (s.setTg { s.tg with reported := true })
  else s

/-- Write the published record. -/
def publish (r : BudgetRecord) (s : State) : State := s.setBe { s.be with record := r }

/-! ### Stages 1 to 3 -/

/-- R76: stage 1: a valid V becomes held V. -/
def holdV (v : Option (BitVec 10)) (s : State) : State :=
  match v with
  | some x => s.setBe { s.be with heldV := x }
  | none => s

/-- R78: stage 2: the available power. -/
def availablePower (s : State) : Nat :=
  match s.supply with
  | .line => s.be.heldV.toNat * effectiveILim s / 1000
  | .battery => s.par .bAvail
  | .none => 0

/-- R79: the sag flag after a set: a valid V below the effective V_low sets it. -/
def sagAfter (v : Option (BitVec 10)) (s : State) : Bool :=
  s.be.sag ||
    match v with
    | some x => decide (x.toNat < effectiveVLow s)
    | none => false

/-- R80: D after a window that ends with this sag flag. -/
def steppedD (sag : Bool) (s : State) : Nat :=
  if sag then min (s.be.d + s.par .stepUp) (s.par .dMax) else max (s.be.d - s.par .stepDown) (s.par .dMin)

/-- R80: the end of a window. -/
def endWindow (sag : Bool) (s : State) : State :=
  let d := steppedD sag s
  let ended := s.setBe { s.be with d := d, windowCount := 0, sag := false, windowLength := s.par .window }
  if s.be.d < d then raise .derateRise ended else ended

/-- R79, R80: stage 3: the derate window, in LINE supply alone. -/
def windowStep (v : Option (BitVec 10)) (s : State) : State :=
  if s.supply = .line then
    let n := satAdd 255 s.be.windowCount 1
    if s.be.windowLength ≤ n then endWindow (sagAfter v s) s
    else s.setBe { s.be with windowCount := n, sag := sagAfter v s }
  else s

/-! ### Stage 4 -/

/-- R82: does a shed depth qualify: S(h) + P_RESERVE at most P_avail? -/
def depthFits (pAvail : Nat) (s : State) (h : Nat) : Bool := decide (demandSum s.ls h + s.par .reserve ≤ pAvail)

/-- R82: the target shed depth H*. -/
def targetDepth (pAvail : Nat) (s : State) : Nat := ([0, 1, 2, 3, 4].find? (depthFits pAvail s)).getD 4

/-- R82: stage 4 sets SHORTFALL when no depth qualifies. -/
def depthShortfall (pAvail : Nat) (s : State) : Bool := ([0, 1, 2, 3, 4].find? (depthFits pAvail s)).isNone

/-- R83: a rise of H to the target: LS sheds, and SHED_RISE is raised once. -/
def riseDepth (target : Nat) (s : State) : State :=
  raise .shedRise ((s.setBe { s.be with h := target, sinceH := 0 }).setLs (budgetShed target s.ls))

/-- What stage 4 leaves: the state, its SHORTFALL cause, and a pending fall of H (R84). -/
structure DepthStage where
  state : State
  shortfall : Bool
  fall : Bool
  deriving DecidableEq, Repr

/-- R82 to R85: stage 4, skipped in NONE supply. -/
def depthStage (pAvail : Nat) (s : State) : DepthStage :=
  if s.supply = .none then ⟨s, false, false⟩
  else
    let target := targetDepth pAvail s
    let since := satAdd 65535 s.be.sinceH 1
    let counted := s.setBe { s.be with sinceH := since, hStar := target }
    if s.be.h < target then ⟨riseDepth target counted, depthShortfall pAvail s, false⟩
    else
      ⟨counted, depthShortfall pAvail s,
        decide (target < s.be.h) && decide (s.par .restoreInterval ≤ since) &&
          decide (demandSum s.ls (s.be.h - 1) + s.par .reserve + s.par .restoreMargin ≤ pAvail)⟩

/-! ### Stages 5 and 6 -/

/-- What stages 5 and 6 produce from P_avail and served. -/
structure Ceilings where
  t : Nat
  g : Nat
  overrange : Bool
  shortfall : Bool
  zeroSpan : Bool
  deriving DecidableEq, Repr

/-- R87: T0, not below 0. -/
def tZero (pAvail served reserve : Nat) : Nat := pAvail - served - reserve

/-- R88: T1 before its limit of 2047. -/
def tOneRaw (tZ d : Nat) : Nat := tZ * (16 - d) / 16

/-- R90, R91: the line share of regeneration. -/
def lineRegen (s : State) : Nat :=
  let v := s.be.heldV.toNat
  let high := s.par .vHigh
  let taper := s.par .vTaper
  if (matchingZone .noRegen s).isSome then 0
  else if high ≤ taper then (if v < high then s.par .regenMax else 0)
  else if high ≤ v then 0
  else if v ≤ taper then s.par .regenMax
  else s.par .regenMax * (high - v) / (high - taper)

/-- R87 to R92: stages 5 and 6. -/
def ceilings (pAvail served : Nat) (s : State) : Ceilings :=
  let reserve := s.par .reserve
  let tZ := tZero pAvail served reserve
  let short := decide (pAvail < served + reserve)
  match s.supply with
  | .none => { t := 0, g := 0, overrange := false, shortfall := false, zeroSpan := false }
  | .battery =>
    { t := min tZ (s.par .bTrac), g := min 2047 (s.par .bRegen + served), overrange := false, shortfall := short,
      zeroSpan := false }
  | .line =>
    if s.cm.state = .unloading then { t := 0, g := 0, overrange := false, shortfall := short, zeroSpan := false }
    else
      let t1 := tOneRaw tZ s.be.d
      let gSum := lineRegen s + served
      { t := min t1 2047 * coastFactor s.rft.armed / 16
        g := min gSum 2047
        overrange := decide (2047 < t1) || decide (2047 < gSum)
        shortfall := short
        zeroSpan := decide (s.par .vHigh ≤ s.par .vTaper) }

/-! ### Stage 7 -/

/-- R94: the kept record's ceilings become 0 when this computation's supply is NONE or the collector is UNLOADING. -/
def zeroesKept (s : State) : Bool := decide (s.supply = .none) || decide (s.cm.state = .unloading)

/-- R94: the kept record of a frozen computation. -/
def keptRecord (s : State) : BudgetRecord :=
  let r := s.be.record
  { r with frozen := true, senseLost := false, t := if zeroesKept s then 0 else r.t, g := if zeroesKept s then 0 else r.g }

/-- R95: the SAFE record. -/
def safeRecord (r : BudgetRecord) : BudgetRecord := { r with t := 0, g := 0, safe := true }

/-- R95: the SAFE publication at the freeze limit. -/
def freezeLimitTest (s : State) : State :=
  if s.par .freezeLimit ≤ s.be.freeze ∧ s.be.record.safe = false then
    overGrantCheck (raise .budgetSafe (publish (safeRecord s.be.record) s))
  else s

/-- R94, R95: a frozen computation. -/
def frozenComputation (s : State) : State :=
  let n := satAdd 255 s.be.freeze 1
  let kept := s.setBe { s.be with record := keptRecord s, freeze := n }
  let raised := if n = 1 then raise .budgetFrozen kept else kept
  let offered := if zeroesKept s then overGrantCheck raised else raised
  freezeLimitTest offered

/-- R97: the record of a normal publication, at a shed depth. -/
def freshRecord (pAvail served h : Nat) (c : Ceilings) (vHeld : Bool) (s : State) : BudgetRecord :=
  { epoch := s.si.epoch, supply := s.supply, pAvail := pAvail, served := served, r := s.par .reserve, t := c.t,
    g := c.g, d := s.be.d, h := h, coast := coastFactor s.rft.armed, frozen := false, safe := false,
    shortfall := decide (pAvail < served + s.par .reserve), vHeld := vHeld, senseLost := false }

/-- R84: the fall of H made at a normal publication. -/
def fallDepth (fall : Bool) (be : Budget) : Budget :=
  if fall then { be with h := be.h - 1, sinceH := 0 } else be

/-- R96, R84, R136: a normal publication, with the fall of H and LS's restoration. -/
def normalPublication (pAvail served : Nat) (c : Ceilings) (vHeld fall : Bool) (s : State) : State :=
  let fallen := s.setBe { fallDepth fall s.be with freeze := 0 }
  let published := overGrantCheck (publish (freshRecord pAvail served fallen.be.h c vHeld fallen) fallen)
  if fall then published.setLs (budgetRestore published.be.h published.ls) else published

/-- R93: the causes of a computation, and the sticky flags of those not escalated. -/
def noteCauses (causes : Conditions) (s : State) : State :=
  let en := escalateEnables (s.par .escalate)
  let st := s.be.sticky
  s.setBe { s.be with
    causes := causes
    sticky :=
      { taint := st.taint || (causes.taint && !en.taint)
        overrange := st.overrange || (causes.overrange && !en.overrange)
        shortfall := st.shortfall || (causes.shortfall && !en.shortfall)
        zeroSpan := st.zeroSpan || (causes.zeroSpan && !en.zeroSpan) } }

/-- R93 to R96: stage 7. -/
def conclude (pAvail served : Nat) (c : Ceilings) (causes : Conditions) (fall : Bool) (s : State) : State :=
  let noted := noteCauses causes s
  if escalated causes (escalateEnables (s.par .escalate)) then frozenComputation noted
  else normalPublication pAvail served c causes.taint fall noted

/-- R75: one budget computation for a set, from held V to its outcome. -/
def budgetComputation (v : Option (BitVec 10)) (s : State) : State :=
  let windowed := windowStep v (holdV v s)
  let pAvail := availablePower windowed
  let depth := depthStage pAvail windowed
  let served := servedBy depth.state.ls depth.state.supply
  let c := ceilings pAvail served depth.state
  conclude pAvail served c
    { taint := v.isNone, overrange := c.overrange, shortfall := depth.shortfall || c.shortfall,
      zeroSpan := c.zeroSpan } depth.fall depth.state

/-! ### The loss of sense -/

/-- R98: the SAFE publication at the loss of sense. -/
def safeAtSenseLoss (s : State) : State :=
  overGrantCheck (publish { safeRecord s.be.record with senseLost := true } s)

end Sys2Proof.Machine
end

