-- ==== Sys2Proof/Machine/Sense.lean ====
section
/-! DEFINITION. The Sense Interface and the Position Tracker (01): the receivers, the judgement of a frame, channel
failure, the accepted set that drives every block, silence, and the commands of the sense lines and the clock. -/

namespace Sys2Proof.Machine

/-! ### Channel state -/

/-- Write one channel's state. -/
def setChannel (ch : Channel) (c : SenseChannel) (s : State) : State :=
  s.setSi { s.si with chan := s.si.chan.put ch c }

/-- The other channel. -/
def otherChannel : Channel → Channel
  | .a => .b
  | .b => .a

/-- R12: the switch to the standby channel. -/
def failover (ch : Channel) (s : State) : State :=
  let c := s.si.chan.get ch
  raise .channelFailover (s.setSi { s.si with
    chan := s.si.chan.put ch { c with seqRecord := none }, active := some ch, prevElev := ⟨none, none⟩ })

/-- R13, R74, R98, R143: the loss of sense: SENSE_LOST is set and raised, BE publishes the SAFE record, LS sheds for
sense, and CM's last elevations become absent. -/
def loseSense (s : State) : State :=
  let lost := raise .senseLost (s.setSi { s.si with active := none, senseLost := true })
  let safe := safeAtSenseLoss lost
  let shed := safe.setLs (senseShed safe.ls)
  shed.setCm { shed.cm with lastElev := ⟨none, none⟩ }

/-- R6, R11 to R14: a channel becomes FAILED. The failure of the active channel leads to failover or SENSE_LOST; that
of the standby channel to nothing more. -/
def failChannel (ch : Channel) (why : FailReason) (s : State) : State :=
  let failed := setChannel ch { s.si.chan.get ch with health := .failed, reason := some why } s
  if s.si.active = some ch then
    if (s.si.chan.get (otherChannel ch)).health = .healthy then failover (otherChannel ch) failed
    else loseSense failed
  else failed

/-! ### Position -/

/-- R17: the distance increment moves P and the remainder; P saturates at 65535. -/
def advancePosition (inc : Nat) (pt : Position) : Position :=
  { pt with metre := min (pt.metre + (pt.cm + inc) / 100) 65535, cm := (pt.cm + inc) % 100 }

/-! ### The accepted set -/

/-- R189: every value in force becomes its stored value. -/
def bringIntoForce (pm : Params) : Params := { pm with inForce := pm.stored }

/-- R9: a pole's previous valid elevation after a set. -/
def keepElev (old new : Option (BitVec 10)) : Option (BitVec 10) := new.orElse (fun _ => old)

/-- R8, R17, R189: the set is passed on: the epoch number gains 1, the parameters come into force, and P advances. -/
def passOn (x : Sample) (s : State) : State :=
  ((s.setSi { s.si with epoch := s.si.epoch + 1 }).setPm (bringIntoForce s.pm)).setPt
    (advancePosition x.inc.toNat s.pt)

/-- R75, R132: LS and BE take the set, in the order of R132. -/
def loadsAndBudget (v : Option (BitVec 10)) (s : State) : State :=
  startDecision (budgetComputation v (loadsBeforeBudget v s))

/-- R8, R9: an accepted set, taken by SI, PT, RFT, CM, LS, BE and TG in turn. -/
def acceptedSet (x : Sample) (s : State) : State :=
  let armed := armForSet (passOn x s)
  let moved := collectorTake x s.si.prevElev (offWireEntry armed) (notePrevMatch armed)
  let done := loadsAndBudget x.v moved
  done.setSi { done.si with
    prevElev := ⟨keepElev s.si.prevElev.pos x.elevPos, keepElev s.si.prevElev.neg x.elevNeg⟩ }

/-! ### Judging a frame -/

/-- R5: is a good-check frame implausible? -/
def implausible (c : SenseChannel) (x : Sample) (s : State) : Bool :=
  (match c.seqRecord with
    | some n => decide (x.seq ≠ n + 1)
    | none => false) ||
  (match x.v with
    | some v => decide (s.par .vPlausMax < v.toNat)
    | none => false) ||
  (match x.i with
    | some i => decide (s.par .iPlausMax < i.toInt.natAbs)
    | none => false)

/-- R4, R6: the plausibility counter after a frame. -/
def plausAfter (bad : Bool) (n : Nat) : Nat := if bad then satAdd 255 n 2 else n - 1

/-- R4: a bad frame on a HEALTHY channel. -/
def takeBadFrame (ch : Channel) (s : State) : State :=
  let c := s.si.chan.get ch
  let n := plausAfter true c.plaus
  let counted := setChannel ch { c with plaus := n } s
  if s.par .plausLimit < n then failChannel ch .plausibility counted else counted

/-- R5 to R8: a good-check frame from a HEALTHY channel is judged; it fails its channel, or writes the channel's
record and, on the active channel, is an accepted set. -/
def takeGoodFrame (ch : Channel) (x : Sample) (s : State) : State :=
  let c := s.si.chan.get ch
  let n := plausAfter (implausible c x s) c.plaus
  if s.par .plausLimit < n then failChannel ch .plausibility (setChannel ch { c with plaus := n } s)
  else
    let judged :=
      setChannel ch { c with plaus := n, seqRecord := some x.seq, status := x.status, silence := 0 } s
    if s.si.active = some ch then acceptedSet x judged else judged

/-- R2 to R8: the closing of a frame is its arrival at SI; a FAILED channel's frames are discarded. -/
def frameArrives (ch : Channel) (f : OpenFrame) (s : State) : State :=
  let hunting := s.setSi { s.si with rx := s.si.rx.put ch none }
  if (s.si.chan.get ch).health = .failed then hunting
  else
    match frameSample f with
    | none => takeBadFrame ch hunting
    | some x => takeGoodFrame ch x hunting

/-- R2: the gap of two character times closes the open frame; while the receiver hunts there is nothing to close. -/
def closeFrame (ch : Channel) (s : State) : State :=
  match s.si.rx.get ch with
  | none => s
  | some f => frameArrives ch f s

/-- R2: one character at a receiver. A received 0xC3 opens a frame, every other byte is dropped while it hunts; in an
open frame a character is kept up to 13 bytes and counted beyond, and a missing stop bit marks the frame. -/
def receiveChar (c : Byte) (stop : Bool) : Option OpenFrame → Option OpenFrame
  | none => if c = 0xC3#8 then some { bytes := [c], count := 1, stopMissing := !stop } else none
  | some f =>
    some { bytes := if f.bytes.length < 13 then f.bytes ++ [c] else f.bytes, count := f.count + 1,
           stopMissing := f.stopMissing || !stop }

/-! ### Silence and the clock -/

/-- R11: the silence timer of a HEALTHY channel has run P_SILENCE_MS increments. -/
def silenceDue (ch : Channel) (s : State) : Bool :=
  decide ((s.si.chan.get ch).health = .healthy) && decide (s.par .silenceMs ≤ (s.si.chan.get ch).silence)

/-- R11: the expiry of a channel's silence timer, when it is due. -/
def expireSilence (ch : Channel) (s : State) : State := whenDue (silenceDue ch s) (failChannel ch .silence) s

/-- R11: the expiries still due when the next increment comes: each has its time within its millisecond. When both are
due, either may be first (log 6, log 7). -/
def takeOverdue (s : State) : State :=
  if silenceDue .a s && silenceDue .b s then
    let first := Config.firstExpiry s.timeBase
    expireSilence (otherChannel first) (expireSilence first s)
  else expireSilence .b (expireSilence .a s)

/-- R11: an increment of the time base is counted by the silence timer of a HEALTHY channel. -/
def countSilence (c : SenseChannel) : SenseChannel :=
  if c.health = .healthy then { c with silence := c.silence + 1 } else c

/-- R10, R11: one millisecond: the time base gains 1, and the silence timers count it. -/
def tick (s : State) : State :=
  (s.setTimeBase (s.timeBase + 1)).setSi
    { s.si with chan := ⟨countSilence s.si.chan.a, countSilence s.si.chan.b⟩ }

/-! ### Events of an accepted set commanded alone (log 4)

Each is the share that the owning block takes in the accepted set that reaches the count, so none of them happens
while SENSE_LOST is set (R13). -/

/-- Accepted sets can arrive: SENSE_LOST is clear. -/
def setsArrive (s : State) : Bool := !s.si.senseLost

/-- R50, R52, R54: a present set that brings the present count to P_PRESENT_COUNT in RAISING, GAP or SUSPECT. -/
def presentDue (x : Sample) (s : State) : Bool :=
  setsArrive s && decide (s.cm.state = .raising ∨ s.cm.state = .gap ∨ s.cm.state = .suspect) &&
    decide (presenceOf (s.par .vPresent) x.v = .present) &&
    decide (s.par .presentCount ≤ satAdd 255 s.cm.presentCount 1)

/-- R54, R61: an absent set that brings the confirm count to P_CONFIRM_COUNT in SUSPECT. -/
def confirmDue (x : Sample) (s : State) : Bool :=
  setsArrive s && decide (s.cm.state = .suspect) &&
    decide (presenceOf (s.par .vPresent) x.v = .absent) &&
    decide (s.par .confirmCount ≤ satAdd 255 s.cm.confirmCount 1)

/-- R50: a set that brings the epochs in RAISING to P_RAISE_LIMIT. -/
def raiseLimitDue (s : State) : Bool :=
  setsArrive s && decide (s.cm.state = .raising) && decide (s.par .raiseLimit ≤ satAdd 65535 s.cm.epochsIn 1)

/-- R56: a set that brings the epochs in UNLOADING to P_UNLOAD_LIMIT. -/
def unloadLimitDue (s : State) : Bool :=
  setsArrive s && decide (s.cm.state = .unloading) && decide (s.par .unloadLimit ≤ satAdd 65535 s.cm.epochsIn 1)

/-- CM's share of a set, with the previous valid elevations that SI holds and no off-wire entry signalled. -/
def collectorShare (x : Sample) (s : State) : State := collectorTake x s.si.prevElev false s

/-- The share of the set that ends UNLOADING: the collector's, and, when that leaves the supply at NONE, LS's supply step
of the same set, so that no slot goes on running against R115 (R137). -/
def unloadShare (x : Sample) (s : State) : State :=
  let moved := collectorShare x s
  if moved.supply = .none then supplyStep moved else moved

/-- R123: an advance that brings a generator's counter to its period. -/
def wrapDue (g : CycleGen) (s : State) : Bool := setsArrive s && decide (genPeriod s g ≤ s.ls.gens.get g + 1)

/-- R123: the counter returns to 0. -/
def wrapGen (g : CycleGen) (s : State) : State :=
  s.setLs { s.ls with gens := s.ls.gens.put g (advanceCounter (genPeriod s g) (s.ls.gens.get g)) }

/-- R125: a set that brings an ON_DEMAND slot's idle count to the idle limit. -/
def idleDue (i : Fin 24) (s : State) : Bool :=
  let sl := entry s.ls.slots i
  setsArrive s && decide (sl.mode = .onDemand) && isActive sl.state && !s.ls.demand.getLsbD i.val &&
    decide (idleLimit s ≤ satAdd 65535 sl.idle 1)

/-- R126: a set that brings the observation count to P_PARK_OBS. -/
def observationDue (s : State) : Bool :=
  setsArrive s && decide (s.par .parkObs ≤ satAdd 65535 s.ls.observation 1)

/-- R79, R80: a LINE-supply set that brings the window count to the window length. -/
def windowDue (s : State) : Bool :=
  setsArrive s && decide (s.supply = .line) && decide (s.be.windowLength ≤ satAdd 255 s.be.windowCount 1)

/-- R94, R95: a frozen computation (a cause stands with its escalate enable set) that brings the freeze count to
P_FREEZE_LIMIT while the SAFE mark is clear. -/
def freezeDue (s : State) : Bool :=
  setsArrive s && escalated s.be.causes (escalateEnables (s.par .escalate)) && !s.be.record.safe &&
    decide (s.par .freezeLimit ≤ satAdd 255 s.be.freeze 1)

/-- R137: may a slot stand in the queue behind the supply step of a set? In NONE supply a ride-through slot alone. -/
def leftBySupply (i : Fin 24) (s : State) : Bool := decide (s.supply ≠ .none) || (entry s.ls.slots i).rideThrough

/-- R137, R147 to R151: a start decision whose head is one that the set's supply step leaves in the queue, is below the
shed range and passes every condition, the epochs since the last start counted for this set. -/
def startDue (s : State) : Bool :=
  setsArrive s &&
    match s.ls.queue.head? with
    | some i =>
      leftBySupply i s && !inShedRange s.be.h (entry s.ls.slots i).level &&
        mayStart (satAdd 65535 s.ls.sinceStart 1) i s
    | none => false

/-- R150: the head starts. -/
def startHead (s : State) : State :=
  match s.ls.queue.head? with
  | some i => s.setLs (startSlot i s.ls)
  | none => s

/-! ### The commands -/

/-- MILLISECOND_TICK (R10, R11): expiries still due are taken, then the time base gains 1. -/
def execMillisecondTick (s : State) : Host.Outcome State Fault Refusal := whilePowered (fun s => tick (takeOverdue s)) s

/-- SILENCE_TIMER_EXPIRY (R11 to R14). -/
def execSilenceTimerExpiry (ch : Channel) (s : State) : Host.Outcome State Fault Refusal :=
  whilePowered (expireSilence ch) s

/-- SENSE_CHARACTER (R2). -/
def execSenseCharacter (ch : Channel) (c : Byte) (stop : Bool) (s : State) : Host.Outcome State Fault Refusal :=
  whilePowered (fun s => s.setSi { s.si with rx := s.si.rx.put ch (receiveChar c stop (s.si.rx.get ch)) }) s

/-- SAMPLE_FRAME (R2 to R9). -/
def execSampleFrame (ch : Channel) (s : State) : Host.Outcome State Fault Refusal := whilePowered (closeFrame ch) s

/-- PRESENT_COUNT_REACHED (R50, R52, R54, R55). -/
def execPresentCountReached (x : Sample) (s : State) : Host.Outcome State Fault Refusal :=
  whilePowered (fun s => whenDue (presentDue x s) (collectorShare x) s) s

/-- CONFIRM_COUNT_REACHED (R54, R61). -/
def execConfirmCountReached (x : Sample) (s : State) : Host.Outcome State Fault Refusal :=
  whilePowered (fun s => whenDue (confirmDue x s) (collectorShare x) s) s

/-- RAISE_LIMIT_EXPIRY (R50). -/
def execRaiseLimitExpiry (x : Sample) (s : State) : Host.Outcome State Fault Refusal :=
  whilePowered (fun s => whenDue (raiseLimitDue s) (collectorShare x) s) s

/-- UNLOAD_LIMIT_EXPIRY (R56, R137). -/
def execUnloadLimitExpiry (x : Sample) (s : State) : Host.Outcome State Fault Refusal :=
  whilePowered (fun s => whenDue (unloadLimitDue s) (unloadShare x) s) s

/-- CYCLE_PERIOD_WRAP (R123). -/
def execCyclePeriodWrap (g : CycleGen) (s : State) : Host.Outcome State Fault Refusal :=
  whilePowered (fun s => whenDue (wrapDue g s) (wrapGen g) s) s

/-- IDLE_LIMIT_PARK (R125). -/
def execIdleLimitPark (i : Fin 24) (s : State) : Host.Outcome State Fault Refusal :=
  whilePowered (fun s => whenDue (idleDue i s) (fun s => s.setLs (idlePark i s.ls)) s) s

/-- OBSERVATION_PERIOD_END (R126). -/
def execObservationPeriodEnd (s : State) : Host.Outcome State Fault Refusal :=
  whilePowered (fun s => whenDue (observationDue s) endObservation s) s

/-- DERATE_WINDOW_END (R79, R80). -/
def execDerateWindowEnd (v : Option (BitVec 10)) (s : State) : Host.Outcome State Fault Refusal :=
  whilePowered (fun s => whenDue (windowDue s) (windowStep v) s) s

/-- FREEZE_LIMIT_REACHED (R94, R95). -/
def execFreezeLimitReached (s : State) : Host.Outcome State Fault Refusal :=
  whilePowered (fun s => whenDue (freezeDue s) frozenComputation s) s

/-- SLOT_START (R149, R150). -/
def execSlotStart (s : State) : Host.Outcome State Fault Refusal :=
  whilePowered (fun s => whenDue (startDue s) startHead s) s

end Sys2Proof.Machine
end

