-- ==== Sys2Proof/Machine/Answer.lean ====
section
/-! DEFINITION. What an owning block answers a request with (R174, R175). -/

namespace Sys2Proof.Machine

/-- The state a request leaves, its result code, and its reply payload. -/
structure Answer where
  state : State
  result : Result
  payload : List Byte
  deriving DecidableEq, Repr

/-- An answer that changes nothing and carries no payload. -/
def refuse (r : Result) (s : State) : Answer := { state := s, result := r, payload := [] }

/-- An answer OK without payload. -/
def answerOk (s : State) : Answer := { state := s, result := .ok, payload := [] }

/-- An answer OK with a payload. -/
def answerWith (payload : List Byte) (s : State) : Answer := { state := s, result := .ok, payload := payload }

end Sys2Proof.Machine
end

