-- ==== Sys2Proof/Machine/AlarmRequests.lean ====
section
/-! DEFINITION. The requests of AD (08): TAKE ALARM, DONE ALARM, ALARM ROUTE SET, READ ALARM ROUTES. -/

namespace Sys2Proof.Machine

/-- Write one link's alarm state. -/
def setLinkAlarms (l : Link) (a : LinkAlarms) (s : State) : State := s.setAd { s.ad with links := s.ad.links.put l a }

/-- R163: the entry a TAKE ALARM chooses: the eligible entry of lowest entry level, then of lowest source number. -/
def chooseAlarm (a : LinkAlarms) : Option (Fin 16) :=
  let at_ := fun (lv : Fin 4) =>
    sourceNumbers.find? (fun n => eligible a.stack (entry a.pending n) && decide ((entry a.pending n).level = lv))
  [(0 : Fin 4), 1, 2, 3].findSome? at_

/-- R163: take an entry: clear it, push its frame, set the attention line afresh. -/
def takeEntry (n : Fin 16) (a : LinkAlarms) : LinkAlarms :=
  refreshAttention { a with
    pending := setEntry a.pending n clearEntry
    stack := a.stack ++ [{ source := n, level := (entry a.pending n).level }] }

/-- Table 8-2: the payload of a TAKE ALARM that takes nothing. -/
def takeNothing (a : LinkAlarms) : List Byte := [byteOf (pendingCount a), byteOf a.stack.length]

/-- Table 8-2: the payload of a TAKE ALARM that takes an entry. -/
def takePayload (n : Fin 16) (a : LinkAlarms) : List Byte :=
  let e := entry a.pending n
  let after := takeEntry n a
  [byteOf n.val, byteOf e.level.val, byteOf e.count, byteOf (pendingCount after), byteOf after.stack.length]

/-- TAKE ALARM (R163, R164). -/
def ownTakeAlarm (l : Link) (s : State) : Answer :=
  let a := s.ad.links.get l
  if 4 ≤ a.stack.length then { state := s, result := .stackFull, payload := takeNothing a }
  else
    match chooseAlarm a with
    | none => { state := s, result := .none, payload := takeNothing a }
    | some n => answerWith (takePayload n a) (setLinkAlarms l (takeEntry n a) s)

/-- R165: the top frame removed, the attention line set afresh. -/
def dropTop (a : LinkAlarms) : LinkAlarms := refreshAttention { a with stack := a.stack.dropLast }

/-- DONE ALARM (R165). -/
def ownDoneAlarm (l : Link) (s : State) : Answer :=
  let a := s.ad.links.get l
  match a.stack.getLast? with
  | none => refuse .notInService s
  | some f =>
    answerWith [byteOf f.source.val, byteOf f.level.val, byteOf (a.stack.length - 1)]
      (setLinkAlarms l (dropTop a) s)

/-- R157: the pending mask of a source, coded like a route mask. -/
def pendingMask (n : Fin 16) (ad : Alarms) : Byte :=
  packByte [((entry ad.links.t.pending n).pending.toNat, 0), ((entry ad.links.a.pending n).pending.toNat, 1),
    ((entry ad.links.v.pending n).pending.toNat, 2)]

/-- R157: a source number field. -/
def sourceField (b : Byte) : Option (Fin 16) := if h : b.toNat < 16 then some ⟨b.toNat, h⟩ else none

/-- ALARM ROUTE SET (R157, R158). -/
def ownAlarmRouteSet (p : List Byte) (s : State) : Answer :=
  match sourceField (byteAt p 0), levelField (byteAt p 1) with
  | some n, some level =>
    if (byteAt p 2).toNat < 8 then
      answerWith [byteOf n.val, byteOf level.val, byteAt p 2, pendingMask n s.ad]
        (s.setAd { s.ad with sources := setEntry s.ad.sources n ⟨level, (byteAt p 2).extractLsb' 0 3⟩ })
    else refuse .badValue s
  | _, _ => refuse .badValue s

/-- READ ALARM ROUTES (R159). -/
def ownReadAlarmRoutes (s : State) : Answer :=
  answerWith (s.ad.sources.toList.map fun r => packByte [(r.level.val, 0), (r.mask.toNat, 2)]) s

end Sys2Proof.Machine
end

