-- ==== Sys2Proof/Machine/BudgetRequests.lean ====
section
/-! DEFINITION. The requests of BE and TG (04, 05): CLEAR CONDITIONS, READ BUDGET, TRACTION REQUEST. -/

namespace Sys2Proof.Machine

/-- CLEAR CONDITIONS (R93). -/
def ownClearConditions (s : State) : Answer := answerOk (s.setBe { s.be with sticky := noConditions })

/-- Table 5-1: the payload of READ BUDGET. -/
def budgetPayload (r : BudgetRecord) : List Byte :=
  word16 r.epoch ++ [byteOf (supplyCode r.supply)] ++ wordOf r.pAvail ++ wordOf r.served ++ [byteOf r.r] ++
    wordOf r.t ++ wordOf r.g ++ [byteOf r.d, byteOf r.h, byteOf r.coast,
      packByte [(r.frozen.toNat, 0), (r.safe.toNat, 1), (r.shortfall.toNat, 2), (r.vHeld.toNat, 3),
        (r.senseLost.toNat, 4)]]

/-- READ BUDGET (R109). -/
def ownReadBudget (s : State) : Answer := answerWith (budgetPayload s.be.record) s

/-- R104, R105, R106: the grant for a requested power: motoring up to T, and to P_B_TRAC while the T mark is set;
braking up to G. -/
def grantFor (r : Int) (s : State) : Int :=
  if 0 ≤ r then
    let open_ := min r (s.be.record.t : Int)
    if s.cm.marks.t then min open_ (s.par .bTrac : Int) else open_
  else -(min (-r) (s.be.record.g : Int))

/-- R105: CAPPED: P_B_TRAC, under the T mark, is strictly below both r and T of a motoring request. -/
def grantCapped (r : Int) (s : State) : Bool :=
  decide (0 ≤ r) && s.cm.marks.t && decide ((s.par .bTrac : Int) < r) && decide (s.par .bTrac < s.be.record.t)

/-- Table 5-1: the reply payload of TRACTION REQUEST (R107). -/
def grantPayload (r : Int) (s : State) : List Byte :=
  let rec_ := s.be.record
  signedWordOf (grantFor r s) ++
    [packByte [((decide (grantFor r s ≠ r)).toNat, 0), ((grantCapped r s).toNat, 1)]] ++ wordOf rec_.t ++ wordOf rec_.g ++
    [byteOf rec_.d, byteOf rec_.coast] ++ word16 rec_.epoch

/-- R108: the state a grant leaves in TG. -/
def grantGiven (g : Int) (s : State) : Grants :=
  { lastGrant := g, lastEpoch := s.be.record.epoch, reported := decide (g = 0) }

/-- TRACTION REQUEST (R103 to R108). -/
def ownTractionRequest (p : List Byte) (s : State) : Answer :=
  let r := signedWord p 0
  answerWith (grantPayload r s) (s.setTg (grantGiven (grantFor r s) s))

end Sys2Proof.Machine
end

