-- ==== Sys2Proof/Machine/CollectorRequests.lean ====
section
/-! DEFINITION. The requests of CM (03): RAISE, LOWER, CLEAR DROP, DROP SEEN and the drop log. -/

namespace Sys2Proof.Machine

/-- RAISE (R63). -/
def ownRaise (s : State) : Answer :=
  match s.cm.state with
  | .down =>
    if s.si.senseLost then refuse .senseLost s
    else if (matchingZone .offWire s).isSome then refuse .inZone s
    else answerOk (enterState .raising none s)
  | .raising | .onWire | .gap | .suspect => refuse .already s
  | .unloading | .lowering => refuse .busy s
  | .dropped => refuse .dropped s

/-- LOWER (R64). -/
def ownLower (s : State) : Answer :=
  match s.cm.state with
  | .onWire | .gap | .suspect => answerOk (enterState .unloading none s)
  | .raising => answerOk (enterState .lowering none s)
  | .unloading | .lowering | .down => refuse .already s
  | .dropped => refuse .dropped s

/-- CLEAR DROP (R65). -/
def ownClearDrop (s : State) : Answer :=
  if s.cm.state = .dropped then
    if stowed (s.par .stow) s.cm.lastElev.pos && stowed (s.par .stow) s.cm.lastElev.neg then
      answerOk (enterState .down none s)
    else refuse .notStowed s
  else refuse .already s

/-- DROP SEEN on a link (R67). -/
def ownDropSeen (l : Link) (s : State) : Answer :=
  if s.cm.marks.get l then answerOk (s.setCm { s.cm with marks := s.cm.marks.put l false }) else refuse .already s

/-- The value a record's field is sent with: 0 when it is absent. -/
def sentField {w : Nat} (x : Option (BitVec w)) : Nat := (x.getD 0).toNat

/-- A signed field of a record in two's complement over two bytes; 0 when it is absent. -/
def sentSigned {w : Nat} (x : Option (BitVec w)) : List Byte := signedWordOf (x.getD 0).toInt

/-- Table 3-1: the oldest record as READ DROP LOG sends it. -/
def recordPayload (r : DropRecord) : List Byte :=
  [r.number] ++ wordOf (r.stamp.toNat / 65536) ++ wordOf r.stamp.toNat ++
    [packByte [(polesCode (some r.poles), 0), (causeCode r.cause, 3), (r.metre.isSome.toNat, 5), (r.v.isSome.toNat, 6),
       (r.i.isSome.toNat, 7)],
     packByte [(collectorCode r.before, 0), (r.elevPos.isSome.toNat, 3), (r.elevNeg.isSome.toNat, 4),
       (r.latPos.isSome.toNat, 5), (r.latNeg.isSome.toNat, 6), (r.firstArmed.isSome.toNat, 7)]] ++
    wordOf (r.metre.getD 0) ++ wordOf (sentField r.v) ++ sentSigned r.i ++ wordOf (sentField r.elevPos) ++
    wordOf (sentField r.elevNeg) ++ sentSigned r.latPos ++ sentSigned r.latNeg ++
    [(r.firstArmed.map featureCode).getD 0]

/-- READ DROP LOG (R70). -/
def ownReadDropLog (s : State) : Answer :=
  answerWith ([byteOf s.cm.log.length, byteOf s.cm.lost, s.cm.dropNumber] ++
    ((s.cm.log.head?.map recordPayload).getD [])) s

/-- POP DROP LOG (R71). -/
def ownPopDropLog (s : State) : Answer :=
  match s.cm.log with
  | [] => refuse .notFound s
  | _ :: rest => answerWith [byteOf rest.length] (s.setCm { s.cm with log := rest })

end Sys2Proof.Machine
end

