-- ==== Sys2Proof/Machine/LoadRequests.lean ====
section
/-! DEFINITION. The requests of LS (06): LOAD SETUP, LOAD DEMAND, LOAD RE-ENABLE, READ LOADS. -/

namespace Sys2Proof.Machine

/-! ### LOAD SETUP -/

/-- The configuration a LOAD SETUP gives a slot (R116). -/
structure SlotSetup where
  demand : Nat
  level : Fin 4
  mode : SlotMode
  rideThrough : Bool
  autoRecover : Bool
  deriving DecidableEq, Repr

/-- R116: the five configuration fields stored in a slot record. -/
def storeSetup (c : SlotSetup) (sl : Slot) : Slot :=
  { sl with demand := c.demand, level := c.level, mode := c.mode, rideThrough := c.rideThrough,
            autoRecover := c.autoRecover }

/-- The band shed count of a slot cleared (R117, R118, R128). -/
def clearBand (i : Fin 24) (ls : Loads) : Loads := ls.setSlot i { entry ls.slots i with bandCount := 0 }

/-- R119, step 1: a PARKED slot takes its new mode's test. -/
def wantsNow (i : Fin 24) (s : State) : SlotMode → Bool
  | .off => false
  | .on => true
  | .onDemand => s.ls.demand.getLsbD i.val
  | .cycle g => genOnPhase s g

/-- R119, step 1: a changed mode: the idle count becomes 0, and a PARKED slot that wants power becomes WAITING. -/
def setupMode (i : Fin 24) (s : State) : State :=
  let sl := entry s.ls.slots i
  let cleared := s.ls.setSlot i { sl with idle := 0 }
  if sl.state = .parked ∧ wantsNow i s sl.mode = true then s.setLs (moveSlot .waiting i cleared)
  else s.setLs cleared

/-- R119, step 2: a changed level. -/
def setupLevel (i : Fin 24) (s : State) : State :=
  let sl := entry s.ls.slots i
  match sl.state with
  | .running => if inShedRange s.be.h sl.level then s.setLs (moveSlot (.shed .budget) i s.ls) else s
  | .waiting => s.setLs (joinQueue i (leaveQueue i s.ls))
  | .shed .budget => if inShedRange s.be.h sl.level then s else s.setLs (moveSlot .waiting i s.ls)
  | .off | .parked | .lockedOut | .shed .supply | .shed .band | .shed .sense => s

/-- R119, step 3: the ride-through flag changed from 1 to 0 on a RUNNING slot. -/
def setupRide (i : Fin 24) (s : State) : State :=
  if (entry s.ls.slots i).state = .running then
    if s.si.senseLost then s.setLs (moveSlot (.shed .sense) i s.ls)
    else if s.supply = .none then s.setLs (moveSlot (.shed .supply) i s.ls)
    else s
  else s

/-- R119: a setup that leaves the mode other than OFF, in the order the rule lists. -/
def setupKept (i : Fin 24) (old : Slot) (c : SlotSetup) (s : State) : State :=
  let one := if old.mode = c.mode then s else setupMode i s
  let two := if old.level = c.level then one else setupLevel i one
  if old.rideThrough = true ∧ c.rideThrough = false then setupRide i two else two

/-- R116 to R119: a checked LOAD SETUP. -/
def setupSlot (i : Fin 24) (c : SlotSetup) (s : State) : State :=
  let old := entry s.ls.slots i
  let stored := s.setLs (s.ls.setSlot i (storeSetup c old))
  if c.mode = .off then stored.setLs (clearBand i (moveSlot .off i stored.ls))
  else if old.mode = .off then stored.setLs (moveSlot .waiting i (clearBand i stored.ls))
  else setupKept i old c stored

/-- Table 6-1: the code of a shed reason, 0xFF when it is absent. -/
def reasonByte (st : SlotState) : Byte := ((shedReason st).map fun r => byteOf (shedCode r)).getD 0xFF

/-- Table 6-1: the reply payload of LOAD SETUP. -/
def setupPayload (i : Fin 24) (s : State) : List Byte :=
  let sl := entry s.ls.slots i
  [byteOf i.val, byteOf (slotStateCode sl.state), reasonByte sl.state, byteOf sl.demand]

/-- LOAD SETUP (R116). -/
def ownLoadSetup (p : List Byte) (s : State) : Answer :=
  match slotField (byteAt p 0), levelField (byteAt p 2), modeField (byteAt p 3), flagField (byteAt p 4),
    flagField (byteAt p 5) with
  | some i, some level, some mode, some ride, some auto =>
    let done := setupSlot i ⟨min (byteAt p 1).toNat 63, level, mode, ride, auto⟩ s
    { state := done, result := if 63 < (byteAt p 1).toNat then .clamped else .ok, payload := setupPayload i done }
  | _, _, _, _, _ => refuse .badValue s

/-! ### LOAD DEMAND -/

/-- Table 6-1: the demand set of a LOAD DEMAND: byte 0 is slots 7..0, byte 1 slots 15..8, byte 2 slots 23..16. -/
def demandField (p : List Byte) : BitVec 24 := byteAt p 2 ++ byteAt p 1 ++ byteAt p 0

/-- R121: the slots a new demand set unparks become WAITING, in ascending slot order. -/
def unparkDemanded (ls : Loads) : Loads :=
  slotNumbers.foldl
    (fun acc i =>
      let sl := entry acc.slots i
      if decide (sl.state = .parked) && decide (sl.mode = .onDemand) && ls.demand.getLsbD i.val then
        moveSlot .waiting i acc
      else acc) ls

/-- The permit set as a number: bit i is slot i (R115). -/
def permitMask (ls : Loads) : Nat :=
  (slotNumbers.map fun i => if permit ls i then 2 ^ i.val else 0).sum

/-- Table 6-1: the permit set in three bytes. -/
def permitPayload (ls : Loads) : List Byte :=
  [byteOf (permitMask ls), byteOf (permitMask ls / 256), byteOf (permitMask ls / 65536)]

/-- LOAD DEMAND (R121). -/
def ownLoadDemand (p : List Byte) (s : State) : Answer :=
  let done := unparkDemanded { s.ls with demand := demandField p }
  answerWith (permitPayload done) (s.setLs done)

/-! ### LOAD RE-ENABLE and READ LOADS -/

/-- LOAD RE-ENABLE (R128). -/
def ownLoadReEnable (p : List Byte) (s : State) : Answer :=
  match slotField (byteAt p 0) with
  | none => refuse .badValue s
  | some i =>
    if (entry s.ls.slots i).state = .lockedOut then
      let done := s.setLs (moveSlot .waiting i (clearBand i s.ls))
      answerWith [byteOf (slotStateCode (entry done.ls.slots i).state)] done
    else
      { state := s, result := .already, payload := [byteOf (slotStateCode (entry s.ls.slots i).state)] }

/-- Table 6-1: one slot of READ LOADS. DESIGN CHOICE (log 24): the table does not say what bits 5..4 of byte 12 + 3s, the
shed reason, read while bit 3 says that there is none; the model sends 0. -/
def slotPayload (ls : Loads) (i : Fin 24) : List Byte :=
  let sl := entry ls.slots i
  [packByte [(slotStateCode sl.state, 0), ((shedReason sl.state).isSome.toNat, 3),
     (((shedReason sl.state).map shedCode).getD 0, 4), (sl.rideThrough.toNat, 6), (sl.autoRecover.toNat, 7)],
   packByte [(sl.demand, 0), (sl.level.val, 6)],
   packByte [(modeCode sl.mode, 0), ((ls.demand.getLsbD i.val).toNat, 3), (sl.bandCount, 4)]]

/-- Table 6-1: the code of the idle period. -/
def idleCode : IdlePeriod → Nat
  | .short => 0 | .long => 1

/-- READ LOADS (R129). -/
def ownReadLoads (s : State) : Answer :=
  let ls := s.ls
  answerWith ([byteOf s.be.h, byteOf (idleCode ls.idlePeriod)] ++ wordOf ls.parkEntries ++ wordOf ls.observation ++
    wordOf ls.gens.a ++ wordOf ls.gens.b ++
    [packByte [((genOnPhase s .a).toNat, 0), ((genOnPhase s .b).toNat, 1)], byteOf ls.queue.length] ++
    slotNumbers.flatMap (slotPayload ls) ++ ls.queue.map (fun i => byteOf i.val)) s

end Sys2Proof.Machine
end

