-- ==== Sys2Proof/Machine/ParameterTable.lean ====
section
/-! DEFINITION. The Parameter Table's requests (10): SET PARAM and READ PARAM. -/

namespace Sys2Proof.Machine

/-- R187, R188, R190: the bounds a write made now would be fitted to, by the stored values. -/
def paramBounds (stored : Vector Nat 52) (n : Fin 52) : Nat × Nat :=
  let row := entry paramTable n
  if n = paramNumber .dMin then (0, paramValue stored .dMax)
  else if n = paramNumber .dMax then (paramValue stored .dMin, 15)
  else if n = paramNumber .cycleAOn then (0, paramValue stored .cycleAPeriod)
  else if n = paramNumber .cycleBOn then (0, paramValue stored .cycleBPeriod)
  else (row.lower, row.upper)

/-- R187, R188: the value a given value is fitted to. -/
def fitParam (stored : Vector Nat 52) (n : Fin 52) (given : Nat) : Nat :=
  let (lower, upper) := paramBounds stored n
  if n = paramNumber .learnFactor then roundFactor given
  else min (max given lower) upper

/-- R186, R188: is the parameter one whose stored value is in force at once? -/
def atOnce (n : Fin 52) : Bool := decide (n = paramNumber .dMin ∨ n = paramNumber .dMax)

/-- R186, R188: the table with a value stored. -/
def storeParam (n : Fin 52) (v : Nat) (pm : Params) : Params :=
  { stored := setEntry pm.stored n v, inForce := if atOnce n then setEntry pm.inForce n v else pm.inForce }

/-- R81: the live D clamped into the bounds in force. -/
def clampD (s : State) : State :=
  s.setBe { s.be with d := max (min s.be.d (s.par .dMax)) (s.par .dMin) }

/-- R186: a value written to a parameter; a write to a D bound clamps D in the same event. -/
def writeParam (n : Fin 52) (v : Nat) (s : State) : State :=
  let stored := s.setPm (storeParam n v s.pm)
  if atOnce n then clampD stored else stored

/-- SET PARAM (R186). DEDUCED (log 25): an on count that stands stored above a period lowered since, and is written
again with that same value, is fitted to the new period and answered CLAMPED (R187), where R186 by itself would have a
write of the value already stored answered OK. -/
def ownSetParam (p : List Byte) (s : State) : Answer :=
  match paramField (byteAt p 0) with
  | none => refuse .badValue s
  | some n =>
    let fitted := fitParam s.pm.stored n (word p 1)
    let done := writeParam n fitted s
    { state := done, result := if fitted = word p 1 then .ok else .clamped,
      payload := [byteOf n.val] ++ wordOf (entry done.pm.stored n) ++ wordOf (entry done.pm.inForce n) }

/-- READ PARAM (R190). -/
def ownReadParam (p : List Byte) (s : State) : Answer :=
  match paramField (byteAt p 0) with
  | none => refuse .badValue s
  | some n =>
    let bounds := paramBounds s.pm.stored n
    answerWith ([byteOf n.val] ++ wordOf (entry s.pm.stored n) ++ wordOf (entry s.pm.inForce n) ++ wordOf bounds.1 ++
      wordOf bounds.2 ++ wordOf (entry paramTable n).dflt) s

end Sys2Proof.Machine
end

