-- ==== Sys2Proof/Machine/Resets.lean ====
section
/-! DEFINITION. The two reset kinds: the reset pin (POWER_ON_RESET, RESET_RELEASE) and REINIT (R179 and the reset tables
of the chapters). -/

namespace Sys2Proof.Machine

/-! ### REINIT -/

/-- R131: a slot at REINIT: WAITING with its counts 0 unless its mode is OFF. -/
def reinitSlot (sl : Slot) : Slot :=
  if sl.mode = .off then sl else { sl with state := .waiting, bandCount := 0, idle := 0 }

/-- R131, R152: LS at REINIT: the configuration is kept, the queue is rebuilt level-0 slots first. -/
def reinitLoads (ls : Loads) : Loads :=
  let slots := mapEntries reinitSlot ls.slots
  let waiting := slotNumbers.filter (fun i => decide ((entry slots i).state = .waiting))
  { slots := slots, demand := 0, gens := ⟨0, 0⟩, idlePeriod := .short, parkEntries := 0, observation := 0,
    queue := waiting.filter (fun i => decide ((entry slots i).level = 0)) ++
      waiting.filter (fun i => decide ((entry slots i).level ≠ 0)),
    sinceStart := 0 }

/-- R44: RFT at REINIT. -/
def reinitRoute (rt : RouteTable) : RouteTable :=
  { rt with armed := [], zones := mapEntries (fun z => { z with prevMatch := false }) rt.zones }

/-- R73: CM at REINIT: the drop log, lost count and drop number are kept. -/
def reinitCollector (cm : Collector) : Collector :=
  { resetCollector with log := cm.log, lost := cm.lost, dropNumber := cm.dropNumber }

/-- R179: a port at REINIT. -/
def reinitPort (p : Port) : Port := { p with bad := 0 }

/-- R179: every block at its REINIT values, taken from the values that REINIT brings into force (R185). -/
def reinitState (s : State) : State :=
  let pm := bringIntoForce s.pm
  { s with
    si := { resetSense with rx := s.si.rx }
    rft := reinitRoute s.rft
    cm := reinitCollector s.cm
    be := resetBudget (supplyOf .down (paramValue pm.inForce .battery)) (paramValue pm.inForce .dMin)
      (paramValue pm.inForce .window)
    tg := resetGrants
    ls := reinitLoads s.ls
    ad := { s.ad with links := ⟨resetLinkAlarms, resetLinkAlarms, resetLinkAlarms⟩ }
    lp := ⟨reinitPort s.lp.t, reinitPort s.lp.a, reinitPort s.lp.v⟩
    pm := pm }

/-- REINIT (R179). -/
def ownReinit (s : State) : Answer :=
  if s.cm.state = .down then answerOk (reinitState s) else refuse .busy s

/-! ### The reset pin -/

/-- POWER_ON_RESET (R16, R182): the pin is asserted; every block takes and holds its power-on value. The select lines
are inputs, and the waiting commands are the sender's. -/
def execPowerOnReset (s : State) : Host.Outcome State Fault Refusal :=
  .next (State.powerOn true ⟨s.lp.t.select, s.lp.a.select, s.lp.v.select⟩ s.pending)

/-- R16: at the release of the pin both receivers hunt and both silence timers restart; the time base counts from 0
(R10). -/
def releasePin (s : State) : State :=
  let restart := fun (c : SenseChannel) => { c with silence := 0 }
  ((s.setSi { s.si with chan := ⟨restart s.si.chan.a, restart s.si.chan.b⟩, rx := ⟨none, none⟩ }).setTimeBase
    0).setResetPin false

/-- RESET_RELEASE (R16): the pin is released; when it is not asserted there is nothing to release (log 5). -/
def execResetRelease (s : State) : Host.Outcome State Fault Refusal :=
  .next (whenDue s.resetPin releasePin s)

end Sys2Proof.Machine
end

