-- ==== Sys2Proof/Machine/RouteRequests.lean ====
section
/-! DEFINITION. The requests of SI, PT and RFT: RESTORE CHANNEL, SET POSITION (01), and the feature and zone requests
with their payloads (02, Table 2-1). -/

namespace Sys2Proof.Machine

/-! ### Sense and position -/

/-- R15: the named channel becomes HEALTHY. -/
def restoredChannel (c : SenseChannel) : SenseChannel :=
  { c with health := .healthy, reason := none, plaus := 0, seqRecord := none, silence := 0 }

/-- R15, R144: RESTORE CHANNEL of a FAILED channel. -/
def restore (ch : Channel) (s : State) : State :=
  let healthy := setChannel ch (restoredChannel (s.si.chan.get ch)) s
  match s.si.active with
  | some _ => healthy
  | none =>
    let sensing := healthy.setSi { healthy.si with active := some ch, senseLost := false, prevElev := ⟨none, none⟩ }
    sensing.setLs (senseRestore sensing.ls)

/-- RESTORE CHANNEL (R15). -/
def ownRestoreChannel (p : List Byte) (s : State) : Answer :=
  match channelField (byteAt p 0) with
  | none => refuse .badValue s
  | some ch => if (s.si.chan.get ch).health = .healthy then refuse .already s else answerOk (restore ch s)

/-- SET POSITION (R18, R38, R53): P and the remainder are written, the armed list is emptied, and a loss metre of a
SUSPECT becomes absent. -/
def ownSetPosition (p : List Byte) (s : State) : Answer :=
  let placed := emptyArmed (s.setPt { metre := word p 0, cm := 0, isSet := true })
  answerOk (placed.setCm { placed.cm with
    lossMetre := if placed.cm.state = .suspect then none else placed.cm.lossMetre })

/-! ### Point table -/

/-- Table 2-1: the payload of a refused PUT. -/
def refusedPayload (i : Fin 64) (ps : PointSet) : List Byte :=
  [byteOf i.val] ++ wordOf ps.way0.start ++ [featureCode ps.way0.kind] ++ wordOf ps.way1.start ++
    [featureCode ps.way1.kind]

/-- R30: does a stored PUT arm its entry at once? -/
def armsAtOnce (i : Fin 64) (w : Way) (e : PointEntry) (s : State) : Bool :=
  s.pt.isSet && armable i w e s && decide (s.rft.armed.length < 4)

/-- R29: the result of a stored PUT. -/
def putResult (lock : Bool) (given : Nat) (e : PointEntry) : Result :=
  if lock && !e.locked then .lockLimit else if e.factor ≠ given then .clamped else .ok

/-- R29, R30: a PUT whose entry was stored in a way: its arming, result and payload. -/
def putStored (i : Fin 64) (w : Way) (lock : Bool) (given : Nat) (s : State) : Answer :=
  let e := (entry s.rft.points i).at w
  { state := if s.pt.isSet then armCandidate i w e s else s
    result := putResult lock given e
    payload := [byteOf i.val, byteOf (wayCode w), byteOf e.factor,
      packByte [(e.locked.toNat, 0), ((armsAtOnce i w e s).toNat, 1)]] }

/-- R25, R29: a checked PUT: the insert, then its arming; TABLE_REFUSED is raised when it is refused. -/
def putChecked (start length : Nat) (kind : FeatureKind) (given : Nat) (lock : Bool) (s : State) : Answer :=
  match putInsert start length kind (roundFactor given) lock s.rft with
  | none =>
    { state := raise .tableRefused s, result := .tableRefused,
      payload := refusedPayload (setOf start) (entry s.rft.points (setOf start)) }
  | some (rt, w) => putStored (setOf start) w lock given (s.setRft rt)

/-- R29: the kind a PUT may carry: LEARNED_GAP and unknown codes are refused. -/
def putKind (b : Byte) : Option FeatureKind :=
  match featureField b with
  | some .learnedGap | none => none
  | some k => some k

/-- FEATURE PUT (R29). -/
def ownFeaturePut (p : List Byte) (s : State) : Answer :=
  match putKind (byteAt p 3), flagField (byteAt p 5) with
  | some kind, some lock =>
    if byteAt p 2 = 0 then refuse .badValue s
    else putChecked (word p 0) (byteAt p 2).toNat kind (byteAt p 4).toNat lock s
  | _, _ => refuse .badValue s

/-- R31: the table without the entry of a way. -/
def evictWay (i : Fin 64) (w : Way) (rt : RouteTable) : RouteTable :=
  let ps := entry rt.points i
  { rt.setPoints i (ps.write w invalidEntry) with
    lockCount := if (ps.at w).locked then rt.lockCount - 1 else rt.lockCount }

/-- FEATURE EVICT (R31). -/
def ownFeatureEvict (p : List Byte) (s : State) : Answer :=
  match featureField (byteAt p 2) with
  | none => refuse .badValue s
  | some kind =>
    match findSame (word p 0) kind (entry s.rft.points (setOf (word p 0))) with
    | none => refuse .notFound s
    | some w => answerOk (s.setRft (evictWay (setOf (word p 0)) w s.rft))

/-- Table 2-1: the payload of FEATURE READ (R32; the armed bit of an invalid entry is log 15). -/
def featurePayload (i : Fin 64) (w : Way) (s : State) : List Byte :=
  let ps := entry s.rft.points i
  let e := ps.at w
  [packByte [(e.valid.toNat, 0), (e.locked.toNat, 1), ((hasCopy s.rft.armed i w e.start).toNat, 2),
     (wayCode ps.older, 3)]] ++
    wordOf e.start ++ [byteOf e.length, featureCode e.kind, byteOf e.factor, byteOf (tagOf e.start),
     byteOf s.rft.lockCount]

/-- FEATURE READ (R32). -/
def ownFeatureRead (p : List Byte) (s : State) : Answer :=
  if h : (byteAt p 0).toNat < 64 then
    if byteAt p 1 = 0 then answerWith (featurePayload ⟨(byteAt p 0).toNat, h⟩ .w0 s) s
    else if byteAt p 1 = 1 then answerWith (featurePayload ⟨(byteAt p 0).toNat, h⟩ .w1 s) s
    else refuse .badValue s
  else refuse .badValue s

/-- TABLE CLEAR (R33). -/
def ownTableClear (s : State) : Answer :=
  answerOk (s.setRft { s.rft with points := Vector.replicate 64 emptySet, lockCount := 0 })

/-! ### Armed list -/

/-- Table 2-1: one copy of ARMED READ. -/
def copyPayload (c : ArmedCopy) : List Byte :=
  [featureCode c.kind, byteOf c.factor] ++ wordOf c.start ++ [byteOf c.length] ++ wordOf c.windowEnd ++
    [byteOf c.set.val, byteOf (wayCode c.way)]

/-- ARMED READ (R40). -/
def ownArmedRead (s : State) : Answer :=
  let armed := s.rft.armed
  answerWith ([byteOf armed.length] ++ wordOf s.rft.lastQ ++
    [packByte [((gapExpected armed).toNat, 0), ((frogEffective armed).toNat, 1)], byteOf (coastFactor armed)] ++
    armed.flatMap copyPayload) s

/-! ### Zones -/

/-- R41: the index field of the zone requests. -/
def zoneField (b : Byte) : Option (Fin 8) := if h : b.toNat < 8 then some ⟨b.toNat, h⟩ else none

/-- R41: the entry a checked ZONE SET stores; fields its kind does not use are stored as 0. -/
def zoneEntry (enable : Bool) (kind : ZoneKind) (p : List Byte) : Zone :=
  { enable := enable, kind := kind, base := BitVec.ofNat 12 (word p 3), mask := BitVec.ofNat 12 (word p 5),
    autoLower := decide (kind = .offWire) && decide (byteAt p 7 = 1),
    iLim := if kind = .limit then min (word p 8) 2047 else 0,
    vLow := if kind = .limit then min (word p 10) 1023 else 0, prevMatch := false }

/-- R41: the checks of the fields that a ZONE SET's kind uses, after index, enable and kind. -/
def zoneFieldsFit (kind : ZoneKind) (p : List Byte) : Bool :=
  (!decide (kind = .offWire) || (flagField (byteAt p 7)).isSome) &&
    decide (word p 3 ≤ 4095) && decide (word p 5 ≤ 4095)

/-- R41: an override above its bound is stored at the bound and answered CLAMPED. -/
def zoneClamped (kind : ZoneKind) (p : List Byte) : Bool :=
  decide (kind = .limit) && (decide (2047 < word p 8) || decide (1023 < word p 10))

/-- ZONE SET (R41). -/
def ownZoneSet (p : List Byte) (s : State) : Answer :=
  match zoneField (byteAt p 0), flagField (byteAt p 1), zoneKindField (byteAt p 2) with
  | some i, some enable, some kind =>
    if zoneFieldsFit kind p then
      { state := s.setRft { s.rft with zones := setEntry s.rft.zones i (zoneEntry enable kind p) }
        result := if zoneClamped kind p then .clamped else .ok
        payload := [] }
    else refuse .badValue s
  | _, _, _ => refuse .badValue s

/-- Table 2-1: the payload of ZONE READ. -/
def zonePayload (i : Fin 8) (s : State) : List Byte :=
  let z := entry s.rft.zones i
  [byteOf i.val, packByte [(z.enable.toNat, 0), (zoneKindCode z.kind, 1), (z.autoLower.toNat, 3),
     ((zoneMatches s.pt z).toNat, 4)]] ++
    wordOf z.base.toNat ++ wordOf z.mask.toNat ++ wordOf z.iLim ++ wordOf z.vLow

/-- ZONE READ (R41). -/
def ownZoneRead (p : List Byte) (s : State) : Answer :=
  match zoneField (byteAt p 0) with
  | none => refuse .badValue s
  | some i => answerWith (zonePayload i s) s

end Sys2Proof.Machine
end

