-- ==== Sys2Proof/Machine/Status.lean ====
section
/-! DEFINITION. READ STATUS (R181, Table 9-4). -/

namespace Sys2Proof.Machine

/-- Bytes 3 and 4, 5 and 6: a channel. -/
def channelStatus (c : SenseChannel) : List Byte :=
  [packByte [((decide (c.health = .failed)).toNat, 0), (failCode c.reason, 1), (c.status.toNat, 4)], byteOf c.plaus]

/-- Bytes 0 to 12: the bad-frame counters, SI and PT (R20). -/
def statusSense (s : State) : List Byte :=
  [byteOf s.lp.t.bad, byteOf s.lp.a.bad, byteOf s.lp.v.bad] ++ channelStatus s.si.chan.a ++ channelStatus s.si.chan.b ++
    [packByte [(activeCode s.si.active, 0), (s.si.senseLost.toNat, 2), (s.pt.isSet.toNat, 3)]] ++
    word16 s.si.epoch ++ wordOf s.pt.metre ++ [byteOf s.pt.cm]

/-- A last elevation: bit 15 present, bits 9..0 the elevation. -/
def elevStatus (e : Option (BitVec 10)) : List Byte :=
  wordOf (match e with
    | some x => 32768 + x.toNat
    | none => 0)

/-- Bytes 13 to 26: CM (R72). -/
def statusCollector (s : State) : List Byte :=
  let cm := s.cm
  [packByte [(collectorCode cm.state, 0), (supplyCode s.supply, 3), (cm.lines.pos.toNat, 5), (cm.lines.neg.toNat, 6)],
   byteOf cm.presentCount, byteOf cm.confirmCount] ++ wordOf cm.epochsIn ++
    [packByte [(polesCode cm.dropMask, 0), (cm.marks.t.toNat, 3), (cm.marks.a.toNat, 4), (cm.marks.v.toNat, 5),
       (cm.lossMetre.isSome.toNat, 6), (cm.lossEpoch.isSome.toNat, 7)]] ++
    wordOf (cm.lossMetre.getD 0) ++ word16 (cm.lossEpoch.getD 0) ++ elevStatus cm.lastElev.pos ++
    elevStatus cm.lastElev.neg

/-- The four flags of a half byte, TAINT lowest, from the given bit. -/
def conditionBits (c : Conditions) (k : Nat) : List (Nat × Nat) :=
  [(c.taint.toNat, k), (c.overrange.toNat, k + 1), (c.shortfall.toNat, k + 2), (c.zeroSpan.toNat, k + 3)]

/-- Bytes 27 to 37: BE (R100). -/
def statusBudget (s : State) : List Byte :=
  let be := s.be
  wordOf be.heldV.toNat ++
    [packByte [(be.d, 0), (be.sag.toNat, 4)], byteOf be.windowCount, byteOf be.windowLength,
     packByte [(be.h, 0), (be.hStar, 3)]] ++
    wordOf be.sinceH ++
    [packByte (conditionBits be.causes 0 ++ conditionBits be.sticky 4),
     packByte (conditionBits (escalateEnables (s.par .escalate)) 0), byteOf be.freeze]

/-- Bytes 38 to 44: TG (R102) and the epochs since the last start (R147). -/
def statusGrants (s : State) : List Byte :=
  signedWordOf s.tg.lastGrant ++ word16 s.tg.lastEpoch ++ [byteOf s.tg.reported.toNat] ++ wordOf s.ls.sinceStart

/-- A source on the asking link; an entry that is not pending reads with count 0 and level 0. -/
def sourceStatus (e : PendingEntry) : Byte :=
  if e.pending then packByte [(e.count, 0), (e.level.val, 4), (1, 6)] else 0

/-- Frame f of the stack, 0xFF, 0xFF where the stack holds none. -/
def frameStatus (stack : List AlarmFrame) (f : Nat) : List Byte :=
  match stack[f]? with
  | some fr => [byteOf fr.source.val, byteOf fr.level.val]
  | none => [0xFF, 0xFF]

/-- Bytes 45 to 69: the alarms of the asking link (R168). -/
def statusAlarms (a : LinkAlarms) : List Byte :=
  (sourceNumbers.map fun n => sourceStatus (entry a.pending n)) ++
    [packByte [(a.stack.length, 0), (a.attention.toNat, 3)]] ++ [0, 1, 2, 3].flatMap (frameStatus a.stack)

/-- READ STATUS on a link (R181). -/
def ownReadStatus (l : Link) (s : State) : Answer :=
  answerWith (statusSense s ++ statusCollector s ++ statusBudget s ++ statusGrants s ++ statusAlarms (s.ad.links.get l)) s

end Sys2Proof.Machine
end

