-- ==== Sys2Proof/Machine/LinkPorts.lean ====
section
/-! DEFINITION. The link ports (09): the checks and the owning block of a request (R173 to R178), the transaction
(R170 to R172), and the commands of the link lines. -/

namespace Sys2Proof.Machine

/-! ### Taking a request -/

/-- The owning block's answer to a request of a kind on a link (Table 9-3, column "Owning rule"). -/
def ownerAnswer (k : Kind) (l : Link) (p : List Byte) (s : State) : Answer :=
  match k with
  | .readStatus => ownReadStatus l s
  | .readBudget => ownReadBudget s
  | .dropSeen => ownDropSeen l s
  | .takeAlarm => ownTakeAlarm l s
  | .doneAlarm => ownDoneAlarm l s
  | .tractionRequest => ownTractionRequest p s
  | .loadSetup => ownLoadSetup p s
  | .loadDemand => ownLoadDemand p s
  | .loadReEnable => ownLoadReEnable p s
  | .readLoads => ownReadLoads s
  | .raise => ownRaise s
  | .lower => ownLower s
  | .clearDrop => ownClearDrop s
  | .readDropLog => ownReadDropLog s
  | .popDropLog => ownPopDropLog s
  | .setPosition => ownSetPosition p s
  | .restoreChannel => ownRestoreChannel p s
  | .featurePut => ownFeaturePut p s
  | .featureEvict => ownFeatureEvict p s
  | .featureRead => ownFeatureRead p s
  | .tableClear => ownTableClear s
  | .armedRead => ownArmedRead s
  | .zoneSet => ownZoneSet p s
  | .zoneRead => ownZoneRead p s
  | .clearConditions => ownClearConditions s
  | .alarmRouteSet => ownAlarmRouteSet p s
  | .readAlarmRoutes => ownReadAlarmRoutes s
  | .setParam => ownSetParam p s
  | .readParam => ownReadParam p s
  | .reinit => ownReinit s

/-- Write one port. -/
def setPort (l : Link) (p : Port) (s : State) : State := s.setLp (s.lp.put l p)

/-- R177: the bad-frame counter of a port gains 1. -/
def countBadFrame (l : Link) (s : State) : State :=
  let p := s.lp.get l
  setPort l { p with bad := satAdd 255 p.bad 1 } s

/-- R171, R173: the bytes of a request frame that its check covers: kind, length, payload. -/
def checkedBytes (code : Byte) (payload : List Byte) : List Byte := code :: byteOf payload.length :: payload

/-- R173: is the check of a request good? -/
def goodCheck (code : Byte) (body : RequestBody) : Bool :=
  decide (crc (checkedBytes code body.payload) = body.check)

/-- R175: the port's checks in order, and then the owning block. -/
def takeRequest (l : Link) (code : Byte) (body : RequestBody) (s : State) : Answer :=
  if goodCheck code body then
    match kindOfCode code with
    | none => refuse .unknown s
    | some k =>
      if body.payload.length = kindLength k then
        if permitted l k then ownerAnswer k l body.payload s else refuse .denied s
      else refuse .length s
  else refuse .checkFail (countBadFrame l s)

/-- R174, Table 9-1: the reply frame of an answer: the three header bytes from the state as the request leaves it, the
result, the payload length, the payload, and the check. -/
def replyFrame (l : Link) (a : Answer) : List Byte :=
  let body := [headerOne l a.state, headerTwo a.state, headerThree a.state, resultCode a.result,
    byteOf a.payload.length] ++ a.payload
  body ++ [crc body]

/-- R170: the request was taken: the reply buffer is filled and the port enters TURNAROUND. -/
def enterTurnaround (l : Link) (a : Answer) : State :=
  setPort l { a.state.lp.get l with phase := .turnaround, pos := 0, reply := replyFrame l a } a.state

/-- R173: the check byte of a frame completes: the whole frame stands in the request buffer and the request is
taken. -/
def completeFrame (l : Link) (code : Byte) (body : RequestBody) (s : State) : State :=
  let held := setPort l { s.lp.get l with
    request := checkedBytes code body.payload ++ [body.check], pos := body.payload.length + 2, reply := [] } s
  enterTurnaround l (takeRequest l code body held)

/-! ### The select line -/

/-- R171: the length byte is above 28: the frame is malformed, nothing more is stored, and the port goes to FILL. -/
def malformed (l : Link) (s : State) : State :=
  let counted := countBadFrame l s
  setPort l { counted.lp.get l with phase := .fill, pos := 0 } counted

/-- R170, R182: select is asserted. An assertion is a new one only while the line is released; the port then goes from
IDLE to REQUEST with an empty buffer. -/
def assertSelect (l : Link) (s : State) : State :=
  let p := s.lp.get l
  if p.select then s
  else setPort l { p with select := true, phase := .request, pos := 0, request := [], reply := [] } s

/-- R172: does a release of select now abandon a frame: the port is in REQUEST and at least one clock edge was
sampled? -/
def abandons (l : Link) (edges : BitVec 3) (s : State) : Bool :=
  let p := s.lp.get l
  decide (p.phase = .request) && (decide (0 < p.pos) || decide (edges ≠ 0))

/-- R170, R172: select is released: the port returns to IDLE, a reply not sent is lost, and an abandoned frame is
counted. -/
def releaseSelect (l : Link) (edges : BitVec 3) (s : State) : State :=
  let counted := if abandons l edges s then countBadFrame l s else s
  setPort l { counted.lp.get l with select := false, phase := .idle, pos := 0, reply := [] } counted

/-! ### Bytes -/

/-- R170, R171: a byte completes in REQUEST. -/
def requestByte (l : Link) (b : Byte) (s : State) : State :=
  let p := s.lp.get l
  let received := p.request ++ [b]
  if p.pos = 1 ∧ 28 < b.toNat then malformed l s
  else if 2 ≤ p.pos ∧ p.pos = (byteAt received 1).toNat + 2 then
    completeFrame l (byteAt received 0) ⟨(received.drop 2).dropLast, b⟩ s
  else setPort l { p with request := received, pos := p.pos + 1 } s

/-- R170: a byte completes on a port, in each phase. -/
def byteCompletes (l : Link) (b : Byte) (s : State) : State :=
  let p := s.lp.get l
  match p.phase with
  | .idle => s
  | .request => requestByte l b s
  | .turnaround =>
    if p.pos = 0 then setPort l { p with pos := 1 } s else setPort l { p with phase := .reply, pos := 0 } s
  | .reply =>
    if p.reply.length ≤ p.pos + 1 then setPort l { p with phase := .fill, pos := 0 } s
    else setPort l { p with pos := p.pos + 1 } s
  | .fill => setPort l { p with pos := satAdd 255 p.pos 1 } s

/-! ### A whole request frame (log 8) -/

/-- A request frame of a kind on a link from its own assertion of select to its check byte: a transaction still open is
released first (R170, R172); an over-long frame is malformed (R171). -/
def frameOnLink (l : Link) (code : Byte) (body : RequestBody) (s : State) : State :=
  let opened := assertSelect l (releaseSelect l 0 s)
  if body.payload.length ≤ 28 then completeFrame l code body opened
  else malformed l (setPort l { opened.lp.get l with request := [code], pos := 1 } opened)

/-- A request command: its frame on its link, nothing while the reset pin is asserted. -/
def requestCommand (k : Kind) (l : Link) (body : RequestBody) (s : State) : Host.Outcome State Fault Refusal :=
  whilePowered (frameOnLink l (kindCode k) body) s

/-! ### The commands of the link lines -/

/-- SELECT_ASSERTED (R170). While the reset pin is asserted only the level of the line is seen (R182). -/
def execSelectAsserted (l : Link) (s : State) : Host.Outcome State Fault Refusal :=
  .next (if s.resetPin then setPort l { s.lp.get l with select := true } s else assertSelect l s)

/-- SELECT_RELEASED (R170, R172), `edges` clock edges of a byte not complete having been sampled. -/
def execSelectReleased (l : Link) (edges : BitVec 3) (s : State) : Host.Outcome State Fault Refusal :=
  .next (if s.resetPin then setPort l { s.lp.get l with select := false } s else releaseSelect l edges s)

/-- FRAME_ABANDONED (R172): a release of select in REQUEST before the check byte. -/
def execFrameAbandoned (l : Link) (edges : BitVec 3) (s : State) : Host.Outcome State Fault Refusal :=
  whilePowered (fun s => whenDue (abandons l edges s) (releaseSelect l edges) s) s

/-- R171: byte 1 of a request completes with a length above 28. -/
def overrangeDue (l : Link) (n : Byte) (s : State) : Bool :=
  decide ((s.lp.get l).phase = .request) && decide ((s.lp.get l).pos = 1) && decide (28 < n.toNat)

/-- REQUEST_LENGTH_OVERRANGE (R171). -/
def execRequestLengthOverrange (l : Link) (n : Byte) (s : State) : Host.Outcome State Fault Refusal :=
  whilePowered (fun s => whenDue (overrangeDue l n s) (malformed l) s) s

/-- LINK_BYTE_COMPLETE (R170, R171, R173). -/
def execLinkByteComplete (l : Link) (b : Byte) (s : State) : Host.Outcome State Fault Refusal :=
  whilePowered (byteCompletes l b) s

/-- UNKNOWN_KIND (R175): a completed request frame with this kind code. -/
def execUnknownKind (l : Link) (code : Byte) (body : RequestBody) (s : State) : Host.Outcome State Fault Refusal :=
  whilePowered (frameOnLink l code body) s

end Sys2Proof.Machine
end

