-- ==== Sys2Proof/Machine/Requests.lean ====
section
/-! DEFINITION. The 30 request commands of Table 9-3: each is its own kind's frame on its link, checked by the port
(R175) and answered by its owning block. -/

namespace Sys2Proof.Machine

/-- READ STATUS (R181; checks R175). -/
def execReadStatus (l : Link) (body : RequestBody) (s : State) : Host.Outcome State Fault Refusal :=
  requestCommand .readStatus l body s

/-- READ BUDGET (R109; checks R175). -/
def execReadBudget (l : Link) (body : RequestBody) (s : State) : Host.Outcome State Fault Refusal :=
  requestCommand .readBudget l body s

/-- DROP SEEN (R67; checks R175). -/
def execDropSeen (l : Link) (body : RequestBody) (s : State) : Host.Outcome State Fault Refusal :=
  requestCommand .dropSeen l body s

/-- TAKE ALARM (R163, R164; checks R175). -/
def execTakeAlarm (l : Link) (body : RequestBody) (s : State) : Host.Outcome State Fault Refusal :=
  requestCommand .takeAlarm l body s

/-- DONE ALARM (R165; checks R175). -/
def execDoneAlarm (l : Link) (body : RequestBody) (s : State) : Host.Outcome State Fault Refusal :=
  requestCommand .doneAlarm l body s

/-- TRACTION REQUEST (R103; checks R175). -/
def execTractionRequest (l : Link) (body : RequestBody) (s : State) : Host.Outcome State Fault Refusal :=
  requestCommand .tractionRequest l body s

/-- LOAD SETUP (R116; checks R175). -/
def execLoadSetup (l : Link) (body : RequestBody) (s : State) : Host.Outcome State Fault Refusal :=
  requestCommand .loadSetup l body s

/-- LOAD DEMAND (R121; checks R175). -/
def execLoadDemand (l : Link) (body : RequestBody) (s : State) : Host.Outcome State Fault Refusal :=
  requestCommand .loadDemand l body s

/-- LOAD RE-ENABLE (R128; checks R175). -/
def execLoadReEnable (l : Link) (body : RequestBody) (s : State) : Host.Outcome State Fault Refusal :=
  requestCommand .loadReEnable l body s

/-- READ LOADS (R129; checks R175). -/
def execReadLoads (l : Link) (body : RequestBody) (s : State) : Host.Outcome State Fault Refusal :=
  requestCommand .readLoads l body s

/-- RAISE (R63; checks R175). -/
def execRaise (l : Link) (body : RequestBody) (s : State) : Host.Outcome State Fault Refusal :=
  requestCommand .raise l body s

/-- LOWER (R64; checks R175). -/
def execLower (l : Link) (body : RequestBody) (s : State) : Host.Outcome State Fault Refusal :=
  requestCommand .lower l body s

/-- CLEAR DROP (R65; checks R175). -/
def execClearDrop (l : Link) (body : RequestBody) (s : State) : Host.Outcome State Fault Refusal :=
  requestCommand .clearDrop l body s

/-- READ DROP LOG (R70; checks R175). -/
def execReadDropLog (l : Link) (body : RequestBody) (s : State) : Host.Outcome State Fault Refusal :=
  requestCommand .readDropLog l body s

/-- POP DROP LOG (R71; checks R175). -/
def execPopDropLog (l : Link) (body : RequestBody) (s : State) : Host.Outcome State Fault Refusal :=
  requestCommand .popDropLog l body s

/-- SET POSITION (R18; checks R175). -/
def execSetPosition (l : Link) (body : RequestBody) (s : State) : Host.Outcome State Fault Refusal :=
  requestCommand .setPosition l body s

/-- RESTORE CHANNEL (R15; checks R175). -/
def execRestoreChannel (l : Link) (body : RequestBody) (s : State) : Host.Outcome State Fault Refusal :=
  requestCommand .restoreChannel l body s

/-- FEATURE PUT (R29; checks R175). -/
def execFeaturePut (l : Link) (body : RequestBody) (s : State) : Host.Outcome State Fault Refusal :=
  requestCommand .featurePut l body s

/-- FEATURE EVICT (R31; checks R175). -/
def execFeatureEvict (l : Link) (body : RequestBody) (s : State) : Host.Outcome State Fault Refusal :=
  requestCommand .featureEvict l body s

/-- FEATURE READ (R32; checks R175). -/
def execFeatureRead (l : Link) (body : RequestBody) (s : State) : Host.Outcome State Fault Refusal :=
  requestCommand .featureRead l body s

/-- TABLE CLEAR (R33; checks R175). -/
def execTableClear (l : Link) (body : RequestBody) (s : State) : Host.Outcome State Fault Refusal :=
  requestCommand .tableClear l body s

/-- ARMED READ (R40; checks R175). -/
def execArmedRead (l : Link) (body : RequestBody) (s : State) : Host.Outcome State Fault Refusal :=
  requestCommand .armedRead l body s

/-- ZONE SET (R41; checks R175). -/
def execZoneSet (l : Link) (body : RequestBody) (s : State) : Host.Outcome State Fault Refusal :=
  requestCommand .zoneSet l body s

/-- ZONE READ (R41; checks R175). -/
def execZoneRead (l : Link) (body : RequestBody) (s : State) : Host.Outcome State Fault Refusal :=
  requestCommand .zoneRead l body s

/-- CLEAR CONDITIONS (R93; checks R175). -/
def execClearConditions (l : Link) (body : RequestBody) (s : State) : Host.Outcome State Fault Refusal :=
  requestCommand .clearConditions l body s

/-- ALARM ROUTE SET (R157; checks R175). -/
def execAlarmRouteSet (l : Link) (body : RequestBody) (s : State) : Host.Outcome State Fault Refusal :=
  requestCommand .alarmRouteSet l body s

/-- READ ALARM ROUTES (R159; checks R175). -/
def execReadAlarmRoutes (l : Link) (body : RequestBody) (s : State) : Host.Outcome State Fault Refusal :=
  requestCommand .readAlarmRoutes l body s

/-- SET PARAM (R186; checks R175). -/
def execSetParam (l : Link) (body : RequestBody) (s : State) : Host.Outcome State Fault Refusal :=
  requestCommand .setParam l body s

/-- READ PARAM (R190; checks R175). -/
def execReadParam (l : Link) (body : RequestBody) (s : State) : Host.Outcome State Fault Refusal :=
  requestCommand .readParam l body s

/-- REINIT (R179; checks R175). -/
def execReinit (l : Link) (body : RequestBody) (s : State) : Host.Outcome State Fault Refusal :=
  requestCommand .reinit l body s

end Sys2Proof.Machine
end

