-- ==== Sys2Proof/Machine/Dispatch.lean ====
section
/-! DEFINITION. One arm per command. -/

namespace Sys2Proof.Machine

def exec (i : Instr) (s : State) : Host.Outcome State Fault Refusal :=
  match i with
  | .powerOnReset => Sys2Proof.Machine.execPowerOnReset s
  | .resetRelease => Sys2Proof.Machine.execResetRelease s
  | .millisecondTick => Sys2Proof.Machine.execMillisecondTick s
  | .sampleFrame ch => Sys2Proof.Machine.execSampleFrame ch s
  | .presentCountReached set => Sys2Proof.Machine.execPresentCountReached set s
  | .confirmCountReached set => Sys2Proof.Machine.execConfirmCountReached set s
  | .raiseLimitExpiry set => Sys2Proof.Machine.execRaiseLimitExpiry set s
  | .unloadLimitExpiry set => Sys2Proof.Machine.execUnloadLimitExpiry set s
  | .cyclePeriodWrap g => Sys2Proof.Machine.execCyclePeriodWrap g s
  | .idleLimitPark slot => Sys2Proof.Machine.execIdleLimitPark slot s
  | .observationPeriodEnd => Sys2Proof.Machine.execObservationPeriodEnd s
  | .derateWindowEnd v => Sys2Proof.Machine.execDerateWindowEnd v s
  | .freezeLimitReached => Sys2Proof.Machine.execFreezeLimitReached s
  | .slotStart => Sys2Proof.Machine.execSlotStart s
  | .silenceTimerExpiry ch => Sys2Proof.Machine.execSilenceTimerExpiry ch s
  | .selectAsserted l => Sys2Proof.Machine.execSelectAsserted l s
  | .requestLengthOverrange l n => Sys2Proof.Machine.execRequestLengthOverrange l n s
  | .frameAbandoned l edges => Sys2Proof.Machine.execFrameAbandoned l edges s
  | .selectReleased l edges => Sys2Proof.Machine.execSelectReleased l edges s
  | .unknownKind l code body => Sys2Proof.Machine.execUnknownKind l code body s
  | .readStatus l body => Sys2Proof.Machine.execReadStatus l body s
  | .readBudget l body => Sys2Proof.Machine.execReadBudget l body s
  | .dropSeen l body => Sys2Proof.Machine.execDropSeen l body s
  | .takeAlarm l body => Sys2Proof.Machine.execTakeAlarm l body s
  | .doneAlarm l body => Sys2Proof.Machine.execDoneAlarm l body s
  | .tractionRequest l body => Sys2Proof.Machine.execTractionRequest l body s
  | .loadSetup l body => Sys2Proof.Machine.execLoadSetup l body s
  | .loadDemand l body => Sys2Proof.Machine.execLoadDemand l body s
  | .loadReEnable l body => Sys2Proof.Machine.execLoadReEnable l body s
  | .readLoads l body => Sys2Proof.Machine.execReadLoads l body s
  | .raise l body => Sys2Proof.Machine.execRaise l body s
  | .lower l body => Sys2Proof.Machine.execLower l body s
  | .clearDrop l body => Sys2Proof.Machine.execClearDrop l body s
  | .readDropLog l body => Sys2Proof.Machine.execReadDropLog l body s
  | .popDropLog l body => Sys2Proof.Machine.execPopDropLog l body s
  | .setPosition l body => Sys2Proof.Machine.execSetPosition l body s
  | .restoreChannel l body => Sys2Proof.Machine.execRestoreChannel l body s
  | .featurePut l body => Sys2Proof.Machine.execFeaturePut l body s
  | .featureEvict l body => Sys2Proof.Machine.execFeatureEvict l body s
  | .featureRead l body => Sys2Proof.Machine.execFeatureRead l body s
  | .tableClear l body => Sys2Proof.Machine.execTableClear l body s
  | .armedRead l body => Sys2Proof.Machine.execArmedRead l body s
  | .zoneSet l body => Sys2Proof.Machine.execZoneSet l body s
  | .zoneRead l body => Sys2Proof.Machine.execZoneRead l body s
  | .clearConditions l body => Sys2Proof.Machine.execClearConditions l body s
  | .alarmRouteSet l body => Sys2Proof.Machine.execAlarmRouteSet l body s
  | .readAlarmRoutes l body => Sys2Proof.Machine.execReadAlarmRoutes l body s
  | .setParam l body => Sys2Proof.Machine.execSetParam l body s
  | .readParam l body => Sys2Proof.Machine.execReadParam l body s
  | .reinit l body => Sys2Proof.Machine.execReinit l body s
  | .senseCharacter ch c stop => Sys2Proof.Machine.execSenseCharacter ch c stop s
  | .linkByteComplete l b => Sys2Proof.Machine.execLinkByteComplete l b s

end Sys2Proof.Machine
end

