-- ==== Sys2Proof/Safety.lean ====
section
/-! DEFINITION. The terms in which claims are made: a free link and a well-framed request, the state a request leaves,
an accepted set, and the properties that every step keeps, one per block, with the rule each follows. -/

namespace Sys2Proof.Machine

/-! ### Requests -/

/-- The request command of a kind (Table 9-3). -/
def requestOf (k : Kind) (l : Link) (body : RequestBody) : Instr :=
  match k with
  | .readStatus => .readStatus l body
  | .readBudget => .readBudget l body
  | .dropSeen => .dropSeen l body
  | .takeAlarm => .takeAlarm l body
  | .doneAlarm => .doneAlarm l body
  | .tractionRequest => .tractionRequest l body
  | .loadSetup => .loadSetup l body
  | .loadDemand => .loadDemand l body
  | .loadReEnable => .loadReEnable l body
  | .readLoads => .readLoads l body
  | .raise => .raise l body
  | .lower => .lower l body
  | .clearDrop => .clearDrop l body
  | .readDropLog => .readDropLog l body
  | .popDropLog => .popDropLog l body
  | .setPosition => .setPosition l body
  | .restoreChannel => .restoreChannel l body
  | .featurePut => .featurePut l body
  | .featureEvict => .featureEvict l body
  | .featureRead => .featureRead l body
  | .tableClear => .tableClear l body
  | .armedRead => .armedRead l body
  | .zoneSet => .zoneSet l body
  | .zoneRead => .zoneRead l body
  | .clearConditions => .clearConditions l body
  | .alarmRouteSet => .alarmRouteSet l body
  | .readAlarmRoutes => .readAlarmRoutes l body
  | .setParam => .setParam l body
  | .readParam => .readParam l body
  | .reinit => .reinit l body

/-- A link whose master may begin a transaction: the pin and the select line are released and the port is in IDLE
(R170). -/
structure LinkFree (l : Link) (s : State) : Prop where
  powered : s.resetPin = false
  released : (s.lp.get l).select = false
  idle : (s.lp.get l).phase = .idle

/-- R173: the check byte is the CRC of kind, length and payload; R171: at most 28 payload bytes. -/
structure Framed (code : Byte) (body : RequestBody) : Prop where
  short : body.payload.length ≤ 28
  checked : crc (code :: byteOf body.payload.length :: body.payload) = body.check

/-- A frame that passes checks 1 to 3 of R175 as a request of kind `k`: good check and the kind's length. -/
structure FramedAs (k : Kind) (body : RequestBody) : Prop where
  length : body.payload.length = kindLength k
  checked : crc (kindCode k :: byteOf body.payload.length :: body.payload) = body.check

/-- Table 9-1: the bytes of the reply on a link: three header bytes read from the state the request leaves, the
result code, the payload length, the payload, and the check over all of them. -/
def replyBytes (l : Link) (r : Result) (payload : List Byte) (t : State) : List Byte :=
  let bytes := [headerOne l t, headerTwo t, headerThree t, resultCode r, byteOf payload.length] ++ payload
  bytes ++ [crc bytes]

/-- R170, R174: the state `t` that a request leaves, with its port holding the whole request frame and the reply,
in TURNAROUND, its bad-frame counter as `t` has it. -/
def replied (l : Link) (code : Byte) (body : RequestBody) (r : Result) (payload : List Byte) (t : State) : State :=
  t.setLp (t.lp.put l
    { select := true, phase := .turnaround, pos := 0
      request := code :: byteOf body.payload.length :: body.payload ++ [body.check]
      reply := replyBytes l r payload t, bad := (t.lp.get l).bad })

/-- One bad frame more on a port, the rest of the state as it was (R177). -/
def oneMoreBad (l : Link) (s : State) : State :=
  s.setLp (s.lp.put l { s.lp.get l with bad := min ((s.lp.get l).bad + 1) 255 })

/-- Commands run one after the other. -/
def execAll : List Instr → State → Host.Outcome State Fault Refusal
  | [], s => .next s
  | c :: rest, s =>
    match exec c s with
    | .next t => execAll rest t
    | .fault e => .fault e
    | .refused e => .refused e

/-! ### Which blocks a command may change -/

/-- The fields of the state: the ten blocks of 00_scope.md, the time base, the reset pin, the queue of commands. -/
inductive Block where
  | si | pt | rft | cm | be | tg | ls | ad | lp | pm | timeBase | resetPin | pending
  deriving DecidableEq, Repr

/-- From `s` to `t` no block changes but those listed. -/
structure Touches (blocks : List Block) (s t : State) : Prop where
  si : Block.si ∉ blocks → t.si = s.si
  pt : Block.pt ∉ blocks → t.pt = s.pt
  rft : Block.rft ∉ blocks → t.rft = s.rft
  cm : Block.cm ∉ blocks → t.cm = s.cm
  be : Block.be ∉ blocks → t.be = s.be
  tg : Block.tg ∉ blocks → t.tg = s.tg
  ls : Block.ls ∉ blocks → t.ls = s.ls
  ad : Block.ad ∉ blocks → t.ad = s.ad
  lp : Block.lp ∉ blocks → t.lp = s.lp
  pm : Block.pm ∉ blocks → t.pm = s.pm
  timeBase : Block.timeBase ∉ blocks → t.timeBase = s.timeBase
  resetPin : Block.resetPin ∉ blocks → t.resetPin = s.resetPin
  pending : Block.pending ∉ blocks → t.pending = s.pending

/-- The blocks that a request may change, beside its port (each kind's owning rule). -/
def requestBlocks : Kind → List Block
  | .readStatus | .readBudget | .readLoads | .readDropLog | .featureRead | .armedRead | .zoneRead | .readAlarmRoutes
  | .readParam => []
  | .dropSeen | .raise | .lower | .clearDrop | .popDropLog => [.cm]
  | .takeAlarm | .doneAlarm | .alarmRouteSet => [.ad]
  | .tractionRequest => [.tg]
  | .loadSetup | .loadDemand | .loadReEnable => [.ls]
  | .setPosition => [.pt, .rft, .cm]
  | .restoreChannel => [.si, .ls]
  | .featurePut => [.rft, .ad]
  | .featureEvict | .tableClear | .zoneSet => [.rft]
  | .clearConditions => [.be]
  | .setParam => [.be, .pm]
  | .reinit => [.si, .rft, .cm, .be, .tg, .ls, .ad, .pm]

/-- The blocks that an accepted set may change (R8 to R151, R189). -/
def setBlocks : List Block := [.si, .pt, .rft, .cm, .be, .tg, .ls, .ad, .pm]

/-- The blocks that the failure of a channel may change (R12, R13, R74, R98, R110, R143). -/
def failBlocks : List Block := [.si, .cm, .be, .tg, .ls, .ad]

/-- The blocks that a command may change. A request changes its port and what its kind may change; a completed byte or
a frame of an unknown code may complete any request (log 21). -/
def commandBlocks : Instr → List Block
  | .powerOnReset => .lp :: .timeBase :: .resetPin :: setBlocks
  | .resetRelease => [.si, .timeBase, .resetPin]
  | .millisecondTick => .timeBase :: failBlocks
  | .silenceTimerExpiry _ => failBlocks
  | .senseCharacter _ _ _ => [.si]
  | .sampleFrame _ => setBlocks
  | .presentCountReached _ | .confirmCountReached _ | .raiseLimitExpiry _ => [.cm, .rft, .ad]
  | .unloadLimitExpiry _ => [.cm, .rft, .ad, .ls]
  | .cyclePeriodWrap _ | .idleLimitPark _ | .observationPeriodEnd | .slotStart => [.ls]
  | .derateWindowEnd _ => [.be, .ad]
  | .freezeLimitReached => [.be, .tg, .ad]
  | .selectAsserted _ | .selectReleased _ _ | .frameAbandoned _ _ | .requestLengthOverrange _ _ => [.lp]
  | .linkByteComplete _ _ | .unknownKind _ _ _ => .lp :: setBlocks
  | .readStatus _ _ => .lp :: requestBlocks .readStatus
  | .readBudget _ _ => .lp :: requestBlocks .readBudget
  | .dropSeen _ _ => .lp :: requestBlocks .dropSeen
  | .takeAlarm _ _ => .lp :: requestBlocks .takeAlarm
  | .doneAlarm _ _ => .lp :: requestBlocks .doneAlarm
  | .tractionRequest _ _ => .lp :: requestBlocks .tractionRequest
  | .loadSetup _ _ => .lp :: requestBlocks .loadSetup
  | .loadDemand _ _ => .lp :: requestBlocks .loadDemand
  | .loadReEnable _ _ => .lp :: requestBlocks .loadReEnable
  | .readLoads _ _ => .lp :: requestBlocks .readLoads
  | .raise _ _ => .lp :: requestBlocks .raise
  | .lower _ _ => .lp :: requestBlocks .lower
  | .clearDrop _ _ => .lp :: requestBlocks .clearDrop
  | .readDropLog _ _ => .lp :: requestBlocks .readDropLog
  | .popDropLog _ _ => .lp :: requestBlocks .popDropLog
  | .setPosition _ _ => .lp :: requestBlocks .setPosition
  | .restoreChannel _ _ => .lp :: requestBlocks .restoreChannel
  | .featurePut _ _ => .lp :: requestBlocks .featurePut
  | .featureEvict _ _ => .lp :: requestBlocks .featureEvict
  | .featureRead _ _ => .lp :: requestBlocks .featureRead
  | .tableClear _ _ => .lp :: requestBlocks .tableClear
  | .armedRead _ _ => .lp :: requestBlocks .armedRead
  | .zoneSet _ _ => .lp :: requestBlocks .zoneSet
  | .zoneRead _ _ => .lp :: requestBlocks .zoneRead
  | .clearConditions _ _ => .lp :: requestBlocks .clearConditions
  | .alarmRouteSet _ _ => .lp :: requestBlocks .alarmRouteSet
  | .readAlarmRoutes _ _ => .lp :: requestBlocks .readAlarmRoutes
  | .setParam _ _ => .lp :: requestBlocks .setParam
  | .readParam _ _ => .lp :: requestBlocks .readParam
  | .reinit _ _ => .lp :: requestBlocks .reinit

/-- The link that a command's bits or select line come over (09); none for the other commands. -/
def linkOf : Instr → Option Link
  | .selectAsserted l | .requestLengthOverrange l _ | .frameAbandoned l _ | .selectReleased l _ | .unknownKind l _ _
  | .linkByteComplete l _ | .readStatus l _ | .readBudget l _ | .dropSeen l _ | .takeAlarm l _ | .doneAlarm l _
  | .tractionRequest l _ | .loadSetup l _ | .loadDemand l _ | .loadReEnable l _ | .readLoads l _ | .raise l _
  | .lower l _ | .clearDrop l _ | .readDropLog l _ | .popDropLog l _ | .setPosition l _ | .restoreChannel l _
  | .featurePut l _ | .featureEvict l _ | .featureRead l _ | .tableClear l _ | .armedRead l _ | .zoneSet l _
  | .zoneRead l _ | .clearConditions l _ | .alarmRouteSet l _ | .readAlarmRoutes l _ | .setParam l _ | .readParam l _
  | .reinit l _ => some l
  | .powerOnReset | .resetRelease | .millisecondTick | .sampleFrame _ | .presentCountReached _
  | .confirmCountReached _ | .raiseLimitExpiry _ | .unloadLimitExpiry _ | .cyclePeriodWrap _ | .idleLimitPark _
  | .observationPeriodEnd | .derateWindowEnd _ | .freezeLimitReached | .slotStart | .silenceTimerExpiry _
  | .senseCharacter _ _ _ => none

/-! ### Sense -/

/-- R8: at the closing gap, channel `ch` delivers the accepted set `x`: the frame it holds has right length, stop bits
and good check and carries `x`, the channel is HEALTHY and active, and its counter stays within P_PLAUS_LIMIT. -/
structure Accepts (ch : Channel) (x : Sample) (s : State) : Prop where
  powered : s.resetPin = false
  frame : ∃ f, s.si.rx.get ch = some f ∧ frameSample f = some x
  healthy : (s.si.chan.get ch).health = .healthy
  active : s.si.active = some ch
  within : plausAfter (implausible (s.si.chan.get ch) x s) (s.si.chan.get ch).plaus ≤ s.par .plausLimit

/-- R49: the state in which CM finds an accepted set: parameters in force, P advanced, the armed list as the probe left
it. -/
def setFound (x : Sample) (s : State) : State := armForSet (passOn x s)

/-- R13, R14: the active channel is never FAILED, SENSE_LOST is set exactly when there is no active channel, and there is
none only when both channels are FAILED. -/
def SenseInv (s : State) : Prop :=
  (∀ ch, s.si.active = some ch → (s.si.chan.get ch).health = .healthy) ∧ (s.si.senseLost = true ↔ s.si.active = none) ∧
    (s.si.active = none → ∀ ch, (s.si.chan.get ch).health = .failed)

/-! ### Route features -/

/-- R21: the entries of a set: an invalid one has its fields 0; a valid one is filed in the set of its start metre, its
length is 1..255, its factor is one of 0, 4, 8, 12 and 16, and a LEARNED_GAP is not locked (R27). -/
def EntryOk (i : Fin 64) (e : PointEntry) : Prop :=
  (e.valid = false → e = invalidEntry) ∧
    (e.valid = true → setOf e.start = i ∧ (1 ≤ e.length ∧ e.length ≤ 255) ∧ e.factor ∈ [0, 4, 8, 12, 16] ∧
      (e.kind = .learnedGap → e.locked = false))

/-- R25: a fill takes this way of the set. -/
def Fills (ps : PointSet) (w : Way) : Prop :=
  ((ps.at w).valid = false ∧ (w = .w1 → ps.way0.valid = true)) ∨
    (ps.way0.valid = true ∧ ps.way1.valid = true ∧ (ps.at w).locked = false ∧
      ((ps.at (otherWay w)).locked = true ∨ w = ps.older))

/-- The number of locked entries of the table. -/
def lockedEntries (rt : RouteTable) : Nat :=
  (rt.points.toList.map fun ps => ps.way0.locked.toNat + ps.way1.locked.toNat).sum

/-- R27, R22: no set holds two valid entries with the same start metre and kind; the lock count is the number of
locked entries and never exceeds 64. -/
def PointsInv (rt : RouteTable) : Prop :=
  (∀ i, EntryOk i (entry rt.points i).way0 ∧ EntryOk i (entry rt.points i).way1 ∧
      ((entry rt.points i).way0.valid = true → (entry rt.points i).way1.valid = true →
        ¬((entry rt.points i).way0.start = (entry rt.points i).way1.start ∧
          (entry rt.points i).way0.kind = (entry rt.points i).way1.kind))) ∧
    rt.lockCount = lockedEntries rt ∧ rt.lockCount ≤ 64

/-- R37, R19: the armed list holds at most 4 copies, in ascending start order, no two from the same table location with
the same start; it is empty while POSITION_SET is clear. -/
def ArmedInv (s : State) : Prop :=
  s.rft.armed.length ≤ 4 ∧
    s.rft.armed.Pairwise (fun c d => c.start ≤ d.start ∧ ¬(c.set = d.set ∧ c.way = d.way ∧ c.start = d.start)) ∧
    (s.pt.isSet = false → s.rft.armed = [])

/-- R36, R37, R38: P lies in the effect window of every armed copy. The copy keeps the window end that its start, its length
and P_MARGIN gave when it was armed; its low bound is its start less the P_LEAD of that time. Both parameters lie in 0..63
(Table 10-1). -/
def WindowInv (s : State) : Prop :=
  ∀ c ∈ s.rft.armed, s.pt.metre ≤ c.windowEnd ∧ (∃ margin ≤ 63, c.windowEnd = min (c.start + c.length + margin) 65535) ∧
    ∃ lead ≤ 63, c.start - lead ≤ s.pt.metre

/-! ### Collector -/

/-- Does a drop mask hold a pole? UNKNOWN counts as both (R58, R47). -/
def holdsPos : Option DropPoles → Bool
  | some .pos | some .both | some .unknown => true
  | some .neg | none => false

/-- Does a drop mask hold the negative pole? -/
def holdsNeg : Option DropPoles → Bool
  | some .neg | some .both | some .unknown => true
  | some .pos | none => false

/-- R60 to R62, R66, R68, R69: what a drop leaves in CM, on a set: DROPPED with the poles as mask, counts 0 and no suspect,
or a further drop in DROPPED with mask BOTH; the lines of the mask, both under P_LOWER_BOTH; every mark set; the record
appended while the log holds fewer than 8, else counted as lost; the drop number advanced. -/
def Drops (poles : DropPoles) (cause : DropCause) (x : Sample) (s : State) (t : Collector) : Prop :=
  let mask := if s.cm.state = .dropped then .both else poles
  let record : DropRecord :=
    { number := s.cm.dropNumber, stamp := s.timeBase, metre := if s.pt.isSet then some s.pt.metre else none,
      poles := poles, cause := cause, before := s.cm.state, v := x.v, i := x.i, elevPos := x.elevPos,
      elevNeg := x.elevNeg, latPos := x.latPos, latNeg := x.latNeg, firstArmed := s.rft.armed.head?.map ArmedCopy.kind }
  t.state = .dropped ∧ t.dropMask = some mask ∧
    t.lines = ⟨decide (s.par .lowerBoth = 1 ∨ mask ≠ .neg), decide (s.par .lowerBoth = 1 ∨ mask ≠ .pos)⟩ ∧
    t.marks = ⟨true, true, true⟩ ∧
    t.log = (if s.cm.log.length < 8 then s.cm.log ++ [record] else s.cm.log) ∧
    t.lost = (if s.cm.log.length < 8 then s.cm.lost else min (s.cm.lost + 1) 255) ∧
    t.dropNumber = s.cm.dropNumber + 1 ∧
    (s.cm.state = .dropped → t.presentCount = s.cm.presentCount ∧ t.confirmCount = s.cm.confirmCount ∧
      t.epochsIn = min (s.cm.epochsIn + 1) 65535 ∧ t.lossMetre = s.cm.lossMetre ∧ t.lossEpoch = s.cm.lossEpoch) ∧
    (s.cm.state ≠ .dropped → t.presentCount = 0 ∧ t.confirmCount = 0 ∧ t.epochsIn = 0 ∧
      t.lossMetre = (if s.cm.state = .suspect then none else s.cm.lossMetre) ∧
      t.lossEpoch = (if s.cm.state = .suspect then none else s.cm.lossEpoch))

/-- R47: in DOWN and LOWERING both lower lines are asserted; in DROPPED the line of every pole in the mask is asserted;
in RAISING, ON_WIRE, GAP, SUSPECT and UNLOADING neither is. R60, R53, R69: there is a drop mask exactly in DROPPED, a
loss metre only in SUSPECT and a loss epoch exactly in SUSPECT, and the log holds at most 8 records. -/
def CollectorInv (cm : Collector) : Prop :=
  (cm.state ∈ [.down, .lowering] → cm.lines = ⟨true, true⟩) ∧
    (cm.state ∈ [.raising, .onWire, .gap, .suspect, .unloading] → cm.lines = ⟨false, false⟩) ∧
    (cm.state = .dropped → (holdsPos cm.dropMask = true → cm.lines.pos = true) ∧
      (holdsNeg cm.dropMask = true → cm.lines.neg = true)) ∧
    (cm.dropMask.isSome = true ↔ cm.state = .dropped) ∧
    (cm.state ≠ .suspect → cm.lossMetre = none) ∧ (cm.lossEpoch.isSome = true ↔ cm.state = .suspect) ∧
    cm.log.length ≤ 8

/-! ### Budget and grants -/

/-- R85, R188: P_D_MIN ≤ D ≤ P_D_MAX ≤ 15 and 0 ≤ H ≤ 4, the values in force of the two bounds being their stored
values. -/
def DepthInv (s : State) : Prop :=
  s.par .dMin = paramValue s.pm.stored .dMin ∧ s.par .dMax = paramValue s.pm.stored .dMax ∧
    s.par .dMin ≤ s.be.d ∧ s.be.d ≤ s.par .dMax ∧ s.par .dMax ≤ 15 ∧ s.be.h ≤ 4

/-- R97: the properties of every published record: either the SHORTFALL mark is set and T = 0, or served + R ≤ P_avail;
T + served + R ≤ P_avail, or T = 0; when the record's supply is NONE or its SAFE mark is set, T and G are both 0. -/
def RecordInv (r : BudgetRecord) : Prop :=
  ((r.shortfall = true ∧ r.t = 0) ∨ r.served + r.r ≤ r.pAvail) ∧ (r.t + r.served + r.r ≤ r.pAvail ∨ r.t = 0) ∧
    (r.supply = .none ∨ r.safe = true → r.t = 0 ∧ r.g = 0)

/-- R108, R110: a grant that has not been reported is not 0 and is covered by the record's ceilings. -/
def GrantInv (s : State) : Prop :=
  s.tg.reported = false →
    s.tg.lastGrant ≠ 0 ∧ s.tg.lastGrant ≤ (s.be.record.t : Int) ∧ -s.tg.lastGrant ≤ (s.be.record.g : Int)

/-! ### Loads -/

/-- R145, R114: the queue holds exactly the WAITING slots, each once, every level-0 entry ahead of every other; a slot
is in state OFF exactly when its mode is OFF. -/
def QueueInv (ls : Loads) : Prop :=
  ls.queue.Nodup ∧ (∀ i, i ∈ ls.queue ↔ (entry ls.slots i).state = .waiting) ∧
    ls.queue.Pairwise (fun i j => (entry ls.slots j).level = 0 → (entry ls.slots i).level = 0) ∧
    ∀ i, (entry ls.slots i).state = .off ↔ (entry ls.slots i).mode = .off

/-- R115: a RUNNING slot has a mode other than OFF and a level below 4 − H, and it is ride-through, or else the supply is
not NONE and SENSE_LOST is clear. -/
def RunningInv (s : State) : Prop :=
  ∀ i, (entry s.ls.slots i).state = .running →
    (entry s.ls.slots i).mode ≠ .off ∧ (entry s.ls.slots i).level.val < 4 - s.be.h ∧
      ((entry s.ls.slots i).rideThrough = true ∨ (s.supply ≠ .none ∧ s.si.senseLost = false))

/-! ### Alarms -/

/-- R153, R160, R162: a repeat count is 1..15 while pending and 0 while not; the service stack holds at most 4 frames,
each lower in level than the frame below it or both 0; the attention line is asserted exactly while an eligible entry
is pending and the stack holds fewer than 4 frames. -/
def LinkAlarmsInv (a : LinkAlarms) : Prop :=
  (∀ n, if (entry a.pending n).pending then 1 ≤ (entry a.pending n).count ∧ (entry a.pending n).count ≤ 15
      else (entry a.pending n).count = 0) ∧
    a.stack.length ≤ 4 ∧
    a.stack.IsChain (fun below above => above.level < below.level ∨ (above.level = 0 ∧ below.level = 0)) ∧
    (a.attention = true ↔ a.stack.length < 4 ∧ ∃ n, eligible a.stack (entry a.pending n) = true)

/-- The alarm property of all three links. -/
def AlarmInv (ad : Alarms) : Prop := ∀ l, LinkAlarmsInv (ad.links.get l)

/-! ### Parameters -/

/-- R184: every parameter is held within the range of Table 10-1, stored and in force; R188: the bounds of D are in
order, and their values in force are their stored values. P_LEARN_FACTOR is one of five values. -/
def ParamInv (pm : Params) : Prop :=
  (∀ n, (entry paramTable n).lower ≤ entry pm.stored n ∧ entry pm.stored n ≤ (entry paramTable n).upper) ∧
    (∀ n, (entry paramTable n).lower ≤ entry pm.inForce n ∧ entry pm.inForce n ≤ (entry paramTable n).upper) ∧
    paramValue pm.stored .dMin ≤ paramValue pm.stored .dMax ∧
    paramValue pm.inForce .dMin = paramValue pm.stored .dMin ∧
    paramValue pm.inForce .dMax = paramValue pm.stored .dMax ∧
    paramValue pm.stored .learnFactor ∈ [0, 4, 8, 12, 16] ∧ paramValue pm.inForce .learnFactor ∈ [0, 4, 8, 12, 16]

/-- R17: the centimetre remainder is 0..99 and P at most 65535. -/
def PositionInv (pt : Position) : Prop := pt.cm ≤ 99 ∧ pt.metre ≤ 65535

end Sys2Proof.Machine
end

