-- ==== Sys2Proof/Certificates/Slice0/Obligations.lean ====
section
/-! DEFINITION. The statements for the provers, by the spec's numbered rules: the commands, an accepted set in its parts, and
what every step keeps. -/

open Sys2Proof Sys2Proof.Machine

/-! ### The queue, the frame of a command, resets -/

/-- The model's choice (log 1): a step runs the command at the front of the queue on the state with the queue's rest,
and with an empty queue the block idles. -/
def Obligations.StepRunsFrontCommand : Prop :=
  ∀ (c : Instr) (rest : List Instr) (s : State),
    step (s.setPending (c :: rest)) = exec c (s.setPending rest) ∧ step (s.setPending []) = .next (s.setPending [])

/-- Every command in every state answers a next state, and changes no block but those that its owning rules let it change
(commandBlocks: R10 and R11 for the clock, R13 for a channel's failure, R67, R103, R109, R157 and the other owners of Table 9-3
for the requests); the queue of commands is changed by none. The model's choice: what an event row of a set changes when it is
commanded alone (log 4, log 5), and that a known code given to UNKNOWN_KIND is that kind's request (log 21). -/
def Obligations.EveryCommandCompletesInItsFrame : Prop :=
  ∀ (c : Instr) (s : State), ∃ t, exec c s = .next t ∧ Touches (commandBlocks c) s t

/-- R177, R179: a command on one link leaves the other ports as they are, but for the counters that a REINIT accepted
on the V-link sets to 0: the REINIT command, its code given to UNKNOWN_KIND (log 21), or the byte that completes its
frame. -/
def Obligations.OtherPortsUntouched : Prop :=
  ∀ (c : Instr) (s t : State) (k : Link), c ≠ .powerOnReset → linkOf c ≠ some k → exec c s = .next t →
    let received := fun (b : Byte) => s.lp.v.request ++ [b]
    let reinits := (∃ body, c = .reinit .v body) ∨ (∃ body, c = .unknownKind .v 0x7E body) ∨
      ∃ b, c = .linkByteComplete .v b ∧ s.lp.v.phase = .request ∧ (received b).head? = some 0x7E ∧
        s.lp.v.pos = ((received b).getD 1 0).toNat + 2
    t.lp.get k = s.lp.get k ∨ (reinits ∧ s.cm.state = .down ∧ t.lp.get k = { s.lp.get k with bad := 0 })

/-- POWER_ON_RESET leaves every block at its power-on values with the pin asserted; the model's choice (log 2): the levels
of the select lines and the waiting commands, which are not the part's own, stay, and State.reset is the part with the pin
released; RESET_RELEASE releases an asserted pin, the time base at 0, both receivers hunting and both silence timers
restarted (R10, R16), and is no event on a released one (log 5). -/
def Obligations.PowerOnResetAndRelease : Prop :=
  ∀ s : State,
    exec .powerOnReset s = .next { State.reset with
      lp := ⟨resetPort s.lp.t.select, resetPort s.lp.a.select, resetPort s.lp.v.select⟩
      resetPin := true, pending := s.pending } ∧
    (s.resetPin = true → exec .resetRelease s = .next { s with
      si := { s.si with
        chan := ⟨{ s.si.chan.a with silence := 0 }, { s.si.chan.b with silence := 0 }⟩, rx := ⟨none, none⟩ }
      timeBase := 0, resetPin := false }) ∧
    (s.resetPin = false → exec .resetRelease s = .next s)

/-- The values that the reset tables give (R16, R19, R44, R73, R101, R113, R130, R152, R169, R182, R185), read off
State.reset: among them the causes and the sticky flags clear and H* 0 (R101), and the levels and route masks of Table 8-1
(R154, R169). The silence timers start from a count of 0 (R16; the count is the model's form of the timer, log 17). -/
def Obligations.ResetValues : Prop :=
  (∀ ch, (State.reset.si.chan.get ch).health = .healthy ∧ (State.reset.si.chan.get ch).reason = none ∧
      (State.reset.si.chan.get ch).plaus = 0 ∧ (State.reset.si.chan.get ch).seqRecord = none ∧
      (State.reset.si.chan.get ch).status = 0 ∧ (State.reset.si.chan.get ch).silence = 0 ∧
      State.reset.si.rx.get ch = none) ∧
    State.reset.si.active = some .a ∧ State.reset.si.senseLost = false ∧ State.reset.si.epoch = 0 ∧
    State.reset.si.prevElev = ⟨none, none⟩ ∧ State.reset.timeBase = 0 ∧ State.reset.pt = ⟨0, 0, false⟩ ∧
    (∀ i, entry State.reset.rft.points i = ⟨⟨false, 0, 0, .sectionGap, 0, false⟩, ⟨false, 0, 0, .sectionGap, 0, false⟩, .w0⟩) ∧
    State.reset.rft.lockCount = 0 ∧ State.reset.rft.armed = [] ∧ State.reset.rft.lastQ = 0 ∧
    (∀ i, entry State.reset.rft.zones i = ⟨false, .offWire, 0, 0, false, 0, 0, false⟩) ∧
    State.reset.cm = ⟨.down, 0, 0, 0, none, none, none, ⟨none, none⟩, ⟨true, true⟩, ⟨false, false, false⟩, [], 0, 0⟩ ∧
    State.reset.supply = .battery ∧
    State.reset.be.record = ⟨0, .battery, 0, 0, 0, 0, 0, 0, 0, 0, false, false, false, false, false⟩ ∧
    (State.reset.be.heldV = 0 ∧ State.reset.be.d = State.reset.par .dMin ∧
      State.reset.be.windowLength = State.reset.par .window ∧ State.reset.be.windowCount = 0 ∧
      State.reset.be.sag = false ∧ State.reset.be.h = 0 ∧ State.reset.be.hStar = 0 ∧ State.reset.be.sinceH = 0 ∧
      State.reset.be.causes = ⟨false, false, false, false⟩ ∧ State.reset.be.sticky = ⟨false, false, false, false⟩ ∧
      State.reset.be.freeze = 0) ∧
    State.reset.tg = ⟨0, 0, true⟩ ∧
    (∀ i, entry State.reset.ls.slots i = ⟨0, 3, .off, false, false, .off, 0, 0⟩) ∧
    State.reset.ls.queue = [] ∧ State.reset.ls.demand = 0 ∧ State.reset.ls.gens = ⟨0, 0⟩ ∧
    State.reset.ls.idlePeriod = .short ∧ State.reset.ls.parkEntries = 0 ∧ State.reset.ls.observation = 0 ∧
    State.reset.ls.sinceStart = 0 ∧
    [Source.poleDrop, .senseLost, .budgetSafe, .grantOver, .dropSuspect, .gapOverrun, .channelFailover,
      .budgetFrozen, .raiseFailed, .shedRise, .derateRise, .bandShed, .loadLockout, .armedOverflow, .tableRefused,
      .learnedGap].map
        (fun src => let row := entry State.reset.ad.sources (sourceNumber src)
          ((sourceNumber src).val, row.level.val, row.mask.toNat)) =
      [(0, 0, 7), (1, 0, 7), (2, 0, 7), (3, 1, 1), (4, 1, 5), (5, 1, 5), (6, 1, 4), (7, 1, 5), (8, 2, 4), (9, 2, 6),
        (10, 2, 5), (11, 2, 6), (12, 2, 6), (13, 2, 4), (14, 3, 4), (15, 3, 4)] ∧
    (∀ l, (∀ n, (entry (State.reset.ad.links.get l).pending n).pending = false ∧
        (entry (State.reset.ad.links.get l).pending n).count = 0) ∧
      (State.reset.ad.links.get l).stack = [] ∧ (State.reset.ad.links.get l).attention = false ∧
      (State.reset.lp.get l).phase = .idle ∧ (State.reset.lp.get l).request = [] ∧ (State.reset.lp.get l).reply = [] ∧
      (State.reset.lp.get l).bad = 0) ∧
    State.reset.pm.stored.toList = [
      10, 40, 1000, 2000, 250, 5, 20, 30, 650, 150, 250, 80, 3000, 50, 20, 1, 1, 16, 20, 10, 1000, 480, 720, 800, 600,
      20, 100, 2, 1, 0, 12, 8, 0, 1, 120, 60, 40, 15, 200, 50, 420, 950, 3, 30000, 5000, 60000, 12, 4, 10000, 10000,
      5000, 5000] ∧
    ∀ n, entry State.reset.pm.stored n = (entry paramTable n).dflt ∧ entry State.reset.pm.inForce n = (entry paramTable n).dflt

/-- R16, R182 (log 3): while the reset pin is asserted no command but its release, a new power-on reset and the levels
of the select lines changes anything. -/
def Obligations.ResetPinHoldsEverything : Prop :=
  ∀ (c : Instr) (s : State), s.resetPin = true →
    (c ≠ .powerOnReset → c ≠ .resetRelease → (∀ l, c ≠ .selectAsserted l) → (∀ l e, c ≠ .selectReleased l e) →
      exec c s = .next s) ∧
    ∀ l e, exec (.selectAsserted l) s = .next (s.setLp (s.lp.put l { s.lp.get l with select := true })) ∧
      exec (.selectReleased l e) s = .next (s.setLp (s.lp.put l { s.lp.get l with select := false }))

/-- The reset state has every property that the steps keep. -/
def Obligations.ResetMeetsInvariants : Prop :=
  SenseInv State.reset ∧ ParamInv State.reset.pm ∧ PositionInv State.reset.pt ∧ DepthInv State.reset ∧
    PointsInv State.reset.rft ∧ ArmedInv State.reset ∧ WindowInv State.reset ∧ CollectorInv State.reset.cm ∧
    RecordInv State.reset.be.record ∧ GrantInv State.reset ∧ QueueInv State.reset.ls ∧ RunningInv State.reset ∧ AlarmInv State.reset.ad

/-! ### The sense channels and the position -/

/-- R2: a hunting receiver drops every byte but 0xC3, which opens a frame; in an open frame every character is
counted, at most 13 are kept, and a missing stop bit marks the frame. Nothing else changes. The model's reading (log 12): the
count of characters has no bound, and a 0xC3 without its stop bit opens a frame, marked. -/
def Obligations.SenseCharacterReceived : Prop :=
  ∀ (ch : Channel) (c : Byte) (stop : Bool) (s : State), s.resetPin = false →
    (s.si.rx.get ch = none → c ≠ 0xC3#8 → exec (.senseCharacter ch c stop) s = .next s) ∧
    (s.si.rx.get ch = none → c = 0xC3#8 → exec (.senseCharacter ch c stop) s =
      .next (s.setSi { s.si with rx := s.si.rx.put ch (some ⟨[c], 1, !stop⟩) })) ∧
    ∀ f, s.si.rx.get ch = some f → exec (.senseCharacter ch c stop) s =
      .next (s.setSi { s.si with rx := s.si.rx.put ch (some
        ⟨if f.bytes.length < 13 then f.bytes ++ [c] else f.bytes, f.count + 1, f.stopMissing || !stop⟩) })

/-- R1, Table 1-1: the 13 bytes of a sample frame, field by field: I and the laterals as two's complement, each valid
flag, the check byte over bytes 0 to 11; and the fields read from any 12 such bytes, a field whose valid flag is 0 being
tainted whatever its bits. R1, R2, R3: the 13 characters, received by a hunting receiver, give back every field of the
sample, tainted ones included; the whole frame feeds the check register to 0. -/
def Obligations.SampleFrameRoundTrip : Prop :=
  ∀ (x : Sample) (ch : Channel) (s : State), s.resetPin = false → s.si.rx.get ch = none →
    (let n := fun (k : Nat) => BitVec.ofNat 8 k
     let wrapped := fun (bits : Nat) (k : Int) => (k % 2 ^ bits).toNat
     let v := (x.v.getD 0).toNat
     let i := wrapped 12 (x.i.getD 0).toInt
     let elevPos := (x.elevPos.getD 0).toNat
     let elevNeg := (x.elevNeg.getD 0).toNat
     let latPos := wrapped 10 (x.latPos.getD 0).toInt
     let latNeg := wrapped 10 (x.latNeg.getD 0).toInt
     let body := [0xC3, x.seq, n (v / 4), n (v % 4 * 64 + x.v.isSome.toNat * 32 + x.i.isSome.toNat * 16 + i / 256), n i,
       n (elevPos / 4), n (elevPos % 4 * 64 + x.elevPos.isSome.toNat * 32 + x.elevNeg.isSome.toNat * 16 + elevNeg / 64),
       n (elevNeg % 64 * 4 + x.latPos.isSome.toNat * 2 + x.latNeg.isSome.toNat), n (latPos / 4),
       n (latPos % 4 * 64 + latNeg / 16), n (latNeg % 16 * 16 + x.status.toNat), x.inc]
     encodeSample x = body ++ [crc body]) ∧
    (∀ start seq b2 b3 b4 b5 b6 b7 b8 b9 b10 inc check : Byte,
      let y := decodeSample [start, seq, b2, b3, b4, b5, b6, b7, b8, b9, b10, inc, check]
      let field := fun (w : Nat) (valid : Bool) (k : Nat) => if valid then some (BitVec.ofNat w k) else none
      y.seq = seq ∧ y.inc = inc ∧ y.status.toNat = b10.toNat % 16 ∧
      y.v = field 10 (b3.getLsbD 5) (b2.toNat * 4 + b3.toNat / 64) ∧
      y.i = field 12 (b3.getLsbD 4) (b3.toNat % 16 * 256 + b4.toNat) ∧
      y.elevPos = field 10 (b6.getLsbD 5) (b5.toNat * 4 + b6.toNat / 64) ∧
      y.elevNeg = field 10 (b6.getLsbD 4) (b6.toNat % 16 * 64 + b7.toNat / 4) ∧
      y.latPos = field 10 (b7.getLsbD 1) (b8.toNat * 4 + b9.toNat / 64) ∧
      y.latNeg = field 10 (b7.getLsbD 0) (b9.toNat % 64 * 16 + b10.toNat / 16)) ∧
    (encodeSample x).length = 13 ∧ crc (encodeSample x) = 0 ∧ decodeSample (encodeSample x) = x ∧
    frameSample ⟨encodeSample x, 13, false⟩ = some x ∧
    execAll ((encodeSample x).map fun b => .senseCharacter ch b true) s =
      .next (s.setSi { s.si with rx := s.si.rx.put ch (some ⟨encodeSample x, 13, false⟩) })

/-- R2, R3: a closed frame is bad exactly when its character count is not 13, a stop bit was missing, or its check byte is
not the CRC of its first 12 bytes; any other carries the fields of its bytes. R4: a bad frame adds 2 to the counter of a
HEALTHY channel and is discarded, the channel failing when the counter then passes P_PLAUS_LIMIT (R6); on a FAILED channel
it changes nothing but the receiver, which hunts again. R5 to R8: which good-check frame is implausible; it is discarded
on a FAILED channel, fails its channel by a counter above P_PLAUS_LIMIT, and on the standby channel writes the channel's
counter, sequence record, module status and silence timer alone. -/
def Obligations.FrameJudged : Prop :=
  (∀ f : OpenFrame,
     (frameSample f = none ↔ f.count ≠ 13 ∨ f.stopMissing = true ∨ crc (f.bytes.take 12) ≠ f.bytes.getD 12 0) ∧
     (frameSample f ≠ none → frameSample f = some (decodeSample f.bytes))) ∧
  (∀ (ch : Channel) (f : OpenFrame) (s : State), s.resetPin = false → s.si.rx.get ch = some f →
     frameSample f = none →
     let c := s.si.chan.get ch
     let n := min (c.plaus + 2) 255
     let hunting := s.setSi { s.si with rx := s.si.rx.put ch none }
     let counted := s.setSi { s.si with rx := s.si.rx.put ch none, chan := s.si.chan.put ch { c with plaus := n } }
     (c.health = .failed → exec (.sampleFrame ch) s = .next hunting) ∧
     (c.health = .healthy → n ≤ s.par .plausLimit → exec (.sampleFrame ch) s = .next counted) ∧
     (c.health = .healthy → s.par .plausLimit < n →
       exec (.sampleFrame ch) s = .next (failChannel ch .plausibility counted))) ∧
  (∀ (ch : Channel) (f : OpenFrame) (x : Sample) (s : State), s.resetPin = false → s.si.rx.get ch = some f →
     frameSample f = some x →
     let c := s.si.chan.get ch
     let n := if implausible c x s then min (c.plaus + 2) 255 else c.plaus - 1
     (implausible c x s = true ↔ (∃ r, c.seqRecord = some r ∧ x.seq ≠ r + 1) ∨
       (∃ v, x.v = some v ∧ s.par .vPlausMax < v.toNat) ∨ (∃ i, x.i = some i ∧ s.par .iPlausMax < i.toInt.natAbs)) ∧
     (c.health = .failed → exec (.sampleFrame ch) s = .next (s.setSi { s.si with rx := s.si.rx.put ch none })) ∧
     (c.health = .healthy → s.par .plausLimit < n → exec (.sampleFrame ch) s =
       .next (failChannel ch .plausibility (s.setSi { s.si with
         rx := s.si.rx.put ch none, chan := s.si.chan.put ch { c with plaus := n } }))) ∧
     (c.health = .healthy → n ≤ s.par .plausLimit → s.si.active ≠ some ch → exec (.sampleFrame ch) s =
       .next (s.setSi { s.si with
         rx := s.si.rx.put ch none
         chan := s.si.chan.put ch { c with plaus := n, seqRecord := some x.seq, status := x.status, silence := 0 } })))

/-- R7, R8, R9, R17, R189: what an accepted set writes in SI, PT and PM: the epoch number gains 1, every stored value
comes into force, P advances by the whole metres of remainder plus increment and saturates at 65535, the channel's
record is written, and a valid elevation becomes the pole's previous one. The other channel, the ports and the time
base stay. -/
def Obligations.AcceptedSetAdvances : Prop :=
  ∀ (ch : Channel) (x : Sample) (s : State), Accepts ch x s → ∃ t, exec (.sampleFrame ch) s = .next t ∧
    t.si.epoch = s.si.epoch + 1 ∧ t.si.active = some ch ∧ t.si.senseLost = s.si.senseLost ∧
    t.si.rx.get ch = none ∧ t.si.rx.get (otherChannel ch) = s.si.rx.get (otherChannel ch) ∧
    t.si.chan.get ch = { s.si.chan.get ch with
      plaus := if implausible (s.si.chan.get ch) x s then min ((s.si.chan.get ch).plaus + 2) 255
        else (s.si.chan.get ch).plaus - 1
      seqRecord := some x.seq, status := x.status, silence := 0 } ∧
    t.si.chan.get (otherChannel ch) = s.si.chan.get (otherChannel ch) ∧
    t.si.prevElev = ⟨if x.elevPos.isSome then x.elevPos else s.si.prevElev.pos,
      if x.elevNeg.isSome then x.elevNeg else s.si.prevElev.neg⟩ ∧
    t.pm = { stored := s.pm.stored, inForce := s.pm.stored } ∧
    t.pt = { metre := min (s.pt.metre + (s.pt.cm + x.inc.toNat) / 100) 65535
             cm := (s.pt.cm + x.inc.toNat) % 100, isSet := s.pt.isSet } ∧
    t.lp = s.lp ∧ t.timeBase = s.timeBase ∧ t.resetPin = false ∧ t.pending = s.pending

/-- R10, R11: when no silence expiry is due, a millisecond adds 1 to the time base (wrapping) and to the silence timer of each
HEALTHY channel, and changes nothing else. A HEALTHY channel whose timer has counted P_SILENCE_MS increments fails with reason
SILENCE; a timer that has not, or that of a FAILED channel, does not expire (log 5). The model's choice (log 6): when exactly
one expiry is still due at the next increment, that channel's failure is taken first, and then the increment. -/
def Obligations.TimeAndSilence : Prop :=
  (∀ s : State, s.resetPin = false →
     (∀ ch, (s.si.chan.get ch).health = .healthy → (s.si.chan.get ch).silence < s.par .silenceMs) →
     ∃ t, exec .millisecondTick s = .next t ∧ t.timeBase = s.timeBase + 1 ∧
       (∀ ch, t.si.chan.get ch = if (s.si.chan.get ch).health = .healthy
         then { s.si.chan.get ch with silence := (s.si.chan.get ch).silence + 1 } else s.si.chan.get ch) ∧
       t = (s.setTimeBase t.timeBase).setSi { s.si with chan := t.si.chan }) ∧
  (∀ (ch : Channel) (s : State), s.resetPin = false →
     ((s.si.chan.get ch).health = .healthy → s.par .silenceMs ≤ (s.si.chan.get ch).silence →
       exec (.silenceTimerExpiry ch) s = .next (failChannel ch .silence s)) ∧
     ((s.si.chan.get ch).health = .failed ∨ (s.si.chan.get ch).silence < s.par .silenceMs →
       exec (.silenceTimerExpiry ch) s = .next s)) ∧
  (∀ (ch : Channel) (s : State), s.resetPin = false →
     (s.si.chan.get ch).health = .healthy → s.par .silenceMs ≤ (s.si.chan.get ch).silence →
     ((s.si.chan.get (otherChannel ch)).health = .failed ∨
       (s.si.chan.get (otherChannel ch)).silence < s.par .silenceMs) →
     let u := failChannel ch .silence s
     ∃ t, exec .millisecondTick s = .next t ∧ t.timeBase = s.timeBase + 1 ∧
       t.si.chan.get ch = u.si.chan.get ch ∧ (u.si.chan.get ch).health = .failed ∧
       (let other := u.si.chan.get (otherChannel ch)
        t.si.chan.get (otherChannel ch) = if other.health = .healthy then { other with silence := other.silence + 1 }
          else other) ∧
       t = (u.setTimeBase t.timeBase).setSi { u.si with chan := t.si.chan })

/-- R12, R14: the failure of the standby channel is a change of its own health and reason alone; the failure of the
active channel with a HEALTHY standby makes that one active, its sequence record and both previous elevations none,
and raises CHANNEL_FAILOVER. -/
def Obligations.ChannelFailure : Prop :=
  ∀ (ch : Channel) (why : FailReason) (s : State),
    let failed := s.si.chan.put ch { s.si.chan.get ch with health := .failed, reason := some why }
    let other := otherChannel ch
    (s.si.active ≠ some ch → failChannel ch why s = s.setSi { s.si with chan := failed }) ∧
    (s.si.active = some ch → (s.si.chan.get other).health = .healthy →
      failChannel ch why s = raise .channelFailover (s.setSi { s.si with
        chan := failed.put other { s.si.chan.get other with seqRecord := none }
        active := some other, prevElev := ⟨none, none⟩ }))

/-- R13, R74, R98, R110, R143: the failure of the active channel while the other is FAILED: no channel is active,
SENSE_LOST is set and raised, the record becomes SAFE with the SENSE_LOST mark and is checked against the last grant,
every RUNNING or WAITING slot that is not ride-through is shed for sense, the queue closing up behind those that leave
(R146), and the last elevations become absent. -/
def Obligations.SenseLoss : Prop :=
  ∀ (ch : Channel) (why : FailReason) (s : State), s.si.active = some ch →
    (s.si.chan.get (otherChannel ch)).health = .failed →
    let t := failChannel ch why s
    let uncovered := s.tg.reported = false ∧ s.tg.lastGrant ≠ 0
    let sheds := fun i => ((entry s.ls.slots i).state = .running ∨ (entry s.ls.slots i).state = .waiting) ∧
      (entry s.ls.slots i).rideThrough = false
    t.si = { s.si with
      chan := s.si.chan.put ch { s.si.chan.get ch with health := .failed, reason := some why }
      active := none, senseLost := true } ∧
    t.be = { s.be with record := { s.be.record with t := 0, g := 0, safe := true, senseLost := true } } ∧
    (uncovered → t.tg = { s.tg with reported := true } ∧
      t.ad = (s.ad.occurrence .senseLost).occurrence .grantOver) ∧
    (¬uncovered → t.tg = s.tg ∧ t.ad = s.ad.occurrence .senseLost) ∧
    t.cm = { s.cm with lastElev := ⟨none, none⟩ } ∧
    (∀ i, (sheds i → entry t.ls.slots i = { entry s.ls.slots i with state := .shed .sense, idle := 0 }) ∧
      (¬sheds i → entry t.ls.slots i = entry s.ls.slots i)) ∧
    t.ls.queue = s.ls.queue.filter (fun i => ¬((entry s.ls.slots i).state = .waiting ∧
      (entry s.ls.slots i).rideThrough = false)) ∧
    Touches failBlocks s t

/-- R11: with both timers expired, in either order of the expiries, and at the next millisecond whichever channel the
free choice of Config takes first (log 7), both channels end FAILED with reason SILENCE, and SENSE_LOST is set and is
raised on every link of its route. -/
def Obligations.BothChannelsSilent : Prop :=
  ∀ (first : Channel) (s : State), s.resetPin = false → SenseInv s →
    (∀ ch, (s.si.chan.get ch).health = .healthy ∧ s.par .silenceMs ≤ (s.si.chan.get ch).silence) →
    ∀ cs ∈ [[Instr.silenceTimerExpiry first, .silenceTimerExpiry (otherChannel first)], [.millisecondTick]],
      ∃ t, execAll cs s = .next t ∧
        (∀ ch, (t.si.chan.get ch).health = .failed ∧ (t.si.chan.get ch).reason = some .silence) ∧
        t.si.active = none ∧ t.si.senseLost = true ∧
        ∀ l, routedTo (entry s.ad.sources (sourceNumber .senseLost)).mask l = true →
          (entry (t.ad.links.get l).pending (sourceNumber .senseLost)).pending = true

/-! ### Requests to the collector and the sense side -/

/-- R63: RAISE by collector state: SENSE_LOST before IN_ZONE in DOWN, else RAISING with both lines released and the
counts at 0. -/
def Obligations.RaiseAnswered : Prop :=
  ∀ (body : RequestBody) (s : State), LinkFree .v s → FramedAs .raise body → CollectorInv s.cm →
    let answers := fun (r : Result) (t : State) => exec (.raise .v body) s = .next (replied .v 0x30 body r [] t)
    let inZone := ∃ i, (entry s.rft.zones i).kind = .offWire ∧ (entry s.rft.zones i).enable = true ∧ s.pt.isSet = true ∧
      (BitVec.ofNat 12 (s.pt.metre / 16) ^^^ (entry s.rft.zones i).base) &&& (entry s.rft.zones i).mask = 0
    (s.cm.state = .down → s.si.senseLost = true → answers .senseLost s) ∧
    (s.cm.state = .down → s.si.senseLost = false → inZone → answers .inZone s) ∧
    (s.cm.state = .down → s.si.senseLost = false → ¬inZone → answers .ok (s.setCm { s.cm with
      state := .raising, lines := ⟨false, false⟩, presentCount := 0, confirmCount := 0, epochsIn := 0 })) ∧
    (s.cm.state ∈ [.raising, .onWire, .gap, .suspect] → answers .already s) ∧
    (s.cm.state ∈ [.unloading, .lowering] → answers .busy s) ∧
    (s.cm.state = .dropped → answers .dropped s)

/-- R64: LOWER by collector state: to UNLOADING from the wire, a suspect's loss metre and loss epoch then absent; to
LOWERING with both lines asserted from RAISING. -/
def Obligations.LowerAnswered : Prop :=
  ∀ (body : RequestBody) (s : State), LinkFree .v s → FramedAs .lower body → CollectorInv s.cm →
    let answers := fun (r : Result) (t : State) => exec (.lower .v body) s = .next (replied .v 0x31 body r [] t)
    let entered := { s.cm with presentCount := 0, confirmCount := 0, epochsIn := 0, lossMetre := none, lossEpoch := none }
    (s.cm.state ∈ [.onWire, .gap, .suspect] → answers .ok (s.setCm { entered with state := .unloading })) ∧
    (s.cm.state = .raising → answers .ok (s.setCm { entered with state := .lowering, lines := ⟨true, true⟩ })) ∧
    (s.cm.state ∈ [.unloading, .lowering, .down] → answers .already s) ∧
    (s.cm.state = .dropped → answers .dropped s)

/-- R65: CLEAR DROP: in DROPPED with both last elevations present and at or below P_STOW the state becomes DOWN, the
mask none and both lines asserted; the marks and the log stay. -/
def Obligations.ClearDropAnswered : Prop :=
  ∀ (body : RequestBody) (s : State), LinkFree .v s → FramedAs .clearDrop body → CollectorInv s.cm →
    let answers := fun (r : Result) (t : State) => exec (.clearDrop .v body) s = .next (replied .v 0x32 body r [] t)
    let low := fun (e : Option (BitVec 10)) => ∃ x, e = some x ∧ x.toNat ≤ s.par .stow
    (s.cm.state = .dropped → low s.cm.lastElev.pos → low s.cm.lastElev.neg → answers .ok (s.setCm { s.cm with
      state := .down, dropMask := none, lines := ⟨true, true⟩, presentCount := 0, confirmCount := 0, epochsIn := 0 })) ∧
    (s.cm.state = .dropped → ¬(low s.cm.lastElev.pos ∧ low s.cm.lastElev.neg) → answers .notStowed s) ∧
    (s.cm.state ≠ .dropped → answers .already s)

/-- R67: DROP SEEN clears the mark of its own link, and no other; ALREADY when that mark is clear. R70, R71: READ DROP LOG sends
the counts and the oldest record with every field of R68, an absent one as 0 with its presence flag clear; POP DROP LOG removes
the oldest record and sends how many are left. -/
def Obligations.DropSeenAndDropLog : Prop :=
  (∀ (l : Link) (body : RequestBody) (s : State), LinkFree l s → FramedAs .dropSeen body →
     let answers := fun (r : Result) (t : State) => exec (.dropSeen l body) s = .next (replied l 0x03 body r [] t)
     (s.cm.marks.get l = true → ∃ marks, marks.get l = false ∧ (∀ k, k ≠ l → marks.get k = s.cm.marks.get k) ∧
       answers .ok (s.setCm { s.cm with marks := marks })) ∧
     (s.cm.marks.get l = false → answers .already s)) ∧
  (∀ (body : RequestBody) (s : State), LinkFree .v s →
     let n := fun (k : Nat) => BitVec.ofNat 8 k
     let two := fun (k : Nat) => [BitVec.ofNat 8 (k / 256), BitVec.ofNat 8 k]
     let head := [n s.cm.log.length, n s.cm.lost, s.cm.dropNumber]
     let code := fun (m : FeatureKind) => match m with | .sectionGap => (0 : Byte) | .crossing => 1 | .frog => 2 | .learnedGap => 3
     let poles := fun (p : DropPoles) => match p with | .pos => 1 | .neg => 2 | .both => 3 | .unknown => 4
     let cause := fun (c : DropCause) => match c with | .rate => 0 | .elevation => 1 | .lateral => 2 | .voltageLoss => 3
     let state := fun (c : CollectorState) => match c with
       | .down => 0 | .raising => 1 | .onWire => 2 | .gap => 3 | .suspect => 4 | .dropped => 5 | .unloading => 6 | .lowering => 7
     (FramedAs .readDropLog body → s.cm.log = [] → exec (.readDropLog .v body) s = .next (replied .v 0x33 body .ok head s)) ∧
     (∀ r rest, FramedAs .readDropLog body → s.cm.log = r :: rest →
       exec (.readDropLog .v body) s = .next (replied .v 0x33 body .ok (head ++ [r.number] ++
         two (r.stamp.toNat / 65536) ++ two r.stamp.toNat ++
         [n (poles r.poles + 8 * cause r.cause + 32 * r.metre.isSome.toNat + 64 * r.v.isSome.toNat +
           128 * r.i.isSome.toNat),
          n (state r.before + 8 * r.elevPos.isSome.toNat + 16 * r.elevNeg.isSome.toNat +
           32 * r.latPos.isSome.toNat + 64 * r.latNeg.isSome.toNat + 128 * r.firstArmed.isSome.toNat)] ++
         two (r.metre.getD 0) ++ two (r.v.getD 0).toNat ++ two ((r.i.getD 0).signExtend 16).toNat ++
         two (r.elevPos.getD 0).toNat ++ two (r.elevNeg.getD 0).toNat ++
         two ((r.latPos.getD 0).signExtend 16).toNat ++ two ((r.latNeg.getD 0).signExtend 16).toNat ++
         [(r.firstArmed.map code).getD 0]) s)) ∧
     (FramedAs .popDropLog body → s.cm.log = [] →
       exec (.popDropLog .v body) s = .next (replied .v 0x34 body .notFound [] s)) ∧
     ∀ r rest, FramedAs .popDropLog body → s.cm.log = r :: rest →
       exec (.popDropLog .v body) s = .next (replied .v 0x34 body .ok [n rest.length] (s.setCm { s.cm with log := rest })))

/-- R18, R38, R53: SET POSITION writes P, clears the remainder, sets POSITION_SET, empties the armed list, and makes the loss
metre of a SUSPECT absent. R93: CLEAR CONDITIONS clears the four sticky flags and leaves the causes. -/
def Obligations.PositionSetAndConditionsCleared : Prop :=
  (∀ (body : RequestBody) (s : State), LinkFree .v s → FramedAs .setPosition body →
     ∃ hi lo, body.payload = [hi, lo] ∧
       exec (.setPosition .v body) s = .next (replied .v 0x38 body .ok []
         (((s.setPt ⟨hi.toNat * 256 + lo.toNat, 0, true⟩).setRft { s.rft with armed := [] }).setCm
           { s.cm with lossMetre := if s.cm.state = .suspect then none else s.cm.lossMetre }))) ∧
  (∀ (body : RequestBody) (s : State), LinkFree .v s → FramedAs .clearConditions body →
     exec (.clearConditions .v body) s = .next (replied .v 0x50 body .ok []
       (s.setBe { s.be with sticky := ⟨false, false, false, false⟩ })))

/-- R15, R144: RESTORE CHANNEL of a FAILED channel: HEALTHY, its reason and record none, its counter and timer 0. With
the other channel active it becomes the standby; with none active it becomes active, SENSE_LOST clears, both previous
elevations become none, and every slot shed for sense is WAITING, joined in ascending slot order by the insertion rule
(R145). The record keeps its form. -/
def Obligations.RestoreChannelAnswered : Prop :=
  ∀ (body : RequestBody) (s : State), LinkFree .v s → FramedAs .restoreChannel body →
    ∃ b, body.payload = [b] ∧
    let answers := fun (r : Result) (t : State) => exec (.restoreChannel .v body) s = .next (replied .v 0x39 body r [] t)
    let named := fun (ch : Channel) => b = match ch with | .a => 0 | .b => 1
    let healed := fun ch => s.si.chan.put ch
      ⟨.healthy, none, 0, none, 0, (s.si.chan.get ch).status⟩
    (1 < b.toNat → answers .badValue s) ∧
    ∀ ch, named ch →
      ((s.si.chan.get ch).health = .healthy → answers .already s) ∧
      ((s.si.chan.get ch).health = .failed → s.si.active ≠ none →
        answers .ok (s.setSi { s.si with chan := healed ch })) ∧
      ((s.si.chan.get ch).health = .failed → s.si.active = none → ∃ t, answers .ok t ∧ Touches [.si, .ls] s t ∧
        t.si = { s.si with chan := healed ch, active := some ch, senseLost := false, prevElev := ⟨none, none⟩ } ∧
        t.ls = { s.ls with slots := t.ls.slots, queue := t.ls.queue } ∧
        (∀ i, entry t.ls.slots i = if (entry s.ls.slots i).state = .shed .sense
          then { entry s.ls.slots i with state := .waiting, idle := 0 } else entry s.ls.slots i) ∧
        (QueueInv s.ls → QueueInv t.ls ∧
          let zero := fun i => (entry s.ls.slots i).level = 0
          let woken := slotNumbers.filter fun i => (entry s.ls.slots i).state = .shed .sense
          t.ls.queue = s.ls.queue.filter zero ++ woken.filter zero ++ s.ls.queue.filter (¬zero ·) ++
            woken.filter (¬zero ·)))

/-! ### The route feature table -/

/-- R21 to R27: the insert of a PUT, in the set of the start metre's segment: a valid entry of the same start metre and
kind is updated in place and the marker stays; else the way of R25 is filled and the marker names the other way; it is
refused exactly when both ways are valid and locked. The lock follows the PUT within the limit of 64; the other way and
the other sets stay; and the table's properties are kept. -/
def Obligations.PutInsertion : Prop :=
  ∀ (start length factor : Nat) (kind : FeatureKind) (lock : Bool) (rt : RouteTable), PointsInv rt →
    1 ≤ length → length ≤ 255 → factor ∈ [0, 4, 8, 12, 16] → kind ≠ .learnedGap →
    let i := Machine.setOf start
    let ps := entry rt.points i
    let same := fun w => (ps.at w).valid = true ∧ (ps.at w).start = start ∧ (ps.at w).kind = kind
    i.val = start / 16 % 64 ∧
    (putInsert start length kind factor lock rt = none ↔ ¬same .w0 ∧ ¬same .w1 ∧ ps.way0.valid = true ∧
      ps.way1.valid = true ∧ ps.way0.locked = true ∧ ps.way1.locked = true) ∧
    ∀ rt' w, putInsert start length kind factor lock rt = some (rt', w) →
      (same w ∨ (¬same .w0 ∧ ¬same .w1 ∧ Fills ps w)) ∧
      (let e := (entry rt'.points i).at w
       e.valid = true ∧ e.start = start ∧ e.length = length ∧ e.kind = kind ∧ e.factor = factor ∧
         (e.locked = true ↔ lock = true ∧ (rt.lockCount < 64 ∨ (same w ∧ (ps.at w).locked = true)))) ∧
      (entry rt'.points i).at (otherWay w) = ps.at (otherWay w) ∧
      (entry rt'.points i).older = (if (ps.at w).valid ∧ (ps.at w).start = start ∧ (ps.at w).kind = kind then ps.older
        else otherWay w) ∧
      (∀ j, j ≠ i → entry rt'.points j = entry rt.points j) ∧ rt'.armed = rt.armed ∧ rt'.zones = rt.zones ∧
      rt'.lastQ = rt.lastQ ∧ PointsInv rt'

/-- R24 to R26: a learned insert updates the nearest valid LEARNED_GAP within 8 m in place, way 0 when two are equally
near: the start stays, the length becomes the larger, the factor the insert's. Else the way of R25 is filled with an
unlocked entry. The lock count stays and the table's properties are kept. -/
def Obligations.LearnedInsertion : Prop :=
  ∀ (start length factor : Nat) (rt : RouteTable), PointsInv rt → 1 ≤ length → length ≤ 255 →
    factor ∈ [0, 4, 8, 12, 16] →
    let i := Machine.setOf start
    let ps := entry rt.points i
    let away := fun w => ((ps.at w).start - start) + (start - (ps.at w).start)
    let near := fun w => (ps.at w).valid = true ∧ (ps.at w).kind = .learnedGap ∧ away w ≤ 8
    (learnedInsert start length factor rt = none ↔ ¬near .w0 ∧ ¬near .w1 ∧ ps.way0.valid = true ∧
      ps.way1.valid = true ∧ ps.way0.locked = true ∧ ps.way1.locked = true) ∧
    ∀ rt', learnedInsert start length factor rt = some rt' → ∃ w,
      (entry rt'.points i).at (otherWay w) = ps.at (otherWay w) ∧
      (near w ∧ (near (otherWay w) → away w < away (otherWay w) ∨ (away w = away (otherWay w) ∧ w = .w0)) ∧
          (entry rt'.points i).at w = { ps.at w with length := max (ps.at w).length length, factor := factor } ∧
          (entry rt'.points i).older = ps.older ∨
        ¬near .w0 ∧ ¬near .w1 ∧ Fills ps w ∧
          (entry rt'.points i).at w = ⟨true, start, length, .learnedGap, factor, false⟩ ∧
          (entry rt'.points i).older = otherWay w) ∧
      (∀ j, j ≠ i → entry rt'.points j = entry rt.points j) ∧ rt'.lockCount = rt.lockCount ∧ rt'.armed = rt.armed ∧
      PointsInv rt'

/-- R29, R30, R37: FEATURE PUT: BAD_VALUE for a kind code above 2, a length of 0 or a lock above 1; else the insert with
the factor rounded down to 0, 4, 8, 12 or 16. A refused insert raises TABLE_REFUSED and sends the set's starts and
kinds; a stored one sends the set, way, factor, lock and armed flag, and is armed at once under R30, its copy behind the
copies that start at or before its start and ahead of the others (R37). The model's reading (log 14): the armed flag of the
reply tells whether this PUT armed the entry. -/
def Obligations.FeaturePutAnswered : Prop :=
  ∀ (body : RequestBody) (s : State), LinkFree .v s → FramedAs .featurePut body →
    ∃ hi lo len kc fc lk : Byte, body.payload = [hi, lo, len, kc, fc, lk] ∧
    let answers := fun r p t => exec (.featurePut .v body) s = .next (replied .v 0x40 body r p t)
    let n := fun (k : Nat) => BitVec.ofNat 8 k
    let code := fun (m : FeatureKind) => match m with | .sectionGap => (0 : Byte) | .crossing => 1 | .frog => 2 | .learnedGap => 3
    let way := fun (w : Way) => match w with | .w0 => (0 : Byte) | .w1 => 1
    let start := hi.toNat * 256 + lo.toNat
    let factor := if 16 ≤ fc.toNat then 16 else fc.toNat - fc.toNat % 4
    let i := Machine.setOf start
    let ps := entry s.rft.points i
    (2 < kc.toNat ∨ len = 0 ∨ 1 < lk.toNat → answers .badValue [] s) ∧
    ∀ kind, code kind = kc → kc.toNat ≤ 2 → len ≠ 0 → lk.toNat ≤ 1 →
      (putInsert start len.toNat kind factor (decide (lk = 1)) s.rft = none →
        answers .tableRefused [n i.val, n (ps.way0.start / 256), n ps.way0.start, code ps.way0.kind,
          n (ps.way1.start / 256), n ps.way1.start, code ps.way1.kind] (raise .tableRefused s)) ∧
      ∀ rt w, putInsert start len.toNat kind factor (decide (lk = 1)) s.rft = some (rt, w) →
        let e := (entry rt.points i).at w
        let arms := s.pt.isSet = true ∧ start - s.par .lead ≤ s.pt.metre ∧
          s.pt.metre ≤ min (start + len.toNat + s.par .margin) 65535 ∧
          ∀ c ∈ rt.armed, ¬(c.set = i ∧ c.way = w ∧ c.start = start)
        let result : Result := if lk = 1 ∧ e.locked = false then .lockLimit else if factor ≠ fc.toNat then .clamped else .ok
        let sent := fun (armed : Nat) => [n i.val, way w, n factor, n (e.locked.toNat + 2 * armed)]
        (arms → rt.armed.length < 4 → answers result (sent 1) (s.setRft { rt with
          armed := rt.armed.takeWhile (fun c => c.start ≤ start) ++
            ⟨kind, factor, start, len.toNat, min (start + len.toNat + s.par .margin) 65535, i, w⟩ ::
            rt.armed.dropWhile (fun c => c.start ≤ start) })) ∧
        (arms → 4 ≤ rt.armed.length → answers result (sent 0) (raise .armedOverflow (s.setRft rt))) ∧
        (¬arms → answers result (sent 0) (s.setRft rt))

/-- R31, R33: FEATURE EVICT invalidates the entry of its start metre and kind and releases its lock; BAD_VALUE for a kind code
above 3, NOT_FOUND when there is none; the marker, the other way and the armed list stay. TABLE CLEAR: every entry invalid with
its fields 0, every marker on way 0, the lock count 0; the armed list and the zones stay. -/
def Obligations.EntriesEvictedAndCleared : Prop :=
  (∀ (body : RequestBody) (s : State), LinkFree .v s → FramedAs .featureEvict body → PointsInv s.rft →
     ∃ hi lo kc : Byte, body.payload = [hi, lo, kc] ∧
     let answers := fun (r : Result) (t : State) => exec (.featureEvict .v body) s = .next (replied .v 0x41 body r [] t)
     let start := hi.toNat * 256 + lo.toNat
     let i := Machine.setOf start
     let ps := entry s.rft.points i
     let code := fun (m : FeatureKind) => match m with | .sectionGap => (0 : Byte) | .crossing => 1 | .frog => 2 | .learnedGap => 3
     let found := fun w => (ps.at w).valid = true ∧ (ps.at w).start = start ∧ code (ps.at w).kind = kc
     (3 < kc.toNat → answers .badValue s) ∧
     (kc.toNat ≤ 3 → ¬found .w0 → ¬found .w1 → answers .notFound s) ∧
     ∀ w, kc.toNat ≤ 3 → found w → ∃ rt, answers .ok (s.setRft rt) ∧ PointsInv rt ∧
       (entry rt.points i).at w = ⟨false, 0, 0, .sectionGap, 0, false⟩ ∧
       (entry rt.points i).at (otherWay w) = ps.at (otherWay w) ∧ (entry rt.points i).older = ps.older ∧
       (∀ j, j ≠ i → entry rt.points j = entry s.rft.points j) ∧
       rt.lockCount + (ps.at w).locked.toNat = s.rft.lockCount ∧
       rt = { s.rft with points := rt.points, lockCount := rt.lockCount }) ∧
  (∀ (body : RequestBody) (s : State), LinkFree .v s → FramedAs .tableClear body →
     ∃ points, (∀ i, entry points i =
         ⟨⟨false, 0, 0, .sectionGap, 0, false⟩, ⟨false, 0, 0, .sectionGap, 0, false⟩, .w0⟩) ∧
       exec (.tableClear .v body) s =
         .next (replied .v 0x43 body .ok [] (s.setRft { s.rft with points := points, lockCount := 0 })))

/-- R32, R39, R40, R41: what FEATURE READ, ARMED READ and ZONE READ send (Table 2-1), changing nothing: an entry with the
marker, the lock count and whether its copy is armed; the copies with the last Q and the three effective features; a
zone entry and whether it matches. The model's reading (log 15): the armed bit of an invalid entry, whose start metre is 0,
is computed as that of a valid one. -/
def Obligations.RouteTableRead : Prop :=
  ∀ (body : RequestBody) (s : State), LinkFree .v s →
    let n := fun (k : Nat) => BitVec.ofNat 8 k
    let two := fun (k : Nat) => [BitVec.ofNat 8 (k / 256), BitVec.ofNat 8 k]
    let flag := fun (p : Prop) [Decidable p] => if p then 1 else 0
    let code := fun (m : FeatureKind) => match m with | .sectionGap => (0 : Byte) | .crossing => 1 | .frog => 2 | .learnedGap => 3
    let wayNumber := fun (w : Way) => match w with | .w0 => 0 | .w1 => 1
    let zoneCode := fun (k : ZoneKind) => match k with | .offWire => 0 | .limit => 1 | .noRegen => 2
    (FramedAs .featureRead body → ∃ i w : Byte, body.payload = [i, w] ∧
      (63 < i.toNat ∨ 1 < w.toNat → exec (.featureRead .v body) s = .next (replied .v 0x42 body .badValue [] s)) ∧
      ∀ (j : Fin 64) (way : Way), j.val = i.toNat → wayNumber way = w.toNat →
        let ps := entry s.rft.points j
        let e := ps.at way
        exec (.featureRead .v body) s = .next (replied .v 0x42 body .ok
          ([n (e.valid.toNat + 2 * e.locked.toNat +
              4 * flag (∃ c ∈ s.rft.armed, c.set = j ∧ c.way = way ∧ c.start = e.start) + 8 * wayNumber ps.older)] ++
            two e.start ++ [n e.length, code e.kind, n e.factor, n (e.start / 1024), n s.rft.lockCount]) s)) ∧
    (FramedAs .armedRead body → exec (.armedRead .v body) s = .next (replied .v 0x44 body .ok
      ([n s.rft.armed.length] ++ two s.rft.lastQ ++
        [n (flag (∃ c ∈ s.rft.armed, c.kind ≠ .frog) + 2 * flag (∃ c ∈ s.rft.armed, c.kind = .frog)),
         n (s.rft.armed.foldl (fun m c => min m c.factor) 16)] ++
        s.rft.armed.flatMap (fun c => [code c.kind, n c.factor] ++ two c.start ++ [n c.length] ++
          two c.windowEnd ++ [n c.set.val, n (wayNumber c.way)])) s)) ∧
    (FramedAs .zoneRead body → ∃ b : Byte, body.payload = [b] ∧
      (7 < b.toNat → exec (.zoneRead .v body) s = .next (replied .v 0x49 body .badValue [] s)) ∧
      ∀ i : Fin 8, i.val = b.toNat →
        let z := entry s.rft.zones i
        exec (.zoneRead .v body) s = .next (replied .v 0x49 body .ok
          ([b, n (z.enable.toNat + 2 * zoneCode z.kind + 8 * z.autoLower.toNat +
              16 * flag (z.enable = true ∧ s.pt.isSet = true ∧
                (BitVec.ofNat 12 (s.pt.metre / 16) ^^^ z.base) &&& z.mask = 0))] ++
            two z.base.toNat ++ two z.mask.toNat ++ two z.iLim ++ two z.vLow) s))

/-- R41, R43: ZONE SET: BAD_VALUE for an index above 7, an enable above 1, a kind code above 2, an auto-lower above 1 in
an OFF_WIRE entry, or a base or mask above 4095; else the entry is written whole, the fields its kind does not use as 0,
an override at its bound answered CLAMPED, the previous-match flag clear. -/
def Obligations.ZoneSetAnswered : Prop :=
  ∀ (body : RequestBody) (s : State), LinkFree .v s → FramedAs .zoneSet body →
    ∃ ix en kc b1 b0 m1 m0 auto i1 i0 v1 v0 : Byte,
      body.payload = [ix, en, kc, b1, b0, m1, m0, auto, i1, i0, v1, v0] ∧
    let answers := fun (r : Result) (t : State) => exec (.zoneSet .v body) s = .next (replied .v 0x48 body r [] t)
    let base := b1.toNat * 256 + b0.toNat
    let mask := m1.toNat * 256 + m0.toNat
    let iLim := i1.toNat * 256 + i0.toNat
    let vLow := v1.toNat * 256 + v0.toNat
    let wrong := 7 < ix.toNat ∨ 1 < en.toNat ∨ 2 < kc.toNat ∨ (kc = 0 ∧ 1 < auto.toNat) ∨ 4095 < base ∨ 4095 < mask
    let writes := fun (r : Result) (z : Zone) => ∃ zones, (∀ j, entry zones j = if j.val = ix.toNat then z
      else entry s.rft.zones j) ∧ answers r (s.setRft { s.rft with zones := zones })
    (wrong → answers .badValue s) ∧
    (¬wrong → kc = 0 →
      writes .ok ⟨decide (en = 1), .offWire, BitVec.ofNat 12 base, BitVec.ofNat 12 mask, decide (auto = 1), 0, 0, false⟩) ∧
    (¬wrong → kc = 1 → writes (if 2047 < iLim ∨ 1023 < vLow then .clamped else .ok)
      ⟨decide (en = 1), .limit, BitVec.ofNat 12 base, BitVec.ofNat 12 mask, false, min iLim 2047, min vLow 1023, false⟩) ∧
    (¬wrong → kc = 2 →
      writes .ok ⟨decide (en = 1), .noRegen, BitVec.ofNat 12 base, BitVec.ofNat 12 mask, false, 0, 0, false⟩)

/-! ### Grants and the budget record -/

/-- R103 to R108: TRACTION REQUEST: the grant is the requested power held to the record's T, and to P_B_TRAC while the T
mark is set, or to minus the record's G; it is kept with the record's epoch, reported exactly when it is 0; the reply
carries it with CLIPPED, CAPPED and the record's T, G, D, coast factor and epoch. -/
def Obligations.TractionGranted : Prop :=
  ∀ (body : RequestBody) (s : State), LinkFree .t s → FramedAs .tractionRequest body →
    ∃ hi lo : Byte, body.payload = [hi, lo] ∧
    let r : Int := (hi ++ lo : BitVec 16).toInt
    let rec_ := s.be.record
    let two := fun (k : Nat) => [BitVec.ofNat 8 (k / 256), BitVec.ofNat 8 k]
    ∃ g : Int,
      (0 ≤ r → s.cm.marks.t = false → g = min r rec_.t) ∧
      (0 ≤ r → s.cm.marks.t = true → g = min (min r rec_.t) (s.par .bTrac)) ∧
      (r < 0 → g = -min (-r) rec_.g) ∧
      (0 ≤ r → 0 ≤ g ∧ g ≤ rec_.t ∧ (s.cm.marks.t = true → g ≤ s.par .bTrac)) ∧ (r < 0 → -(rec_.g : Int) ≤ g ∧ g ≤ 0) ∧
      exec (.tractionRequest .t body) s = .next (replied .t 0x10 body .ok
        (two (BitVec.ofInt 16 g).toNat ++
          [BitVec.ofNat 8 ((if g ≠ r then 1 else 0) +
            (if 0 ≤ r ∧ s.cm.marks.t = true ∧ (s.par .bTrac : Int) < r ∧ s.par .bTrac < rec_.t then 2 else 0))] ++
          two rec_.t ++ two rec_.g ++ [BitVec.ofNat 8 rec_.d, BitVec.ofNat 8 rec_.coast] ++ two rec_.epoch.toNat)
        (s.setTg ⟨g, rec_.epoch, decide (g = 0)⟩))

/-- R109: READ BUDGET, on every link, sends the whole record and changes no state. -/
def Obligations.BudgetRead : Prop :=
  ∀ (l : Link) (body : RequestBody) (s : State), LinkFree l s → FramedAs .readBudget body →
    let rec_ := s.be.record
    let n := fun (k : Nat) => BitVec.ofNat 8 k
    let two := fun (k : Nat) => [BitVec.ofNat 8 (k / 256), BitVec.ofNat 8 k]
    exec (.readBudget l body) s = .next (replied l 0x02 body .ok
      (two rec_.epoch.toNat ++ [n (match rec_.supply with | .none => 0 | .battery => 1 | .line => 2)] ++ two rec_.pAvail ++
        two rec_.served ++ [n rec_.r] ++ two rec_.t ++ two rec_.g ++ [n rec_.d, n rec_.h, n rec_.coast,
          n (rec_.frozen.toNat + 2 * rec_.safe.toNat + 4 * rec_.shortfall.toNat + 8 * rec_.vHeld.toNat +
            16 * rec_.senseLost.toNat)]) s)

/-! ### Loads -/

/-- R116 to R119, R145: LOAD SETUP: BAD_VALUE outside the ranges; a demand above 63 stored as 63 and answered CLAMPED;
the fields stored; the state by the old and new modes, the shed range, SENSE_LOST and the supply; the slot's place in the
queue by the insertion rule. No other slot changes. -/
def Obligations.LoadSetupAnswered : Prop :=
  ∀ (body : RequestBody) (s : State), LinkFree .a s → FramedAs .loadSetup body → QueueInv s.ls →
    ∃ sb db lb mb rb ab : Byte, body.payload = [sb, db, lb, mb, rb, ab] ∧
    let modeNumber := fun (m : SlotMode) => match m with
      | .off => 0 | .on => 1 | .onDemand => 2 | .cycle .a => 3 | .cycle .b => 4
    let stateNumber := fun (t : SlotState) => match t with
      | .off => (0 : Byte) | .waiting => 1 | .running => 2 | .parked => 3 | .shed _ => 4 | .lockedOut => 5
    (23 < sb.toNat ∨ 3 < lb.toNat ∨ 4 < mb.toNat ∨ 1 < rb.toNat ∨ 1 < ab.toNat →
      exec (.loadSetup .a body) s = .next (replied .a 0x20 body .badValue [] s)) ∧
    ∀ (i : Fin 24) (level : Fin 4) (mode : SlotMode) (ride auto : Bool), i.val = sb.toNat → level.val = lb.toNat →
      modeNumber mode = mb.toNat → ride.toNat = rb.toNat → auto.toNat = ab.toNat → ∃ ls,
      let old := entry s.ls.slots i
      let sl := entry ls.slots i
      exec (.loadSetup .a body) s = .next (replied .a 0x20 body (if 63 < db.toNat then .clamped else .ok)
        [sb, stateNumber sl.state, (match sl.state with
          | .shed .budget => 0 | .shed .supply => 1 | .shed .band => 2 | .shed .sense => 3 | _ => 0xFF),
         BitVec.ofNat 8 sl.demand] (s.setLs ls)) ∧
      sl.demand = min db.toNat 63 ∧ sl.level = level ∧ sl.mode = mode ∧ sl.rideThrough = ride ∧ sl.autoRecover = auto ∧
      (mode = .off → sl.state = .off ∧ sl.bandCount = 0 ∧ sl.idle = 0) ∧
      (mode ≠ .off → old.mode = .off → sl.state = .waiting ∧ sl.bandCount = 0 ∧ sl.idle = 0) ∧
      (mode ≠ .off → old.mode ≠ .off →
        let wants := match mode with
          | .off => false
          | .on => true
          | .onDemand => s.ls.demand.getLsbD i.val
          | .cycle g => decide (s.ls.gens.get g < min (genOn s g) (genPeriod s g))
        let one := if old.mode ≠ mode ∧ old.state = .parked ∧ wants = true then .waiting else old.state
        let two := if old.level ≠ level ∧ one = .running ∧ 4 - s.be.h ≤ level.val then .shed .budget
          else if old.level ≠ level ∧ one = .shed .budget ∧ level.val < 4 - s.be.h then .waiting
          else one
        let three := if old.rideThrough = true ∧ ride = false ∧ two = .running then
            if s.si.senseLost = true then .shed .sense else if s.supply = .none then .shed .supply else two
          else two
        sl.state = three ∧ sl.bandCount = old.bandCount ∧
          sl.idle = if old.mode = mode ∧ three = old.state then old.idle else 0) ∧
      (∀ j, j ≠ i → entry ls.slots j = entry s.ls.slots j) ∧
      (let others := s.ls.queue.filter (· ≠ i)
       ls.queue = if sl.state ≠ .waiting then others
        else if old.state = .waiting ∧ old.level = level then s.ls.queue
        else if level = 0 then others.filter (fun j => (entry s.ls.slots j).level = 0) ++ i ::
          others.filter (fun j => (entry s.ls.slots j).level ≠ 0)
        else others ++ [i]) ∧
      QueueInv ls ∧ ls = { s.ls with slots := ls.slots, queue := ls.queue }

/-- R121, R145: LOAD DEMAND replaces the demand set; each PARKED slot of mode ON_DEMAND whose bit is now set is WAITING, joined
in ascending order by the insertion rule; the reply carries the permit set: the RUNNING slots. R128: LOAD RE-ENABLE: a LOCKED_OUT
slot becomes WAITING with band shed count 0 and joins the queue; ALREADY in every other state; BAD_VALUE above slot 23; the
payload is the slot's state after the request (log 22). -/
def Obligations.LoadDemandAndReEnable : Prop :=
  (∀ (body : RequestBody) (s : State), LinkFree .a s → FramedAs .loadDemand body → QueueInv s.ls →
     ∃ b0 b1 b2 p0 p1 p2 : Byte, ∃ ls, body.payload = [b0, b1, b2] ∧
     let wakes := fun i => (entry s.ls.slots i).state = .parked ∧ (entry s.ls.slots i).mode = .onDemand ∧
       (b2 ++ b1 ++ b0 : BitVec 24).getLsbD i.val = true
     let zero := fun i => (entry s.ls.slots i).level = 0
     let woken := slotNumbers.filter wakes
     exec (.loadDemand .a body) s = .next (replied .a 0x21 body .ok [p0, p1, p2] (s.setLs ls)) ∧
     (∀ i, entry ls.slots i = if wakes i then { entry s.ls.slots i with state := .waiting, idle := 0 }
       else entry s.ls.slots i) ∧
     ls.queue = s.ls.queue.filter zero ++ woken.filter zero ++ s.ls.queue.filter (¬zero ·) ++ woken.filter (¬zero ·) ∧
     ls = { s.ls with slots := ls.slots, queue := ls.queue, demand := b2 ++ b1 ++ b0 } ∧
     ∀ i : Fin 24, (p2 ++ p1 ++ p0 : BitVec 24).getLsbD i.val = true ↔ (entry s.ls.slots i).state = .running) ∧
  (∀ (body : RequestBody) (s : State), LinkFree .a s → FramedAs .loadReEnable body → QueueInv s.ls →
     ∃ b : Byte, body.payload = [b] ∧
     let stateNumber := fun (t : SlotState) => match t with
       | .off => (0 : Byte) | .waiting => 1 | .running => 2 | .parked => 3 | .shed _ => 4 | .lockedOut => 5
     (23 < b.toNat → exec (.loadReEnable .a body) s = .next (replied .a 0x22 body .badValue [] s)) ∧
     ∀ i : Fin 24, i.val = b.toNat →
       ((entry s.ls.slots i).state ≠ .lockedOut → exec (.loadReEnable .a body) s =
         .next (replied .a 0x22 body .already [stateNumber (entry s.ls.slots i).state] s)) ∧
       ((entry s.ls.slots i).state = .lockedOut → ∃ ls,
         exec (.loadReEnable .a body) s = .next (replied .a 0x22 body .ok [1] (s.setLs ls)) ∧
         (∀ j, entry ls.slots j = if j = i then { entry s.ls.slots i with state := .waiting, bandCount := 0, idle := 0 }
           else entry s.ls.slots j) ∧
         ls.queue = (if (entry s.ls.slots i).level = 0
           then s.ls.queue.filter (fun j => (entry s.ls.slots j).level = 0) ++ i ::
             s.ls.queue.filter (fun j => (entry s.ls.slots j).level ≠ 0)
           else s.ls.queue ++ [i]) ∧
         ls = { s.ls with slots := ls.slots, queue := ls.queue }))

/-- R129: READ LOADS, on the A-link and the V-link, sends H, the idle period, the counts, the generators, every slot
record and the queue, head first (Table 6-1), and changes no state. The model's choice (log 24): the shed reason bits of a
slot without a shed reason are 0. -/
def Obligations.LoadsRead : Prop :=
  ∀ (l : Link) (body : RequestBody) (s : State), l ≠ .t → LinkFree l s → FramedAs .readLoads body →
    let n := fun (k : Nat) => BitVec.ofNat 8 k
    let two := fun (k : Nat) => [BitVec.ofNat 8 (k / 256), BitVec.ofNat 8 k]
    let on := fun g => if s.ls.gens.get g < min (genOn s g) (genPeriod s g) then 1 else 0
    let reason := fun (st : SlotState) => match st with
      | .shed .budget => (1, 0) | .shed .supply => (1, 1) | .shed .band => (1, 2) | .shed .sense => (1, 3)
      | .off | .waiting | .running | .parked | .lockedOut => ((0, 0) : Nat × Nat)
    let state := fun (t : SlotState) => match t with
      | .off => 0 | .waiting => 1 | .running => 2 | .parked => 3 | .shed _ => 4 | .lockedOut => 5
    let mode := fun (m : SlotMode) => match m with
      | .off => 0 | .on => 1 | .onDemand => 2 | .cycle .a => 3 | .cycle .b => 4
    let slot := fun (i : Fin 24) =>
      let sl := entry s.ls.slots i
      [n (state sl.state + 8 * (reason sl.state).1 + 16 * (reason sl.state).2 + 64 * sl.rideThrough.toNat +
          128 * sl.autoRecover.toNat),
       n (sl.demand + 64 * sl.level.val), n (mode sl.mode + 8 * (s.ls.demand.getLsbD i.val).toNat + 16 * sl.bandCount)]
    exec (.readLoads l body) s = .next (replied l 0x23 body .ok
      ([n s.be.h, n (match s.ls.idlePeriod with | .short => 0 | .long => 1)] ++ two s.ls.parkEntries ++
        two s.ls.observation ++ two s.ls.gens.a ++ two s.ls.gens.b ++ [n (on .a + 2 * on .b), n s.ls.queue.length] ++
        (List.finRange 24).flatMap slot ++ s.ls.queue.map (fun i => n i.val)) s)

/-! ### Alarms -/

/-- R155, R154, R162: an occurrence of a source on a link of its route mask: an entry that is not pending becomes pending
with count 1 at the source's level, a pending one gains 1 up to 15 at its own level; the attention line is set afresh. On
another link, on another entry, in the source table and on the stacks nothing changes. -/
def Obligations.AlarmOccurs : Prop :=
  ∀ (src : Source) (s : State), Touches [.ad] s (raise src s) ∧ (raise src s).ad.sources = s.ad.sources ∧ ∀ l,
    let a := s.ad.links.get l
    let b := (raise src s).ad.links.get l
    let row := entry s.ad.sources (sourceNumber src)
    let e := entry a.pending (sourceNumber src)
    let routed := (row.mask &&& (match l with | .t => 1#3 | .a => 2#3 | .v => 4#3)) ≠ 0
    (¬routed → b = a) ∧
    (routed → b.stack = a.stack ∧ (∀ m, m ≠ sourceNumber src → entry b.pending m = entry a.pending m) ∧
      entry b.pending (sourceNumber src) =
        (if e.pending then ⟨true, min (e.count + 1) 15, e.level⟩ else ⟨true, 1, row.level⟩) ∧
      (b.attention = true ↔ b.stack.length < 4 ∧ ∃ m, (entry b.pending m).pending = true ∧ ∀ f, b.stack.getLast? = some f →
        (entry b.pending m).level < f.level ∨ ((entry b.pending m).level = 0 ∧ f.level = 0)))

/-- R163, R164, R165: TAKE ALARM: STACK_FULL with 4 frames, NONE with no eligible entry, each with the number of pending
entries and the depth; else the eligible entry of lowest level, then lowest source number, is cleared and its frame pushed.
DONE ALARM removes the top frame; NOT_IN_SERVICE on an empty stack. Both set the attention line afresh. The model's choice
(log 18): the level of the cleared entry, which has no meaning, is held as 0. -/
def Obligations.AlarmTakenAndDone : Prop :=
  ∀ (l : Link) (body : RequestBody) (s : State), LinkFree l s →
    let a := s.ad.links.get l
    let n := fun (k : Nat) => BitVec.ofNat 8 k
    let waiting := fun (b : LinkAlarms) => (List.finRange 16).countP fun m => (entry b.pending m).pending
    let can := fun (b : LinkAlarms) (m : Fin 16) => (entry b.pending m).pending = true ∧ ∀ f, b.stack.getLast? = some f →
      (entry b.pending m).level < f.level ∨ ((entry b.pending m).level = 0 ∧ f.level = 0)
    let lit := fun (b : LinkAlarms) => b.attention = true ↔ b.stack.length < 4 ∧ ∃ m, can b m
    let leaves := fun b => s.setAd { s.ad with links := s.ad.links.put l b }
    (FramedAs .takeAlarm body →
      let answers := fun r p t => exec (.takeAlarm l body) s = .next (replied l 0x04 body r p t)
      (4 ≤ a.stack.length → answers .stackFull [n (waiting a), n a.stack.length] s) ∧
      (a.stack.length < 4 → (∀ m, ¬can a m) → answers .none [n (waiting a), n a.stack.length] s) ∧
      ∀ m, a.stack.length < 4 → can a m → (∀ k, can a k → (entry a.pending m).level < (entry a.pending k).level ∨
          ((entry a.pending m).level = (entry a.pending k).level ∧ m ≤ k)) →
        ∃ b, (∀ k, entry b.pending k = if k = m then ⟨false, 0, 0⟩ else entry a.pending k) ∧
          b.stack = a.stack ++ [⟨m, (entry a.pending m).level⟩] ∧ lit b ∧
          answers .ok [n m.val, n (entry a.pending m).level.val, n (entry a.pending m).count, n (waiting b),
            n (a.stack.length + 1)] (leaves b)) ∧
    (FramedAs .doneAlarm body →
      let answers := fun r p t => exec (.doneAlarm l body) s = .next (replied l 0x05 body r p t)
      (a.stack = [] → answers .notInService [] s) ∧
      ∀ rest f, a.stack = rest ++ [f] → ∃ b, b.pending = a.pending ∧ b.stack = rest ∧ lit b ∧
        answers .ok [n f.source.val, n f.level.val, n rest.length] (leaves b))

/-- R157, R158, R159: ALARM ROUTE SET writes one source's level and mask and no pending entry; BAD_VALUE for a source above
15, a level above 3 or a mask above 7; the reply tells on which links the source is pending. READ ALARM ROUTES sends the
level and mask of each source and changes no state. -/
def Obligations.AlarmRoutesSetAndRead : Prop :=
  ∀ (body : RequestBody) (s : State), LinkFree .v s →
    (FramedAs .alarmRouteSet body → ∃ sb lb mb : Byte, body.payload = [sb, lb, mb] ∧
      (15 < sb.toNat ∨ 3 < lb.toNat ∨ 7 < mb.toNat →
        exec (.alarmRouteSet .v body) s = .next (replied .v 0x58 body .badValue [] s)) ∧
      ∀ (src : Fin 16) (level : Fin 4) (mask : BitVec 3), src.val = sb.toNat → level.val = lb.toNat →
        mask.toNat = mb.toNat → ∃ sources,
        (∀ m, entry sources m = if m = src then ⟨level, mask⟩ else entry s.ad.sources m) ∧
        exec (.alarmRouteSet .v body) s = .next (replied .v 0x58 body .ok
          [sb, lb, mb, BitVec.ofNat 8 ((entry s.ad.links.t.pending src).pending.toNat +
            2 * (entry s.ad.links.a.pending src).pending.toNat + 4 * (entry s.ad.links.v.pending src).pending.toNat)]
          (s.setAd { s.ad with sources := sources }))) ∧
    (FramedAs .readAlarmRoutes body → exec (.readAlarmRoutes .v body) s = .next (replied .v 0x59 body .ok
      ((List.finRange 16).map fun m =>
        BitVec.ofNat 8 ((entry s.ad.sources m).level.val + 4 * (entry s.ad.sources m).mask.toNat)) s))

/-! ### Parameters, REINIT, READ STATUS, the ports -/

/-- R186, R187, R188, R81: SET PARAM: BAD_VALUE above 51; else the value fitted to its parameter is stored, CLAMPED when it
differs from the one given; it is in force at once for P_D_MIN and P_D_MAX alone, D being clamped into the new bounds.
R190: READ PARAM sends the stored value, the value in force, the bounds a write made now would be fitted to, and the
default; BAD_VALUE above 51. It changes no state. The model's reading (log 25): an on count above a period lowered since,
written again with its stored value, is fitted to that period and CLAMPED.
R184, Table 10-1: the parameters by number, whose values in force the blocks read; their ranges (the ends that are other
parameters stand at 15 and 65535) and defaults. -/
def Obligations.ParametersSetAndRead : Prop :=
  (∀ s : State, s.pm.inForce.toList = ([
     .silenceMs, .plausLimit, .vPlausMax, .iPlausMax, .vPresent, .presentCount, .confirmCount, .rateLimit, .elevMax,
     .latMax, .latMaxFrog, .stow, .raiseLimit, .unloadLimit, .iQuiet, .lowerBoth, .learn, .learnFactor, .lead,
     .margin, .iLim, .vLow, .vTaper, .vHigh, .regenMax, .reserve, .window, .stepUp, .stepDown, .dMin, .dMax,
     .freezeLimit, .escalate, .battery, .bAvail, .bTrac, .bRegen, .restoreMargin, .restoreInterval, .startGap,
     .vAuxLow, .vAuxHigh, .bandRestartLimit, .idleLong, .idleShort, .parkObs, .parkHi, .parkLo, .cycleAPeriod,
     .cycleBPeriod, .cycleAOn, .cycleBOn] : List Param).map s.par) ∧
  (∀ s : State, genPeriod s .a = s.par .cycleAPeriod ∧ genPeriod s .b = s.par .cycleBPeriod ∧
    genOn s .a = s.par .cycleAOn ∧ genOn s .b = s.par .cycleBOn) ∧
  paramTable.toList.map (fun row => (row.lower, row.upper, row.dflt)) = [
    (1, 255, 10), (1, 255, 40), (0, 1023, 1000), (0, 2047, 2000), (0, 1023, 250), (1, 255, 5), (1, 255, 20),
    (1, 255, 30), (0, 1023, 650), (0, 511, 150), (0, 511, 250), (0, 1023, 80), (1, 65535, 3000), (1, 255, 50),
    (0, 255, 20), (0, 1, 1), (0, 1, 1), (0, 16, 16), (0, 63, 20), (0, 63, 10), (0, 2047, 1000), (0, 1023, 480),
    (0, 1023, 720), (0, 1023, 800), (0, 2047, 600), (0, 255, 20), (1, 255, 100), (1, 15, 2), (1, 15, 1), (0, 15, 0),
    (0, 15, 12), (1, 63, 8), (0, 15, 0), (0, 1, 1), (0, 511, 120), (0, 255, 60), (0, 255, 40), (0, 255, 15),
    (1, 255, 200), (0, 255, 50), (0, 1023, 420), (0, 1023, 950), (1, 15, 3), (1, 65535, 30000), (1, 65535, 5000),
    (1, 65535, 60000), (0, 255, 12), (0, 255, 4), (1, 65535, 10000), (1, 65535, 10000), (0, 65535, 5000),
    (0, 65535, 5000)] ∧
  (∀ (body : RequestBody) (s : State), LinkFree .v s → FramedAs .setParam body → ParamInv s.pm →
     ∃ nb hi lo : Byte, body.payload = [nb, hi, lo] ∧
     let v := hi.toNat * 256 + lo.toNat
     let two := fun (k : Nat) => [BitVec.ofNat 8 (k / 256), BitVec.ofNat 8 k]
     (51 < nb.toNat → exec (.setParam .v body) s = .next (replied .v 0x60 body .badValue [] s)) ∧
     ∀ n : Fin 52, n.val = nb.toNat → ∃ fitted pm, ∃ d : Nat,
       (n = 17 → fitted = if 16 < v then 16 else v - v % 4) ∧
       (n = 50 → fitted = min v (entry s.pm.stored 48)) ∧ (n = 51 → fitted = min v (entry s.pm.stored 49)) ∧
       (n = 29 → fitted = min v (entry s.pm.stored 30)) ∧
       (n = 30 → fitted = max (min v 15) (entry s.pm.stored 29)) ∧
       (n ∉ [17, 50, 51, 29, 30] → fitted = if v < (entry paramTable n).lower then (entry paramTable n).lower
         else if (entry paramTable n).upper < v then (entry paramTable n).upper else v) ∧
       (∀ m, entry pm.stored m = if m = n then fitted else entry s.pm.stored m) ∧
       (∀ m, entry pm.inForce m = if m = n ∧ (n = 29 ∨ n = 30) then fitted else entry s.pm.inForce m) ∧
       (n ≠ 29 → n ≠ 30 → d = s.be.d) ∧
       (n = 29 → d = max (min s.be.d (entry s.pm.stored 30)) fitted) ∧
       (n = 30 → d = max (min s.be.d fitted) (entry s.pm.stored 29)) ∧
       exec (.setParam .v body) s = .next (replied .v 0x60 body (if fitted = v then .ok else .clamped)
         ([nb] ++ two fitted ++ two (entry pm.inForce n)) ((s.setPm pm).setBe { s.be with d := d }))) ∧
  (∀ (body : RequestBody) (s : State), LinkFree .v s → FramedAs .readParam body →
     ∃ b : Byte, body.payload = [b] ∧
     let two := fun (k : Nat) => [BitVec.ofNat 8 (k / 256), BitVec.ofNat 8 k]
     (51 < b.toNat → exec (.readParam .v body) s = .next (replied .v 0x61 body .badValue [] s)) ∧
     ∀ n : Fin 52, n.val = b.toNat →
       let row := entry paramTable n
       let low := if n = 30 then entry s.pm.stored 29 else row.lower
       let high := if n = 29 then entry s.pm.stored 30 else if n = 50 then entry s.pm.stored 48
         else if n = 51 then entry s.pm.stored 49 else row.upper
       exec (.readParam .v body) s = .next (replied .v 0x61 body .ok
         ([b] ++ two (entry s.pm.stored n) ++ two (entry s.pm.inForce n) ++ two low ++ two high ++ two row.dflt) s))

/-- R179, R185 and the reset tables: REINIT outside DOWN is BUSY and changes nothing. In DOWN every block takes its REINIT
values, the stored parameters being in force, and keeps what the tables keep: the receivers and the time base, P, the point
table, the zones, the drop log, the slot configuration, the alarm routes and the stored parameters. -/
def Obligations.ReinitAnswered : Prop :=
  ∀ (body : RequestBody) (s : State), LinkFree .v s → FramedAs .reinit body →
    let answers := fun (r : Result) (t : State) => exec (.reinit .v body) s = .next (replied .v 0x7E body r [] t)
    (s.cm.state ≠ .down → answers .busy s) ∧
    (s.cm.state = .down → ∃ t, answers .ok t ∧
      t.si = { State.reset.si with rx := s.si.rx } ∧ t.timeBase = s.timeBase ∧ t.pt = s.pt ∧
      (∀ i, entry t.rft.zones i = { entry s.rft.zones i with prevMatch := false }) ∧
      t.rft = { s.rft with armed := [], zones := t.rft.zones } ∧
      t.cm = { State.reset.cm with log := s.cm.log, lost := s.cm.lost, dropNumber := s.cm.dropNumber } ∧
      t.pm = ⟨s.pm.stored, s.pm.stored⟩ ∧ t.supply = (if entry s.pm.stored 33 = 1 then .battery else .none) ∧
      t.be = { State.reset.be with
        record := { State.reset.be.record with supply := t.supply }
        d := entry s.pm.stored 29, windowLength := entry s.pm.stored 26 } ∧
      t.tg = State.reset.tg ∧
      (∀ i, entry t.ls.slots i = if (entry s.ls.slots i).mode = .off then entry s.ls.slots i
        else { entry s.ls.slots i with state := .waiting, bandCount := 0, idle := 0 }) ∧
      (let waits := slotNumbers.filter fun i => (entry t.ls.slots i).state = .waiting
       t.ls.queue = waits.filter (fun i => (entry t.ls.slots i).level = 0) ++
        waits.filter fun i => (entry t.ls.slots i).level ≠ 0) ∧
      t.ls = { State.reset.ls with slots := t.ls.slots, queue := t.ls.queue } ∧
      t.ad = { State.reset.ad with sources := s.ad.sources } ∧
      (∀ l, t.lp.get l = { s.lp.get l with bad := 0 }) ∧ t.resetPin = s.resetPin ∧ t.pending = s.pending)

/-- R181, Table 9-4: the 70 bytes of READ STATUS, on each link, and no change of state. -/
def Obligations.StatusRead : Prop :=
  ∀ (l : Link) (body : RequestBody) (s : State), LinkFree l s → FramedAs .readStatus body →
    let n := fun (k : Nat) => BitVec.ofNat 8 k
    let two := fun (k : Nat) => [BitVec.ofNat 8 (k / 256), BitVec.ofNat 8 k]
    let channel := fun (c : SenseChannel) => [n ((match c.health with | .healthy => 0 | .failed => 1) +
      2 * (match c.reason with | none => 0 | some .plausibility => 1 | some .silence => 2) + 16 * c.status.toNat), n c.plaus]
    let elevation := fun (e : Option (BitVec 10)) => two (32768 * e.isSome.toNat + (e.getD 0).toNat)
    let flags := fun (c : Conditions) =>
      c.taint.toNat + 2 * c.overrange.toNat + 4 * c.shortfall.toNat + 8 * c.zeroSpan.toNat
    let state := fun (c : CollectorState) => match c with
      | .down => 0 | .raising => 1 | .onWire => 2 | .gap => 3 | .suspect => 4 | .dropped => 5 | .unloading => 6 | .lowering => 7
    let supply := fun (p : Supply) => match p with | .none => 0 | .battery => 1 | .line => 2
    let mask := fun (p : Option DropPoles) => match p with
      | none => 0 | some .pos => 1 | some .neg => 2 | some .both => 3 | some .unknown => 4
    let a := s.ad.links.get l
    let source := fun m => if (entry a.pending m).pending
      then n ((entry a.pending m).count + 16 * (entry a.pending m).level.val + 64) else 0
    let frame := fun k => (a.stack[k]?).elim [(0xFF : Byte), 0xFF] fun f => [n f.source.val, n f.level.val]
    ∃ p : List Byte, p.length = 70 ∧ exec (.readStatus l body) s = .next (replied l 0x01 body .ok p s) ∧
      p = [n s.lp.t.bad, n s.lp.a.bad, n s.lp.v.bad] ++ channel s.si.chan.a ++ channel s.si.chan.b ++
        [n ((match s.si.active with | some .a => 0 | some .b => 1 | none => 2) + 4 * s.si.senseLost.toNat +
          8 * s.pt.isSet.toNat)] ++ two s.si.epoch.toNat ++ two s.pt.metre ++ [n s.pt.cm] ++
        [n (state s.cm.state + 8 * supply s.supply + 32 * s.cm.lines.pos.toNat + 64 * s.cm.lines.neg.toNat),
         n s.cm.presentCount, n s.cm.confirmCount] ++ two s.cm.epochsIn ++
        [n (mask s.cm.dropMask + 8 * s.cm.marks.t.toNat + 16 * s.cm.marks.a.toNat + 32 * s.cm.marks.v.toNat +
          64 * s.cm.lossMetre.isSome.toNat + 128 * s.cm.lossEpoch.isSome.toNat)] ++ two (s.cm.lossMetre.getD 0) ++
        two (s.cm.lossEpoch.getD 0).toNat ++ elevation s.cm.lastElev.pos ++ elevation s.cm.lastElev.neg ++
        two s.be.heldV.toNat ++ [n (s.be.d + 16 * s.be.sag.toNat), n s.be.windowCount, n s.be.windowLength,
          n (s.be.h + 8 * s.be.hStar)] ++ two s.be.sinceH ++
        [n (flags s.be.causes + 16 * flags s.be.sticky), n (s.par .escalate % 16), n s.be.freeze] ++
        two (BitVec.ofInt 16 s.tg.lastGrant).toNat ++ two s.tg.lastEpoch.toNat ++ [n s.tg.reported.toNat] ++
        two s.ls.sinceStart ++ (List.finRange 16).map source ++ [n (a.stack.length + 8 * a.attention.toNat)] ++
        frame 0 ++ frame 1 ++ frame 2 ++ frame 3

/-- R173, R175, R177, R178: the checks of a port in their order, for any kind code: CHECK_FAIL with one bad frame counted,
UNKNOWN for a code outside Table 9-3, LENGTH, DENIED for a kind not permitted on the link; each reply without payload and
nothing else changed. A code of Table 9-3 given to UNKNOWN_KIND is that kind's request (log 21). Table 9-3: the code and the
payload length of each kind.
R174, R176, Table 9-1, Table 9-2: the reply that every request statement speaks of, field by field: the three header bytes
from the state that the request leaves, the number of the result, the payload length, the payload and the check.
R3, R173: the check register starts at 0, takes the bits of a byte most significant first, and divides by
x^8 + x^5 + x^4 + 1. -/
def Obligations.PortChecks : Prop :=
  (∀ (l : Link) (code : Byte) (body : RequestBody) (r : Result) (payload : List Byte) (t : State), payload.length ≤ 255 →
     ∃ h1 h2 h3 : Byte,
     let number : Byte := match r with
       | .ok => 0 | .clamped => 1 | .already => 2 | .denied => 3 | .unknown => 4 | .length => 5 | .checkFail => 6
       | .badValue => 7 | .busy => 8 | .inZone => 9 | .senseLost => 10 | .dropped => 11 | .notStowed => 12
       | .notFound => 13 | .tableRefused => 14 | .lockLimit => 15 | .none => 16 | .stackFull => 17 | .notInService => 18
     let bytes := [h1, h2, h3, number, BitVec.ofNat 8 payload.length] ++ payload
     (replied l code body r payload t).lp.get l = ⟨true, .turnaround, 0,
       code :: BitVec.ofNat 8 body.payload.length :: body.payload ++ [body.check], bytes ++ [crc bytes], (t.lp.get l).bad⟩ ∧
     (∀ k, k ≠ l → (replied l code body r payload t).lp.get k = t.lp.get k) ∧
     h1.toNat = (match t.cm.state with
         | .down => 0 | .raising => 1 | .onWire => 2 | .gap => 3 | .suspect => 4 | .dropped => 5 | .unloading => 6
         | .lowering => 7) +
       8 * (match t.supply with | .none => 0 | .battery => 1 | .line => 2) + 32 * (t.cm.marks.get l).toNat +
       64 * (t.ad.links.get l).attention.toNat + 128 * t.si.senseLost.toNat ∧
     h2.toNat = t.be.record.frozen.toNat + 2 * t.be.record.safe.toNat + 4 * t.be.record.shortfall.toNat +
       8 * t.pt.isSet.toNat + 16 * t.be.record.vHeld.toNat ∧
     h3.toNat = t.si.epoch.toNat % 256) ∧
  (let shift := fun (x : Byte) => if x.msb then x <<< 1 ^^^ 0x31 else x <<< 1
   crc [] = 0 ∧ ∀ (bytes : List Byte) (b : Byte), crc (bytes ++ [b]) = shift^[8] (crc bytes ^^^ b)) ∧
  (∀ k, (k, kindCode k, kindLength k) ∈ ([
    (.readStatus, 0x01, 0), (.readBudget, 0x02, 0), (.dropSeen, 0x03, 0), (.takeAlarm, 0x04, 0), (.doneAlarm, 0x05, 0),
    (.tractionRequest, 0x10, 2), (.loadSetup, 0x20, 6), (.loadDemand, 0x21, 3), (.loadReEnable, 0x22, 1),
    (.readLoads, 0x23, 0), (.raise, 0x30, 0), (.lower, 0x31, 0), (.clearDrop, 0x32, 0), (.readDropLog, 0x33, 0),
    (.popDropLog, 0x34, 0), (.setPosition, 0x38, 2), (.restoreChannel, 0x39, 1), (.featurePut, 0x40, 6),
    (.featureEvict, 0x41, 3), (.featureRead, 0x42, 2), (.tableClear, 0x43, 0), (.armedRead, 0x44, 0),
    (.zoneSet, 0x48, 12), (.zoneRead, 0x49, 1), (.clearConditions, 0x50, 0), (.alarmRouteSet, 0x58, 3),
    (.readAlarmRoutes, 0x59, 0), (.setParam, 0x60, 3), (.readParam, 0x61, 1), (.reinit, 0x7E, 0)] : List (Kind × Byte × Nat))) ∧
  ∀ (l : Link) (code : Byte) (body : RequestBody) (s : State), LinkFree l s → body.payload.length ≤ 28 →
    let good := crc (code :: byteOf body.payload.length :: body.payload) = body.check
    let sends := fun (c : Instr) (r : Result) (t : State) => exec c s = .next (replied l code body r [] t)
    let vOnly := fun (k : Kind) => k ∉ [.readBudget, .dropSeen, .takeAlarm, .doneAlarm, .readStatus]
    let denied := fun (k : Kind) => match l with
      | .t => vOnly k ∧ k ≠ .tractionRequest
      | .a => vOnly k ∧ k ∉ [.loadDemand, .loadSetup, .loadReEnable, .readLoads]
      | .v => k ∈ [.tractionRequest, .loadDemand, .loadSetup, .loadReEnable]
    (¬good → sends (.unknownKind l code body) .checkFail (oneMoreBad l s)) ∧
    (good → (∀ k, kindCode k ≠ code) → sends (.unknownKind l code body) .unknown s) ∧
    ∀ k, kindCode k = code →
      exec (.unknownKind l code body) s = exec (requestOf k l body) s ∧
      (¬good → sends (requestOf k l body) .checkFail (oneMoreBad l s)) ∧
      (good → body.payload.length ≠ kindLength k → sends (requestOf k l body) .length s) ∧
      (good → body.payload.length = kindLength k → denied k → sends (requestOf k l body) .denied s)

/-- R170, R171, R172, R182: the select line and the events of a request frame. An assertion of a released line opens REQUEST
with empty buffers; a release returns the port to IDLE, an unsent reply being lost, and a frame abandoned in REQUEST with a
clock edge sampled is counted; a length byte above 28 is counted and leads to FILL. Not due, or no change of the line: nothing
changes (log 5).
R170, R171, R173: a byte on a port: nothing in IDLE; in REQUEST it is stored, an over-range length byte being counted and not
stored, and the check byte takes the request: the state is the one that the request's own command leads to on the idle link;
the second byte of TURNAROUND leads to REPLY, the last byte of the reply to FILL, and FILL goes on.
R170, R183: the data-out line: nothing while select is released, the reply's byte in REPLY, 0xFF in every other phase.
The model's readings: the byte position is 0 on entry to IDLE and FILL and saturates at 255 in FILL (log 10), a release empties
the reply buffer and keeps the request buffer, and the over-range length byte is not stored (log 11); its choice: how many clock
edges of a byte not complete were sampled is the operand `edges` (log 9). -/
def Obligations.PortPhases : Prop :=
  (∀ (l : Link) (s : State), s.resetPin = false →
     let p := s.lp.get l
     let leaves := fun (c : Instr) (q : Port) => exec c s = .next (s.setLp (s.lp.put l q))
     let bad := min (p.bad + 1) 255
     let abandons := fun (edges : BitVec 3) => p.phase = .request ∧ (0 < p.pos ∨ edges ≠ 0)
     let overlong := fun (n : Byte) => p.phase = .request ∧ p.pos = 1 ∧ 28 < n.toNat
     (p.select = true → exec (.selectAsserted l) s = .next s) ∧
     (p.select = false → leaves (.selectAsserted l) ⟨true, .request, 0, [], [], p.bad⟩) ∧
     (∀ edges, leaves (.selectReleased l edges)
       ⟨false, .idle, 0, p.request, [], if p.phase = .request ∧ (0 < p.pos ∨ edges ≠ 0) then bad else p.bad⟩) ∧
     (∀ edges, abandons edges → leaves (.frameAbandoned l edges) ⟨false, .idle, 0, p.request, [], bad⟩) ∧
     (∀ edges, ¬abandons edges → exec (.frameAbandoned l edges) s = .next s) ∧
     (∀ n, overlong n → leaves (.requestLengthOverrange l n) { p with phase := .fill, pos := 0, bad := bad }) ∧
     (∀ n, ¬overlong n → exec (.requestLengthOverrange l n) s = .next s)) ∧
  (∀ (l : Link) (b : Byte) (s : State), s.resetPin = false →
     let p := s.lp.get l
     let leaves := fun (q : Port) => exec (.linkByteComplete l b) s = .next (s.setLp (s.lp.put l q))
     (p.phase = .idle → exec (.linkByteComplete l b) s = .next s) ∧
     (p.phase = .request → p.pos = 0 → leaves { p with request := p.request ++ [b], pos := 1 }) ∧
     (p.phase = .request → p.pos = 1 → 28 < b.toNat → leaves { p with phase := .fill, pos := 0, bad := min (p.bad + 1) 255 }) ∧
     (p.phase = .request → p.pos = 1 → b.toNat ≤ 28 → leaves { p with request := p.request ++ [b], pos := 2 }) ∧
     (∀ code n, p.phase = .request → 2 ≤ p.pos → p.request.length = p.pos → p.request.take 2 = [code, n] →
       p.pos ≠ n.toNat + 2 → leaves { p with request := p.request ++ [b], pos := p.pos + 1 }) ∧
     (∀ code payload, p.phase = .request → p.select = true → payload.length ≤ 28 → p.pos = payload.length + 2 →
       p.request = code :: BitVec.ofNat 8 payload.length :: payload →
       exec (.linkByteComplete l b) s =
         exec (.unknownKind l code ⟨payload, b⟩) (s.setLp (s.lp.put l ⟨false, .idle, 0, [], [], p.bad⟩))) ∧
     (p.phase = .turnaround → p.pos = 0 → leaves { p with pos := 1 }) ∧
     (p.phase = .turnaround → p.pos ≠ 0 → leaves { p with phase := .reply, pos := 0 }) ∧
     (p.phase = .reply → p.pos + 1 < p.reply.length → leaves { p with pos := p.pos + 1 }) ∧
     (p.phase = .reply → p.reply.length ≤ p.pos + 1 → leaves { p with phase := .fill, pos := 0 }) ∧
     (p.phase = .fill → leaves { p with pos := min (p.pos + 1) 255 })) ∧
  ∀ p : Port, (p.select = false → p.dataOut = none) ∧ (p.select = true → p.phase ≠ .reply → p.dataOut = some 0xFF) ∧
    (p.select = true → p.phase = .reply → ∀ b, p.reply[p.pos]? = some b → p.dataOut = some b)

/-- R170, R171, R173: on a free link, an assertion of select and the bytes of a request frame, one at a time, lead to the
state that the request's own command leads to (the model's choice: a request row is the whole request half of its transaction,
log 8), whatever the kind code, the payload and the check byte. The reply that it holds is then read out byte by byte: for
every number of bytes clocked, the port drives 0xFF in the two bytes of TURNAROUND, then the reply's bytes in their order, and
0xFF for every further byte; nothing changes but the port's phase and position, and after the reply's last byte the port
stands in FILL at position 0 (log 10). -/
def Obligations.RequestByteByByte : Prop :=
  ∀ (l : Link) (code : Byte) (body : RequestBody) (filler : List Byte) (s : State), LinkFree l s →
    body.payload.length ≤ 28 → ∃ t : State,
    exec (.unknownKind l code body) s = .next t ∧
    execAll (.selectAsserted l :: (code :: byteOf body.payload.length :: body.payload ++ [body.check]).map (.linkByteComplete l)) s =
      .next t ∧
    (t.lp.get l).phase = .turnaround ∧ 6 ≤ (t.lp.get l).reply.length ∧
    (∃ phase pos, execAll (filler.map (.linkByteComplete l)) t =
        .next (t.setLp (t.lp.put l { t.lp.get l with phase := phase, pos := pos })) ∧
      ({ t.lp.get l with phase := phase, pos := pos } : Port).dataOut =
        some (if filler.length < 2 then 0xFF else (t.lp.get l).reply.getD (filler.length - 2) 0xFF)) ∧
    (filler.length = (t.lp.get l).reply.length + 2 → execAll (filler.map (.linkByteComplete l)) t =
      .next (t.setLp (t.lp.put l { t.lp.get l with phase := .fill, pos := 0 })))

/-! ### An accepted set -/

/-- R8, R9, R34, R43, R49, R75, R132, R189: the order in which the blocks take an accepted set: SI and PM pass it on and P
advances; RFT removes and probes; CM moves on the set, on the previous elevations and on an entry into the lowest-numbered
matching OFF_WIRE zone with auto-lower and a clear flag, the flags then following the zones; LS does its mode work, supply
step and band step; BE computes; LS decides a start; SI keeps the valid elevations. -/
def Obligations.AcceptedSetInOrder : Prop :=
  ∀ (ch : Channel) (x : Sample) (s : State), Accepts ch x s →
    let c := s.si.chan.get ch
    let judged := s.setSi { s.si with
      rx := s.si.rx.put ch none
      chan := s.si.chan.put ch { c with
        plaus := if implausible c x s then min (c.plaus + 2) 255 else c.plaus - 1
        seqRecord := some x.seq, status := x.status, silence := 0 } }
    let found := probe (removePassed (((judged.setSi { judged.si with epoch := s.si.epoch + 1 }).setPm
      ⟨s.pm.stored, s.pm.stored⟩).setPt ⟨min (s.pt.metre + (s.pt.cm + x.inc.toNat) / 100) 65535,
        (s.pt.cm + x.inc.toNat) % 100, s.pt.isSet⟩))
    let matching := fun (z : Zone) => z.enable = true ∧ found.pt.isSet = true ∧
      (BitVec.ofNat 12 (found.pt.metre / 16) ^^^ z.base) &&& z.mask = 0
    ∃ (zones : Vector Zone 8) (entered : Bool),
      (∀ i, entry zones i = { entry found.rft.zones i with prevMatch := decide (matching (entry found.rft.zones i)) }) ∧
      (entered = true ↔ ∃ i, (entry found.rft.zones i).kind = .offWire ∧ matching (entry found.rft.zones i) ∧
        (∀ j, j < i → ¬((entry found.rft.zones j).kind = .offWire ∧ matching (entry found.rft.zones j))) ∧
        (entry found.rft.zones i).autoLower = true ∧ (entry found.rft.zones i).prevMatch = false) ∧
      let moved := collectorTake x s.si.prevElev entered (found.setRft { found.rft with zones := zones })
      let done := startDecision (budgetComputation x.v (bandStep x.v (supplyStep (modeWork moved))))
      exec (.sampleFrame ch) s = .next (done.setSi { done.si with
        prevElev := ⟨if x.elevPos.isSome then x.elevPos else s.si.prevElev.pos,
          if x.elevNeg.isSome then x.elevNeg else s.si.prevElev.neg⟩ })

/-- R34 to R38: the armed list at a set with POSITION_SET set: the copies whose window end is below P leave; the valid
entries of Q's set with Q's tag, a start at or below Q, a window that contains P and no copy in the list are armed, the
lower start first, while there is room for 4, each behind the copies that start at or before its start and ahead of the
others; each of the others raises ARMED_OVERFLOW. With POSITION_SET clear there is no probe. -/
def Obligations.ArmedAtASet : Prop :=
  ∀ s : State, ArmedInv s →
    let p := s.pt.metre
    let q := min (p + s.par .lead) 65535
    let i := Machine.setOf q
    let ps := entry s.rft.points i
    let kept := s.rft.armed.filter fun c => p ≤ c.windowEnd
    let high := fun (e : PointEntry) => min (e.start + e.length + s.par .margin) 65535
    let arms := fun (w : Way) =>
      let e := ps.at w
      decide (e.valid = true ∧ e.start / 1024 = q / 1024 ∧ e.start ≤ q ∧ e.start - s.par .lead ≤ p ∧ p ≤ high e ∧
        ∀ c ∈ kept, ¬(c.set = i ∧ c.way = w ∧ c.start = e.start))
    let copy := fun (w : Way) => (⟨(ps.at w).kind, (ps.at w).factor, (ps.at w).start, (ps.at w).length, high (ps.at w), i, w⟩ : ArmedCopy)
    let found := (if ps.way1.start < ps.way0.start then [Way.w1, .w0] else [.w0, .w1]).filter arms
    (s.pt.isSet = false → probe (removePassed s) = s) ∧
    (s.pt.isSet = true → ∃ (armed : List ArmedCopy) (ad : Alarms),
      probe (removePassed s) = (s.setRft { s.rft with armed := armed, lastQ := q }).setAd ad ∧
      armed = ((found.take (4 - kept.length)).map copy).foldl (fun list c =>
        list.filter (fun d => d.start ≤ c.start) ++ c :: list.filter (fun d => c.start < d.start)) kept ∧
      armed.Perm (kept ++ (found.take (4 - kept.length)).map copy) ∧ armed.Pairwise (fun c d => c.start ≤ d.start) ∧
      ad = (Alarms.occurrence .armedOverflow)^[found.length - (4 - kept.length)] s.ad)

/-- R58 to R62, R68, R69: the angle checks: each pole not in the mask, in the states that check, by its rate, elevation and
lateral, a tainted field or a missing previous elevation passing; the poles hit and the first cause. A drop enters DROPPED
with the poles as mask, or extends the mask to BOTH; both or the masked lines follow P_LOWER_BOTH; the record is offered,
the number advances, the marks are set and POLE_DROP is raised. The model's reading (log 13): a further drop in DROPPED is
no entry into a state, so the counts and the epochs in state go on. -/
def Obligations.AngleChecksAndDrop : Prop :=
  ∀ (x : Sample) (prev : PerPole (Option (BitVec 10))) (entered : Bool) (s : State),
    let checks := fun (held : Option DropPoles → Bool) =>
      s.cm.state ∈ [.onWire, .gap, .suspect, .unloading] ∨ (s.cm.state = .dropped ∧ held s.cm.dropMask = false)
    let lateral := if (∃ c ∈ s.rft.armed, c.kind = .frog) then s.par .latMaxFrog else s.par .latMax
    let rate := fun (e p : Option (BitVec 10)) => ∃ a b, e = some a ∧ p = some b ∧ b.toNat + s.par .rateLimit < a.toNat
    let high := fun (e : Option (BitVec 10)) => ∃ a, e = some a ∧ s.par .elevMax < a.toNat
    let wide := fun (t : Option (BitVec 10)) => ∃ a, t = some a ∧ lateral < a.toInt.natAbs
    let hitP := checks holdsPos ∧ (rate x.elevPos prev.pos ∨ high x.elevPos ∨ wide x.latPos)
    let hitN := checks holdsNeg ∧ (rate x.elevNeg prev.neg ∨ high x.elevNeg ∨ wide x.latNeg)
    (angleCheck x prev s = none ↔ ¬hitP ∧ ¬hitN) ∧
    ∀ poles cause, angleCheck x prev s = some (poles, cause) →
      (poles = .both ↔ hitP ∧ hitN) ∧ (poles = .pos ↔ hitP ∧ ¬hitN) ∧ (poles = .neg ↔ ¬hitP ∧ hitN) ∧
      (cause = .rate ↔ (checks holdsPos ∧ rate x.elevPos prev.pos) ∨ (checks holdsNeg ∧ rate x.elevNeg prev.neg)) ∧
      (cause = .elevation ↔ ¬((checks holdsPos ∧ rate x.elevPos prev.pos) ∨ (checks holdsNeg ∧ rate x.elevNeg prev.neg)) ∧
        ((checks holdsPos ∧ high x.elevPos) ∨ (checks holdsNeg ∧ high x.elevNeg))) ∧
      cause ≠ .voltageLoss ∧
      ∃ t, collectorTake x prev entered s = raise .poleDrop (s.setCm t) ∧ Drops poles cause x s t ∧
        t.lastElev = ⟨x.elevPos, x.elevNeg⟩

/-- R45, R48 to R57: CM on a set without an angle hit: which state the present state, the presence of V, the counts, the
gap expected, the entry into a zone, the quiet current and the stowed elevations lead to; the counts of the state kept or
entered; the alarm raised; the suspect's record; the learned insert at a recovery. -/
def Obligations.CollectorTransition : Prop :=
  ∀ (x : Sample) (prev : PerPole (Option (BitVec 10))) (zone : Bool) (s : State), CollectorInv s.cm →
    angleCheck x prev s = none →
    let t := collectorTake x prev zone s
    let epochs := min (s.cm.epochsIn + 1) 65535
    let present := ∃ v, x.v = some v ∧ s.par .vPresent ≤ v.toNat
    let absent := ∃ v, x.v = some v ∧ v.toNat < s.par .vPresent
    let presents := if present then min (s.cm.presentCount + 1) 255 else if absent then 0 else s.cm.presentCount
    let confirms := if absent then min (s.cm.confirmCount + 1) 255 else s.cm.confirmCount
    let enough := present ∧ s.par .presentCount ≤ presents
    let gap := ∃ c ∈ s.rft.armed, c.kind ≠ .frog
    let quiet := ∃ i, x.i = some i ∧ i.toInt.natAbs ≤ s.par .iQuiet
    let low := fun (e : Option (BitVec 10)) => ∃ a, e = some a ∧ a.toNat ≤ s.par .stow
    let stays := s.setCm { s.cm with
      epochsIn := epochs, lastElev := ⟨x.elevPos, x.elevNeg⟩
      presentCount := if s.cm.state ∈ [.raising, .gap, .suspect] then presents else s.cm.presentCount
      confirmCount := if s.cm.state = .suspect then confirms else s.cm.confirmCount }
    let entered := fun (st : CollectorState) => s.setCm { s.cm with
      state := st, presentCount := 0, confirmCount := 0, epochsIn := 0, lossMetre := none, lossEpoch := none
      lines := if st ∈ [.down, .lowering] then ⟨true, true⟩ else ⟨false, false⟩, lastElev := ⟨x.elevPos, x.elevNeg⟩ }
    let suspect := raise .dropSuspect (s.setCm { (entered .suspect).cm with
      lossMetre := if s.pt.isSet then some s.pt.metre else none, lossEpoch := some s.si.epoch })
    (s.cm.state ∈ [.down, .dropped] → t = stays) ∧
    (s.cm.state = .raising → (enough → t = entered .onWire) ∧
      (¬enough → s.par .raiseLimit ≤ epochs → t = raise .raiseFailed (entered .down)) ∧
      (¬enough → epochs < s.par .raiseLimit → t = stays)) ∧
    (s.cm.state = .onWire → (zone = true → t = entered .unloading) ∧ (zone = false → ¬absent → t = stays) ∧
      (zone = false → absent → (gap → t = entered .gap) ∧ (¬gap → t = suspect))) ∧
    (s.cm.state = .gap → (zone = true → t = entered .unloading) ∧ (zone = false → enough → t = entered .onWire) ∧
      (zone = false → absent → ¬gap → t = raise .gapOverrun suspect) ∧
      (zone = false → ¬enough → ¬(absent ∧ ¬gap) → t = stays)) ∧
    (s.cm.state = .suspect → (gap → t = entered .gap) ∧
      (¬gap → absent → s.par .confirmCount ≤ confirms → ∃ u, t = raise .poleDrop (s.setCm u) ∧
        Drops .unknown .voltageLoss x s u ∧ u.lastElev = ⟨x.elevPos, x.elevNeg⟩) ∧
      (¬gap → ¬(absent ∧ s.par .confirmCount ≤ confirms) → ¬enough → t = stays) ∧
      (¬gap → enough → ¬(s.par .learn = 1 ∧ s.pt.isSet = true ∧ s.cm.lossMetre ≠ none) → t = entered .onWire) ∧
      ∀ m, ¬gap → enough → s.par .learn = 1 → s.pt.isSet = true → s.cm.lossMetre = some m →
        let made := learnedInsert m (min (max (s.pt.metre - m) 1) 255) (s.par .learnFactor) s.rft
        (made = none → t = raise .tableRefused (entered .onWire)) ∧
        ∀ rt, made = some rt → t = raise .learnedGap ((entered .onWire).setRft rt)) ∧
    (s.cm.state = .unloading → (quiet ∨ s.par .unloadLimit ≤ epochs → t = entered .lowering) ∧
      (¬(quiet ∨ s.par .unloadLimit ≤ epochs) → t = stays)) ∧
    (s.cm.state = .lowering → (low x.elevPos ∧ low x.elevNeg → t = entered .down) ∧
      (¬(low x.elevPos ∧ low x.elevNeg) → t = stays))

/-- R122 to R126, R133, R145: the mode work of a set: the generators count and wrap; a parked cycle slot wakes in its
generator's on phase and an active one parks outside it; a parked ON_DEMAND slot wakes when its demand bit is set, an active
one counts its idle sets and parks at the limit, adding to the park entries; the observation period ends at its length and
chooses the idle period. The slots that wake, cycle and ON_DEMAND alike, join the queue in ascending slot order, each by the
insertion rule: level-0 slots behind the level-0 entries, the others at the tail. -/
def Obligations.ModeWorkDone : Prop :=
  ∀ s : State, QueueInv s.ls →
    let sl := fun (i : Fin 24) => entry s.ls.slots i
    let period := fun (g : CycleGen) => match g with | .a => s.par .cycleAPeriod | .b => s.par .cycleBPeriod
    let count := fun (g : CycleGen) => match g with | .a => s.par .cycleAOn | .b => s.par .cycleBOn
    let next := fun g => if period g ≤ s.ls.gens.get g + 1 then 0 else s.ls.gens.get g + 1
    let on := fun g => decide (next g < min (count g) (period g))
    let limit := match s.ls.idlePeriod with | .short => s.par .idleShort | .long => s.par .idleLong
    let active := fun i => decide ((sl i).state = .running ∨ (sl i).state = .waiting)
    let asked := fun (i : Fin 24) => s.ls.demand.getLsbD i.val
    let idled := fun i => min ((sl i).idle + 1) 65535
    let cycles := fun i b => decide (((sl i).mode = .cycle .a ∧ on .a = b) ∨ ((sl i).mode = .cycle .b ∧ on .b = b))
    let idles := fun i => active i && decide ((sl i).mode = .onDemand) && !asked i && decide (limit ≤ idled i)
    let wakes := fun i => decide ((sl i).state = .parked) && (cycles i true || (decide ((sl i).mode = .onDemand) && asked i))
    let parks := fun i => (active i && cycles i false) || idles i
    let zero := fun i => decide ((sl i).level = 0)
    let kept := s.ls.queue.filter fun i => !parks i
    let woken := slotNumbers.filter wakes
    let parked := (List.finRange 24).countP idles
    let entries := if parked = 0 then s.ls.parkEntries else min (s.ls.parkEntries + parked) 65535
    let seen := min (s.ls.observation + 1) 65535
    ∃ ls, modeWork s = s.setLs ls ∧ ls.gens = ⟨next .a, next .b⟩ ∧
      (∀ i, entry ls.slots i =
        if wakes i then { sl i with state := .waiting, idle := 0 }
        else if parks i then { sl i with state := .parked, idle := 0 }
        else if active i && decide ((sl i).mode = .onDemand) then { sl i with idle := if asked i then 0 else idled i }
        else sl i) ∧
      ls.queue = kept.filter zero ++ woken.filter zero ++ kept.filter (!zero ·) ++ woken.filter (!zero ·) ∧
      (seen < s.par .parkObs → ls.observation = seen ∧ ls.parkEntries = entries ∧ ls.idlePeriod = s.ls.idlePeriod) ∧
      (s.par .parkObs ≤ seen → ls.observation = 0 ∧ ls.parkEntries = 0 ∧ ls.idlePeriod =
        if s.par .parkHi ≤ entries then .long else if entries < s.par .parkLo then .short else s.ls.idlePeriod) ∧
      ls.demand = s.ls.demand ∧ ls.sinceStart = s.ls.sinceStart

/-- R133, R137 to R141, R145: the supply step sheds every active slot that is not ride-through in NONE supply and wakes those
so shed in another; the band step, in LINE supply on a valid V, sheds or at the limit locks out every such slot when V is out
of the band, and in the band wakes or locks out the slots shed for it; BAND_SHED once and LOAD_LOCKOUT for each lockout. -/
def Obligations.SupplyAndBandSteps : Prop :=
  ∀ s : State, QueueInv s.ls →
    let sl := fun (i : Fin 24) => entry s.ls.slots i
    let taken := fun i => decide (((sl i).state = .running ∨ (sl i).state = .waiting) ∧ (sl i).rideThrough = false)
    let zero := fun i => decide ((sl i).level = 0)
    let joined := fun (wakes : Fin 24 → Bool) => s.ls.queue.filter zero ++ (slotNumbers.filter wakes).filter zero ++
      s.ls.queue.filter (!zero ·) ++ (slotNumbers.filter wakes).filter (!zero ·)
    let moves := fun (ls : Loads) => ls = { s.ls with slots := ls.slots, queue := ls.queue }
    (s.supply = .none → ∃ ls, supplyStep s = s.setLs ls ∧ moves ls ∧ ls.queue = s.ls.queue.filter (fun i => !taken i) ∧
      ∀ i, entry ls.slots i = if taken i then { sl i with state := .shed .supply, idle := 0 } else sl i) ∧
    (s.supply ≠ .none →
      let wakes := fun i => decide ((sl i).state = .shed .supply)
      ∃ ls, supplyStep s = s.setLs ls ∧ moves ls ∧ ls.queue = joined wakes ∧
        ∀ i, entry ls.slots i = if wakes i then { sl i with state := .waiting, idle := 0 } else sl i) ∧
    (s.supply ≠ .line → ∀ v, bandStep v s = s) ∧ bandStep none s = s ∧
    ∀ v : BitVec 10, s.supply = .line →
      (v.toNat < s.par .vAuxLow ∨ s.par .vAuxHigh < v.toNat →
        let count := fun i => min ((sl i).bandCount + 1) 15
        let locks := fun i => taken i && decide (s.par .bandRestartLimit ≤ count i)
        ∃ ls, bandStep (some v) s = (raise .bandShed)^[if ∃ i, taken i = true then 1 else 0]
            ((raise .loadLockout)^[(List.finRange 24).countP locks] (s.setLs ls)) ∧ moves ls ∧
          ls.queue = s.ls.queue.filter (fun i => !taken i) ∧
          ∀ i, entry ls.slots i = if locks i then { sl i with state := .lockedOut, idle := 0, bandCount := count i }
            else if taken i then { sl i with state := .shed .band, idle := 0, bandCount := count i } else sl i) ∧
      (s.par .vAuxLow ≤ v.toNat ∧ v.toNat ≤ s.par .vAuxHigh →
        let wakes := fun i => decide ((sl i).state = .shed .band) && (sl i).autoRecover
        let locks := fun i => decide ((sl i).state = .shed .band) && !(sl i).autoRecover
        ∃ ls, bandStep (some v) s = (raise .loadLockout)^[(List.finRange 24).countP locks] (s.setLs ls) ∧ moves ls ∧
          ls.queue = joined wakes ∧
          ∀ i, entry ls.slots i = if wakes i then { sl i with state := .waiting, idle := 0 }
            else if locks i then { sl i with state := .lockedOut, idle := 0 } else sl i)

/-- R46: the supply by collector state and P_BATTERY, in all eight states. R42, R77: the zone in effect of a kind is the
lowest-numbered enabled entry of that kind that matches P. R76, R78 to R81, R86: stages 1 to 3 of a computation: a valid V
is held; in LINE supply the window counts, notes a sag below the effective V_low, and at its length steps D within its
bounds and begins afresh, raising DERATE_RISE when D rose; P_avail is by supply, and served is the demand of the RUNNING
slots, less the ride-through ones in NONE supply; the seven stages then run in order on these figures (R75). -/
def Obligations.BudgetInStages : Prop :=
  ∀ (v : Option (BitVec 10)) (s : State),
    let matching := fun (k : ZoneKind) (i : Fin 8) => (entry s.rft.zones i).kind = k ∧
      (entry s.rft.zones i).enable = true ∧ s.pt.isSet = true ∧
      (BitVec.ofNat 12 (s.pt.metre / 16) ^^^ (entry s.rft.zones i).base) &&& (entry s.rft.zones i).mask = 0
    (s.cm.state ∈ [.onWire, .unloading] → s.supply = .line) ∧
    (s.cm.state ∈ [.down, .raising, .gap, .suspect, .dropped, .lowering] →
      s.supply = if s.par .battery = 1 then .battery else .none) ∧
    (∀ k, matchingZone k s = none ↔ ∀ i, ¬matching k i) ∧
    (∀ k z, matchingZone k s = some z → ∃ i, entry s.rft.zones i = z ∧ matching k i ∧ ∀ j < i, ¬matching k j) ∧
    let held := s.setBe { s.be with heldV := v.getD s.be.heldV }
    let vLow := match matchingZone .limit s with | some z => z.vLow | none => s.par .vLow
    let iLim := match matchingZone .limit s with | some z => z.iLim | none => s.par .iLim
    let sag := decide (s.be.sag = true ∨ ∃ x, v = some x ∧ x.toNat < vLow)
    let count := min (s.be.windowCount + 1) 255
    let d := if sag = true then min (s.be.d + s.par .stepUp) (s.par .dMax) else max (s.be.d - s.par .stepDown) (s.par .dMin)
    let ended := held.setBe { held.be with d := d, windowCount := 0, sag := false, windowLength := s.par .window }
    let w := if s.supply ≠ .line then held
      else if count < s.be.windowLength then held.setBe { held.be with windowCount := count, sag := sag }
      else if s.be.d < d then raise .derateRise ended else ended
    let power := match s.supply with
      | .line => held.be.heldV.toNat * iLim / 1000
      | .battery => s.par .bAvail
      | .none => 0
    let stage := depthStage power w
    let served := ((List.finRange 24).map fun i => if (entry stage.state.ls.slots i).state = .running ∧
      ¬(s.supply = .none ∧ (entry stage.state.ls.slots i).rideThrough = true)
        then (entry stage.state.ls.slots i).demand else 0).sum
    let c := ceilings power served stage.state
    windowStep v held = w ∧
      budgetComputation v s = conclude power served c
        ⟨decide (v = none), c.overrange, stage.shortfall || c.shortfall, c.zeroSpan⟩ stage.fall stage.state

/-- R82 to R85, R134: stage 4 outside NONE supply: H* is the least depth whose slots and reserve fit P_avail, 4 with
SHORTFALL when none does; the epochs since H changed gain 1; a rise sets H to H*, raises SHED_RISE once and sheds with reason
BUDGET every RUNNING or WAITING slot at or above level 4 − H; the fall by one is pending when the interval and the margin
allow it. In NONE supply nothing changes. -/
def Obligations.ShedDepthChosen : Prop :=
  ∀ (power : Nat) (s : State),
    let counts := fun (st : SlotState) => st = .running ∨ st = .waiting ∨ st = .shed .budget
    let sum := fun (h : Nat) => ((List.finRange 24).map fun i =>
      if counts (entry s.ls.slots i).state ∧ (entry s.ls.slots i).level.val < 4 - h
        then (entry s.ls.slots i).demand else 0).sum
    let fits := fun h => sum h + s.par .reserve ≤ power
    let since := min (s.be.sinceH + 1) 65535
    (s.supply = .none → depthStage power s = ⟨s, false, false⟩) ∧
    (s.supply ≠ .none → ∃ target : Nat, target ≤ 4 ∧ (∀ h < target, ¬fits h) ∧ (fits target ∨ target = 4) ∧
      ((depthStage power s).shortfall = true ↔ ∀ h ≤ 4, ¬fits h) ∧
      (target ≤ s.be.h → (depthStage power s).state = s.setBe { s.be with sinceH := since, hStar := target } ∧
        ((depthStage power s).fall = true ↔ target < s.be.h ∧ s.par .restoreInterval ≤ since ∧
          sum (s.be.h - 1) + s.par .reserve + s.par .restoreMargin ≤ power)) ∧
      (s.be.h < target → (depthStage power s).fall = false ∧ ∃ ls,
        (depthStage power s).state =
          raise .shedRise ((s.setBe { s.be with sinceH := 0, hStar := target, h := target }).setLs ls) ∧
        (∀ i, entry ls.slots i = if ((entry s.ls.slots i).state = .running ∨ (entry s.ls.slots i).state = .waiting) ∧
            4 - target ≤ (entry s.ls.slots i).level.val
          then { entry s.ls.slots i with state := .shed .budget, idle := 0 } else entry s.ls.slots i) ∧
        ls = { s.ls with slots := ls.slots, queue := ls.queue } ∧
        (QueueInv s.ls → ls.queue = s.ls.queue.filter fun i => (entry s.ls.slots i).level.val < 4 - target)))

/-- R87 to R92: stages 5 and 6: T from what is left after served and the reserve, derated by D and the coast factor in LINE
supply and held to P_B_TRAC in BATTERY; G from the tapered line share and served; 0 in NONE supply and in UNLOADING; a
ceiling above 2047 is OVERRANGE, a negative remainder SHORTFALL, and P_V_HIGH at or below P_V_TAPER is ZERO_SPAN. -/
def Obligations.CeilingsComputed : Prop :=
  ∀ (power served : Nat) (s : State),
    let left := power - served - s.par .reserve
    let short := decide (power < served + s.par .reserve)
    let coast := s.rft.armed.foldl (fun m c => min m c.factor) 16
    let t1 := left * (16 - s.be.d) / 16
    let v := s.be.heldV.toNat
    let share := if matchingZone .noRegen s ≠ none then 0
      else if s.par .vHigh ≤ v then 0
      else if s.par .vHigh ≤ s.par .vTaper ∨ v ≤ s.par .vTaper then s.par .regenMax
      else s.par .regenMax * (s.par .vHigh - v) / (s.par .vHigh - s.par .vTaper)
    (s.supply = .none → ceilings power served s = ⟨0, 0, false, false, false⟩) ∧
    (s.supply = .battery →
      ceilings power served s = ⟨min left (s.par .bTrac), min 2047 (s.par .bRegen + served), false, short, false⟩) ∧
    (s.cm.state = .unloading → ceilings power served s = ⟨0, 0, false, short, false⟩) ∧
    (s.cm.state = .onWire → ceilings power served s = ⟨min t1 2047 * coast / 16, min (share + served) 2047,
      decide (2047 < t1 ∨ 2047 < share + served), short, decide (s.par .vHigh ≤ s.par .vTaper)⟩)

/-- R93 to R97, R84, R99, R110, R136: stage 7: the causes are rewritten and a caused condition whose enable is clear sets
its sticky flag. With an escalated condition the record is kept, FROZEN, its SENSE_LOST mark clear, its ceilings 0 in NONE
supply or UNLOADING (checked against the last grant); the freeze count gains 1, BUDGET_FROZEN is raised at 1, and the SAFE
record is published, checked and raised at the limit. Otherwise the record of this computation is published whole, the
freeze count is 0, and a pending fall of H makes WAITING the slots shed for budget below level 4 − H, which join the queue
in ascending slot order by the insertion rule (R136, R145). -/
def Obligations.ComputationConcluded : Prop :=
  ∀ (power served : Nat) (c : Ceilings) (causes : Conditions) (fall : Bool) (s : State),
    let on := fun k => (s.par .escalate).testBit k
    let freezes := (causes.taint && on 0) || (causes.overrange && on 1) || (causes.shortfall && on 2) ||
      (causes.zeroSpan && on 3)
    let noted : Budget := { s.be with
      causes := causes
      sticky := ⟨s.be.sticky.taint || (causes.taint && !on 0), s.be.sticky.overrange || (causes.overrange && !on 1),
        s.be.sticky.shortfall || (causes.shortfall && !on 2), s.be.sticky.zeroSpan || (causes.zeroSpan && !on 3)⟩ }
    let checked := fun (u : State) => if u.tg.reported = false ∧
        ((0 < u.tg.lastGrant ∧ (u.be.record.t : Int) < u.tg.lastGrant) ∨
          (u.tg.lastGrant < 0 ∧ (u.be.record.g : Int) < -u.tg.lastGrant))
      then raise .grantOver (u.setTg { u.tg with reported := true }) else u
    let n := min (s.be.freeze + 1) 255
    let zeroed := s.supply = .none ∨ s.cm.state = .unloading
    let kept : BudgetRecord := { s.be.record with
      frozen := true, senseLost := false, t := if zeroed then 0 else s.be.record.t, g := if zeroed then 0 else s.be.record.g }
    let frozen := s.setBe { noted with record := kept, freeze := n }
    let told := if n = 1 then raise .budgetFrozen frozen else frozen
    let offered := if zeroed then checked told else told
    let safe := offered.setBe { offered.be with record := { kept with t := 0, g := 0, safe := true } }
    let h := if fall then s.be.h - 1 else s.be.h
    let fresh : BudgetRecord :=
      { epoch := s.si.epoch, supply := s.supply, pAvail := power, served := served, r := s.par .reserve, t := c.t, g := c.g
        d := s.be.d, h := h, coast := s.rft.armed.foldl (fun m c => min m c.factor) 16, frozen := false, safe := false
        shortfall := decide (power < served + s.par .reserve), vHeld := causes.taint, senseLost := false }
    let published := checked (s.setBe { noted with
      record := fresh, freeze := 0, h := h, sinceH := if fall then 0 else s.be.sinceH })
    (freezes = true → conclude power served c causes fall s =
      if s.par .freezeLimit ≤ n ∧ kept.safe = false then checked (raise .budgetSafe safe) else offered) ∧
    (freezes = false → fall = false → conclude power served c causes fall s = published) ∧
    (freezes = false → fall = true → ∃ ls, conclude power served c causes fall s = published.setLs ls ∧
      let back := fun i => decide ((entry s.ls.slots i).state = .shed .budget ∧ (entry s.ls.slots i).level.val < 4 - h)
      let zero := fun i => decide ((entry s.ls.slots i).level = 0)
      let woken := slotNumbers.filter back
      (∀ i, entry ls.slots i = if back i
        then { entry s.ls.slots i with state := .waiting, idle := 0 } else entry s.ls.slots i) ∧
      ls = { s.ls with slots := ls.slots, queue := ls.queue } ∧
      (QueueInv s.ls → QueueInv ls ∧ ls.queue =
        s.ls.queue.filter zero ++ woken.filter zero ++ s.ls.queue.filter (!zero ·) ++ woken.filter (!zero ·)))

/-- R147 to R151: the start decision of a set: the epochs since the last start gain 1; heads at or above level 4 − H leave
the queue, shed with reason BUDGET; then the head starts when P_START_GAP epochs have passed, the running demand, its own and
the record's R fit the record's P_avail (no test in NONE supply), and, under the A mark, its level is 0. At most one starts. -/
def Obligations.StartDecided : Prop :=
  ∀ s : State, QueueInv s.ls →
    let sl := fun (i : Fin 24) => entry s.ls.slots i
    let since := min (s.ls.sinceStart + 1) 65535
    let high := fun i => decide (4 - s.be.h ≤ (sl i).level.val)
    let heads := s.ls.queue.takeWhile high
    let rest := s.ls.queue.dropWhile high
    let served := ((List.finRange 24).map fun i => if (sl i).state = .running ∧
      ¬(s.supply = .none ∧ (sl i).rideThrough = true) then (sl i).demand else 0).sum
    let starts := fun i => s.par .startGap ≤ since ∧
      (s.supply = .none ∨ served + (sl i).demand + s.be.record.r ≤ s.be.record.pAvail) ∧
      (s.cm.marks.a = true → (sl i).level = 0)
    let leaves := fun (start : Option (Fin 24)) (q : List (Fin 24)) (n : Nat) => ∃ slots,
      startDecision s = s.setLs { s.ls with slots := slots, queue := q, sinceStart := n } ∧
      ∀ i, entry slots i = if i ∈ heads then { sl i with state := .shed .budget, idle := 0 }
        else if start = some i then { sl i with state := .running, idle := 0 } else sl i
    (rest = [] → leaves none [] since) ∧
    (∀ i q, rest = i :: q → starts i → leaves (some i) q 0) ∧
    (∀ i q, rest = i :: q → ¬starts i → leaves none rest since)

/-! ### The events of a set, commanded alone (log 4, log 5) -/

/-- R50, R52, R54, R56, R61: the collector's counting events. Each, when its set brings the count to its limit, is CM's share
of that set, which ends in ON_WIRE, DROPPED, DOWN with RAISE_FAILED raised, or LOWERING; when it is not due it changes
nothing. The end of UNLOADING that leaves NONE supply is followed by the supply step of LS (R137, R115): every RUNNING or
WAITING slot that is not ride-through is shed with reason SUPPLY. The model's choice (log 4): what such an event means when it
is commanded alone. -/
def Obligations.CollectorEvents : Prop :=
  ∀ (x : Sample) (s : State), s.resetPin = false →
    let share := collectorTake x s.si.prevElev false s
    let present := ∃ v, x.v = some v ∧ s.par .vPresent ≤ v.toNat
    let absent := ∃ v, x.v = some v ∧ v.toNat < s.par .vPresent
    let epochs := min (s.cm.epochsIn + 1) 65535
    let arrives := s.si.senseLost = false
    let gap := ∃ c ∈ s.rft.armed, c.kind ≠ .frog
    let event := fun (c : Instr) (due : Prop) =>
      (due → exec c s = .next share ∧ Touches [.cm, .rft, .ad] s share) ∧ (¬due → exec c s = .next s)
    let presentDue := arrives ∧ s.cm.state ∈ [.raising, .gap, .suspect] ∧ present ∧
      s.par .presentCount ≤ min (s.cm.presentCount + 1) 255
    let confirmDue := arrives ∧ s.cm.state = .suspect ∧ absent ∧ s.par .confirmCount ≤ min (s.cm.confirmCount + 1) 255
    let raiseDue := arrives ∧ s.cm.state = .raising ∧ s.par .raiseLimit ≤ epochs
    let unloadDue := arrives ∧ s.cm.state = .unloading ∧ s.par .unloadLimit ≤ epochs
    event (.presentCountReached x) presentDue ∧ event (.confirmCountReached x) confirmDue ∧
    event (.raiseLimitExpiry x) raiseDue ∧
    (¬unloadDue → exec (.unloadLimitExpiry x) s = .next s) ∧
    (unloadDue → Touches [.cm, .rft, .ad] s share ∧
      (share.supply ≠ .none → exec (.unloadLimitExpiry x) s = .next share) ∧
      (share.supply = .none →
        let shed := fun i => decide (((entry s.ls.slots i).state = .running ∨ (entry s.ls.slots i).state = .waiting) ∧
          (entry s.ls.slots i).rideThrough = false)
        ∃ ls, exec (.unloadLimitExpiry x) s = .next (share.setLs ls) ∧
          ls = { s.ls with slots := ls.slots, queue := ls.queue } ∧
          (∀ i, entry ls.slots i = if shed i then { entry s.ls.slots i with state := .shed .supply, idle := 0 }
            else entry s.ls.slots i) ∧
          (QueueInv s.ls → ls.queue = s.ls.queue.filter fun i => !shed i))) ∧
    (presentDue → angleCheck x s.si.prevElev s = none → ¬(s.cm.state = .suspect ∧ gap) → share.cm.state = .onWire) ∧
    (confirmDue → angleCheck x s.si.prevElev s = none → ¬gap →
      share.cm.state = .dropped ∧ share.cm.dropMask = some .unknown ∧ share.cm.marks = ⟨true, true, true⟩) ∧
    (raiseDue → ¬present → share.cm.state = .down ∧ share.cm.lines = ⟨true, true⟩ ∧
      share.ad = s.ad.occurrence .raiseFailed) ∧
    (unloadDue → angleCheck x s.si.prevElev s = none →
      share.cm.state = .lowering ∧ share.cm.lines = ⟨true, true⟩ ∧ share.ad = s.ad)

/-- R123, R125, R126, R149, R150: the loads' events: a generator at its period returns to 0; an active ON_DEMAND slot whose
demand bit is clear parks at the idle limit and is counted; the observation period ends and chooses the idle period; the head
of the queue starts, in NONE supply a ride-through head alone (R115, R137). Each, when not due, changes nothing. The model's
choice (log 4): what such an event means when it is commanded alone. -/
def Obligations.LoadEvents : Prop :=
  ∀ s : State, s.resetPin = false →
    let sl := fun (i : Fin 24) => entry s.ls.slots i
    let arrives := s.si.senseLost = false
    let event := fun (c : Instr) (due : Prop) (after : Loads → Prop) =>
      (due → ∃ ls, exec c s = .next (s.setLs ls) ∧ after ls) ∧ (¬due → exec c s = .next s)
    let moved := fun (i : Fin 24) (st : SlotState) (ls : Loads) => ∀ j, entry ls.slots j =
      if j = i then { sl i with state := st, idle := 0 } else sl j
    let limit := match s.ls.idlePeriod with | .short => s.par .idleShort | .long => s.par .idleLong
    let active := fun (i : Fin 24) => (sl i).state = .running ∨ (sl i).state = .waiting
    let served := ((List.finRange 24).map fun i => if (sl i).state = .running ∧
      ¬(s.supply = .none ∧ (sl i).rideThrough = true) then (sl i).demand else 0).sum
    (∀ g, event (.cyclePeriodWrap g) (arrives ∧ genPeriod s g ≤ s.ls.gens.get g + 1) fun ls =>
      ls.gens.get g = 0 ∧ (∀ k, k ≠ g → ls.gens.get k = s.ls.gens.get k) ∧ ls = { s.ls with gens := ls.gens }) ∧
    (∀ i, event (.idleLimitPark i) (arrives ∧ (sl i).mode = .onDemand ∧ active i ∧ s.ls.demand.getLsbD i.val = false ∧
        limit ≤ min ((sl i).idle + 1) 65535) fun ls =>
      moved i .parked ls ∧
        ls.queue = (if (sl i).state = .waiting then s.ls.queue.filter (· ≠ i) else s.ls.queue) ∧
        ls = { s.ls with slots := ls.slots, queue := ls.queue, parkEntries := min (s.ls.parkEntries + 1) 65535 }) ∧
    event .observationPeriodEnd (arrives ∧ s.par .parkObs ≤ min (s.ls.observation + 1) 65535) (fun ls =>
      ls = { s.ls with observation := 0, parkEntries := 0, idlePeriod := ls.idlePeriod } ∧
        ls.idlePeriod = if s.par .parkHi ≤ s.ls.parkEntries then .long
          else if s.ls.parkEntries < s.par .parkLo then .short else s.ls.idlePeriod) ∧
    (let starts := fun (i : Fin 24) => arrives ∧ s.ls.queue.head? = some i ∧ (sl i).level.val < 4 - s.be.h ∧
        s.par .startGap ≤ min (s.ls.sinceStart + 1) 65535 ∧
        (s.supply = .none → (sl i).rideThrough = true) ∧
        (s.supply = .none ∨ served + (sl i).demand + s.be.record.r ≤ s.be.record.pAvail) ∧
        (s.cm.marks.a = true → (sl i).level = 0)
     (∀ i, starts i → QueueInv s.ls → ∃ ls, exec .slotStart s = .next (s.setLs ls) ∧ moved i .running ls ∧
        ls = { s.ls with slots := ls.slots, queue := s.ls.queue.tail, sinceStart := 0 }) ∧
      ((∀ i, ¬starts i) → exec .slotStart s = .next s))

/-- R79, R80, R93 to R95: the derate window's end, in LINE supply with the window count at its length, is stage 3 of the set
with the given V; the freeze limit, with a caused escalated condition, no SAFE mark and the freeze count at its limit,
publishes the SAFE record and raises BUDGET_SAFE. Each, when not due, changes nothing. The model's choice (log 4): what such
an event means when it is commanded alone. -/
def Obligations.BudgetEvents : Prop :=
  ∀ (v : Option (BitVec 10)) (s : State), s.resetPin = false →
    let arrives := s.si.senseLost = false
    let windowDue := arrives ∧ s.supply = .line ∧ s.be.windowLength ≤ min (s.be.windowCount + 1) 255
    let caused := fun (k : Nat) (c : Conditions → Bool) => c s.be.causes = true ∧ (s.par .escalate).testBit k = true
    let freezeDue := arrives ∧ s.be.record.safe = false ∧ s.par .freezeLimit ≤ min (s.be.freeze + 1) 255 ∧
      (caused 0 Conditions.taint ∨ caused 1 Conditions.overrange ∨ caused 2 Conditions.shortfall ∨
        caused 3 Conditions.zeroSpan)
    (windowDue → ∃ t, exec (.derateWindowEnd v) s = .next t ∧ t = windowStep v s ∧
      (let vLow := match matchingZone .limit s with | some z => z.vLow | none => s.par .vLow
       let sagged := s.be.sag = true ∨ ∃ x, v = some x ∧ x.toNat < vLow
       t.be = { s.be with d := t.be.d, windowCount := 0, sag := false, windowLength := s.par .window } ∧
        (sagged → t.be.d = min (s.be.d + s.par .stepUp) (s.par .dMax)) ∧
        (¬sagged → t.be.d = max (s.be.d - s.par .stepDown) (s.par .dMin)) ∧
        t.ad = (if s.be.d < t.be.d then s.ad.occurrence .derateRise else s.ad) ∧ Touches [.be, .ad] s t)) ∧
    (¬windowDue → exec (.derateWindowEnd v) s = .next s) ∧
    (freezeDue → ∃ t, exec .freezeLimitReached s = .next t ∧
      t.be = { s.be with
        freeze := min (s.be.freeze + 1) 255
        record := { s.be.record with frozen := true, senseLost := false, t := 0, g := 0, safe := true } } ∧
      (let told := if min (s.be.freeze + 1) 255 = 1 then s.ad.occurrence .budgetFrozen else s.ad
       t.ad = if s.tg.reported = true ∨ s.tg.lastGrant = 0 then told.occurrence .budgetSafe
        else if s.supply = .none ∨ s.cm.state = .unloading then (told.occurrence .grantOver).occurrence .budgetSafe
        else (told.occurrence .budgetSafe).occurrence .grantOver) ∧
      t.tg = { s.tg with reported := s.tg.reported || decide (s.tg.lastGrant ≠ 0) } ∧ Touches [.be, .tg, .ad] s t) ∧
    (¬freezeDue → exec .freezeLimitReached s = .next s)

/-! ### What every step keeps -/

/-- R13: the active channel is never FAILED, and SENSE_LOST is set exactly when there is no active channel: every step
keeps this.
R153, R160, R162: every step keeps, on every link, the repeat counts in range, the service stack at most 4 deep with each
frame below the one under it in level or both 0, and the attention line as the rule says. -/
def Obligations.StepKeepsSenseAndAlarms : Prop :=
  (∀ s t : State, SenseInv s → step s = .next t → SenseInv t) ∧
  (∀ s t : State, AlarmInv s.ad → step s = .next t → AlarmInv t.ad)

/-- R17, R85, R184, R188: every step keeps every parameter within its range, the two bounds of D in order and in force as
stored, P at most 65535 with a remainder of 0..99, D within its bounds and H at most 4.
R97, R108, R110: every step keeps the properties of the published record, and a grant that is not reported stays covered
by the record's ceilings. R94, R97: an accepted set whose computation finds the supply NONE or the collector in UNLOADING ends
with both ceilings 0, and until the next accepted set, the next computation, no command but leaves the two ceilings as they
are or makes both 0. -/
def Obligations.StepKeepsParametersAndBudget : Prop :=
  (∀ s t : State, step s = .next t →
     (ParamInv s.pm → ParamInv t.pm) ∧ (PositionInv s.pt → PositionInv t.pt) ∧
     (ParamInv s.pm → DepthInv s → DepthInv t)) ∧
  (∀ s t : State, RecordInv s.be.record → GrantInv s → step s = .next t → RecordInv t.be.record ∧ GrantInv t) ∧
  (∀ (ch : Channel) (x : Sample) (s t : State), Accepts ch x s → exec (.sampleFrame ch) s = .next t →
     t.supply = .none ∨ t.cm.state = .unloading → t.be.record.t = 0 ∧ t.be.record.g = 0) ∧
  (∀ (c : Instr) (s t : State), exec c s = .next t → (∀ ch x, c = .sampleFrame ch → ¬Accepts ch x s) →
     (t.be.record.t = s.be.record.t ∧ t.be.record.g = s.be.record.g) ∨ (t.be.record.t = 0 ∧ t.be.record.g = 0))

/-- R47, R53, R60, R69: every step keeps the lower lines as the collector state and the drop mask say, a drop mask exactly in
DROPPED, a loss epoch exactly in SUSPECT, and at most 8 records in the log. -/
def Obligations.StepKeepsCollectorInv : Prop :=
  ∀ s t : State, CollectorInv s.cm → step s = .next t → CollectorInv t.cm

/-- R19, R21, R22, R27, R37: every step keeps the point table well filed with its lock count, and the armed list of at most 4
copies in ascending start order, no two alike, empty while POSITION_SET is clear. R36, R37, R38: every step keeps P in the
window of every armed copy: at or below its window end, which is its start, length and a margin within P_MARGIN's range, and at
or above its start less a lead within P_LEAD's range. -/
def Obligations.StepKeepsRouteTable : Prop :=
  ∀ s t : State, step s = .next t →
    (ParamInv s.pm → PointsInv s.rft → PointsInv t.rft) ∧ (ArmedInv s → ArmedInv t) ∧
    (ParamInv s.pm → PositionInv s.pt → ArmedInv s → WindowInv s → WindowInv t)

/-- R114, R115, R145: every step keeps the queue exactly the WAITING slots, level 0 ahead, and every RUNNING slot below the
shed range and ride-through, or else with the supply not NONE and SENSE_LOST clear. So after an accepted set that ends in
NONE supply every RUNNING slot is ride-through. -/
def Obligations.StepKeepsLoads : Prop :=
  ∀ s t : State, SenseInv s → QueueInv s.ls → RunningInv s →
    (step s = .next t → QueueInv t.ls ∧ RunningInv t) ∧
    ∀ ch x, Accepts ch x s → exec (.sampleFrame ch) s = .next t → t.supply = .none →
      ∀ i, (entry t.ls.slots i).state = .running → (entry t.ls.slots i).rideThrough = true
end

