-- ==== Sys2Proof/Laws/Registers.lean ====
section
/-! SUPPORT. Reading after writing an indexed register, and bounds of the saturating gain. -/

namespace Sys2Proof

@[simp] theorem entry_setEntry_same {α : Type} {n : Nat} (v : Vector α n) (i : Fin n) (x : α) :
    entry (setEntry v i x) i = x := by
  simp [entry, setEntry]

theorem entry_setEntry_other {α : Type} {n : Nat} (v : Vector α n) {i j : Fin n} (x : α) (h : j ≠ i) :
    entry (setEntry v i x) j = entry v j := by
  have : i.val ≠ j.val := fun e => h (Fin.ext e.symm)
  simp [entry, setEntry, this]

/-- An entry after a write, at any index. -/
theorem entry_setEntry {α : Type} {n : Nat} (v : Vector α n) (i j : Fin n) (x : α) :
    entry (setEntry v i x) j = if j = i then x else entry v j := by
  by_cases h : j = i
  · subst h; simp
  · simp [h, entry_setEntry_other]

@[simp] theorem entry_replicate {α : Type} {n : Nat} (x : α) (i : Fin n) : entry (Vector.replicate n x) i = x := by
  simp [entry]

@[simp] theorem entry_mapEntries {α : Type} {n : Nat} (f : α → α) (v : Vector α n) (i : Fin n) :
    entry (mapEntries f v) i = f (entry v i) := by
  simp [entry, mapEntries]

@[simp] theorem setEntry_self {α : Type} {n : Nat} (v : Vector α n) (i : Fin n) : setEntry v i (entry v i) = v := by
  simp [entry, setEntry]

@[simp] theorem setEntry_setEntry {α : Type} {n : Nat} (v : Vector α n) (i : Fin n) (x y : α) :
    setEntry (setEntry v i x) i y = setEntry v i y := by
  simp [setEntry]

theorem mem_toList_iff_entry {α : Type} {n : Nat} (v : Vector α n) (x : α) :
    x ∈ v.toList ↔ ∃ i, entry v i = x := by
  constructor
  · intro h
    have h' : x ∈ v := by simpa using h
    obtain ⟨i, hi, e⟩ := Vector.mem_iff_getElem.mp h'
    exact ⟨⟨i, hi⟩, e⟩
  · rintro ⟨i, rfl⟩
    simp [entry]

theorem satAdd_le (bound n k : Nat) : satAdd bound n k ≤ bound := Nat.min_le_right _ _

theorem satAdd_pos {bound k : Nat} (n : Nat) (hb : 0 < bound) (hk : 0 < k) : 0 < satAdd bound n k := by
  unfold satAdd; omega

namespace Machine

@[simp] theorem PerLink.get_put_same {α : Type} (p : PerLink α) (l : Link) (x : α) : (p.put l x).get l = x := by
  cases l <;> rfl

theorem PerLink.get_put_other {α : Type} (p : PerLink α) {l k : Link} (x : α) (h : k ≠ l) :
    (p.put l x).get k = p.get k := by
  cases l <;> cases k <;> simp_all [PerLink.get, PerLink.put]

@[simp] theorem PerLink.put_put {α : Type} (p : PerLink α) (l : Link) (x y : α) : (p.put l x).put l y = p.put l y := by
  cases l <;> rfl

@[simp] theorem PerLink.put_get {α : Type} (p : PerLink α) (l : Link) : p.put l (p.get l) = p := by
  cases l <;> rfl

@[simp] theorem PerChannel.get_put_same {α : Type} (p : PerChannel α) (c : Channel) (x : α) : (p.put c x).get c = x := by
  cases c <;> rfl

theorem PerChannel.get_put_other {α : Type} (p : PerChannel α) {c d : Channel} (x : α) (h : d ≠ c) :
    (p.put c x).get d = p.get d := by
  cases c <;> cases d <;> simp_all [PerChannel.get, PerChannel.put]

@[simp] theorem PerChannel.put_put {α : Type} (p : PerChannel α) (c : Channel) (x y : α) :
    (p.put c x).put c y = p.put c y := by
  cases c <;> rfl

@[simp] theorem PerChannel.put_get {α : Type} (p : PerChannel α) (c : Channel) : p.put c (p.get c) = p := by
  cases c <;> rfl

@[simp] theorem PerGen.get_put_same {α : Type} (p : PerGen α) (g : CycleGen) (x : α) : (p.put g x).get g = x := by
  cases g <;> rfl

theorem PerGen.get_put_other {α : Type} (p : PerGen α) {g k : CycleGen} (x : α) (h : k ≠ g) :
    (p.put g x).get k = p.get k := by
  cases g <;> cases k <;> simp_all [PerGen.get, PerGen.put]

@[simp] theorem otherChannel_ne (c : Channel) : otherChannel c ≠ c := by cases c <;> decide

@[simp] theorem otherChannel_otherChannel (c : Channel) : otherChannel (otherChannel c) = c := by cases c <;> rfl

theorem eq_otherChannel_of_ne {c d : Channel} (h : d ≠ c) : d = otherChannel c := by
  cases c <;> cases d <;> simp_all [otherChannel]

/-- Every source number is in the list of source numbers. -/
theorem mem_sourceNumbers (n : Fin 16) : n ∈ sourceNumbers := by revert n; decide

/-- Every slot number is in the list of slot numbers. -/
theorem mem_slotNumbers (i : Fin 24) : i ∈ slotNumbers := by revert i; decide

theorem slotNumbers_nodup : slotNumbers.Nodup := by decide

end Machine

end Sys2Proof
end

