-- ==== Sys2Proof/Laws/State.lean ====
section
/-! SUPPORT. One lemma per field per update of the state, so that no later proof unfolds an update. -/

namespace Sys2Proof.Machine

/-! ### After `State.setSi` -/

@[simp] theorem State.setSi_si (s : State) (x : SenseInterface) : (s.setSi x).si = x := rfl
@[simp] theorem State.setSi_pt (s : State) (x : SenseInterface) : (s.setSi x).pt = s.pt := rfl
@[simp] theorem State.setSi_rft (s : State) (x : SenseInterface) : (s.setSi x).rft = s.rft := rfl
@[simp] theorem State.setSi_cm (s : State) (x : SenseInterface) : (s.setSi x).cm = s.cm := rfl
@[simp] theorem State.setSi_be (s : State) (x : SenseInterface) : (s.setSi x).be = s.be := rfl
@[simp] theorem State.setSi_tg (s : State) (x : SenseInterface) : (s.setSi x).tg = s.tg := rfl
@[simp] theorem State.setSi_ls (s : State) (x : SenseInterface) : (s.setSi x).ls = s.ls := rfl
@[simp] theorem State.setSi_ad (s : State) (x : SenseInterface) : (s.setSi x).ad = s.ad := rfl
@[simp] theorem State.setSi_lp (s : State) (x : SenseInterface) : (s.setSi x).lp = s.lp := rfl
@[simp] theorem State.setSi_pm (s : State) (x : SenseInterface) : (s.setSi x).pm = s.pm := rfl
@[simp] theorem State.setSi_timeBase (s : State) (x : SenseInterface) : (s.setSi x).timeBase = s.timeBase := rfl
@[simp] theorem State.setSi_resetPin (s : State) (x : SenseInterface) : (s.setSi x).resetPin = s.resetPin := rfl
@[simp] theorem State.setSi_pending (s : State) (x : SenseInterface) : (s.setSi x).pending = s.pending := rfl

/-- The later of two updates stands. -/
@[simp] theorem State.setSi_setSi (s : State) (x y : SenseInterface) :
    (s.setSi x).setSi y = s.setSi y := rfl

/-- Writing what stands there changes nothing. -/
@[simp] theorem State.setSi_self (s : State) : s.setSi s.si = s := rfl

/-! ### After `State.setPt` -/

@[simp] theorem State.setPt_si (s : State) (x : Position) : (s.setPt x).si = s.si := rfl
@[simp] theorem State.setPt_pt (s : State) (x : Position) : (s.setPt x).pt = x := rfl
@[simp] theorem State.setPt_rft (s : State) (x : Position) : (s.setPt x).rft = s.rft := rfl
@[simp] theorem State.setPt_cm (s : State) (x : Position) : (s.setPt x).cm = s.cm := rfl
@[simp] theorem State.setPt_be (s : State) (x : Position) : (s.setPt x).be = s.be := rfl
@[simp] theorem State.setPt_tg (s : State) (x : Position) : (s.setPt x).tg = s.tg := rfl
@[simp] theorem State.setPt_ls (s : State) (x : Position) : (s.setPt x).ls = s.ls := rfl
@[simp] theorem State.setPt_ad (s : State) (x : Position) : (s.setPt x).ad = s.ad := rfl
@[simp] theorem State.setPt_lp (s : State) (x : Position) : (s.setPt x).lp = s.lp := rfl
@[simp] theorem State.setPt_pm (s : State) (x : Position) : (s.setPt x).pm = s.pm := rfl
@[simp] theorem State.setPt_timeBase (s : State) (x : Position) : (s.setPt x).timeBase = s.timeBase := rfl
@[simp] theorem State.setPt_resetPin (s : State) (x : Position) : (s.setPt x).resetPin = s.resetPin := rfl
@[simp] theorem State.setPt_pending (s : State) (x : Position) : (s.setPt x).pending = s.pending := rfl

/-- The later of two updates stands. -/
@[simp] theorem State.setPt_setPt (s : State) (x y : Position) :
    (s.setPt x).setPt y = s.setPt y := rfl

/-- Writing what stands there changes nothing. -/
@[simp] theorem State.setPt_self (s : State) : s.setPt s.pt = s := rfl

/-! ### After `State.setRft` -/

@[simp] theorem State.setRft_si (s : State) (x : RouteTable) : (s.setRft x).si = s.si := rfl
@[simp] theorem State.setRft_pt (s : State) (x : RouteTable) : (s.setRft x).pt = s.pt := rfl
@[simp] theorem State.setRft_rft (s : State) (x : RouteTable) : (s.setRft x).rft = x := rfl
@[simp] theorem State.setRft_cm (s : State) (x : RouteTable) : (s.setRft x).cm = s.cm := rfl
@[simp] theorem State.setRft_be (s : State) (x : RouteTable) : (s.setRft x).be = s.be := rfl
@[simp] theorem State.setRft_tg (s : State) (x : RouteTable) : (s.setRft x).tg = s.tg := rfl
@[simp] theorem State.setRft_ls (s : State) (x : RouteTable) : (s.setRft x).ls = s.ls := rfl
@[simp] theorem State.setRft_ad (s : State) (x : RouteTable) : (s.setRft x).ad = s.ad := rfl
@[simp] theorem State.setRft_lp (s : State) (x : RouteTable) : (s.setRft x).lp = s.lp := rfl
@[simp] theorem State.setRft_pm (s : State) (x : RouteTable) : (s.setRft x).pm = s.pm := rfl
@[simp] theorem State.setRft_timeBase (s : State) (x : RouteTable) : (s.setRft x).timeBase = s.timeBase := rfl
@[simp] theorem State.setRft_resetPin (s : State) (x : RouteTable) : (s.setRft x).resetPin = s.resetPin := rfl
@[simp] theorem State.setRft_pending (s : State) (x : RouteTable) : (s.setRft x).pending = s.pending := rfl

/-- The later of two updates stands. -/
@[simp] theorem State.setRft_setRft (s : State) (x y : RouteTable) :
    (s.setRft x).setRft y = s.setRft y := rfl

/-- Writing what stands there changes nothing. -/
@[simp] theorem State.setRft_self (s : State) : s.setRft s.rft = s := rfl

/-! ### After `State.setCm` -/

@[simp] theorem State.setCm_si (s : State) (x : Collector) : (s.setCm x).si = s.si := rfl
@[simp] theorem State.setCm_pt (s : State) (x : Collector) : (s.setCm x).pt = s.pt := rfl
@[simp] theorem State.setCm_rft (s : State) (x : Collector) : (s.setCm x).rft = s.rft := rfl
@[simp] theorem State.setCm_cm (s : State) (x : Collector) : (s.setCm x).cm = x := rfl
@[simp] theorem State.setCm_be (s : State) (x : Collector) : (s.setCm x).be = s.be := rfl
@[simp] theorem State.setCm_tg (s : State) (x : Collector) : (s.setCm x).tg = s.tg := rfl
@[simp] theorem State.setCm_ls (s : State) (x : Collector) : (s.setCm x).ls = s.ls := rfl
@[simp] theorem State.setCm_ad (s : State) (x : Collector) : (s.setCm x).ad = s.ad := rfl
@[simp] theorem State.setCm_lp (s : State) (x : Collector) : (s.setCm x).lp = s.lp := rfl
@[simp] theorem State.setCm_pm (s : State) (x : Collector) : (s.setCm x).pm = s.pm := rfl
@[simp] theorem State.setCm_timeBase (s : State) (x : Collector) : (s.setCm x).timeBase = s.timeBase := rfl
@[simp] theorem State.setCm_resetPin (s : State) (x : Collector) : (s.setCm x).resetPin = s.resetPin := rfl
@[simp] theorem State.setCm_pending (s : State) (x : Collector) : (s.setCm x).pending = s.pending := rfl

/-- The later of two updates stands. -/
@[simp] theorem State.setCm_setCm (s : State) (x y : Collector) :
    (s.setCm x).setCm y = s.setCm y := rfl

/-- Writing what stands there changes nothing. -/
@[simp] theorem State.setCm_self (s : State) : s.setCm s.cm = s := rfl

/-! ### After `State.setBe` -/

@[simp] theorem State.setBe_si (s : State) (x : Budget) : (s.setBe x).si = s.si := rfl
@[simp] theorem State.setBe_pt (s : State) (x : Budget) : (s.setBe x).pt = s.pt := rfl
@[simp] theorem State.setBe_rft (s : State) (x : Budget) : (s.setBe x).rft = s.rft := rfl
@[simp] theorem State.setBe_cm (s : State) (x : Budget) : (s.setBe x).cm = s.cm := rfl
@[simp] theorem State.setBe_be (s : State) (x : Budget) : (s.setBe x).be = x := rfl
@[simp] theorem State.setBe_tg (s : State) (x : Budget) : (s.setBe x).tg = s.tg := rfl
@[simp] theorem State.setBe_ls (s : State) (x : Budget) : (s.setBe x).ls = s.ls := rfl
@[simp] theorem State.setBe_ad (s : State) (x : Budget) : (s.setBe x).ad = s.ad := rfl
@[simp] theorem State.setBe_lp (s : State) (x : Budget) : (s.setBe x).lp = s.lp := rfl
@[simp] theorem State.setBe_pm (s : State) (x : Budget) : (s.setBe x).pm = s.pm := rfl
@[simp] theorem State.setBe_timeBase (s : State) (x : Budget) : (s.setBe x).timeBase = s.timeBase := rfl
@[simp] theorem State.setBe_resetPin (s : State) (x : Budget) : (s.setBe x).resetPin = s.resetPin := rfl
@[simp] theorem State.setBe_pending (s : State) (x : Budget) : (s.setBe x).pending = s.pending := rfl

/-- The later of two updates stands. -/
@[simp] theorem State.setBe_setBe (s : State) (x y : Budget) :
    (s.setBe x).setBe y = s.setBe y := rfl

/-- Writing what stands there changes nothing. -/
@[simp] theorem State.setBe_self (s : State) : s.setBe s.be = s := rfl

/-! ### After `State.setTg` -/

@[simp] theorem State.setTg_si (s : State) (x : Grants) : (s.setTg x).si = s.si := rfl
@[simp] theorem State.setTg_pt (s : State) (x : Grants) : (s.setTg x).pt = s.pt := rfl
@[simp] theorem State.setTg_rft (s : State) (x : Grants) : (s.setTg x).rft = s.rft := rfl
@[simp] theorem State.setTg_cm (s : State) (x : Grants) : (s.setTg x).cm = s.cm := rfl
@[simp] theorem State.setTg_be (s : State) (x : Grants) : (s.setTg x).be = s.be := rfl
@[simp] theorem State.setTg_tg (s : State) (x : Grants) : (s.setTg x).tg = x := rfl
@[simp] theorem State.setTg_ls (s : State) (x : Grants) : (s.setTg x).ls = s.ls := rfl
@[simp] theorem State.setTg_ad (s : State) (x : Grants) : (s.setTg x).ad = s.ad := rfl
@[simp] theorem State.setTg_lp (s : State) (x : Grants) : (s.setTg x).lp = s.lp := rfl
@[simp] theorem State.setTg_pm (s : State) (x : Grants) : (s.setTg x).pm = s.pm := rfl
@[simp] theorem State.setTg_timeBase (s : State) (x : Grants) : (s.setTg x).timeBase = s.timeBase := rfl
@[simp] theorem State.setTg_resetPin (s : State) (x : Grants) : (s.setTg x).resetPin = s.resetPin := rfl
@[simp] theorem State.setTg_pending (s : State) (x : Grants) : (s.setTg x).pending = s.pending := rfl

/-- The later of two updates stands. -/
@[simp] theorem State.setTg_setTg (s : State) (x y : Grants) :
    (s.setTg x).setTg y = s.setTg y := rfl

/-- Writing what stands there changes nothing. -/
@[simp] theorem State.setTg_self (s : State) : s.setTg s.tg = s := rfl

/-! ### After `State.setLs` -/

@[simp] theorem State.setLs_si (s : State) (x : Loads) : (s.setLs x).si = s.si := rfl
@[simp] theorem State.setLs_pt (s : State) (x : Loads) : (s.setLs x).pt = s.pt := rfl
@[simp] theorem State.setLs_rft (s : State) (x : Loads) : (s.setLs x).rft = s.rft := rfl
@[simp] theorem State.setLs_cm (s : State) (x : Loads) : (s.setLs x).cm = s.cm := rfl
@[simp] theorem State.setLs_be (s : State) (x : Loads) : (s.setLs x).be = s.be := rfl
@[simp] theorem State.setLs_tg (s : State) (x : Loads) : (s.setLs x).tg = s.tg := rfl
@[simp] theorem State.setLs_ls (s : State) (x : Loads) : (s.setLs x).ls = x := rfl
@[simp] theorem State.setLs_ad (s : State) (x : Loads) : (s.setLs x).ad = s.ad := rfl
@[simp] theorem State.setLs_lp (s : State) (x : Loads) : (s.setLs x).lp = s.lp := rfl
@[simp] theorem State.setLs_pm (s : State) (x : Loads) : (s.setLs x).pm = s.pm := rfl
@[simp] theorem State.setLs_timeBase (s : State) (x : Loads) : (s.setLs x).timeBase = s.timeBase := rfl
@[simp] theorem State.setLs_resetPin (s : State) (x : Loads) : (s.setLs x).resetPin = s.resetPin := rfl
@[simp] theorem State.setLs_pending (s : State) (x : Loads) : (s.setLs x).pending = s.pending := rfl

/-- The later of two updates stands. -/
@[simp] theorem State.setLs_setLs (s : State) (x y : Loads) :
    (s.setLs x).setLs y = s.setLs y := rfl

/-- Writing what stands there changes nothing. -/
@[simp] theorem State.setLs_self (s : State) : s.setLs s.ls = s := rfl

/-! ### After `State.setAd` -/

@[simp] theorem State.setAd_si (s : State) (x : Alarms) : (s.setAd x).si = s.si := rfl
@[simp] theorem State.setAd_pt (s : State) (x : Alarms) : (s.setAd x).pt = s.pt := rfl
@[simp] theorem State.setAd_rft (s : State) (x : Alarms) : (s.setAd x).rft = s.rft := rfl
@[simp] theorem State.setAd_cm (s : State) (x : Alarms) : (s.setAd x).cm = s.cm := rfl
@[simp] theorem State.setAd_be (s : State) (x : Alarms) : (s.setAd x).be = s.be := rfl
@[simp] theorem State.setAd_tg (s : State) (x : Alarms) : (s.setAd x).tg = s.tg := rfl
@[simp] theorem State.setAd_ls (s : State) (x : Alarms) : (s.setAd x).ls = s.ls := rfl
@[simp] theorem State.setAd_ad (s : State) (x : Alarms) : (s.setAd x).ad = x := rfl
@[simp] theorem State.setAd_lp (s : State) (x : Alarms) : (s.setAd x).lp = s.lp := rfl
@[simp] theorem State.setAd_pm (s : State) (x : Alarms) : (s.setAd x).pm = s.pm := rfl
@[simp] theorem State.setAd_timeBase (s : State) (x : Alarms) : (s.setAd x).timeBase = s.timeBase := rfl
@[simp] theorem State.setAd_resetPin (s : State) (x : Alarms) : (s.setAd x).resetPin = s.resetPin := rfl
@[simp] theorem State.setAd_pending (s : State) (x : Alarms) : (s.setAd x).pending = s.pending := rfl

/-- The later of two updates stands. -/
@[simp] theorem State.setAd_setAd (s : State) (x y : Alarms) :
    (s.setAd x).setAd y = s.setAd y := rfl

/-- Writing what stands there changes nothing. -/
@[simp] theorem State.setAd_self (s : State) : s.setAd s.ad = s := rfl

/-! ### After `State.setLp` -/

@[simp] theorem State.setLp_si (s : State) (x : PerLink Port) : (s.setLp x).si = s.si := rfl
@[simp] theorem State.setLp_pt (s : State) (x : PerLink Port) : (s.setLp x).pt = s.pt := rfl
@[simp] theorem State.setLp_rft (s : State) (x : PerLink Port) : (s.setLp x).rft = s.rft := rfl
@[simp] theorem State.setLp_cm (s : State) (x : PerLink Port) : (s.setLp x).cm = s.cm := rfl
@[simp] theorem State.setLp_be (s : State) (x : PerLink Port) : (s.setLp x).be = s.be := rfl
@[simp] theorem State.setLp_tg (s : State) (x : PerLink Port) : (s.setLp x).tg = s.tg := rfl
@[simp] theorem State.setLp_ls (s : State) (x : PerLink Port) : (s.setLp x).ls = s.ls := rfl
@[simp] theorem State.setLp_ad (s : State) (x : PerLink Port) : (s.setLp x).ad = s.ad := rfl
@[simp] theorem State.setLp_lp (s : State) (x : PerLink Port) : (s.setLp x).lp = x := rfl
@[simp] theorem State.setLp_pm (s : State) (x : PerLink Port) : (s.setLp x).pm = s.pm := rfl
@[simp] theorem State.setLp_timeBase (s : State) (x : PerLink Port) : (s.setLp x).timeBase = s.timeBase := rfl
@[simp] theorem State.setLp_resetPin (s : State) (x : PerLink Port) : (s.setLp x).resetPin = s.resetPin := rfl
@[simp] theorem State.setLp_pending (s : State) (x : PerLink Port) : (s.setLp x).pending = s.pending := rfl

/-- The later of two updates stands. -/
@[simp] theorem State.setLp_setLp (s : State) (x y : PerLink Port) :
    (s.setLp x).setLp y = s.setLp y := rfl

/-- Writing what stands there changes nothing. -/
@[simp] theorem State.setLp_self (s : State) : s.setLp s.lp = s := rfl

/-! ### After `State.setPm` -/

@[simp] theorem State.setPm_si (s : State) (x : Params) : (s.setPm x).si = s.si := rfl
@[simp] theorem State.setPm_pt (s : State) (x : Params) : (s.setPm x).pt = s.pt := rfl
@[simp] theorem State.setPm_rft (s : State) (x : Params) : (s.setPm x).rft = s.rft := rfl
@[simp] theorem State.setPm_cm (s : State) (x : Params) : (s.setPm x).cm = s.cm := rfl
@[simp] theorem State.setPm_be (s : State) (x : Params) : (s.setPm x).be = s.be := rfl
@[simp] theorem State.setPm_tg (s : State) (x : Params) : (s.setPm x).tg = s.tg := rfl
@[simp] theorem State.setPm_ls (s : State) (x : Params) : (s.setPm x).ls = s.ls := rfl
@[simp] theorem State.setPm_ad (s : State) (x : Params) : (s.setPm x).ad = s.ad := rfl
@[simp] theorem State.setPm_lp (s : State) (x : Params) : (s.setPm x).lp = s.lp := rfl
@[simp] theorem State.setPm_pm (s : State) (x : Params) : (s.setPm x).pm = x := rfl
@[simp] theorem State.setPm_timeBase (s : State) (x : Params) : (s.setPm x).timeBase = s.timeBase := rfl
@[simp] theorem State.setPm_resetPin (s : State) (x : Params) : (s.setPm x).resetPin = s.resetPin := rfl
@[simp] theorem State.setPm_pending (s : State) (x : Params) : (s.setPm x).pending = s.pending := rfl

/-- The later of two updates stands. -/
@[simp] theorem State.setPm_setPm (s : State) (x y : Params) :
    (s.setPm x).setPm y = s.setPm y := rfl

/-- Writing what stands there changes nothing. -/
@[simp] theorem State.setPm_self (s : State) : s.setPm s.pm = s := rfl

/-! ### After `State.setTimeBase` -/

@[simp] theorem State.setTimeBase_si (s : State) (x : BitVec 32) : (s.setTimeBase x).si = s.si := rfl
@[simp] theorem State.setTimeBase_pt (s : State) (x : BitVec 32) : (s.setTimeBase x).pt = s.pt := rfl
@[simp] theorem State.setTimeBase_rft (s : State) (x : BitVec 32) : (s.setTimeBase x).rft = s.rft := rfl
@[simp] theorem State.setTimeBase_cm (s : State) (x : BitVec 32) : (s.setTimeBase x).cm = s.cm := rfl
@[simp] theorem State.setTimeBase_be (s : State) (x : BitVec 32) : (s.setTimeBase x).be = s.be := rfl
@[simp] theorem State.setTimeBase_tg (s : State) (x : BitVec 32) : (s.setTimeBase x).tg = s.tg := rfl
@[simp] theorem State.setTimeBase_ls (s : State) (x : BitVec 32) : (s.setTimeBase x).ls = s.ls := rfl
@[simp] theorem State.setTimeBase_ad (s : State) (x : BitVec 32) : (s.setTimeBase x).ad = s.ad := rfl
@[simp] theorem State.setTimeBase_lp (s : State) (x : BitVec 32) : (s.setTimeBase x).lp = s.lp := rfl
@[simp] theorem State.setTimeBase_pm (s : State) (x : BitVec 32) : (s.setTimeBase x).pm = s.pm := rfl
@[simp] theorem State.setTimeBase_timeBase (s : State) (x : BitVec 32) : (s.setTimeBase x).timeBase = x := rfl
@[simp] theorem State.setTimeBase_resetPin (s : State) (x : BitVec 32) : (s.setTimeBase x).resetPin = s.resetPin := rfl
@[simp] theorem State.setTimeBase_pending (s : State) (x : BitVec 32) : (s.setTimeBase x).pending = s.pending := rfl

/-- The later of two updates stands. -/
@[simp] theorem State.setTimeBase_setTimeBase (s : State) (x y : BitVec 32) :
    (s.setTimeBase x).setTimeBase y = s.setTimeBase y := rfl

/-- Writing what stands there changes nothing. -/
@[simp] theorem State.setTimeBase_self (s : State) : s.setTimeBase s.timeBase = s := rfl

/-! ### After `State.setResetPin` -/

@[simp] theorem State.setResetPin_si (s : State) (x : Bool) : (s.setResetPin x).si = s.si := rfl
@[simp] theorem State.setResetPin_pt (s : State) (x : Bool) : (s.setResetPin x).pt = s.pt := rfl
@[simp] theorem State.setResetPin_rft (s : State) (x : Bool) : (s.setResetPin x).rft = s.rft := rfl
@[simp] theorem State.setResetPin_cm (s : State) (x : Bool) : (s.setResetPin x).cm = s.cm := rfl
@[simp] theorem State.setResetPin_be (s : State) (x : Bool) : (s.setResetPin x).be = s.be := rfl
@[simp] theorem State.setResetPin_tg (s : State) (x : Bool) : (s.setResetPin x).tg = s.tg := rfl
@[simp] theorem State.setResetPin_ls (s : State) (x : Bool) : (s.setResetPin x).ls = s.ls := rfl
@[simp] theorem State.setResetPin_ad (s : State) (x : Bool) : (s.setResetPin x).ad = s.ad := rfl
@[simp] theorem State.setResetPin_lp (s : State) (x : Bool) : (s.setResetPin x).lp = s.lp := rfl
@[simp] theorem State.setResetPin_pm (s : State) (x : Bool) : (s.setResetPin x).pm = s.pm := rfl
@[simp] theorem State.setResetPin_timeBase (s : State) (x : Bool) : (s.setResetPin x).timeBase = s.timeBase := rfl
@[simp] theorem State.setResetPin_resetPin (s : State) (x : Bool) : (s.setResetPin x).resetPin = x := rfl
@[simp] theorem State.setResetPin_pending (s : State) (x : Bool) : (s.setResetPin x).pending = s.pending := rfl

/-- The later of two updates stands. -/
@[simp] theorem State.setResetPin_setResetPin (s : State) (x y : Bool) :
    (s.setResetPin x).setResetPin y = s.setResetPin y := rfl

/-- Writing what stands there changes nothing. -/
@[simp] theorem State.setResetPin_self (s : State) : s.setResetPin s.resetPin = s := rfl

/-! ### After `State.setPending` -/

@[simp] theorem State.setPending_si (s : State) (x : List Instr) : (s.setPending x).si = s.si := rfl
@[simp] theorem State.setPending_pt (s : State) (x : List Instr) : (s.setPending x).pt = s.pt := rfl
@[simp] theorem State.setPending_rft (s : State) (x : List Instr) : (s.setPending x).rft = s.rft := rfl
@[simp] theorem State.setPending_cm (s : State) (x : List Instr) : (s.setPending x).cm = s.cm := rfl
@[simp] theorem State.setPending_be (s : State) (x : List Instr) : (s.setPending x).be = s.be := rfl
@[simp] theorem State.setPending_tg (s : State) (x : List Instr) : (s.setPending x).tg = s.tg := rfl
@[simp] theorem State.setPending_ls (s : State) (x : List Instr) : (s.setPending x).ls = s.ls := rfl
@[simp] theorem State.setPending_ad (s : State) (x : List Instr) : (s.setPending x).ad = s.ad := rfl
@[simp] theorem State.setPending_lp (s : State) (x : List Instr) : (s.setPending x).lp = s.lp := rfl
@[simp] theorem State.setPending_pm (s : State) (x : List Instr) : (s.setPending x).pm = s.pm := rfl
@[simp] theorem State.setPending_timeBase (s : State) (x : List Instr) : (s.setPending x).timeBase = s.timeBase := rfl
@[simp] theorem State.setPending_resetPin (s : State) (x : List Instr) : (s.setPending x).resetPin = s.resetPin := rfl
@[simp] theorem State.setPending_pending (s : State) (x : List Instr) : (s.setPending x).pending = x := rfl

/-- The later of two updates stands. -/
@[simp] theorem State.setPending_setPending (s : State) (x y : List Instr) :
    (s.setPending x).setPending y = s.setPending y := rfl

/-- Writing what stands there changes nothing. -/
@[simp] theorem State.setPending_self (s : State) : s.setPending s.pending = s := rfl

/-- Two states are equal when their fields are. -/
theorem State.eq_of_fields {s t : State} (h1 : s.si = t.si) (h2 : s.pt = t.pt) (h3 : s.rft = t.rft) (h4 : s.cm = t.cm)
    (h5 : s.be = t.be) (h6 : s.tg = t.tg) (h7 : s.ls = t.ls) (h8 : s.ad = t.ad) (h9 : s.lp = t.lp) (h10 : s.pm = t.pm)
    (h11 : s.timeBase = t.timeBase) (h12 : s.resetPin = t.resetPin) (h13 : s.pending = t.pending) : s = t := by
  cases s; cases t; simp_all

end Sys2Proof.Machine
end

