-- ==== Sys2Proof/Laws/Alarms.lean ====
section
/-! SUPPORT. What an occurrence, a TAKE ALARM and a DONE ALARM can do to a link's alarms (R155, R160 to R165). -/

namespace Sys2Proof.Machine

/-- R155: an occurrence reaches the links of the source's mask as it stands, and no other. -/
theorem occurrence_get (src : Source) (ad : Alarms) (l : Link) :
    (ad.occurrence src).links.get l =
      if routedTo (entry ad.sources (sourceNumber src)).mask l
      then occurOnLink (sourceNumber src) (entry ad.sources (sourceNumber src)).level (ad.links.get l)
      else ad.links.get l := by
  cases l <;> rfl

@[simp] theorem occurrence_sources (src : Source) (ad : Alarms) : (ad.occurrence src).sources = ad.sources := rfl

@[simp] theorem occurOnLink_stack (n : Fin 16) (level : Fin 4) (a : LinkAlarms) : (occurOnLink n level a).stack = a.stack :=
  rfl

theorem occurOnLink_entry (n m : Fin 16) (level : Fin 4) (a : LinkAlarms) :
    entry (occurOnLink n level a).pending m =
      if m = n then occurEntry level (entry a.pending n) else entry a.pending m :=
  entry_setEntry _ _ _ _

/-- R162: the attention line as it is set afresh. -/
theorem wantsAttention_iff (a : LinkAlarms) :
    wantsAttention a = true ↔ a.stack.length < 4 ∧ ∃ n, eligible a.stack (entry a.pending n) = true := by
  simp [wantsAttention, mem_sourceNumbers]

/-- An entry made or counted by an occurrence is pending. -/
theorem occurEntry_pending (level : Fin 4) (e : PendingEntry) : (occurEntry level e).pending = true := by
  unfold occurEntry; split
  · assumption
  · rfl

theorem occurEntry_count {level : Fin 4} {e : PendingEntry}
    (h : if e.pending then 1 ≤ e.count ∧ e.count ≤ 15 else e.count = 0) :
    1 ≤ (occurEntry level e).count ∧ (occurEntry level e).count ≤ 15 := by
  unfold occurEntry
  split
  · rename_i p
    rw [if_pos p] at h
    unfold satAdd
    show 1 ≤ min (e.count + 1) 15 ∧ min (e.count + 1) 15 ≤ 15
    omega
  · exact ⟨Nat.le_refl 1, by show 1 ≤ 15; omega⟩

/-- R153, R162: an occurrence keeps a link's alarm property. -/
theorem occurOnLink_inv {a : LinkAlarms} (h : LinkAlarmsInv a) (n : Fin 16) (level : Fin 4) :
    LinkAlarmsInv (occurOnLink n level a) := by
  refine ⟨fun m => ?_, h.2.1, h.2.2.1, wantsAttention_iff { a with
    pending := setEntry a.pending n (occurEntry level (entry a.pending n)) }⟩
  rw [occurOnLink_entry]
  by_cases e : m = n
  · rw [if_pos e, if_pos (occurEntry_pending _ _)]
    exact occurEntry_count (h.1 n)
  · rw [if_neg e]
    exact h.1 m

theorem occurrence_inv {ad : Alarms} (h : AlarmInv ad) (src : Source) : AlarmInv (ad.occurrence src) := by
  intro l
  rw [occurrence_get]
  split
  · exact occurOnLink_inv (h l) _ _
  · exact h l

theorem raise_alarmInv {s : State} (h : AlarmInv s.ad) (src : Source) : AlarmInv (raise src s).ad := occurrence_inv h src

theorem raiseTimes_alarmInv {s : State} (h : AlarmInv s.ad) (src : Source) (k : Nat) :
    AlarmInv (raiseTimes src k s).ad := by
  induction k generalizing s with
  | zero => exact h
  | succ k ih => exact ih (raise_alarmInv h src)

/-- R160, R163: taking an eligible entry below a full stack keeps a link's alarm property. -/
theorem takeEntry_inv {a : LinkAlarms} (h : LinkAlarmsInv a) {n : Fin 16} (el : eligible a.stack (entry a.pending n) = true)
    (room : a.stack.length < 4) : LinkAlarmsInv (takeEntry n a) := by
  refine ⟨fun m => ?_, ?_, ?_, wantsAttention_iff { a with
    pending := setEntry a.pending n clearEntry
    stack := a.stack ++ [{ source := n, level := (entry a.pending n).level }] }⟩
  · show if (entry (setEntry a.pending n clearEntry) m).pending then _ else _
    rw [entry_setEntry]
    by_cases e : m = n
    · rw [if_pos e]; simp [takeEntry, refreshAttention, e, clearEntry]
    · rw [if_neg e]
      have := h.1 m
      simp only [takeEntry, refreshAttention, entry_setEntry, if_neg e]
      exact this
  · simp [takeEntry, refreshAttention]; omega
  · show (a.stack ++ [_]).IsChain _
    rw [List.isChain_append]
    refine ⟨h.2.2.1, List.isChain_singleton _, ?_⟩
    intro below mb above ma
    have ea : above = { source := n, level := (entry a.pending n).level } := by simpa using ma.symm
    subst ea
    have gl : a.stack.getLast? = some below := mb
    simp only [eligible, gl, Bool.and_eq_true, Bool.or_eq_true, decide_eq_true_eq] at el
    rcases el.2 with k | ⟨k, m⟩
    · exact .inl k
    · exact .inr ⟨k, m⟩

/-- R165: removing the top frame keeps a link's alarm property. -/
theorem dropTop_inv {a : LinkAlarms} (h : LinkAlarmsInv a) : LinkAlarmsInv (dropTop a) := by
  refine ⟨h.1, ?_, h.2.2.1.dropLast, wantsAttention_iff { a with stack := a.stack.dropLast }⟩
  show a.stack.dropLast.length ≤ 4
  rw [List.length_dropLast]
  have := h.2.1
  omega

/-- R163: the entry chosen is eligible. -/
theorem chooseAlarm_eligible {a : LinkAlarms} {n : Fin 16} (h : chooseAlarm a = some n) :
    eligible a.stack (entry a.pending n) = true := by
  unfold chooseAlarm at h
  obtain ⟨lv, _, f⟩ := List.exists_of_findSome?_eq_some h
  have := List.find?_some f
  simp only [Bool.and_eq_true] at this
  exact this.1

/-- R163: no eligible entry has a lower level than the entry chosen, nor an equal level and a lower number. -/
theorem chooseAlarm_first {a : LinkAlarms} {n m : Fin 16} (h : chooseAlarm a = some n)
    (e : eligible a.stack (entry a.pending m) = true) :
    (entry a.pending n).level < (entry a.pending m).level ∨
      ((entry a.pending n).level = (entry a.pending m).level ∧ n ≤ m) := by
  have sorted : sourceNumbers.Pairwise (· < ·) := by decide
  have pick : ∀ lv : Fin 4, ∀ k, sourceNumbers.find? (fun n => eligible a.stack (entry a.pending n) &&
      decide ((entry a.pending n).level = lv)) = some k →
      (entry a.pending k).level = lv ∧ ((entry a.pending m).level = lv → k ≤ m) := by
    intro lv k f
    have p := List.find?_some f
    simp only [Bool.and_eq_true, decide_eq_true_eq] at p
    refine ⟨p.2, fun ml => ?_⟩
    obtain ⟨_, as, bs, es, none⟩ := List.find?_eq_some_iff_append.mp f
    have mm := mem_sourceNumbers m
    rw [es] at mm sorted
    rcases List.mem_append.mp mm with q | q
    · have := none m q
      simp [e, ml] at this
    · rcases List.mem_cons.mp q with r | r
      · exact Nat.le_of_eq (congrArg Fin.val r.symm)
      · exact Nat.le_of_lt ((List.pairwise_cons.mp (List.pairwise_append.mp sorted).2.1).1 m r)
  have miss : ∀ lv : Fin 4, sourceNumbers.find? (fun n => eligible a.stack (entry a.pending n) &&
      decide ((entry a.pending n).level = lv)) = none → (entry a.pending m).level ≠ lv := by
    intro lv f k
    have := List.find?_eq_none.mp f m (mem_sourceNumbers m)
    simp [e, k] at this
  unfold chooseAlarm at h
  simp only [List.findSome?_cons, List.findSome?_nil] at h
  have cases4 : ∀ v : Fin 4, v = 0 ∨ v = 1 ∨ v = 2 ∨ v = 3 := by decide
  generalize hx : (entry a.pending m).level = lm at *
  generalize hy : (entry a.pending n).level = ln at *
  rcases c0 : sourceNumbers.find? (fun n => eligible a.stack (entry a.pending n) &&
      decide ((entry a.pending n).level = 0)) with _ | k0
  · have m0 := miss 0 c0
    rcases c1 : sourceNumbers.find? (fun n => eligible a.stack (entry a.pending n) &&
        decide ((entry a.pending n).level = 1)) with _ | k1
    · have m1 := miss 1 c1
      rcases c2 : sourceNumbers.find? (fun n => eligible a.stack (entry a.pending n) &&
          decide ((entry a.pending n).level = 2)) with _ | k2
      · have m2 := miss 2 c2
        rcases c3 : sourceNumbers.find? (fun n => eligible a.stack (entry a.pending n) &&
            decide ((entry a.pending n).level = 3)) with _ | k3
        · have m3 := miss 3 c3
          rcases cases4 lm with r | r | r | r <;> simp_all
        · have : n = k3 := by simpa [c0, c1, c2, c3] using h.symm
          subst this
          have p := pick 3 n c3
          rw [hy] at p
          rcases cases4 lm with r | r | r | r <;> simp_all
      · have : n = k2 := by simpa [c0, c1, c2] using h.symm
        subst this
        have p := pick 2 n c2
        rw [hy] at p
        rcases cases4 lm with r | r | r | r <;> simp_all
    · have : n = k1 := by simpa [c0, c1] using h.symm
      subst this
      have p := pick 1 n c1
      rw [hy] at p
      rcases cases4 lm with r | r | r | r <;> simp_all
  · have : n = k0 := by simpa [c0] using h.symm
    subst this
    have p := pick 0 n c0
    rw [hy] at p
    rcases cases4 lm with r | r | r | r <;> simp_all

end Sys2Proof.Machine
end

