-- ==== Sys2Proof/Laws/Touches.lean ====
section
/-! SUPPORT. Which blocks each shared operation may change: one lemma per operation. -/

namespace Sys2Proof.Machine

theorem Touches.refl (bs : List Block) (s : State) : Touches bs s s :=
  by constructor <;> exact fun _ => rfl

theorem Touches.trans {bs : List Block} {s t u : State} (h : Touches bs s t) (k : Touches bs t u) : Touches bs s u :=
  ⟨fun n => (k.si n).trans (h.si n), fun n => (k.pt n).trans (h.pt n), fun n => (k.rft n).trans (h.rft n),
   fun n => (k.cm n).trans (h.cm n), fun n => (k.be n).trans (h.be n), fun n => (k.tg n).trans (h.tg n),
   fun n => (k.ls n).trans (h.ls n), fun n => (k.ad n).trans (h.ad n), fun n => (k.lp n).trans (h.lp n),
   fun n => (k.pm n).trans (h.pm n), fun n => (k.timeBase n).trans (h.timeBase n),
   fun n => (k.resetPin n).trans (h.resetPin n), fun n => (k.pending n).trans (h.pending n)⟩

theorem Touches.mono {bs cs : List Block} {s t : State} (h : Touches bs s t) (sub : ∀ b ∈ bs, b ∈ cs) :
    Touches cs s t :=
  ⟨fun n => h.si fun m => n (sub _ m), fun n => h.pt fun m => n (sub _ m), fun n => h.rft fun m => n (sub _ m),
   fun n => h.cm fun m => n (sub _ m), fun n => h.be fun m => n (sub _ m), fun n => h.tg fun m => n (sub _ m),
   fun n => h.ls fun m => n (sub _ m), fun n => h.ad fun m => n (sub _ m), fun n => h.lp fun m => n (sub _ m),
   fun n => h.pm fun m => n (sub _ m), fun n => h.timeBase fun m => n (sub _ m),
   fun n => h.resetPin fun m => n (sub _ m), fun n => h.pending fun m => n (sub _ m)⟩

theorem Touches.of_if {bs : List Block} {s t u : State} {c : Prop} [Decidable c] (h : Touches bs s t)
    (k : Touches bs s u) : Touches bs s (if c then t else u) := by
  split
  · exact h
  · exact k

/-! ### Alarms and the collector -/

theorem raise_touches (src : Source) (s : State) : Touches [.ad] s (raise src s) := by
  constructor <;> intro h <;> first | rfl | exact absurd (by decide) h

theorem raiseTimes_touches (src : Source) (k : Nat) (s : State) : Touches [.ad] s (raiseTimes src k s) := by
  induction k generalizing s with
  | zero => exact Touches.refl _ _
  | succ k ih => exact (raise_touches src s).trans (ih _)

theorem State.setSi_touches (s : State) (x : SenseInterface) : Touches [.si] s (s.setSi x) := by
  constructor <;> intro h <;> first | rfl | exact absurd (by decide) h

theorem State.setPt_touches (s : State) (x : Position) : Touches [.pt] s (s.setPt x) := by
  constructor <;> intro h <;> first | rfl | exact absurd (by decide) h

theorem State.setRft_touches (s : State) (x : RouteTable) : Touches [.rft] s (s.setRft x) := by
  constructor <;> intro h <;> first | rfl | exact absurd (by decide) h

theorem State.setCm_touches (s : State) (x : Collector) : Touches [.cm] s (s.setCm x) := by
  constructor <;> intro h <;> first | rfl | exact absurd (by decide) h

theorem State.setBe_touches (s : State) (x : Budget) : Touches [.be] s (s.setBe x) := by
  constructor <;> intro h <;> first | rfl | exact absurd (by decide) h

theorem State.setTg_touches (s : State) (x : Grants) : Touches [.tg] s (s.setTg x) := by
  constructor <;> intro h <;> first | rfl | exact absurd (by decide) h

theorem State.setLs_touches (s : State) (x : Loads) : Touches [.ls] s (s.setLs x) := by
  constructor <;> intro h <;> first | rfl | exact absurd (by decide) h

theorem State.setAd_touches (s : State) (x : Alarms) : Touches [.ad] s (s.setAd x) := by
  constructor <;> intro h <;> first | rfl | exact absurd (by decide) h

theorem State.setLp_touches (s : State) (x : PerLink Port) : Touches [.lp] s (s.setLp x) := by
  constructor <;> intro h <;> first | rfl | exact absurd (by decide) h

theorem State.setPm_touches (s : State) (x : Params) : Touches [.pm] s (s.setPm x) := by
  constructor <;> intro h <;> first | rfl | exact absurd (by decide) h

theorem enterState_touches (st : CollectorState) (mask : Option DropPoles) (s : State) :
    Touches [.cm] s (enterState st mask s) :=
  State.setCm_touches _ _

theorem enterSuspect_touches (s : State) : Touches [.cm, .ad] s (enterSuspect s) :=
  ((enterState_touches _ _ s).mono (by decide)).trans
    (((State.setCm_touches _ _).mono (by decide)).trans ((raise_touches _ _).mono (by decide)))

theorem makeDrop_touches (p : DropPoles) (c : DropCause) (x : Sample) (s : State) :
    Touches [.cm, .ad] s (makeDrop p c x s) := by
  unfold makeDrop
  refine Touches.trans ?_ (((State.setCm_touches _ _).mono (by decide)).trans ((raise_touches _ _).mono (by decide)))
  split
  · exact (State.setCm_touches _ _).mono (by decide)
  · exact (enterState_touches _ _ _).mono (by decide)

theorem learnGap_touches (s : State) : Touches [.rft, .ad] s (learnGap s) := by
  unfold learnGap
  split
  · exact Touches.refl _ _
  · split
    · split
      · exact ((State.setRft_touches s _).mono (by decide)).trans ((raise_touches _ _).mono (by decide))
      · exact (raise_touches _ _).mono (by decide)
    · exact Touches.refl _ _

theorem takeTransition_touches (x : Sample) (w : Bool) (s : State) :
    Touches [.cm, .rft, .ad] s (takeTransition x w s) := by
  have en : ∀ st m (u : State), Touches [.cm, .rft, .ad] u (enterState st m u) := fun st m u =>
    (enterState_touches st m u).mono (by decide)
  have su : ∀ u : State, Touches [.cm, .rft, .ad] u (enterSuspect u) := fun u =>
    (enterSuspect_touches u).mono (by decide)
  have ra : ∀ c (u : State), Touches [.cm, .rft, .ad] u (raise c u) := fun c u => (raise_touches c u).mono (by decide)
  have rc : ∀ u : State, Touches [.cm, .rft, .ad] u (recoverFromSuspect u) := fun u =>
    ((learnGap_touches u).mono (by decide)).trans (en _ _ _)
  have md : ∀ p c (u : State), Touches [.cm, .rft, .ad] u (makeDrop p c x u) := fun p c u =>
    (makeDrop_touches p c x u).mono (by decide)
  have rf : ∀ u : State, Touches [.cm, .rft, .ad] u u := Touches.refl _
  have cs := (State.setCm_touches s (countSet (presenceOf (s.par .vPresent) x.v) s.cm)).mono
    (cs := [.cm, .rft, .ad]) (by decide)
  unfold takeTransition
  refine cs.trans ?_
  dsimp only
  split
  · exact rf _
  · exact rf _
  · unfold takeRaising
    exact (en _ _ _).of_if (((en _ _ _).trans (ra _ _)).of_if (rf _))
  · unfold takeOnWire
    exact (en _ _ _).of_if (((en _ _ _).of_if (su _)).of_if (rf _))
  · unfold takeGap
    exact (en _ _ _).of_if ((en _ _ _).of_if (((su _).trans (ra _ _)).of_if (rf _)))
  · unfold takeSuspect
    exact (en _ _ _).of_if ((md _ _ _).of_if ((rc _).of_if (rf _)))
  · unfold takeUnloading
    exact (en _ _ _).of_if (rf _)
  · unfold takeLowering
    exact (en _ _ _).of_if (rf _)

/-- R49: CM's work on a set changes CM, the point table (a learned insert) and the alarms alone. -/
theorem collectorTake_touches (x : Sample) (prev : PerPole (Option (BitVec 10))) (w : Bool) (s : State) :
    Touches [.cm, .rft, .ad] s (collectorTake x prev w s) := by
  have tk := (State.setCm_touches s (countEpoch s.cm)).mono (cs := [.cm, .rft, .ad]) (by decide)
  unfold collectorTake
  refine Touches.trans (tk.trans ?_) ((State.setCm_touches _ _).mono (by decide))
  split
  · exact (makeDrop_touches _ _ _ _).mono (by decide)
  · exact takeTransition_touches _ _ _

/-! ### Route features -/

theorem armCandidate_touches (i : Fin 64) (w : Way) (e : PointEntry) (s : State) :
    Touches [.rft, .ad] s (armCandidate i w e s) := by
  unfold armCandidate
  exact Touches.of_if (((State.setRft_touches s _).mono (by decide)).of_if ((raise_touches _ _).mono (by decide)))
    (Touches.refl _ _)

theorem probe_touches (s : State) : Touches [.rft, .ad] s (probe s) := by
  unfold probe
  refine Touches.of_if ?_ (Touches.refl _ _)
  refine Touches.trans ((State.setRft_touches s { s.rft with lastQ := lookAhead s }).mono (by decide)) ?_
  dsimp only
  generalize s.setRft { s.rft with lastQ := lookAhead s } = u
  generalize candidates (lookAhead s) (entry s.rft.points (setOf (lookAhead s))) = cs
  induction cs generalizing u with
  | nil => exact Touches.refl _ _
  | cons c cs ih => exact (armCandidate_touches _ _ _ _).trans (ih _)

/-- R34, steps 1 and 2, change the armed list and the alarms alone. -/
theorem armForSet_touches (s : State) : Touches [.rft, .ad] s (armForSet s) :=
  ((State.setRft_touches s _).mono (by decide)).trans (probe_touches _)

/-! ### Loads and budget -/

theorem modeWork_touches (s : State) : Touches [.ls] s (modeWork s) := by
  have h : ∀ u : State, Touches [.ls] u (advanceGens u) := fun u => State.setLs_touches u _
  have k : ∀ u : State, Touches [.ls] u (slotsFollow u) := fun u => State.setLs_touches u _
  refine ((h s).trans (k _)).trans ?_
  unfold modeWork advanceObservation
  exact (State.setLs_touches _ _).of_if (State.setLs_touches _ _)

theorem supplyStep_touches (s : State) : Touches [.ls] s (supplyStep s) := by
  unfold supplyStep
  split <;> exact State.setLs_touches _ _

theorem bandStep_touches (v : Option (BitVec 10)) (s : State) : Touches [.ls, .ad] s (bandStep v s) := by
  unfold bandStep
  split
  · refine Touches.of_if ?_ ?_
    · unfold bandShed
      have h : ∀ k, Touches [.ls, .ad] s (raiseTimes .loadLockout k (s.setLs
          (forSlots bandTaken (bandShedSlot (s.par .bandRestartLimit)) s.ls))) := fun k =>
        ((State.setLs_touches s _).mono (by decide)).trans ((raiseTimes_touches _ _ _).mono (by decide))
      exact Touches.of_if ((h _).trans ((raise_touches _ _).mono (by decide))) (h _)
    · exact ((State.setLs_touches s _).mono (by decide)).trans ((raiseTimes_touches _ _ _).mono (by decide))
  · exact Touches.refl _ _
  · exact Touches.refl _ _
  · exact Touches.refl _ _

theorem loadsBeforeBudget_touches (v : Option (BitVec 10)) (s : State) :
    Touches [.ls, .ad] s (loadsBeforeBudget v s) :=
  (((modeWork_touches s).trans (supplyStep_touches _)).mono (by decide)).trans (bandStep_touches _ _)

theorem startDecision_touches (s : State) : Touches [.ls] s (startDecision s) := by
  unfold startDecision tryStart
  refine Touches.trans (State.setLs_touches s (shedHeads s.be.h (countSinceStart s.ls))) ?_
  split
  · exact (State.setLs_touches _ _).of_if (Touches.refl _ _)
  · exact Touches.refl _ _

theorem overGrantCheck_touches (s : State) : Touches [.tg, .ad] s (overGrantCheck s) := by
  unfold overGrantCheck
  exact Touches.of_if (((State.setTg_touches s _).mono (by decide)).trans ((raise_touches _ _).mono (by decide)))
    (Touches.refl _ _)

theorem windowStep_touches (v : Option (BitVec 10)) (s : State) : Touches [.be, .ad] s (windowStep v s) := by
  unfold windowStep
  refine Touches.of_if (Touches.of_if ?_ ((State.setBe_touches s _).mono (by decide))) (Touches.refl _ _)
  unfold endWindow
  have h : Touches [.be, .ad] s (s.setBe { s.be with
      d := steppedD (sagAfter v s) s, windowCount := 0, sag := false, windowLength := s.par .window }) :=
    (State.setBe_touches s _).mono (by decide)
  exact (h.trans ((raise_touches _ _).mono (by decide))).of_if h

theorem depthStage_touches (p : Nat) (s : State) : Touches [.be, .ls, .ad] s (depthStage p s).state := by
  unfold depthStage
  split
  · exact Touches.refl _ _
  · dsimp only
    split
    · refine Touches.trans ((State.setBe_touches s { s.be with
        sinceH := satAdd 65535 s.be.sinceH 1, hStar := targetDepth p s }).mono (by decide)) ?_
      exact (((State.setBe_touches _ _).mono (by decide)).trans ((State.setLs_touches _ _).mono (by decide))).trans
        ((raise_touches _ _).mono (by decide))
    · exact (State.setBe_touches s _).mono (by decide)

theorem freezeLimitTest_touches (s : State) : Touches [.be, .tg, .ad] s (freezeLimitTest s) := by
  unfold freezeLimitTest
  exact Touches.of_if ((((State.setBe_touches s _).mono (by decide)).trans ((raise_touches _ _).mono (by decide))).trans
    ((overGrantCheck_touches _).mono (by decide))) (Touches.refl _ _)

theorem frozenComputation_touches (s : State) : Touches [.be, .tg, .ad] s (frozenComputation s) := by
  unfold frozenComputation
  refine Touches.trans ?_ (freezeLimitTest_touches _)
  have h : Touches [.be, .tg, .ad] s (s.setBe { s.be with record := keptRecord s, freeze := satAdd 255 s.be.freeze 1 }) :=
    (State.setBe_touches s _).mono (by decide)
  have k : Touches [.be, .tg, .ad] s (if satAdd 255 s.be.freeze 1 = 1 then
      raise .budgetFrozen (s.setBe { s.be with record := keptRecord s, freeze := satAdd 255 s.be.freeze 1 })
      else s.setBe { s.be with record := keptRecord s, freeze := satAdd 255 s.be.freeze 1 }) :=
    (h.trans ((raise_touches _ _).mono (by decide))).of_if h
  exact (k.trans ((overGrantCheck_touches _).mono (by decide))).of_if k

theorem normalPublication_touches (p n : Nat) (c : Ceilings) (v f : Bool) (s : State) :
    Touches [.be, .tg, .ls, .ad] s (normalPublication p n c v f s) := by
  unfold normalPublication
  have h : Touches [.be, .tg, .ls, .ad] s (overGrantCheck (publish
      (freshRecord p n (s.setBe { fallDepth f s.be with freeze := 0 }).be.h c v
        (s.setBe { fallDepth f s.be with freeze := 0 })) (s.setBe { fallDepth f s.be with freeze := 0 }))) :=
    (((State.setBe_touches s _).mono (by decide)).trans ((State.setBe_touches _ _).mono (by decide))).trans
      ((overGrantCheck_touches _).mono (by decide))
  exact (h.trans ((State.setLs_touches _ _).mono (by decide))).of_if h

theorem conclude_touches (p n : Nat) (c : Ceilings) (k : Conditions) (f : Bool) (s : State) :
    Touches [.be, .tg, .ls, .ad] s (conclude p n c k f s) := by
  unfold conclude
  have h : Touches [.be, .tg, .ls, .ad] s (noteCauses k s) := (State.setBe_touches s _).mono (by decide)
  exact Touches.of_if (h.trans ((frozenComputation_touches _).mono (by decide))) (h.trans (normalPublication_touches ..))

theorem budgetComputation_touches (v : Option (BitVec 10)) (s : State) :
    Touches [.be, .tg, .ls, .ad] s (budgetComputation v s) := by
  have h : Touches [.be, .tg, .ls, .ad] s (holdV v s) := by
    unfold holdV
    split
    · exact (State.setBe_touches s _).mono (by decide)
    · exact Touches.refl _ _
  exact ((h.trans ((windowStep_touches _ _).mono (by decide))).trans ((depthStage_touches _ _).mono (by decide))).trans
    (conclude_touches ..)

/-- R132: LS's and BE's work on a set. -/
theorem loadsAndBudget_touches (v : Option (BitVec 10)) (s : State) :
    Touches [.be, .tg, .ls, .ad] s (loadsAndBudget v s) :=
  (((loadsBeforeBudget_touches v s).mono (by decide)).trans (budgetComputation_touches _ _)).trans
    ((startDecision_touches _).mono (by decide))

theorem safeAtSenseLoss_touches (s : State) : Touches [.be, .tg, .ad] s (safeAtSenseLoss s) :=
  ((State.setBe_touches s _).mono (by decide)).trans ((overGrantCheck_touches _).mono (by decide))

/-! ### Sense -/

theorem loseSense_touches (s : State) : Touches failBlocks s (loseSense s) :=
  (((((State.setSi_touches s _).mono (by decide)).trans ((raise_touches _ _).mono (by decide))).trans
    ((safeAtSenseLoss_touches _).mono (by decide))).trans ((State.setLs_touches _ _).mono (by decide))).trans
    ((State.setCm_touches _ _).mono (by decide))

/-- R12 to R14: what the failure of a channel may change. -/
theorem failChannel_touches (ch : Channel) (why : FailReason) (s : State) :
    Touches failBlocks s (failChannel ch why s) := by
  unfold failChannel
  have h : Touches failBlocks s (setChannel ch { s.si.chan.get ch with health := .failed, reason := some why } s) :=
    (State.setSi_touches s _).mono (by decide)
  refine Touches.of_if (Touches.of_if ?_ (h.trans (loseSense_touches _))) h
  exact h.trans (((State.setSi_touches _ _).mono (by decide)).trans ((raise_touches _ _).mono (by decide)))

theorem expireSilence_touches (ch : Channel) (s : State) : Touches failBlocks s (expireSilence ch s) := by
  unfold expireSilence whenDue
  exact (failChannel_touches _ _ _).of_if (Touches.refl _ _)

theorem takeOverdue_touches (s : State) : Touches failBlocks s (takeOverdue s) := by
  unfold takeOverdue
  exact ((expireSilence_touches _ _).trans (expireSilence_touches _ _)).of_if
    ((expireSilence_touches _ _).trans (expireSilence_touches _ _))

theorem passOn_touches (x : Sample) (s : State) : Touches [.si, .pt, .pm] s (passOn x s) :=
  (((State.setSi_touches s _).mono (by decide)).trans ((State.setPm_touches _ _).mono (by decide))).trans
    ((State.setPt_touches _ _).mono (by decide))

theorem setFound_touches (x : Sample) (s : State) : Touches [.si, .pt, .pm, .rft, .ad] s (setFound x s) :=
  ((passOn_touches x s).mono (by decide)).trans ((armForSet_touches _).mono (by decide))

theorem acceptedSet_touches (x : Sample) (s : State) : Touches setBlocks s (acceptedSet x s) := by
  unfold acceptedSet
  have nt : ∀ u : State, Touches setBlocks u (notePrevMatch u) := fun u =>
    (State.setRft_touches u _).mono (by decide)
  refine Touches.trans ((((passOn_touches x s).mono (by decide)).trans
    ((armForSet_touches _).mono (by decide))).trans ((nt _).trans ?_)) ((State.setSi_touches _ _).mono (by decide))
  exact ((collectorTake_touches _ _ _ _).mono (by decide)).trans ((loadsAndBudget_touches _ _).mono (by decide))

/-! ### Events of a set commanded alone -/

theorem collectorShare_touches (x : Sample) (s : State) : Touches [.cm, .rft, .ad] s (collectorShare x s) :=
  collectorTake_touches _ _ _ _

/-- The end of UNLOADING that leaves a supply is the collector's share alone. -/
theorem unloadShare_powered {x : Sample} {s : State} (h : (collectorShare x s).supply ≠ .none) :
    unloadShare x s = collectorShare x s := by
  unfold unloadShare
  exact if_neg h

/-- The end of UNLOADING that leaves NONE supply sheds every active slot that is not ride-through (R137). -/
theorem unloadShare_unpowered {x : Sample} {s : State} (h : (collectorShare x s).supply = .none) :
    unloadShare x s = (collectorShare x s).setLs (shedWhere (fun sl => !sl.rideThrough) .supply s.ls) := by
  have same : (collectorShare x s).ls = s.ls := (collectorShare_touches x s).ls (by decide)
  unfold unloadShare
  refine (if_pos h).trans ?_
  unfold supplyStep
  rw [h, same]

theorem unloadShare_touches (x : Sample) (s : State) : Touches [.cm, .rft, .ad, .ls] s (unloadShare x s) := by
  have share := (collectorShare_touches x s).mono (cs := [.cm, .rft, .ad, .ls]) (by decide)
  exact (share.trans ((supplyStep_touches _).mono (by decide))).of_if share

/-! ### A closed frame -/

theorem closeFrame_touches (ch : Channel) (s : State) : Touches setBlocks s (closeFrame ch s) := by
  unfold closeFrame frameArrives
  split
  · exact Touches.refl _ _
  · have h := (State.setSi_touches s { s.si with rx := s.si.rx.put ch none }).mono (cs := setBlocks) (by decide)
    refine Touches.of_if h (h.trans ?_)
    split
    · unfold takeBadFrame
      have k : ∀ u c, Touches setBlocks u (setChannel ch c u) := fun u c =>
        (State.setSi_touches u _).mono (by decide)
      exact Touches.of_if ((k _ _).trans ((failChannel_touches _ _ _).mono (by decide))) (k _ _)
    · unfold takeGoodFrame
      have k : ∀ u c, Touches setBlocks u (setChannel ch c u) := fun u c =>
        (State.setSi_touches u _).mono (by decide)
      exact Touches.of_if ((k _ _).trans ((failChannel_touches _ _ _).mono (by decide)))
        (Touches.of_if ((k _ _).trans (acceptedSet_touches _ _)) (k _ _))

end Sys2Proof.Machine
end

