-- ==== Sys2Proof/Laws/Drops.lean ====
section
/-! SUPPORT. What a drop leaves in CM, on the state that the set's counts left (R60 to R62, R66, R68, R69). -/

namespace Sys2Proof.Machine

/-- A drop made at a set is a drop in the sense of `Drops`, from the state before the set's counts. -/
theorem drops_make (poles : DropPoles) (cause : DropCause) (x : Sample) (s s' : State) (pc cc : Nat)
    (hs : s'= s.setCm { s.cm with epochsIn := min (s.cm.epochsIn + 1) 65535, presentCount := pc, confirmCount := cc })
    (hd : s.cm.state = .dropped → pc = s.cm.presentCount ∧ cc = s.cm.confirmCount) :
    let m := makeDrop poles cause x s'
    ∃ t, m.setCm { m.cm with lastElev := ⟨x.elevPos, x.elevNeg⟩ } = raise .poleDrop (s.setCm t) ∧ Drops poles cause x s t ∧
        t.lastElev = ⟨x.elevPos, x.elevNeg⟩ := by
  intro m
  refine ⟨{ m.cm with lastElev := ⟨x.elevPos, x.elevNeg⟩ }, ?_, ?_, rfl⟩
  · simp only [m, makeDrop, hs, enterState]
    split <;> rfl
  · have ld : ∀ mask : DropPoles, linesOf .dropped (some mask) (s.par .lowerBoth) = ⟨decide (s.par .lowerBoth = 1 ∨ mask ≠ .neg), decide (s.par .lowerBoth = 1 ∨ mask ≠ .pos)⟩ := by
      intro mask
      simp only [linesOf]
      by_cases lb : s.par .lowerBoth = 1
      · simp [lb]
      · cases mask <;> simp [lb]
    have off : ∀ r cm, offerRecord r cm = { cm with log := if cm.log.length < 8 then cm.log ++ [r] else cm.log, lost := if cm.log.length < 8 then cm.lost else min (cm.lost + 1) 255, dropNumber := cm.dropNumber + 1 } := by
      intro r cm; unfold offerRecord satAdd; split <;> rfl
    by_cases h : s.cm.state = .dropped
    · obtain ⟨rfl, rfl⟩ := hd h
      have e : m.cm = offerRecord (dropRecord poles cause x s') { s.cm with epochsIn := min (s.cm.epochsIn + 1) 65535, dropMask := some .both, lines := linesOf .dropped (some .both) (s.par .lowerBoth), marks := ⟨true, true, true⟩ } := by
        simp only [m, makeDrop]
        rw [if_pos (by rw [hs]; exact h), hs]; rfl
      rw [off, ld] at e
      have r : dropRecord poles cause x s' = { number := s.cm.dropNumber, stamp := s.timeBase, metre := if s.pt.isSet then some s.pt.metre else none, poles := poles, cause := cause, before := s.cm.state, v := x.v, i := x.i, elevPos := x.elevPos, elevNeg := x.elevNeg, latPos := x.latPos, latNeg := x.latNeg, firstArmed := s.rft.armed.head?.map ArmedCopy.kind } := by rw [hs]; rfl
      rw [r] at e
      unfold Drops
      rw [e]
      simp only [h]
      simp
    · have e : m.cm = offerRecord (dropRecord poles cause x s') { (enterState .dropped (some poles) s').cm with marks := ⟨true, true, true⟩ } := by
        simp only [m, makeDrop]
        rw [if_neg (by rw [hs]; exact h)]; rfl
      have r : dropRecord poles cause x s' = { number := s.cm.dropNumber, stamp := s.timeBase, metre := if s.pt.isSet then some s.pt.metre else none, poles := poles, cause := cause, before := s.cm.state, v := x.v, i := x.i, elevPos := x.elevPos, elevNeg := x.elevNeg, latPos := x.latPos, latNeg := x.latNeg, firstArmed := s.rft.armed.head?.map ArmedCopy.kind } := by rw [hs]; rfl
      have en : (enterState .dropped (some poles) s').cm = { s.cm with
        state := .dropped, presentCount := 0, confirmCount := 0, epochsIn := 0
        lossMetre := if s.cm.state = .suspect then none else s.cm.lossMetre
        lossEpoch := if s.cm.state = .suspect then none else s.cm.lossEpoch
        dropMask := some poles, lines := linesOf .dropped (some poles) (s.par .lowerBoth) } := by rw [hs]; rfl
      rw [off, r, en, ld] at e
      unfold Drops
      rw [e]
      simp only [h]
      simp

end Sys2Proof.Machine
end

