-- ==== Sys2Proof/Laws/Points.lean ====
section
/-! SUPPORT. What an insert, an eviction and a clear do to the point table, and that the table keeps its properties. -/

namespace Sys2Proof.Machine

@[simp] theorem PointSet.at_write_same (ps : PointSet) (w : Way) (e : PointEntry) : (ps.write w e).at w = e := by
  cases w <;> rfl

@[simp] theorem PointSet.at_write_other (ps : PointSet) (w : Way) (e : PointEntry) :
    (ps.write w e).at (otherWay w) = ps.at (otherWay w) := by
  cases w <;> rfl

@[simp] theorem PointSet.older_write (ps : PointSet) (w : Way) (e : PointEntry) : (ps.write w e).older = ps.older := by
  cases w <;> rfl

@[simp] theorem fillWay_at_same (ps : PointSet) (w : Way) (e : PointEntry) : (fillWay w e ps).at w = e := by
  cases w <;> rfl

@[simp] theorem fillWay_at_other (ps : PointSet) (w : Way) (e : PointEntry) :
    (fillWay w e ps).at (otherWay w) = ps.at (otherWay w) := by
  cases w <;> rfl

@[simp] theorem fillWay_older (ps : PointSet) (w : Way) (e : PointEntry) : (fillWay w e ps).older = otherWay w := rfl

/-- R25: the way chosen is the one that a fill takes. -/
theorem chooseWay_eq_some (ps : PointSet) (w : Way) : chooseWay ps = some w ↔ Fills ps w := by
  rcases ps with ⟨⟨v0, _, _, _, _, l0⟩, ⟨v1, _, _, _, _, l1⟩, o⟩
  cases v0 <;> cases v1 <;> cases l0 <;> cases l1 <;> cases o <;> cases w <;>
    simp [chooseWay, Fills, PointSet.at, otherWay]

/-- R25: no way is chosen exactly when both hold locked entries. -/
theorem chooseWay_eq_none (ps : PointSet) : chooseWay ps = none ↔
    ps.way0.valid = true ∧ ps.way1.valid = true ∧ ps.way0.locked = true ∧ ps.way1.locked = true := by
  rcases ps with ⟨⟨v0, _, _, _, _, l0⟩, ⟨v1, _, _, _, _, l1⟩, o⟩
  cases v0 <;> cases v1 <;> cases l0 <;> cases l1 <;> simp [chooseWay]

/-- The locked entries of one set. -/
def locksOf (ps : PointSet) : Nat := ps.way0.locked.toNat + ps.way1.locked.toNat

theorem locksOf_at (ps : PointSet) (w : Way) :
    locksOf ps = (ps.at w).locked.toNat + (ps.at (otherWay w)).locked.toNat := by
  cases w <;> simp [locksOf, PointSet.at, otherWay, Nat.add_comm]

/-- Writing one set moves the number of locked entries by that set's. -/
theorem lockedEntries_setPoints (rt : RouteTable) (i : Fin 64) (ps : PointSet) :
    lockedEntries (rt.setPoints i ps) + locksOf (entry rt.points i) = lockedEntries rt + locksOf ps := by
  have hl : i.val < rt.points.toList.length := by simp
  have a : (rt.setPoints i ps).points.toList = rt.points.toList.set i.val ps := by
    simp only [RouteTable.setPoints, setEntry]
    rw [← Vector.toList_toArray, ← Vector.toList_toArray, Vector.toArray_set, Array.toList_set]
  have g : entry rt.points i = rt.points.toList[i.val] := by simp [entry]
  have split := List.take_append_drop i.val rt.points.toList
  unfold lockedEntries
  rw [a, List.set_eq_take_append_cons_drop, if_pos hl, g]
  conv_rhs => rw [← split, List.drop_eq_getElem_cons hl]
  simp only [List.map_append, List.map_cons, List.sum_append, List.sum_cons, locksOf]
  omega

/-- The entries of a set that a table with the properties may hold. -/
def SetOk (i : Fin 64) (ps : PointSet) : Prop :=
  EntryOk i ps.way0 ∧ EntryOk i ps.way1 ∧
    (ps.way0.valid = true → ps.way1.valid = true → ¬(ps.way0.start = ps.way1.start ∧ ps.way0.kind = ps.way1.kind))

/-- A set is in order when each way is, and the two are no duplicates. -/
theorem setOk_of_at {i : Fin 64} {ps : PointSet} (w : Way) (a : EntryOk i (ps.at w)) (b : EntryOk i (ps.at (otherWay w)))
    (d : (ps.at w).valid = true → (ps.at (otherWay w)).valid = true →
      ¬((ps.at w).start = (ps.at (otherWay w)).start ∧ (ps.at w).kind = (ps.at (otherWay w)).kind)) : SetOk i ps := by
  cases w
  · exact ⟨a, b, d⟩
  · exact ⟨b, a, fun x y e => d y x ⟨e.1.symm, e.2.symm⟩⟩

theorem PointsInv.at {rt : RouteTable} (h : PointsInv rt) (i : Fin 64) (w : Way) : EntryOk i ((entry rt.points i).at w) := by
  cases w
  · exact (h.1 i).1
  · exact (h.1 i).2.1

/-- Writing one set that is in order, with the lock count moved by its locks, keeps the table's properties. -/
theorem setPoints_pointsInv {rt : RouteTable} (h : PointsInv rt) {i : Fin 64} {ps : PointSet} {count : Nat}
    (ok : SetOk i ps) (locks : count + locksOf (entry rt.points i) = rt.lockCount + locksOf ps) (le : count ≤ 64) :
    PointsInv { rt.setPoints i ps with lockCount := count } := by
  refine ⟨fun j => ?_, ?_, le⟩
  · show SetOk j (entry (setEntry rt.points i ps) j)
    by_cases e : j = i
    · subst e; rw [entry_setEntry_same]; exact ok
    · rw [entry_setEntry_other _ _ e]; exact h.1 j
  · have := lockedEntries_setPoints rt i ps
    have c := h.2.1
    show count = lockedEntries (rt.setPoints i ps)
    omega

theorem invalidEntry_ok (i : Fin 64) : EntryOk i invalidEntry := ⟨fun _ => rfl, fun h => absurd h (by decide)⟩

/-- A set of PUTs or learned inserts leaves an entry that is unlocked unless valid. -/
theorem EntryOk.locked_valid {i : Fin 64} {e : PointEntry} (h : EntryOk i e) (l : e.locked = true) : e.valid = true := by
  cases v : e.valid
  · rw [h.1 v] at l; exact absurd l (by decide)
  · rfl

end Sys2Proof.Machine
end

