-- ==== Sys2Proof/Laws/Inserts.lean ====
section
/-! SUPPORT. The two inserts of the point table case by case: update in place or merge, fill, refusal (R21 to R27). -/

namespace Sys2Proof.Machine

/-- The test of an update in place (R23). -/
theorem same_iff (start kind) (ps : PointSet) (w : Way) :
   ((ps.at w).valid && decide ((ps.at w).start = start) && decide ((ps.at w).kind = kind)) = true ↔ ((ps.at w).valid = true ∧ (ps.at w).start = start ∧ (ps.at w).kind = kind) := by simp [and_assoc]

/-- R23: the way found holds a valid entry of that start metre and kind. -/
theorem findSame_some (start kind) (ps : PointSet) (w) (h : findSame start kind ps = some w) : ((ps.at w).valid = true ∧ (ps.at w).start = start ∧ (ps.at w).kind = kind) := by
  unfold findSame at h
  dsimp only at h
  split at h
  · cases h; rename_i c; exact (same_iff start kind ps .w0).mp c
  · split at h
    · cases h; rename_i c; exact (same_iff start kind ps .w1).mp c
    · cases h

/-- R23: when neither way does. -/
theorem findSame_none (start kind) (ps : PointSet) : findSame start kind ps = none ↔ ∀ w, ¬((ps.at w).valid = true ∧ (ps.at w).start = start ∧ (ps.at w).kind = kind) := by
  unfold findSame
  dsimp only
  constructor
  · intro h w
    split at h
    · cases h
    · split at h
      · cases h
      · rename_i a b
        cases w
        · exact fun c => a ((same_iff start kind ps .w0).mpr c)
        · exact fun c => b ((same_iff start kind ps .w1).mpr c)
  · intro h
    rw [if_neg, if_neg]
    · exact fun c => h .w1 ((same_iff start kind ps .w1).mp c)
    · exact fun c => h .w0 ((same_iff start kind ps .w0).mp c)

/-- R27: the lock of an entry written, and the count. -/
theorem lockEntry_spec (lock already : Bool) (count : Nat) (le : count ≤ 64) (pos : already = true → 0 < count) :
   ((lockEntry lock already count).1 = true ↔ lock = true ∧ (count < 64 ∨ already = true)) ∧
   (lockEntry lock already count).2 + already.toNat = count + (lockEntry lock already count).1.toNat ∧ (lockEntry lock already count).2 ≤ 64 := by
  unfold lockEntry
  cases lock <;> cases already <;> simp at pos ⊢
  · exact le
  · omega
  · split <;> simp <;> omega
  · exact le

/-- A table with a locked entry counts it. -/
theorem locks_pos {rt : RouteTable} (h : PointsInv rt) (i : Fin 64) (w : Way) (l : ((entry rt.points i).at w).locked = true) : 0 < rt.lockCount := by
  rw [h.2.1]
  have := lockedEntries_setPoints rt i emptySet
  have e : locksOf emptySet = 0 := rfl
  rw [locksOf_at _ w, l, e] at this
  simp at this; omega

/-- A table keeps its properties when one way of a set is written with a well-filed entry. -/
theorem put_inv {rt : RouteTable} (h : PointsInv rt) (i : Fin 64) (w : Way) (ps : PointSet) (e : PointEntry) (count : Nat)
   (at1 : ps.at w = e) (at2 : ps.at (otherWay w) = (entry rt.points i).at (otherWay w))
   (ok : EntryOk i e) (dup : e.valid = true → (((entry rt.points i).at (otherWay w)).valid = true → ¬(e.start = ((entry rt.points i).at (otherWay w)).start ∧ e.kind = ((entry rt.points i).at (otherWay w)).kind)))
   (lk : count + ((entry rt.points i).at w).locked.toNat = rt.lockCount + e.locked.toNat) (le : count ≤ 64) :
   PointsInv { rt.setPoints i ps with lockCount := count } := by
  refine setPoints_pointsInv h (setOk_of_at w (at1 ▸ ok) (at2 ▸ h.at i _) ?_) ?_ le
  · rw [at1, at2]; exact fun x v => dup x v
  · rw [locksOf_at _ w, locksOf_at ps w, at1, at2]; omega

/-- R23: an update in place. -/
theorem putInsert_same {start length factor kind lock rt w} (h : findSame start kind (entry rt.points (Machine.setOf start)) = some w) :
   putInsert start length kind factor lock rt = some ({ rt.setPoints (Machine.setOf start) ((entry rt.points (Machine.setOf start)).write w { (entry rt.points (Machine.setOf start)).at w with length := length, factor := factor, locked := (lockEntry lock ((entry rt.points (Machine.setOf start)).at w).locked rt.lockCount).1 }) with lockCount := (lockEntry lock ((entry rt.points (Machine.setOf start)).at w).locked rt.lockCount).2 }, w) := by
  simp only [putInsert, h]

/-- R25, R26: a fill. -/
theorem putInsert_fill {start length factor kind lock rt w} (h : findSame start kind (entry rt.points (Machine.setOf start)) = none)
   (c : chooseWay (entry rt.points (Machine.setOf start)) = some w) :
   putInsert start length kind factor lock rt = some ({ rt.setPoints (Machine.setOf start) (fillWay w ⟨true, start, length, kind, factor, (lockEntry lock false rt.lockCount).1⟩ (entry rt.points (Machine.setOf start))) with lockCount := (lockEntry lock false rt.lockCount).2 }, w) := by
  simp only [putInsert, h, c]

/-- R25: a refusal. -/
theorem putInsert_none {start length factor kind lock rt} (h : findSame start kind (entry rt.points (Machine.setOf start)) = none)
   (c : chooseWay (entry rt.points (Machine.setOf start)) = none) :
   putInsert start length kind factor lock rt = none := by
  simp only [putInsert, h, c]

/-- The test of a merge (R24). -/
theorem near_iff (start) (e : PointEntry) : (e.valid && decide (e.kind = .learnedGap) && decide (metreDistance e.start start ≤ 8)) = true ↔ (e.valid = true ∧ e.kind = .learnedGap ∧ (e.start - start) + (start - e.start) ≤ 8) := by
  have : metreDistance e.start start = (e.start - start) + (start - e.start) := by unfold metreDistance; split <;> omega
  rw [this]
  simp only [Bool.and_eq_true, decide_eq_true_eq, and_assoc]

/-- The distance of two metres. -/
theorem dist_eq (a b : Nat) : metreDistance a b = (a - b) + (b - a) := by unfold metreDistance; split <;> omega

/-- R24: the way found is the nearest, way 0 when two are equally near. -/
theorem findNear_some (start) (ps : PointSet) (w) (h : findNear start ps = some w) :
   ((ps.at w).valid = true ∧ (ps.at w).kind = .learnedGap ∧ metreDistance (ps.at w).start start ≤ 8) ∧
   (((ps.at (otherWay w)).valid = true ∧ (ps.at (otherWay w)).kind = .learnedGap ∧ metreDistance (ps.at (otherWay w)).start start ≤ 8) → 
    metreDistance (ps.at w).start start < metreDistance (ps.at (otherWay w)).start start ∨ (metreDistance (ps.at w).start start = metreDistance (ps.at (otherWay w)).start start ∧ w = .w0)) := by
  rcases ps with ⟨e0, e1, o⟩
  unfold findNear at h
  dsimp only at h
  split at h
  · rename_i a b
    simp only [Bool.and_eq_true, decide_eq_true_eq, and_assoc] at a b
    split at h
    · rename_i c
      cases h; exact ⟨a, fun _ => (Nat.lt_or_eq_of_le c).imp id fun q => ⟨q, rfl⟩⟩
    · rename_i c
      cases h; exact ⟨b, fun _ => .inl (Nat.lt_of_not_le c)⟩
  · cases h
    rename_i a b
    simp only [Bool.and_eq_true, decide_eq_true_eq, and_assoc] at a
    exact ⟨a, fun c => by simp only [PointSet.at, otherWay] at c; simp [c] at b⟩
  · cases h
    rename_i a b
    simp only [Bool.and_eq_true, decide_eq_true_eq, and_assoc] at b
    exact ⟨b, fun c => by simp only [PointSet.at, otherWay] at c; simp [c] at a⟩
  · cases h

/-- R24: when neither way is near. -/
theorem findNear_none (start) (ps : PointSet) : findNear start ps = none ↔ ∀ w, ¬((ps.at w).valid = true ∧ (ps.at w).kind = .learnedGap ∧ metreDistance (ps.at w).start start ≤ 8) := by
  rcases ps with ⟨e0, e1, o⟩
  unfold findNear
  dsimp only
  constructor
  · intro h w
    split at h
    · split at h <;> cases h
    · cases h
    · cases h
    · rename_i a b
      intro c
      cases w
      · simp only [PointSet.at] at c; simp [c] at a
      · simp only [PointSet.at] at c; simp [c] at b
  · intro h
    have a := h .w0
    have b := h .w1
    simp only [PointSet.at] at a b
    split
    · rename_i x _; simp only [Bool.and_eq_true, decide_eq_true_eq, and_assoc] at x; exact absurd x a
    · rename_i x _; simp only [Bool.and_eq_true, decide_eq_true_eq, and_assoc] at x; exact absurd x a
    · rename_i _ x; simp only [Bool.and_eq_true, decide_eq_true_eq, and_assoc] at x; exact absurd x b
    · rfl

/-- R24: a merge. -/
theorem learned_same {start length factor rt w} (h : findNear start (entry rt.points (Machine.setOf start)) = some w) :
   learnedInsert start length factor rt = some (rt.setPoints (Machine.setOf start) ((entry rt.points (Machine.setOf start)).write w { (entry rt.points (Machine.setOf start)).at w with length := max ((entry rt.points (Machine.setOf start)).at w).length length, factor := factor, locked := false })) := by
  simp only [learnedInsert, h]

/-- R25, R26: a fill by a learned insert. -/
theorem learned_fill {start length factor rt w} (h : findNear start (entry rt.points (Machine.setOf start)) = none)
   (c : chooseWay (entry rt.points (Machine.setOf start)) = some w) :
   learnedInsert start length factor rt = some (rt.setPoints (Machine.setOf start) (fillWay w ⟨true, start, length, .learnedGap, factor, false⟩ (entry rt.points (Machine.setOf start)))) := by
  simp only [learnedInsert, h, c]

/-- R25: a refused learned insert. -/
theorem learned_none {start length factor rt} (h : findNear start (entry rt.points (Machine.setOf start)) = none)
   (c : chooseWay (entry rt.points (Machine.setOf start)) = none) :
   learnedInsert start length factor rt = none := by
  simp only [learnedInsert, h, c]

/-- What an insert leaves at its way. -/
theorem putInsert_entry {start length kind factor lock rt rt' w} (h : putInsert start length kind factor lock rt = some (rt', w)) :
   let e := (entry rt'.points (Machine.setOf start)).at w
   e.start = start ∧ e.length = length ∧ e.kind = kind ∧ e.factor = factor := by
  cases fs : findSame start kind (entry rt.points (Machine.setOf start)) with
  | some w2 =>
    rw [putInsert_same fs] at h
    simp only [Option.some.injEq, Prod.mk.injEq] at h
    obtain ⟨rfl, rfl⟩ := h
    have sm := findSame_some _ _ _ _ fs
    have : entry (setEntry rt.points (Machine.setOf start) ((entry rt.points (Machine.setOf start)).write w2 { (entry rt.points (Machine.setOf start)).at w2 with length := length, factor := factor, locked := (lockEntry lock ((entry rt.points (Machine.setOf start)).at w2).locked rt.lockCount).1 })) (Machine.setOf start) = _ := entry_setEntry_same _ _ _
    intro e
    have he : e = _ := congrArg (fun x => PointSet.at x w2) this
    rw [PointSet.at_write_same] at he
    rw [he]; exact ⟨sm.2.1, rfl, sm.2.2, rfl⟩
  | none =>
    cases cw : chooseWay (entry rt.points (Machine.setOf start)) with
    | none => rw [putInsert_none fs cw] at h; cases h
    | some w2 =>
      rw [putInsert_fill fs cw] at h
      simp only [Option.some.injEq, Prod.mk.injEq] at h
      obtain ⟨rfl, rfl⟩ := h
      intro e
      have he : e = _ := congrArg (fun x => PointSet.at x w2) (entry_setEntry_same rt.points (Machine.setOf start) _)
      rw [fillWay_at_same] at he
      rw [he]; exact ⟨rfl, rfl, rfl, rfl⟩

end Sys2Proof.Machine
end

