-- ==== Sys2Proof/Laws/Slots.lean ====
section
/-! SUPPORT. What the slot operations can do: a move writes one record and keeps the queue in step (R114, R145, R146),
and a pass over the slots is the same change made at each slot that passes the test (R133). -/

namespace Sys2Proof.Machine

/-! ### One move -/

/-- R114: a move writes the state and the idle count of its own slot. -/
theorem moveSlot_slots (st : SlotState) (i : Fin 24) (ls : Loads) :
    (moveSlot st i ls).slots = setEntry ls.slots i { entry ls.slots i with state := st, idle := 0 } := by
  unfold moveSlot
  by_cases h : st = .waiting <;> by_cases k : (entry ls.slots i).state = .waiting <;>
    simp [h, k, joinQueue, leaveQueue, Loads.setSlot]

theorem moveSlot_entry (st : SlotState) (i j : Fin 24) (ls : Loads) :
    entry (moveSlot st i ls).slots j =
      if j = i then { entry ls.slots i with state := st, idle := 0 } else entry ls.slots j := by
  rw [moveSlot_slots, entry_setEntry]

/-- R146: a slot that leaves WAITING leaves the queue, and the entries behind it close up. -/
theorem moveSlot_queue_leave {st : SlotState} (h : st ≠ .waiting) (i : Fin 24) (ls : Loads) :
    (moveSlot st i ls).queue =
      if (entry ls.slots i).state = .waiting then ls.queue.filter (· ≠ i) else ls.queue := by
  unfold moveSlot
  by_cases k : (entry ls.slots i).state = .waiting <;> simp [h, k, leaveQueue, Loads.setSlot]

/-- R145: where the insertion rule puts a slot, given the queue it joins. -/
def insertBy (zero : Fin 24 → Bool) (i : Fin 24) (q : List (Fin 24)) : List (Fin 24) :=
  if zero i then q.rdropWhile (fun j => !zero j) ++ i :: q.rtakeWhile (fun j => !zero j) else q ++ [i]

theorem joinQueue_queue (i : Fin 24) (ls : Loads) :
    (joinQueue i ls).queue = insertBy (isLevelZero ls) i ls.queue := rfl

theorem moveSlot_queue_join (i : Fin 24) (ls : Loads) :
    (moveSlot .waiting i ls).queue = insertBy (isLevelZero ls) i
      (if (entry ls.slots i).state = .waiting then ls.queue.filter (· ≠ i) else ls.queue) := by
  have e : ∀ (ms : Loads) (sl : Slot), ms.slots = ls.slots → sl.level = (entry ls.slots i).level →
      isLevelZero (ms.setSlot i sl) = isLevelZero ls := by
    intro ms sl h k
    funext j
    simp only [isLevelZero, Loads.setSlot, h, entry_setEntry]
    by_cases e : j = i
    · subst e; simp [k]
    · simp [e]
  unfold moveSlot
  by_cases k : (entry ls.slots i).state = .waiting
  · simp only [k, if_true, joinQueue_queue]
    exact congrArg (insertBy · i _) (e (leaveQueue i ls) _ rfl rfl)
  · simp only [k, if_true, if_false, joinQueue_queue]
    exact congrArg (insertBy · i _) (e ls _ rfl rfl)

/-- A move changes the slots and the queue alone. -/
theorem moveSlot_rest (st : SlotState) (i : Fin 24) (ls : Loads) :
    moveSlot st i ls = { ls with slots := (moveSlot st i ls).slots, queue := (moveSlot st i ls).queue } := by
  unfold moveSlot
  by_cases h : st = .waiting <;> by_cases k : (entry ls.slots i).state = .waiting <;>
    simp [h, k, joinQueue, leaveQueue, Loads.setSlot]

/-! ### The insertion rule -/

theorem insertBy_perm (zero : Fin 24 → Bool) (i : Fin 24) (q : List (Fin 24)) : (insertBy zero i q).Perm (i :: q) := by
  unfold insertBy
  split
  · refine List.perm_middle.trans ?_
    rw [List.rdropWhile_append_rtakeWhile]
  · exact List.perm_append_singleton i q

theorem mem_insertBy (zero : Fin 24 → Bool) (i j : Fin 24) (q : List (Fin 24)) :
    j ∈ insertBy zero i q ↔ j = i ∨ j ∈ q := by
  rw [(insertBy_perm zero i q).mem_iff, List.mem_cons]

theorem insertBy_nodup {zero : Fin 24 → Bool} {i : Fin 24} {q : List (Fin 24)} (n : q.Nodup) (h : i ∉ q) :
    (insertBy zero i q).Nodup :=
  (insertBy_perm zero i q).nodup_iff.mpr (List.nodup_cons.mpr ⟨h, n⟩)

/-- R145: the insertion rule keeps every level-0 entry ahead of every other. -/
theorem insertBy_zeros_first {zero : Fin 24 → Bool} {i : Fin 24} {q : List (Fin 24)}
    (h : q.Pairwise fun a b => zero b = true → zero a = true) :
    (insertBy zero i q).Pairwise fun a b => zero b = true → zero a = true := by
  unfold insertBy
  split
  · rename_i z
    have back : ∀ b ∈ q.rtakeWhile (fun j => !zero j), zero b = false := fun b m => by
      simpa using List.mem_rtakeWhile_imp m
    have front : ∀ a ∈ q.rdropWhile (fun j => !zero j), zero a = true := by
      intro a ma
      have ne : q.rdropWhile (fun j => !zero j) ≠ [] := List.ne_nil_of_mem ma
      have last := List.rdropWhile_last_not (fun j => !zero j) q ne
      have lz : zero ((q.rdropWhile (fun j => !zero j)).getLast ne) = true := by simpa using last
      have pw : (q.rdropWhile (fun j => !zero j)).Pairwise fun a b => zero b = true → zero a = true :=
        h.sublist (List.rdropWhile_prefix _ _).sublist
      rcases List.eq_nil_or_concat' (q.rdropWhile (fun j => !zero j)) with e | ⟨l, b, e⟩
      · exact absurd e ne
      · simp only [e, List.getLast_append, List.getLast_singleton] at lz
        rw [e] at pw ma
        rcases List.mem_append.mp ma with m | m
        · exact (List.pairwise_append.mp pw).2.2 a m b (by simp) (by simpa using lz)
        · rw [List.mem_singleton.mp m]; simpa using lz
    refine List.pairwise_append.mpr ⟨h.sublist (List.rdropWhile_prefix _ _).sublist, ?_, fun a ma b _ _ => front a ma⟩
    refine List.pairwise_cons.mpr ⟨fun b mb zb => z, h.sublist (List.rtakeWhile_suffix _ _).sublist⟩
  · rename_i z
    refine List.pairwise_append.mpr ⟨h, List.pairwise_singleton _ _, fun a _ b mb zb => ?_⟩
    rw [List.mem_singleton.mp mb] at zb
    exact absurd zb z

/-! ### A pass over the slots -/

/-- A property that each change keeps holds after the pass. -/
theorem forSlots_keeps {P : Loads → Prop} {p : Slot → Bool} {f : Fin 24 → Loads → Loads}
    (step : ∀ i acc, P acc → p (entry acc.slots i) = true → P (f i acc)) {ls : Loads} (h : P ls) :
    P (forSlots p f ls) := by
  unfold forSlots
  generalize slotNumbers = l
  induction l generalizing ls with
  | nil => exact h
  | cons i l ih =>
    refine ih ?_
    dsimp only
    split
    · rename_i q
      exact step i ls h q
    · exact h

/-- R133: a pass whose change writes its own slot's record alone makes that change at each slot that passes. -/
theorem forSlots_entry {p : Slot → Bool} {f : Fin 24 → Loads → Loads} {g : Slot → Slot}
    (own : ∀ i acc j, entry (f i acc).slots j = if j = i then g (entry acc.slots i) else entry acc.slots j)
    (ls : Loads) (j : Fin 24) :
    entry (forSlots p f ls).slots j = if p (entry ls.slots j) then g (entry ls.slots j) else entry ls.slots j := by
  have key : ∀ (l : List (Fin 24)) (acc : Loads), l.Nodup →
      entry (l.foldl (fun acc i => if p (entry acc.slots i) then f i acc else acc) acc).slots j =
        if j ∈ l ∧ p (entry acc.slots j) = true then g (entry acc.slots j) else entry acc.slots j := by
    intro l
    induction l with
    | nil => intro acc _; simp
    | cons i l ih =>
      intro acc n
      obtain ⟨ni, n⟩ := List.nodup_cons.mp n
      rw [List.foldl_cons, ih _ n]
      by_cases q : p (entry acc.slots i) = true
      · simp only [q, if_true]
        by_cases e : j = i
        · subst e
          simp [own, ni, q]
        · simp [own, e]
      · simp only [q]
        by_cases e : j = i
        · subst e
          simp [ni, q]
        · simp [e]
  unfold forSlots
  rw [key _ _ slotNumbers_nodup]
  simp [mem_slotNumbers]

/-- R133: a shed writes the state and idle count of every RUNNING or WAITING slot that passes, and no other record. -/
theorem shedWhere_entry (p : Slot → Bool) (r : ShedReason) (ls : Loads) (j : Fin 24) :
    entry (shedWhere p r ls).slots j =
      if isActive (entry ls.slots j).state && p (entry ls.slots j)
      then { entry ls.slots j with state := .shed r, idle := 0 } else entry ls.slots j :=
  forSlots_entry (g := fun sl => { sl with state := .shed r, idle := 0 })
    (fun i acc j => moveSlot_entry (.shed r) i j acc) ls j

/-- R133, R146: the slots that a shed takes leave the queue, and the rest of it keeps its order. -/
theorem shedWhere_queue (p : Slot → Bool) (r : ShedReason) (ls : Loads) :
    (shedWhere p r ls).queue =
      ls.queue.filter (fun j => !(decide ((entry ls.slots j).state = .waiting) && p (entry ls.slots j))) := by
  have key : ∀ (l : List (Fin 24)) (acc : Loads), l.Nodup →
      (l.foldl (fun acc i => if isActive (entry acc.slots i).state && p (entry acc.slots i)
        then moveSlot (.shed r) i acc else acc) acc).queue =
        acc.queue.filter (fun j => !(decide (j ∈ l) && decide ((entry acc.slots j).state = .waiting) &&
          p (entry acc.slots j))) := by
    intro l
    induction l with
    | nil => intro acc _; simp
    | cons i l ih =>
      intro acc n
      obtain ⟨ni, n⟩ := List.nodup_cons.mp n
      rw [List.foldl_cons, ih _ n]
      by_cases q : (isActive (entry acc.slots i).state && p (entry acc.slots i)) = true
      · rw [if_pos q, moveSlot_queue_leave (by simp)]
        have pi : p (entry acc.slots i) = true := by
          simp only [Bool.and_eq_true] at q; exact q.2
        by_cases w : (entry acc.slots i).state = .waiting
        · rw [if_pos w, List.filter_filter]
          refine List.filter_congr fun j _ => ?_
          by_cases e : j = i
          · subst e; simp [w, pi]
          · simp [e, moveSlot_entry]
        · rw [if_neg w]
          refine List.filter_congr fun j _ => ?_
          by_cases e : j = i
          · subst e; simp [ni, w]
          · simp [e, moveSlot_entry]
      · rw [if_neg q]
        refine List.filter_congr fun j _ => ?_
        by_cases e : j = i
        · subst e
          by_cases w : (entry acc.slots j).state = .waiting
          · have : p (entry acc.slots j) = false := by
              by_contra c
              exact q (by simp [w, isActive, Bool.eq_true_of_not_eq_false c])
            simp [ni, w, this]
          · simp [ni, w]
        · simp [e]
  unfold shedWhere forSlots
  rw [key _ _ slotNumbers_nodup]
  refine List.filter_congr fun j _ => ?_
  simp [mem_slotNumbers]

/-- A restoration makes WAITING every slot shed for its reason that passes, and writes no other record (R136, R138,
R144). -/
theorem restoreWhere_entry (p : Slot → Bool) (r : ShedReason) (ls : Loads) (j : Fin 24) :
    entry (restoreWhere p r ls).slots j =
      if decide ((entry ls.slots j).state = .shed r) && p (entry ls.slots j)
      then { entry ls.slots j with state := .waiting, idle := 0 } else entry ls.slots j :=
  forSlots_entry (g := fun sl => { sl with state := .waiting, idle := 0 })
    (fun i acc j => moveSlot_entry .waiting i j acc) ls j

/-- A pass of moves changes the slots and the queue alone. -/
theorem forSlots_rest {p : Slot → Bool} {f : Fin 24 → Loads → Loads}
    (own : ∀ i acc, f i acc = { acc with slots := (f i acc).slots, queue := (f i acc).queue }) (ls : Loads) :
    forSlots p f ls = { ls with slots := (forSlots p f ls).slots, queue := (forSlots p f ls).queue } := by
  refine forSlots_keeps (P := fun acc => acc = { ls with slots := acc.slots, queue := acc.queue }) ?_ rfl
  intro i acc h _
  rw [own]
  rw [h]

/-! ### The queue's property -/

/-- R114, R145: a move that keeps "OFF exactly in mode OFF" keeps the whole property of the queue. -/
theorem moveSlot_queueInv {ls : Loads} (h : QueueInv ls) (st : SlotState) (i : Fin 24)
    (off : st = .off ↔ (entry ls.slots i).mode = .off) : QueueInv (moveSlot st i ls) := by
  obtain ⟨nd, mem, ord, modes⟩ := h
  have lv : ∀ j, (entry (moveSlot st i ls).slots j).level = (entry ls.slots j).level := fun j => by
    rw [moveSlot_entry]; split
    · rename_i e; subst e; rfl
    · rfl
  have q0 : (if (entry ls.slots i).state = .waiting then ls.queue.filter (· ≠ i) else ls.queue).Sublist ls.queue := by
    split
    · exact List.filter_sublist
    · exact List.Sublist.refl _
  have m0 : ∀ j, j ∈ (if (entry ls.slots i).state = .waiting then ls.queue.filter (· ≠ i) else ls.queue) ↔
      j ≠ i ∧ (entry ls.slots j).state = .waiting := by
    intro j
    split
    · rename_i w
      simp [mem, and_comm]
    · rename_i w
      rw [mem]
      constructor
      · exact fun k => ⟨fun e => w (e ▸ k), k⟩
      · exact fun k => k.2
  refine ⟨?_, fun j => ?_, ?_, fun j => ?_⟩
  · by_cases w : st = .waiting
    · subst w
      rw [moveSlot_queue_join]
      exact insertBy_nodup (q0.nodup nd) fun k => ((m0 i).mp k).1 rfl
    · rw [moveSlot_queue_leave w]
      exact q0.nodup nd
  · rw [moveSlot_entry]
    by_cases w : st = .waiting
    · subst w
      rw [moveSlot_queue_join, mem_insertBy, m0]
      by_cases e : j = i <;> simp [e]
    · rw [moveSlot_queue_leave w, m0]
      by_cases e : j = i <;> simp [e, w]
  · simp only [lv]
    have o : (if (entry ls.slots i).state = .waiting then ls.queue.filter (· ≠ i) else ls.queue).Pairwise
        fun a b => (entry ls.slots b).level = 0 → (entry ls.slots a).level = 0 := ord.sublist q0
    by_cases w : st = .waiting
    · subst w
      rw [moveSlot_queue_join]
      have := insertBy_zeros_first (zero := isLevelZero ls) (i := i)
        (o.imp fun {a b} k (z : isLevelZero ls b = true) => decide_eq_true (k (of_decide_eq_true z)))
      exact this.imp fun {a b} k z => of_decide_eq_true (k (decide_eq_true z))
    · rw [moveSlot_queue_leave w]
      exact o
  · rw [moveSlot_entry]
    by_cases e : j = i
    · subst e; simpa using off
    · simpa [e] using modes j

/-- A pass of moves to a state other than OFF, at slots that are not OFF, keeps the property of the queue. -/
theorem forSlots_moveSlot_queueInv {ls : Loads} (h : QueueInv ls) {p : Slot → Bool} {st : SlotState} (n : st ≠ .off)
    (q : ∀ sl : Slot, p sl = true → sl.state ≠ .off) : QueueInv (forSlots p (moveSlot st) ls) :=
  forSlots_keeps (P := QueueInv) (fun i _ k m =>
    moveSlot_queueInv k st i ⟨fun e => absurd e n, fun e => absurd ((k.2.2.2 i).mpr e) (q _ m)⟩) h

theorem shedWhere_queueInv {ls : Loads} (h : QueueInv ls) (p : Slot → Bool) (r : ShedReason) :
    QueueInv (shedWhere p r ls) :=
  forSlots_moveSlot_queueInv h (by simp) fun sl m e => by
    rw [e] at m; exact absurd m (by simp [isActive])

theorem restoreWhere_queueInv {ls : Loads} (h : QueueInv ls) (p : Slot → Bool) (r : ShedReason) :
    QueueInv (restoreWhere p r ls) :=
  forSlots_moveSlot_queueInv h (by simp) fun sl m e => by
    rw [e] at m; exact absurd m (by simp)

/-- A change of the records that moves no slot and writes no level or mode keeps the property of the queue. -/
theorem queueInv_of_same {ls ms : Loads} (h : QueueInv ls) (q : ms.queue = ls.queue)
    (same : ∀ i, (entry ms.slots i).state = (entry ls.slots i).state ∧ (entry ms.slots i).mode = (entry ls.slots i).mode ∧
      (entry ms.slots i).level = (entry ls.slots i).level) : QueueInv ms := by
  obtain ⟨nd, mem, ord, modes⟩ := h
  refine ⟨q ▸ nd, fun i => ?_, ?_, fun i => ?_⟩
  · rw [q, (same i).1]; exact mem i
  · rw [q]
    exact ord.imp fun {a b} k z => by rw [(same b).2.2] at z; rw [(same a).2.2]; exact k z
  · rw [(same i).1, (same i).2.1]; exact modes i

theorem restoreAll_entry (r : ShedReason) (ls : Loads) (j : Fin 24) :
    entry (restoreWhere (fun _ => true) r ls).slots j =
      if (entry ls.slots j).state = .shed r then { entry ls.slots j with state := .waiting, idle := 0 }
      else entry ls.slots j := by
  rw [restoreWhere_entry]
  by_cases h : (entry ls.slots j).state = .shed r <;> simp [h]

/-- A shed changes the slot records and the queue alone. -/
theorem shedWhere_rest (p : Slot → Bool) (r : ShedReason) (ls : Loads) :
    shedWhere p r ls = { ls with slots := (shedWhere p r ls).slots, queue := (shedWhere p r ls).queue } :=
  forSlots_rest (p := fun sl => isActive sl.state && p sl) (f := moveSlot (.shed r)) (fun _ _ => moveSlot_rest _ _ _) ls

/-- A restoration changes the slot records and the queue alone. -/
theorem restoreWhere_rest (p : Slot → Bool) (r : ShedReason) (ls : Loads) :
    restoreWhere p r ls = { ls with slots := (restoreWhere p r ls).slots, queue := (restoreWhere p r ls).queue } :=
  forSlots_rest (p := fun sl => decide (sl.state = .shed r) && p sl) (f := moveSlot .waiting)
    (fun _ _ => moveSlot_rest _ _ _) ls

end Sys2Proof.Machine
end

