-- ==== Sys2Proof/Laws/Queue.lean ====
section
/-! SUPPORT. The start queue after the insertion rule (R145), and after a pass that makes slots WAITING in ascending
order (R121, R136, R138, R144). -/

namespace Sys2Proof.Machine

theorem filter_zero_insertBy (zero : Fin 24 → Bool) (i : Fin 24) (q : List (Fin 24)) :
    (insertBy zero i q).filter zero = q.filter zero ++ (if zero i then [i] else []) := by
  unfold insertBy
  by_cases z : zero i = true
  · simp only [z, if_true]
    have back : (q.rtakeWhile (fun j => !zero j)).filter zero = [] :=
      List.filter_eq_nil_iff.mpr fun b m => by simpa using List.mem_rtakeWhile_imp m
    have whole : q.filter zero = (q.rdropWhile (fun j => !zero j)).filter zero := by
      have e := congrArg (List.filter zero) (List.rdropWhile_append_rtakeWhile (p := fun j => !zero j) (l := q))
      rw [← e, List.filter_append, back, List.append_nil]
    rw [List.filter_append, List.filter_cons, z, whole, back]
    rfl
  · simp [z]

theorem filter_other_insertBy (zero : Fin 24 → Bool) (i : Fin 24) (q : List (Fin 24)) :
    (insertBy zero i q).filter (fun j => !zero j) = q.filter (fun j => !zero j) ++ (if zero i then [] else [i]) := by
  unfold insertBy
  by_cases z : zero i = true
  · simp only [z, if_true, List.append_nil]
    have whole : q.filter (fun j => !zero j) = (q.rdropWhile (fun j => !zero j)).filter (fun j => !zero j) ++
        (q.rtakeWhile (fun j => !zero j)).filter (fun j => !zero j) := by
      rw [← List.filter_append, List.rdropWhile_append_rtakeWhile]
    simp [List.filter_append, z, whole]
  · simp [z]

theorem filter_ne_insertBy (zero : Fin 24 → Bool) (i : Fin 24) (q : List (Fin 24)) :
    (insertBy zero i q).filter (· ≠ i) = q.filter (· ≠ i) := by
  have whole : q.filter (· ≠ i) = (q.rdropWhile (fun j => !zero j)).filter (· ≠ i) ++
      (q.rtakeWhile (fun j => !zero j)).filter (· ≠ i) := by
    rw [← List.filter_append, List.rdropWhile_append_rtakeWhile]
  unfold insertBy
  split
  · rw [List.filter_append, List.filter_cons, if_neg (by simp), whole]
  · rw [List.filter_append, List.filter_cons, if_neg (by simp)]
    simp

/-- R145: a queue that keeps every level-0 entry ahead of every other is its level-0 entries and then the others. -/
theorem queue_split {zero : Fin 24 → Bool} {q : List (Fin 24)}
    (h : q.Pairwise fun a b => zero b = true → zero a = true) :
    q = q.filter zero ++ q.filter (fun j => !zero j) := by
  induction q with
  | nil => rfl
  | cons a q ih =>
    obtain ⟨first, rest⟩ := List.pairwise_cons.mp h
    by_cases z : zero a = true
    · simp only [List.filter_cons, z, if_true, Bool.not_true]
      exact congrArg (a :: ·) (ih rest)
    · have none : q.filter zero = [] := List.filter_eq_nil_iff.mpr fun b m zb => z (first b m zb)
      have all : q.filter (fun j => !zero j) = q := List.filter_eq_self.mpr fun b m => by
        cases zb : zero b
        · rfl
        · exact absurd (first b m zb) z
      simp [z, none, all]

/-- R145: the insertion rule on a queue in order. -/
theorem insertBy_eq {zero : Fin 24 → Bool} {i : Fin 24} {q : List (Fin 24)}
    (h : q.Pairwise fun a b => zero b = true → zero a = true) :
    insertBy zero i q = if zero i then q.filter zero ++ i :: q.filter (fun j => !zero j) else q ++ [i] := by
  rw [queue_split (insertBy_zeros_first (i := i) h), filter_zero_insertBy, filter_other_insertBy]
  by_cases z : zero i = true
  · simp [z]
  · have e := queue_split h
    simp only [z, Bool.false_eq_true, if_false, List.append_nil]
    rw [← List.append_assoc, ← e]

/-- A pass that makes WAITING the slots that pass a test, in ascending order. -/
def wakeSlots (p : Fin 24 → Slot → Bool) (ls : Loads) : Loads :=
  slotNumbers.foldl (fun acc i => if p i (entry acc.slots i) then moveSlot .waiting i acc else acc) ls

theorem restoreWhere_eq_wakeSlots (p : Slot → Bool) (r : ShedReason) (ls : Loads) :
    restoreWhere p r ls = wakeSlots (fun _ sl => decide (sl.state = .shed r) && p sl) ls := rfl

/-- What the pass makes of a slot, of the queue, and of nothing else. -/
theorem wakeSlots_key (p : Fin 24 → Slot → Bool) (zero : Fin 24 → Bool) (l : List (Fin 24)) :
    ∀ acc : Loads, l.Nodup → isLevelZero acc = zero →
      (∀ i ∈ l, p i (entry acc.slots i) = true → (entry acc.slots i).state ≠ .waiting) →
      let fin := l.foldl (fun acc i => if p i (entry acc.slots i) then moveSlot .waiting i acc else acc) acc
      let woken := l.filter fun i => p i (entry acc.slots i)
      (∀ j, entry fin.slots j = if j ∈ l ∧ p j (entry acc.slots j) = true
        then { entry acc.slots j with state := .waiting, idle := 0 } else entry acc.slots j) ∧
      fin.queue.filter zero = acc.queue.filter zero ++ woken.filter zero ∧
      fin.queue.filter (fun j => !zero j) = acc.queue.filter (fun j => !zero j) ++ woken.filter (fun j => !zero j) ∧
      ((acc.queue.Pairwise fun a b => zero b = true → zero a = true) →
        fin.queue.Pairwise fun a b => zero b = true → zero a = true) ∧
      fin = { acc with slots := fin.slots, queue := fin.queue } := by
  induction l with
  | nil => intro acc _ _ _; simp
  | cons i l ih =>
    intro acc nd lv nw
    obtain ⟨ni, nd⟩ := List.nodup_cons.mp nd
    dsimp only
    rw [List.foldl_cons]
    by_cases h : p i (entry acc.slots i) = true
    · have own : ∀ j, entry (moveSlot .waiting i acc).slots j =
          if j = i then { entry acc.slots i with state := .waiting, idle := 0 } else entry acc.slots j :=
        fun j => moveSlot_entry .waiting i j acc
      have same : ∀ j ∈ l, entry (moveSlot .waiting i acc).slots j = entry acc.slots j := fun j m =>
        (own j).trans (if_neg fun e : j = i => ni (e ▸ m))
      have lv' : isLevelZero (moveSlot .waiting i acc) = zero := by
        rw [← lv]; funext j; unfold isLevelZero
        by_cases e : j = i
        · subst e; rw [(own j).trans (if_pos rfl)]
        · rw [(own j).trans (if_neg e)]
      have q : (moveSlot .waiting i acc).queue = insertBy zero i acc.queue := by
        rw [moveSlot_queue_join, if_neg (nw i (by simp) h), lv]
      have wk : l.filter (fun j => p j (entry (moveSlot .waiting i acc).slots j)) =
          l.filter fun j => p j (entry acc.slots j) := List.filter_congr fun j m => by rw [same j m]
      obtain ⟨e1, e2, e3, e4, e5⟩ := ih (moveSlot .waiting i acc) nd lv' fun j m pj => by
        rw [same j m] at pj ⊢; exact nw j (by simp [m]) pj
      simp only [h, if_true]
      refine ⟨fun j => ?_, ?_, ?_, fun ord => e4 ?_, ?_⟩
      · rw [e1 j]
        by_cases e : j = i
        · subst e
          exact (if_neg fun c => ni c.1).trans
            (((own j).trans (if_pos rfl)).trans (if_pos (show j ∈ j :: l ∧ _ from ⟨by simp, h⟩)).symm)
        · rw [(own j).trans (if_neg e)]
          simp [e]
      · rw [e2, wk, q, filter_zero_insertBy, List.filter_cons, if_pos h, List.filter_cons]
        by_cases z : zero i = true <;> simp [z]
      · rw [e3, wk, q, filter_other_insertBy, List.filter_cons, if_pos h, List.filter_cons]
        by_cases z : zero i = true <;> simp [z]
      · rw [q]; exact insertBy_zeros_first ord
      · refine e5.trans ?_
        rw [moveSlot_rest .waiting i acc]
    · obtain ⟨e1, e2, e3, e4, e5⟩ := ih acc nd lv fun j m pj => nw j (by simp [m]) pj
      have h' : p i (entry acc.slots i) = false := by simpa using h
      simp only [h', Bool.false_eq_true, if_false]
      refine ⟨fun j => ?_, ?_, ?_, e4, e5⟩
      · rw [e1 j]
        by_cases e : j = i
        · subst e; simp [ni, h']
        · simp [e]
      · rw [e2, List.filter_cons, if_neg h]
      · rw [e3, List.filter_cons, if_neg h]

theorem wakeSlots_entry (p : Fin 24 → Slot → Bool) (ls : Loads)
    (nw : ∀ i, p i (entry ls.slots i) = true → (entry ls.slots i).state ≠ .waiting) (j : Fin 24) :
    entry (wakeSlots p ls).slots j = if p j (entry ls.slots j) = true
      then { entry ls.slots j with state := .waiting, idle := 0 } else entry ls.slots j := by
  refine ((wakeSlots_key p _ slotNumbers ls slotNumbers_nodup rfl fun i _ => nw i).1 j).trans ?_
  simp [mem_slotNumbers]

/-- R145: the woken slots join in ascending order, those of level 0 behind the level-0 entries, the others at the
tail. -/
theorem wakeSlots_queue (p : Fin 24 → Slot → Bool) (ls : Loads)
    (nw : ∀ i, p i (entry ls.slots i) = true → (entry ls.slots i).state ≠ .waiting)
    (ord : ls.queue.Pairwise fun a b => isLevelZero ls b = true → isLevelZero ls a = true) :
    (wakeSlots p ls).queue =
      ls.queue.filter (isLevelZero ls) ++ (slotNumbers.filter fun i => p i (entry ls.slots i)).filter (isLevelZero ls) ++
        ls.queue.filter (fun j => !isLevelZero ls j) ++
        (slotNumbers.filter fun i => p i (entry ls.slots i)).filter (fun j => !isLevelZero ls j) := by
  obtain ⟨_, a, b, c, _⟩ := wakeSlots_key p _ slotNumbers ls slotNumbers_nodup rfl fun i _ => nw i
  rw [show (wakeSlots p ls).queue = _ from queue_split (c ord), List.append_assoc]
  exact (congrArg₂ (· ++ ·) a b).trans (by simp)

theorem wakeSlots_rest (p : Fin 24 → Slot → Bool) (ls : Loads)
    (nw : ∀ i, p i (entry ls.slots i) = true → (entry ls.slots i).state ≠ .waiting) :
    wakeSlots p ls = { ls with slots := (wakeSlots p ls).slots, queue := (wakeSlots p ls).queue } :=
  (wakeSlots_key p _ slotNumbers ls slotNumbers_nodup rfl fun i _ => nw i).2.2.2.2

/-- R145: the order of the queue as a property of the slot records. -/
theorem QueueInv.ordered {ls : Loads} (h : QueueInv ls) :
    ls.queue.Pairwise fun a b => isLevelZero ls b = true → isLevelZero ls a = true :=
  h.2.2.1.imp fun k z => by
    unfold isLevelZero at *
    simpa using k (by simpa using z)

end Sys2Proof.Machine
end

