-- ==== Sys2Proof/Laws/Passes.lean ====
section
/-! SUPPORT. A pass over the slots in ascending order in which each slot's turn may park, wake or leave it be (R133): the
records and the start queue that it leaves. -/

namespace Sys2Proof.Machine

/-- What one slot's turn in a pass does, wherever the pass keeps `J`: its own record becomes `own`, its level stays, and the
slot joins the queue, leaves it, or neither. -/
structure Turn (J : Loads → Prop) (p : Slot → Bool) (own : Fin 24 → Slot → Slot) (joins leaves : Fin 24 → Slot → Bool)
    (f : Fin 24 → Loads → Loads) : Prop where
  keeps : ∀ i acc, J acc → J (f i acc)
  record : ∀ i acc j, J acc → p (entry acc.slots i) = true →
    entry (f i acc).slots j = if j = i then own i (entry acc.slots i) else entry acc.slots j
  level : ∀ i sl, (own i sl).level = sl.level
  queue : ∀ i acc, J acc → p (entry acc.slots i) = true → (f i acc).queue =
    if joins i (entry acc.slots i) then insertBy (isLevelZero acc) i acc.queue
    else if leaves i (entry acc.slots i) then acc.queue.filter (· ≠ i) else acc.queue
  apart : ∀ i sl, p sl = true → joins i sl = true → leaves i sl = false

/-- R133, R145: the queue after a pass over the slots in ascending order: those that leave are gone, those that join stand
in slot order, level 0 ahead. -/
theorem pass_key {J : Loads → Prop} {p : Slot → Bool} {own : Fin 24 → Slot → Slot}
    {joins leaves : Fin 24 → Slot → Bool} {f : Fin 24 → Loads → Loads} (t : Turn J p own joins leaves f)
    (zero : Fin 24 → Bool) (l : List (Fin 24)) :
    ∀ acc : Loads, J acc → l.Nodup → isLevelZero acc = zero →
      let fin := l.foldl (fun acc i => if p (entry acc.slots i) then f i acc else acc) acc
      let stays := fun j => !(decide (j ∈ l) && p (entry acc.slots j) && leaves j (entry acc.slots j))
      let woken := l.filter fun i => p (entry acc.slots i) && joins i (entry acc.slots i)
      fin.queue.filter zero = (acc.queue.filter stays).filter zero ++ woken.filter zero ∧
      fin.queue.filter (fun j => !zero j) =
        (acc.queue.filter stays).filter (fun j => !zero j) ++ woken.filter (fun j => !zero j) ∧
      ((acc.queue.Pairwise fun a b => zero b = true → zero a = true) →
        fin.queue.Pairwise fun a b => zero b = true → zero a = true) ∧
      isLevelZero fin = zero := by
  induction l with
  | nil => intro acc _ _ lv; simp [lv]
  | cons i l ih =>
    intro acc ja nd lv
    obtain ⟨ni, nd⟩ := List.nodup_cons.mp nd
    dsimp only
    rw [List.foldl_cons]
    have eq_of : ∀ j ∈ l, j ≠ i := fun j m e => ni (e ▸ m)
    by_cases h : p (entry acc.slots i) = true
    · have same : ∀ j, j ≠ i → entry (f i acc).slots j = entry acc.slots j := fun j m => (t.record i acc j ja h).trans (if_neg m)
      have lv' : isLevelZero (f i acc) = zero := by
        rw [← lv]; funext j; unfold isLevelZero
        rw [t.record i acc j ja h]
        split
        · rename_i e; subst e; rw [t.level]
        · rfl
      obtain ⟨e1, e2, e3, e4⟩ := ih (f i acc) (t.keeps i acc ja) nd lv'
      simp only [h, if_true]
      have wk : (l.filter fun j => p (entry (f i acc).slots j) && joins j (entry (f i acc).slots j)) =
          l.filter fun j => p (entry acc.slots j) && joins j (entry acc.slots j) :=
        List.filter_congr fun j m => by rw [same j (eq_of j m)]
      have st : (fun j => !(decide (j ∈ l) && p (entry (f i acc).slots j) && leaves j (entry (f i acc).slots j))) =
          fun j => !(decide (j ∈ l) && p (entry acc.slots j) && leaves j (entry acc.slots j)) := by
        funext j
        by_cases m : j ∈ l
        · rw [same j (eq_of j m)]
        · simp [m]
      rw [wk, st] at e1 e2
      have q := t.queue i acc ja h
      rw [lv] at q
      by_cases jn : joins i (entry acc.slots i) = true
      · have lf := t.apart i _ h jn
        rw [jn, if_pos rfl] at q
        have st' : ∀ j, (!(decide (j ∈ i :: l) && p (entry acc.slots j) && leaves j (entry acc.slots j))) =
            !(decide (j ∈ l) && p (entry acc.slots j) && leaves j (entry acc.slots j)) := by
          intro j
          by_cases e : j = i
          · subst e; simp [lf]
          · simp [e]
        have si : (!(decide (i ∈ l) && p (entry acc.slots i) && leaves i (entry acc.slots i))) = true := by simp [lf]
        simp only [st']
        refine ⟨e1.trans ?_, e2.trans ?_, fun o => e3 (by rw [q]; exact insertBy_zeros_first o), e4⟩
        · rw [q, List.filter_comm, filter_zero_insertBy, List.filter_append, List.filter_comm, List.filter_cons]
          simp only [h, jn, Bool.and_self, if_true]
          by_cases z : zero i = true <;> simp [z, List.filter_cons, lf]
        · rw [q, List.filter_comm, filter_other_insertBy, List.filter_append, List.filter_comm, List.filter_cons]
          simp only [h, jn, Bool.and_self, if_true]
          by_cases z : zero i = true <;> simp [z, List.filter_cons, lf]
      · have jn' : joins i (entry acc.slots i) = false := by simpa using jn
        rw [if_neg jn] at q
        have w : ((i :: l).filter fun j => p (entry acc.slots j) && joins j (entry acc.slots j)) =
            l.filter fun j => p (entry acc.slots j) && joins j (entry acc.slots j) := by
          rw [List.filter_cons, if_neg (by simp [jn'])]
        rw [w]
        have qs : (f i acc).queue.filter (fun j => !(decide (j ∈ l) && p (entry acc.slots j) && leaves j (entry acc.slots j))) =
            acc.queue.filter (fun j => !(decide (j ∈ i :: l) && p (entry acc.slots j) && leaves j (entry acc.slots j))) := by
          rw [q]
          by_cases lf : leaves i (entry acc.slots i) = true
          · rw [if_pos lf, List.filter_filter]
            refine List.filter_congr fun j _ => ?_
            by_cases e : j = i
            · subst e; simp [ni, h, lf]
            · simp [e]
          · rw [if_neg lf]
            refine List.filter_congr fun j _ => ?_
            by_cases e : j = i
            · subst e; simp [ni, lf]
            · simp [e]
        refine ⟨by rw [e1, qs], by rw [e2, qs], fun o => e3 ?_, e4⟩
        rw [q]
        split
        · exact o.sublist List.filter_sublist
        · exact o
    · obtain ⟨e1, e2, e3, e4⟩ := ih acc ja nd lv
      have h' : p (entry acc.slots i) = false := by simpa using h
      simp only [h', Bool.false_eq_true, if_false]
      have w : ((i :: l).filter fun j => p (entry acc.slots j) && joins j (entry acc.slots j)) =
          l.filter fun j => p (entry acc.slots j) && joins j (entry acc.slots j) := by
        rw [List.filter_cons, if_neg (by simp [h'])]
      have st' : ∀ j, (!(decide (j ∈ i :: l) && p (entry acc.slots j) && leaves j (entry acc.slots j))) =
          !(decide (j ∈ l) && p (entry acc.slots j) && leaves j (entry acc.slots j)) := by
        intro j
        by_cases e : j = i
        · subst e; simp [h']
        · simp [e]
      rw [w]
      simp only [st']
      exact ⟨e1, e2, e3, e4⟩

/-- The queue after a whole pass. -/
theorem forSlots_queue {J : Loads → Prop} {p : Slot → Bool} {own : Fin 24 → Slot → Slot}
    {joins leaves : Fin 24 → Slot → Bool} {f : Fin 24 → Loads → Loads} (t : Turn J p own joins leaves f) (ls : Loads) (j0 : J ls)
    (ord : ls.queue.Pairwise fun a b => isLevelZero ls b = true → isLevelZero ls a = true) :
    let kept := ls.queue.filter fun j => !(p (entry ls.slots j) && leaves j (entry ls.slots j))
    let woken := slotNumbers.filter fun i => p (entry ls.slots i) && joins i (entry ls.slots i)
    (forSlots p f ls).queue = kept.filter (isLevelZero ls) ++ woken.filter (isLevelZero ls) ++
      kept.filter (fun j => !isLevelZero ls j) ++ woken.filter (fun j => !isLevelZero ls j) ∧
    isLevelZero (forSlots p f ls) = isLevelZero ls ∧
    (forSlots p f ls).queue.Pairwise fun a b => isLevelZero ls b = true → isLevelZero ls a = true := by
  obtain ⟨a, b, c, d⟩ := pass_key (p := p) t _ slotNumbers ls j0 slotNumbers_nodup rfl
  simp only [mem_slotNumbers, decide_true, Bool.true_and] at a b
  refine ⟨?_, d, c ord⟩
  rw [show (forSlots p f ls).queue = _ from queue_split (c ord), List.append_assoc]
  exact (congrArg₂ (· ++ ·) a b).trans (by simp)

/-- A move is a turn, for slots that are not where it takes them. -/
theorem moveSlot_turn {p : Slot → Bool} {st : SlotState} (h : ∀ sl, p sl = true → sl.state = .waiting → st ≠ .waiting) :
    Turn (fun _ => True) p (fun _ sl => { sl with state := st, idle := 0 }) (fun _ _ => decide (st = .waiting))
      (fun _ sl => decide (st ≠ .waiting ∧ sl.state = .waiting)) (moveSlot st) where
  keeps _ _ _ := trivial
  record i acc j _ _ := moveSlot_entry st i j acc
  level _ _ := rfl
  queue i acc _ q := by
    by_cases w : st = .waiting
    · subst w
      rw [moveSlot_queue_join, if_neg fun c => h _ q c rfl]
      simp
    · rw [moveSlot_queue_leave w]
      simp [w]
  apart i sl _ k := by
    simp only [decide_eq_true_eq] at k
    simp [k]

/-- The records after a pass. -/
theorem forSlots_record {J : Loads → Prop} {p : Slot → Bool} {own : Fin 24 → Slot → Slot}
    {joins leaves : Fin 24 → Slot → Bool} {f : Fin 24 → Loads → Loads} (t : Turn J p own joins leaves f) (ls : Loads) (j0 : J ls)
    (j : Fin 24) :
    entry (forSlots p f ls).slots j = if p (entry ls.slots j) then own j (entry ls.slots j) else entry ls.slots j := by
  have key : ∀ (l : List (Fin 24)) (acc : Loads), J acc → l.Nodup →
      entry (l.foldl (fun acc i => if p (entry acc.slots i) then f i acc else acc) acc).slots j =
        if j ∈ l ∧ p (entry acc.slots j) = true then own j (entry acc.slots j) else entry acc.slots j := by
    intro l
    induction l with
    | nil => intro acc _ _; simp
    | cons i l ih =>
      intro acc ja n
      obtain ⟨ni, n⟩ := List.nodup_cons.mp n
      rw [List.foldl_cons]
      by_cases q : p (entry acc.slots i) = true
      · rw [if_pos q, ih _ (t.keeps i acc ja) n, t.record i acc j ja q]
        by_cases e : j = i
        · subst e; simp [ni, q]
        · simp [e]
      · rw [if_neg q, ih _ ja n]
        by_cases e : j = i
        · subst e; simp [ni, q]
        · simp [e]
  unfold forSlots
  rw [key _ _ j0 slotNumbers_nodup]
  simp [mem_slotNumbers]

end Sys2Proof.Machine
end

