-- ==== Sys2Proof/Laws/Modes.lean ====
section
/-! SUPPORT. The mode work of a set (R122 to R125) as one pass over the slots: what a slot's turn does to its record, the start
queue and the park entry count. -/

namespace Sys2Proof.Machine

/-! ### A pass whose turns are of two kinds -/

/-- Two turns that keep one property make one, each on the slots of its own kind. -/
theorem Turn.choose {J : Loads → Prop} {p q r c : Slot → Bool} {own own' : Fin 24 → Slot → Slot}
    {joins joins' leaves leaves' : Fin 24 → Slot → Bool} {f g h : Fin 24 → Loads → Loads}
    (t : Turn J p own joins leaves f) (u : Turn J q own' joins' leaves' g)
    (hr : ∀ sl, r sl = true → if c sl then p sl = true else q sl = true)
    (hh : ∀ i acc, h i acc = if c (entry acc.slots i) then f i acc else g i acc) :
    Turn J r (fun i sl => if c sl then own i sl else own' i sl) (fun i sl => if c sl then joins i sl else joins' i sl)
      (fun i sl => if c sl then leaves i sl else leaves' i sl) h where
  keeps i acc k := by rw [hh]; split; exacts [t.keeps i acc k, u.keeps i acc k]
  record i acc j k m := by
    have := hr _ m
    rw [hh]; by_cases e : c (entry acc.slots i) = true
    · rw [if_pos e] at this ⊢; simp only [e, if_true]; exact t.record i acc j k this
    · rw [if_neg e] at this ⊢; simp only [e]; exact u.record i acc j k this
  level i sl := by split; exacts [t.level i sl, u.level i sl]
  queue i acc k m := by
    have := hr _ m
    rw [hh]; by_cases e : c (entry acc.slots i) = true
    · rw [if_pos e] at this ⊢; simp only [e, if_true]; exact t.queue i acc k this
    · rw [if_neg e] at this ⊢; simp only [e]; exact u.queue i acc k this
  apart i sl m := by
    have := hr _ m
    by_cases e : c sl = true
    · rw [if_pos e] at this; simp only [e, if_true]; exact t.apart i sl this
    · rw [if_neg e] at this; simp only [e]; exact u.apart i sl this

/-- R125: the park entry count after a pass whose turns add 1 to it at the slots of `idl`, saturating. -/
theorem forSlots_parkEntries {J : Loads → Prop} {p : Slot → Bool} {own : Fin 24 → Slot → Slot}
    {joins leaves idl : Fin 24 → Slot → Bool} {f : Fin 24 → Loads → Loads} (t : Turn J p own joins leaves f)
    (hp : ∀ i acc, J acc → p (entry acc.slots i) = true → (f i acc).parkEntries =
      if idl i (entry acc.slots i) then min (acc.parkEntries + 1) 65535 else acc.parkEntries)
    (ls : Loads) (j : J ls) :
    (forSlots p f ls).parkEntries =
      (let k := slotNumbers.countP fun i => p (entry ls.slots i) && idl i (entry ls.slots i)
       if k = 0 then ls.parkEntries else min (ls.parkEntries + k) 65535) := by
  unfold forSlots
  have key : ∀ (l : List (Fin 24)) (acc : Loads), J acc → l.Nodup →
      (l.foldl (fun acc i => if p (entry acc.slots i) then f i acc else acc) acc).parkEntries =
      (let k := l.countP fun i => p (entry acc.slots i) && idl i (entry acc.slots i)
       if k = 0 then acc.parkEntries else min (acc.parkEntries + k) 65535) := by
    intro l
    induction l with
    | nil => intro acc _ _; simp
    | cons i l ih =>
      intro acc ja nd
      obtain ⟨ni, nd⟩ := List.nodup_cons.mp nd
      rw [List.foldl_cons]
      by_cases q : p (entry acc.slots i) = true
      · rw [if_pos q, ih _ (t.keeps i acc ja) nd]
        have cp : (l.countP fun k => p (entry (f i acc).slots k) && idl k (entry (f i acc).slots k)) =
            l.countP fun k => p (entry acc.slots k) && idl k (entry acc.slots k) :=
          List.countP_congr fun k mk => by
            have ne : k ≠ i := fun e => ni (e ▸ mk)
            rw [t.record i acc k ja q]; simp only [if_neg ne]
        dsimp only
        rw [cp, hp i acc ja q, List.countP_cons]
        generalize (l.countP fun k => p (entry acc.slots k) && idl k (entry acc.slots k)) = k
        rw [q]
        cases idl i (entry acc.slots i)
        · simp
        · simp only [if_true, Bool.and_true, Nat.add_eq_zero_iff, one_ne_zero, and_false, if_false]
          by_cases k0 : k = 0
          · rw [if_pos k0, k0]
          · rw [if_neg k0]; omega
      · rw [if_neg q, ih _ ja nd]
        dsimp only
        rw [List.countP_cons]; simp [q]
  exact key _ _ j slotNumbers_nodup

/-! ### One slot's work -/

/-- R124: the record of a cycle slot that its phase moves. -/
def phaseRecord (sl : Slot) : Slot :=
  if sl.state = .parked then { sl with state := .waiting, idle := 0 } else { sl with state := .parked, idle := 0 }

/-- R125: does the idle limit park the slot, its demand bit given? -/
def idlesOut (limit : Nat) (asked : Bool) (sl : Slot) : Bool :=
  isActive sl.state && !asked && decide (limit ≤ min (sl.idle + 1) 65535)

/-- R125: the record of an ON_DEMAND slot after its work, its demand bit given. -/
def demandRecord (limit : Nat) (asked : Bool) (sl : Slot) : Slot :=
  if sl.state = .parked then if asked then { sl with state := .waiting, idle := 0 } else sl
  else if isActive sl.state then
    if asked then { sl with idle := 0 }
    else if limit ≤ min (sl.idle + 1) 65535 then { sl with state := .parked, idle := 0 }
    else { sl with idle := min (sl.idle + 1) 65535 }
  else sl

theorem followPhase_turn (a b : Bool) (d : BitVec 24) : Turn (fun acc => acc.demand = d) (phaseMoves a b)
    (fun _ => phaseRecord) (fun _ sl => decide (sl.state = .parked)) (fun _ sl => decide (sl.state = .waiting))
    followPhase where
  keeps i acc h := by
    unfold followPhase
    split <;> (rw [moveSlot_rest]; exact h)
  record i acc j _ _ := by
    unfold followPhase phaseRecord
    split <;> exact moveSlot_entry _ i j acc
  level _ sl := by
    unfold phaseRecord
    split <;> rfl
  queue i acc _ _ := by
    unfold followPhase
    by_cases h : (entry acc.slots i).state = .parked
    · rw [if_pos h, moveSlot_queue_join, if_neg (by rw [h]; decide), if_pos (decide_eq_true h)]
    · rw [if_neg h, moveSlot_queue_leave (by decide)]
      by_cases w : (entry acc.slots i).state = .waiting <;> simp [w, h]
  apart i sl _ k := by
    simp only [decide_eq_true_eq] at k
    simp [k]

theorem demandSlot_turn (limit : Nat) (d : BitVec 24) :
    Turn (fun acc => acc.demand = d) (fun sl => decide (sl.mode = .onDemand))
      (fun i => demandRecord limit (d.getLsbD i.val)) (fun i sl => decide (sl.state = .parked) && d.getLsbD i.val)
      (fun i sl => decide (sl.state = .waiting) && idlesOut limit (d.getLsbD i.val) sl) (demandSlot limit) where
  keeps i acc h := by
    have moved : ∀ st, (moveSlot st i acc).demand = acc.demand := fun st => by rw [moveSlot_rest]
    unfold demandSlot
    dsimp only
    split_ifs <;> first | exact h | exact (moved _).trans h
  record i acc j hd _ := by
    have same : entry acc.slots j = if j = i then entry acc.slots i else entry acc.slots j := by
      split
      · rename_i e; rw [e]
      · rfl
    unfold demandSlot demandRecord satAdd
    dsimp only
    rw [hd]
    by_cases p : (entry acc.slots i).state = .parked
    · rw [if_pos p, if_pos p]
      by_cases c : d.getLsbD i.val = true
      · rw [if_pos c, if_pos c]
        exact moveSlot_entry _ i j acc
      · rw [if_neg c, if_neg c]
        exact same
    rw [if_neg p, if_neg p]
    by_cases a : isActive (entry acc.slots i).state = true
    · rw [if_pos a, if_pos a]
      by_cases c : d.getLsbD i.val = true
      · rw [if_pos c, if_pos c]
        exact entry_setEntry _ _ _ _
      rw [if_neg c, if_neg c]
      by_cases l : limit ≤ min ((entry acc.slots i).idle + 1) 65535
      · rw [if_pos l, if_pos l]
        exact moveSlot_entry _ i j acc
      · rw [if_neg l, if_neg l]
        exact entry_setEntry _ _ _ _
    · rw [if_neg a, if_neg a]
      exact same
  level i sl := by
    unfold demandRecord
    split_ifs <;> rfl
  queue i acc hd _ := by
    have active : (entry acc.slots i).state = .waiting → isActive (entry acc.slots i).state = true := fun e => by rw [e]; rfl
    unfold demandSlot idlesOut satAdd
    dsimp only
    rw [hd]
    by_cases p : (entry acc.slots i).state = .parked
    · rw [if_pos p]
      by_cases c : d.getLsbD i.val = true
      · rw [if_pos c, moveSlot_queue_join, if_neg (by rw [p]; decide), if_pos (by rw [c, decide_eq_true p]; rfl)]
      · rw [if_neg c, if_neg (by rw [eq_false_of_ne_true c]; simp), if_neg (by rw [p]; simp)]
    rw [if_neg p]
    simp only [decide_eq_false p, Bool.false_and, Bool.false_eq_true, if_false]
    by_cases a : isActive (entry acc.slots i).state = true
    · rw [if_pos a, a]
      by_cases c : d.getLsbD i.val = true
      · rw [if_pos c, c]
        simp
        rfl
      rw [if_neg c, eq_false_of_ne_true c]
      by_cases l : limit ≤ min ((entry acc.slots i).idle + 1) 65535
      · rw [if_pos l, decide_eq_true l]
        refine (moveSlot_queue_leave (by decide) i acc).trans ?_
        simp
      · rw [if_neg l, decide_eq_false l]
        simp
        rfl
    · rw [if_neg a, if_neg fun e => a (active (by simpa using (Bool.and_eq_true _ _ |>.mp e).1))]
  apart i sl _ k := by
    simp only [Bool.and_eq_true, decide_eq_true_eq] at k
    simp [k.1]

/-- R124, R125: one slot's turn in the mode work of a set. -/
theorem modeSlot_turn (a b : Bool) (limit : Nat) (d : BitVec 24) : Turn (fun acc => acc.demand = d) (modeTakes a b)
    (fun i sl => if decide (sl.mode = .onDemand) then demandRecord limit (d.getLsbD i.val) sl else phaseRecord sl)
    (fun i sl => if decide (sl.mode = .onDemand) then decide (sl.state = .parked) && d.getLsbD i.val
      else decide (sl.state = .parked))
    (fun i sl => if decide (sl.mode = .onDemand) then decide (sl.state = .waiting) && idlesOut limit (d.getLsbD i.val) sl
      else decide (sl.state = .waiting))
    (modeSlot limit) :=
  Turn.choose (c := fun sl => decide (sl.mode = .onDemand)) (demandSlot_turn limit d) (followPhase_turn a b d)
    (fun sl h => by
      simp only [modeTakes, Bool.or_eq_true] at h
      split
      · assumption
      · rename_i e
        exact h.resolve_right e)
    (fun i acc => by
      unfold modeSlot
      simp only [decide_eq_true_eq])

/-- R124: a slot's turn adds to the park entries when its idle limit parks it, and not when its phase does. -/
theorem modeSlot_parkEntries (limit : Nat) (i : Fin 24) (acc : Loads) : (modeSlot limit i acc).parkEntries =
    if decide ((entry acc.slots i).mode = .onDemand) && idlesOut limit (acc.demand.getLsbD i.val) (entry acc.slots i) then
      min (acc.parkEntries + 1) 65535
    else acc.parkEntries := by
  have moved : ∀ st, (moveSlot st i acc).parkEntries = acc.parkEntries := fun st => by rw [moveSlot_rest]
  have idle : (idlePark i acc).parkEntries = min (acc.parkEntries + 1) 65535 := by
    show min ((moveSlot .parked i acc).parkEntries + 1) 65535 = _
    rw [moved]
  have set : ∀ sl, (acc.setSlot i sl).parkEntries = acc.parkEntries := fun _ => rfl
  have active : (entry acc.slots i).state = .parked → isActive (entry acc.slots i).state = false := fun e => by rw [e]; rfl
  unfold modeSlot demandSlot followPhase idlesOut satAdd
  simp only [Bool.and_eq_true, decide_eq_true_eq, Bool.not_eq_true', ← Bool.not_eq_true]
  split_ifs <;> simp_all

/-- R127: a slot's turn changes slots, the queue and the park entries alone. -/
theorem modeSlot_rest (limit : Nat) (i : Fin 24) (acc : Loads) :
    modeSlot limit i acc = { acc with
      slots := (modeSlot limit i acc).slots, queue := (modeSlot limit i acc).queue
      parkEntries := (modeSlot limit i acc).parkEntries } := by
  have moved : ∀ st, moveSlot st i acc = { acc with
      slots := (moveSlot st i acc).slots, queue := (moveSlot st i acc).queue
      parkEntries := (moveSlot st i acc).parkEntries } := fun st => by
    have := moveSlot_rest st i acc
    generalize moveSlot st i acc = m at this ⊢
    rw [this]
  unfold modeSlot demandSlot followPhase
  dsimp only
  split_ifs
  · exact moved _
  · rfl
  · rfl
  · exact congrArg (fun m : Loads => { m with parkEntries := satAdd 65535 m.parkEntries 1 }) (moved .parked)
  · rfl
  · rfl
  · exact moved _
  · exact moved _

end Sys2Proof.Machine
end

