-- ==== Sys2Proof/Laws/Ports.lean ====
section
/-! SUPPORT. The link ports and the requests: an owning block answers alike whatever the ports hold, a framed request
on a free link leaves the answer and the reply, and each kind changes no more than its own blocks. -/

namespace Sys2Proof.Machine

/-- An answer whose state has other ports. -/
def Answer.withPorts (a : Answer) (x : PerLink Port) : Answer := { a with state := a.state.setLp x }

theorem Answer.withPorts_ite (c : Prop) [Decidable c] (a b : Answer) (x : PerLink Port) :
    (if c then a else b).withPorts x = if c then a.withPorts x else b.withPorts x := by split <;> rfl

theorem State.setLp_ite (c : Prop) [Decidable c] (s t : State) (x : PerLink Port) :
    (if c then s else t).setLp x = if c then s.setLp x else t.setLp x := by split <;> rfl

theorem setupMode_setLp (i : Fin 24) (s : State) (x : PerLink Port) :
    setupMode i (s.setLp x) = (setupMode i s).setLp x := by
  have e : ∀ m, wantsNow i (s.setLp x) m = wantsNow i s m := fun m => by cases m <;> rfl
  simp only [setupMode, State.setLp_ls, e, State.setLp_ite]
  rfl

theorem setupLevel_setLp (i : Fin 24) (s : State) (x : PerLink Port) :
    setupLevel i (s.setLp x) = (setupLevel i s).setLp x := by
  simp only [setupLevel, State.setLp_ls, State.setLp_be]
  split <;> first | rfl | (simp only [State.setLp_ite]; rfl)

theorem setupRide_setLp (i : Fin 24) (s : State) (x : PerLink Port) :
    setupRide i (s.setLp x) = (setupRide i s).setLp x := by
  simp only [setupRide, State.setLp_ite]
  rfl

theorem setupSlot_setLp (i : Fin 24) (c : SlotSetup) (s : State) (x : PerLink Port) :
    setupSlot i c (s.setLp x) = (setupSlot i c s).setLp x := by
  have e : ((s.setLp x).setLs (s.ls.setSlot i (storeSetup c (entry s.ls.slots i)))) =
      (s.setLs (s.ls.setSlot i (storeSetup c (entry s.ls.slots i)))).setLp x := rfl
  simp only [setupSlot, setupKept, State.setLp_ls, e, State.setLp_ite, ← setupRide_setLp, ← setupLevel_setLp,
    ← setupMode_setLp]
  rfl

theorem armCandidate_setLp (i : Fin 64) (w : Way) (e : PointEntry) (s : State) (x : PerLink Port) :
    armCandidate i w e (s.setLp x) = (armCandidate i w e s).setLp x := by
  simp only [armCandidate, State.setLp_ite]
  rfl

/-- Only READ STATUS and REINIT look at the ports: every other request is answered alike whatever they hold. -/
theorem ownerAnswer_setLp (k : Kind) (h : k ≠ .readStatus) (h' : k ≠ .reinit) (l : Link) (p : List Byte) (s : State)
    (x : PerLink Port) : ownerAnswer k l p (s.setLp x) = (ownerAnswer k l p s).withPorts x := by
  cases k with
  | readStatus => exact absurd rfl h
  | reinit => exact absurd rfl h'
  | readBudget => exact id rfl
  | tractionRequest => exact id rfl
  | loadDemand =>
    simp only [ownerAnswer, ownLoadDemand, State.setLp_ls]
    generalize unparkDemanded _ = d
    rfl
  | readLoads => simp only [ownerAnswer, ownReadLoads]; rfl
  | readDropLog => exact id rfl
  | setPosition => exact id rfl
  | tableClear => simp only [ownerAnswer, ownTableClear]; rfl
  | armedRead => exact id rfl
  | clearConditions => exact id rfl
  | readAlarmRoutes => simp only [ownerAnswer, ownReadAlarmRoutes]; rfl
  | dropSeen =>
    simp only [ownerAnswer, ownDropSeen, Answer.withPorts_ite]
    rfl
  | takeAlarm =>
    simp only [ownerAnswer, ownTakeAlarm, Answer.withPorts_ite, State.setLp_ad]
    congr 1
    split <;> rfl
  | doneAlarm =>
    simp only [ownerAnswer, ownDoneAlarm, State.setLp_ad]
    split <;> rfl
  | loadSetup =>
    simp only [ownerAnswer, ownLoadSetup, setupSlot_setLp]
    split <;> rfl
  | loadReEnable =>
    simp only [ownerAnswer, ownLoadReEnable]
    split
    · rfl
    · simp only [Answer.withPorts_ite]
      rfl
  | raise =>
    simp only [ownerAnswer, ownRaise, State.setLp_cm]
    split <;> first | rfl | (simp only [Answer.withPorts_ite]; rfl)
  | lower =>
    simp only [ownerAnswer, ownLower, State.setLp_cm]
    split <;> rfl
  | clearDrop =>
    simp only [ownerAnswer, ownClearDrop, Answer.withPorts_ite]
    rfl
  | popDropLog =>
    simp only [ownerAnswer, ownPopDropLog, State.setLp_cm]
    split <;> rfl
  | restoreChannel =>
    simp only [ownerAnswer, ownRestoreChannel]
    split
    · rfl
    · simp only [Answer.withPorts_ite]
      congr 1
      simp only [restore, State.setLp_si]
      split
      · rfl
      · simp only [setChannel, State.setSi_ls, State.setLp_ls]
        generalize senseRestore s.ls = d
        rfl
  | featurePut =>
    simp only [ownerAnswer, ownFeaturePut]
    split
    · simp only [Answer.withPorts_ite]
      congr 1
      simp only [putChecked, State.setLp_rft]
      split
      · rfl
      · simp only [putStored, Answer.withPorts, State.setLp_ite, ← armCandidate_setLp]
        rfl
    · rfl
  | featureEvict =>
    simp only [ownerAnswer, ownFeatureEvict, State.setLp_rft]
    split
    · rfl
    · split <;> rfl
  | featureRead =>
    simp only [ownerAnswer, ownFeatureRead]
    split
    · split
      · rfl
      · split <;> rfl
    · rfl
  | zoneSet =>
    simp only [ownerAnswer, ownZoneSet]
    split
    · split <;> rfl
    · rfl
  | zoneRead =>
    simp only [ownerAnswer, ownZoneRead]
    split <;> rfl
  | alarmRouteSet =>
    simp only [ownerAnswer, ownAlarmRouteSet]
    split
    · split <;> rfl
    · rfl
  | setParam =>
    simp only [ownerAnswer, ownSetParam, writeParam, State.setLp_pm]
    split
    · rfl
    · split <;> rfl
  | readParam =>
    simp only [ownerAnswer, ownReadParam]
    split <;> rfl
/-! ### The request of a free link -/

/-- The port of a link that was free, with a whole request frame in its buffer. -/
def heldPort (l : Link) (code : Byte) (body : RequestBody) (s : State) : Port :=
  { select := true, phase := .request, pos := body.payload.length + 2
    request := code :: byteOf body.payload.length :: body.payload ++ [body.check], reply := [], bad := (s.lp.get l).bad }

theorem open_free {l : Link} {s : State} (free : LinkFree l s) :
    assertSelect l (releaseSelect l 0 s) = s.setLp (s.lp.put l
      { select := true, phase := .request, pos := 0, request := [], reply := [], bad := (s.lp.get l).bad }) := by
  have n : abandons l 0 s = false := by simp [abandons, free.idle]
  simp only [assertSelect, releaseSelect, n, setPort]
  simp

/-- R170, R173: on a free link a framed request is taken with the whole frame in the buffer. -/
theorem frameOnLink_free {l : Link} {code : Byte} {body : RequestBody} {s : State} (free : LinkFree l s)
    (short : body.payload.length ≤ 28) :
    frameOnLink l code body s =
      enterTurnaround l (takeRequest l code body (s.setLp (s.lp.put l (heldPort l code body s)))) := by
  simp only [frameOnLink, open_free free, short, completeFrame, setPort, heldPort, checkedBytes]
  simp

theorem replyFrame_eq (l : Link) (a : Answer) : replyFrame l a = replyBytes l a.result a.payload a.state := rfl

theorem kindOfCode_kindCode (k : Kind) : kindOfCode (kindCode k) = some k := by cases k <;> decide

/-- No code of Table 9-3 names two kinds. -/
theorem kindCode_of_kindOfCode {code : Byte} {k : Kind} (h : kindOfCode code = some k) : kindCode k = code := by
  simpa using List.find?_some h

/-- R175: a frame that passes the checks of its kind is answered by the owning block. -/
theorem takeRequest_framed {l : Link} {k : Kind} {body : RequestBody} (framed : FramedAs k body)
    (may : permitted l k = true) (s : State) :
    takeRequest l (kindCode k) body s = ownerAnswer k l body.payload s := by
  have good : goodCheck (kindCode k) body = true := decide_eq_true framed.checked
  simp only [takeRequest, good, kindOfCode_kindCode, framed.length, may, if_true]

theorem kindLength_le (k : Kind) : kindLength k ≤ 28 := by cases k <;> decide

/-- The reply reads the state of the other blocks alone. -/
theorem enterTurnaround_withPorts (l : Link) (a : Answer) (code : Byte) (body : RequestBody) (x : PerLink Port) (b : Nat)
    (same : a.state.lp.put l (x.get l) = x)
    (held : x.get l = ⟨true, .request, b, code :: byteOf body.payload.length :: body.payload ++ [body.check], [],
      (a.state.lp.get l).bad⟩) :
    enterTurnaround l (a.withPorts x) = replied l code body a.result a.payload a.state := by
  have e : x.put l { x.get l with
      phase := .turnaround, pos := 0, reply := replyFrame l (a.withPorts x) } =
      a.state.lp.put l { select := true, phase := .turnaround, pos := 0
                         request := code :: byteOf body.payload.length :: body.payload ++ [body.check]
                         reply := replyBytes l a.result a.payload a.state, bad := (a.state.lp.get l).bad } := by
    rw [← same, PerLink.put_put, PerLink.get_put_same, held]
    rfl
  simp only [enterTurnaround, setPort, replied]
  show ((a.state.setLp x).setLp _) = _
  rw [State.setLp_setLp]
  exact congrArg _ e

theorem ownReadStatus_setLp (l : Link) (s : State) (x : PerLink Port) (same : ∀ k, (x.get k).bad = (s.lp.get k).bad) :
    ownReadStatus l (s.setLp x) = (ownReadStatus l s).withPorts x := by
  have a : x.t.bad = s.lp.t.bad := same .t
  have b : x.a.bad = s.lp.a.bad := same .a
  have c : x.v.bad = s.lp.v.bad := same .v
  simp only [ownReadStatus, statusSense, State.setLp_lp, a, b, c]
  rfl

theorem ownerAnswer_lp (k : Kind) (h' : k ≠ .reinit) (l : Link) (p : List Byte) (s : State) :
    (ownerAnswer k l p s).state.lp = s.lp := by
  by_cases h : k = .readStatus
  · subst h; rfl
  · have e := ownerAnswer_setLp k h h' l p s s.lp
    rw [State.setLp_self] at e
    rw [e]
    rfl

theorem ownReinit_down {s : State} (h : s.cm.state = .down) : ownReinit s = answerOk (reinitState s) := if_pos h

theorem ownReinit_busy {s : State} (h : s.cm.state ≠ .down) : ownReinit s = refuse .busy s := if_neg h

/-- R170 to R175: a request of a kind with a good check and the kind's length, on a free link that may send it, leaves
what its owning block answers, with the reply on the port. -/
theorem requestCommand_replied {k : Kind} {l : Link} {body : RequestBody} {s : State} (free : LinkFree l s)
    (framed : FramedAs k body) (may : permitted l k = true) :
    requestCommand k l body s = .next (replied l (kindCode k) body (ownerAnswer k l body.payload s).result
      (ownerAnswer k l body.payload s).payload (ownerAnswer k l body.payload s).state) := by
  have short : body.payload.length ≤ 28 := framed.length ▸ kindLength_le k
  simp only [requestCommand, whilePowered, free.powered]
  rw [if_neg (by simp), frameOnLink_free free short, takeRequest_framed framed may]
  congr 1
  by_cases r : k = .reinit
  · subst r
    simp only [ownerAnswer]
    by_cases down : s.cm.state = .down
    · rw [ownReinit_down down, ownReinit_down (s := s.setLp (s.lp.put l _)) down]
      cases l <;> rfl
    · rw [ownReinit_busy down, ownReinit_busy (s := s.setLp (s.lp.put l _)) down]
      cases l <;> rfl
  · have e : ownerAnswer k l body.payload (s.setLp (s.lp.put l (heldPort l (kindCode k) body s))) =
        (ownerAnswer k l body.payload s).withPorts (s.lp.put l (heldPort l (kindCode k) body s)) := by
      by_cases h : k = .readStatus
      · subst h
        refine ownReadStatus_setLp _ _ _ fun j => ?_
        by_cases g : j = l
        · subst g; simp [heldPort]
        · rw [PerLink.get_put_other _ _ g]
      · exact ownerAnswer_setLp k h r l _ s _
    rw [e]
    refine enterTurnaround_withPorts l _ _ _ _ (body.payload.length + 2) ?_ ?_
    · rw [ownerAnswer_lp k r, PerLink.get_put_same]
    · rw [ownerAnswer_lp k r, PerLink.get_put_same]
      rfl

/-! ### What a request may change -/

theorem clampD_touches (s : State) : Touches [.be] s (clampD s) := State.setBe_touches _ _

theorem enterTurnaround_touches (l : Link) (a : Answer) : Touches [.lp] a.state (enterTurnaround l a) :=
  State.setLp_touches _ _

theorem setupSlot_touches (i : Fin 24) (c : SlotSetup) (s : State) : Touches [.ls] s (setupSlot i c s) := by
  have m : ∀ u : State, Touches [.ls] u (setupMode i u) := fun u => by
    unfold setupMode
    exact (State.setLs_touches _ _).of_if (State.setLs_touches _ _)
  have v : ∀ u : State, Touches [.ls] u (setupLevel i u) := fun u => by
    unfold setupLevel
    dsimp only
    split
    · exact (State.setLs_touches _ _).of_if (Touches.refl _ _)
    · exact State.setLs_touches _ _
    · exact (Touches.refl _ _).of_if (State.setLs_touches _ _)
    all_goals exact Touches.refl _ _
  have r : ∀ u : State, Touches [.ls] u (setupRide i u) := fun u => by
    unfold setupRide
    exact ((State.setLs_touches _ _).of_if ((State.setLs_touches _ _).of_if (Touches.refl _ _))).of_if
      (Touches.refl _ _)
  have st := State.setLs_touches s (s.ls.setSlot i (storeSetup c (entry s.ls.slots i)))
  unfold setupSlot
  refine (st.trans (State.setLs_touches _ _)).of_if ((st.trans (State.setLs_touches _ _)).of_if (st.trans ?_))
  unfold setupKept
  have one : ∀ u : State, Touches [.ls] u (if (entry s.ls.slots i).mode = c.mode then u else setupMode i u) := fun u =>
    (Touches.refl _ _).of_if (m u)
  have two : ∀ u : State, Touches [.ls] u (if (entry s.ls.slots i).level = c.level then u else setupLevel i u) :=
    fun u => (Touches.refl _ _).of_if (v u)
  dsimp only
  exact (((one _).trans (two _)).trans (r _)).of_if ((one _).trans (two _))

theorem reinitState_touches (s : State) :
    Touches [.si, .rft, .cm, .be, .tg, .ls, .ad, .lp, .pm] s (reinitState s) := by
  constructor <;> intro h <;> first | rfl | exact absurd (by decide) h

/-- Each kind changes no more than its own blocks (and REINIT the bad-frame counters). -/
theorem ownerAnswer_touches (k : Kind) (l : Link) (p : List Byte) (s : State) :
    Touches (.lp :: requestBlocks k) s (ownerAnswer k l p s).state := by
  have rf : ∀ bs, Touches bs s s := fun bs => Touches.refl bs s
  cases k with
  | readStatus | readBudget | readLoads | readDropLog | armedRead | readAlarmRoutes => exact rf _
  | dropSeen =>
    simp only [ownerAnswer, ownDropSeen]
    split
    · exact (State.setCm_touches _ _).mono (by decide)
    · exact rf _
  | takeAlarm =>
    simp only [ownerAnswer, ownTakeAlarm]
    split
    · exact rf _
    · split
      · exact rf _
      · exact (State.setAd_touches _ _).mono (by decide)
  | doneAlarm =>
    simp only [ownerAnswer, ownDoneAlarm]
    split
    · exact rf _
    · exact (State.setAd_touches _ _).mono (by decide)
  | tractionRequest => exact (State.setTg_touches _ _).mono (by decide)
  | loadSetup =>
    simp only [ownerAnswer, ownLoadSetup]
    split
    · exact (setupSlot_touches _ _ _).mono (by decide)
    · exact rf _
  | loadDemand => exact (State.setLs_touches _ _).mono (by decide)
  | loadReEnable =>
    simp only [ownerAnswer, ownLoadReEnable]
    split
    · exact rf _
    · split
      · exact (State.setLs_touches _ _).mono (by decide)
      · exact rf _
  | raise =>
    simp only [ownerAnswer, ownRaise]
    split
    · split
      · exact rf _
      · split
        · exact rf _
        · exact (enterState_touches _ _ _).mono (by decide)
    all_goals exact rf _
  | lower =>
    simp only [ownerAnswer, ownLower]
    split <;> first | exact (enterState_touches _ _ _).mono (by decide) | exact rf _
  | clearDrop =>
    simp only [ownerAnswer, ownClearDrop]
    split
    · split
      · exact (enterState_touches _ _ _).mono (by decide)
      · exact rf _
    · exact rf _
  | popDropLog =>
    simp only [ownerAnswer, ownPopDropLog]
    split
    · exact rf _
    · exact (State.setCm_touches _ _).mono (by decide)
  | setPosition =>
    exact (((State.setPt_touches s _).mono (by decide)).trans ((State.setRft_touches _ _).mono (by decide))).trans
      ((State.setCm_touches _ _).mono (by decide))
  | restoreChannel =>
    simp only [ownerAnswer, ownRestoreChannel]
    split
    · exact rf _
    · split
      · exact rf _
      · have h : ∀ c x, Touches (.lp :: requestBlocks .restoreChannel) s (setChannel c x s) := fun c x =>
          (State.setSi_touches _ _).mono (by decide)
        simp only [answerOk, restore]
        split
        · exact h _ _
        · exact (h _ _).trans (((State.setSi_touches _ _).mono (by decide)).trans
            ((State.setLs_touches _ _).mono (by decide)))
  | featurePut =>
    simp only [ownerAnswer, ownFeaturePut]
    split
    · split
      · exact rf _
      · simp only [putChecked]
        split
        · exact (raise_touches _ _).mono (by decide)
        · exact ((State.setRft_touches _ _).mono (by decide)).trans
            (((armCandidate_touches _ _ _ _).mono (by decide)).of_if (Touches.refl _ _))
    · exact rf _
  | featureEvict =>
    simp only [ownerAnswer, ownFeatureEvict]
    split
    · exact rf _
    · split
      · exact rf _
      · exact (State.setRft_touches _ _).mono (by decide)
  | featureRead =>
    simp only [ownerAnswer, ownFeatureRead]
    split
    · split
      · exact rf _
      · split <;> exact rf _
    · exact rf _
  | tableClear => exact (State.setRft_touches _ _).mono (by decide)
  | zoneSet =>
    simp only [ownerAnswer, ownZoneSet]
    split
    · split
      · exact (State.setRft_touches _ _).mono (by decide)
      · exact rf _
    · exact rf _
  | zoneRead =>
    simp only [ownerAnswer, ownZoneRead]
    split <;> exact rf _
  | clearConditions => exact (State.setBe_touches _ _).mono (by decide)
  | alarmRouteSet =>
    simp only [ownerAnswer, ownAlarmRouteSet]
    split
    · split
      · exact (State.setAd_touches _ _).mono (by decide)
      · exact rf _
    · exact rf _
  | setParam =>
    simp only [ownerAnswer, ownSetParam, writeParam]
    split
    · exact rf _
    · have h : ∀ x, Touches (.lp :: requestBlocks .setParam) s (s.setPm x) := fun x =>
        (State.setPm_touches _ _).mono (by decide)
      exact ((h _).trans ((clampD_touches _).mono (by decide))).of_if (h _)
  | readParam =>
    simp only [ownerAnswer, ownReadParam]
    split <;> exact rf _
  | reinit =>
    simp only [ownerAnswer, ownReinit]
    split
    · exact (reinitState_touches s).mono (by decide)
    · exact rf _

end Sys2Proof.Machine
end

