-- ==== Sys2Proof/Laws/Sense.lean ====
section
/-! SUPPORT. The outcomes of a closed frame (R4 to R8), an accepted set stage by stage, and the bits and the check of a
frame (R1, R3). -/

namespace Sys2Proof.Machine

/-! ### Bits of the concatenations of Table 1-1 -/

theorem getLsbD_concat {n m : Nat} (x : BitVec n) (y : BitVec m) (k : Nat) :
    (x ++ y).getLsbD k = if k < m then y.getLsbD k else x.getLsbD (k - m) := BitVec.getLsbD_append

theorem getLsbD_2114 (a : BitVec 2) (b c : BitVec 1) (d : BitVec 4) (k : Nat) :
    BitVec.getLsbD (a ++ b ++ c ++ d : BitVec 8) k = if k < 4 then d.getLsbD k
      else if k - 4 < 1 then c.getLsbD (k - 4)
      else if k - 4 - 1 < 1 then b.getLsbD (k - 4 - 1) else a.getLsbD (k - 4 - 1 - 1) := by
  show BitVec.getLsbD (w := 2 + 1 + 1 + 4) (a ++ b ++ c ++ d) k = _
  rw [getLsbD_concat, getLsbD_concat, getLsbD_concat]

theorem getLsbD_611 (a : BitVec 6) (b c : BitVec 1) (k : Nat) :
    BitVec.getLsbD (a ++ b ++ c : BitVec 8) k = if k < 1 then c.getLsbD k
      else if k - 1 < 1 then b.getLsbD (k - 1) else a.getLsbD (k - 1 - 1) := by
  show BitVec.getLsbD (w := 6 + 1 + 1) (a ++ b ++ c) k = _
  rw [getLsbD_concat, getLsbD_concat]

theorem getLsbD_26 (a : BitVec 2) (b : BitVec 6) (k : Nat) :
    BitVec.getLsbD (a ++ b : BitVec 8) k = if k < 6 then b.getLsbD k else a.getLsbD (k - 6) := getLsbD_concat a b k

theorem getLsbD_44 (a : BitVec 4) (b : BitVec 4) (k : Nat) :
    BitVec.getLsbD (a ++ b : BitVec 8) k = if k < 4 then b.getLsbD k else a.getLsbD (k - 4) := getLsbD_concat a b k

theorem getLsbD_82 (a : BitVec 8) (b : BitVec 2) (k : Nat) :
    BitVec.getLsbD (a ++ b : BitVec 10) k = if k < 2 then b.getLsbD k else a.getLsbD (k - 2) := getLsbD_concat a b k

theorem getLsbD_48 (a : BitVec 4) (b : BitVec 8) (k : Nat) :
    BitVec.getLsbD (a ++ b : BitVec 12) k = if k < 8 then b.getLsbD k else a.getLsbD (k - 8) := getLsbD_concat a b k

theorem getLsbD_46 (a : BitVec 4) (b : BitVec 6) (k : Nat) :
    BitVec.getLsbD (a ++ b : BitVec 10) k = if k < 6 then b.getLsbD k else a.getLsbD (k - 6) := getLsbD_concat a b k

theorem getLsbD_64 (a : BitVec 6) (b : BitVec 4) (k : Nat) :
    BitVec.getLsbD (a ++ b : BitVec 10) k = if k < 4 then b.getLsbD k else a.getLsbD (k - 4) := getLsbD_concat a b k

/-- A field that is sent with its valid flag is read back. -/
theorem measured_eq {w : Nat} {o : Option (BitVec w)} {b : Bool} {y : BitVec w} (flag : b = o.isSome)
    (value : y = o.getD 0) : measured b y = o := by
  subst flag value
  cases o <;> rfl

/-! ### The check -/

theorem crc_append_one (bytes : List Byte) (b : Byte) : crc (bytes ++ [b]) = crcByte (crc bytes) b := by
  unfold crc
  rw [List.foldl_append]
  rfl

theorem crcByte_self (b : Byte) : crcByte b b = 0 := by
  unfold crcByte
  rw [BitVec.xor_self]
  decide

/-! ### A closed frame -/

/-- The closing of an open frame on a powered part (R2). -/
theorem exec_sampleFrame {ch : Channel} {f : OpenFrame} {s : State} (on : s.resetPin = false)
    (h : s.si.rx.get ch = some f) : exec (.sampleFrame ch) s = .next (frameArrives ch f s) := by
  simp only [exec, execSampleFrame, whilePowered, on, closeFrame, h]
  rfl

theorem frameArrives_failed {ch : Channel} {s : State} (h : (s.si.chan.get ch).health = .failed) (f : OpenFrame) :
    frameArrives ch f s = s.setSi { s.si with rx := s.si.rx.put ch none } := by
  simp [frameArrives, h]

theorem frameArrives_bad {ch : Channel} {f : OpenFrame} {s : State} (h : (s.si.chan.get ch).health = .healthy)
    (bad : frameSample f = none) :
    frameArrives ch f s = takeBadFrame ch (s.setSi { s.si with rx := s.si.rx.put ch none }) := by
  have n : (s.si.chan.get ch).health ≠ .failed := by rw [h]; decide
  simp only [frameArrives, n, if_false, bad]

theorem frameArrives_good {ch : Channel} {f : OpenFrame} {x : Sample} {s : State}
    (h : (s.si.chan.get ch).health = .healthy) (good : frameSample f = some x) :
    frameArrives ch f s = takeGoodFrame ch x (s.setSi { s.si with rx := s.si.rx.put ch none }) := by
  have n : (s.si.chan.get ch).health ≠ .failed := by rw [h]; decide
  simp only [frameArrives, n, if_false, good]

/-- R6: the judged frame's counter passes the limit. -/
theorem takeGoodFrame_fails {ch : Channel} {x : Sample} {s : State}
    (h : s.par .plausLimit < plausAfter (implausible (s.si.chan.get ch) x s) (s.si.chan.get ch).plaus) :
    takeGoodFrame ch x s = failChannel ch .plausibility (setChannel ch { s.si.chan.get ch with
      plaus := plausAfter (implausible (s.si.chan.get ch) x s) (s.si.chan.get ch).plaus } s) := if_pos h

/-- R7: the channel's record of a judged frame that does not fail it. -/
def judgedState (ch : Channel) (x : Sample) (s : State) : State :=
  setChannel ch { s.si.chan.get ch with
    plaus := plausAfter (implausible (s.si.chan.get ch) x s) (s.si.chan.get ch).plaus
    seqRecord := some x.seq, status := x.status, silence := 0 } s

theorem takeGoodFrame_standby {ch : Channel} {x : Sample} {s : State}
    (h : plausAfter (implausible (s.si.chan.get ch) x s) (s.si.chan.get ch).plaus ≤ s.par .plausLimit)
    (standby : s.si.active ≠ some ch) : takeGoodFrame ch x s = judgedState ch x s :=
  (if_neg (Nat.not_lt.mpr h)).trans (if_neg standby)

theorem takeGoodFrame_active {ch : Channel} {x : Sample} {s : State}
    (h : plausAfter (implausible (s.si.chan.get ch) x s) (s.si.chan.get ch).plaus ≤ s.par .plausLimit)
    (active : s.si.active = some ch) : takeGoodFrame ch x s = acceptedSet x (judgedState ch x s) :=
  (if_neg (Nat.not_lt.mpr h)).trans (if_pos active)

/-- The judgement reads the parameters in force alone. -/
theorem implausible_congr {s t : State} (h : t.pm = s.pm) (c : SenseChannel) (x : Sample) :
    implausible c x t = implausible c x s := by
  have e : ∀ p, t.par p = s.par p := fun p => by unfold State.par; rw [h]
  unfold implausible
  simp only [e]

/-- The state in which an accepted set is passed on: the receiver hunts again and the channel's record is written. -/
def passedOnFrom (ch : Channel) (x : Sample) (s : State) : State :=
  s.setSi { s.si with
    rx := s.si.rx.put ch none
    chan := s.si.chan.put ch { s.si.chan.get ch with
      plaus := plausAfter (implausible (s.si.chan.get ch) x s) (s.si.chan.get ch).plaus
      seqRecord := some x.seq, status := x.status, silence := 0 } }

/-- R8: an accepted set is taken by every block in turn. -/
theorem exec_accepted {ch : Channel} {x : Sample} {s : State} (h : Accepts ch x s) :
    exec (.sampleFrame ch) s = .next (acceptedSet x (passedOnFrom ch x s)) := by
  obtain ⟨f, hf, good⟩ := h.frame
  have e : implausible (s.si.chan.get ch) x (s.setSi { s.si with rx := s.si.rx.put ch none }) =
      implausible (s.si.chan.get ch) x s := implausible_congr rfl _ _
  have w := h.within
  rw [exec_sampleFrame h.powered hf, frameArrives_good h.healthy good, takeGoodFrame_active]
  · unfold judgedState setChannel passedOnFrom
    simp only [State.setSi_si, State.setSi_setSi, e]
  · simp only [State.setSi_si, e]
    exact w
  · exact h.active

/-! ### The failure of a channel -/

/-- A channel marked FAILED with its reason. -/
def failedState (ch : Channel) (why : FailReason) (s : State) : State :=
  setChannel ch { s.si.chan.get ch with health := .failed, reason := some why } s

theorem failedState_other (ch : Channel) (why : FailReason) (s : State) :
    (failedState ch why s).si.chan.get (otherChannel ch) = s.si.chan.get (otherChannel ch) :=
  PerChannel.get_put_other _ _ (otherChannel_ne ch)

/-- R14. -/
theorem failChannel_standby {ch : Channel} {s : State} (h : s.si.active ≠ some ch) (why : FailReason) :
    failChannel ch why s = failedState ch why s := if_neg h

/-- R12. -/
theorem failChannel_failover {ch : Channel} {s : State} (h : s.si.active = some ch)
    (k : (s.si.chan.get (otherChannel ch)).health = .healthy) (why : FailReason) :
    failChannel ch why s = raise .channelFailover (s.setSi { s.si with
      chan := (failedState ch why s).si.chan.put (otherChannel ch)
        { s.si.chan.get (otherChannel ch) with seqRecord := none }
      active := some (otherChannel ch), prevElev := ⟨none, none⟩ }) := by
  refine ((if_pos h).trans (if_pos k)).trans ?_
  show failover (otherChannel ch) (failedState ch why s) = _
  unfold failover
  rw [failedState_other]
  rfl

/-- R13. -/
theorem failChannel_lost {ch : Channel} {s : State} (h : s.si.active = some ch)
    (k : (s.si.chan.get (otherChannel ch)).health = .failed) (why : FailReason) :
    failChannel ch why s = loseSense (failedState ch why s) :=
  (if_pos h).trans (if_neg (by rw [k]; decide))

/-- The state in which BE publishes at the loss of sense. -/
def lostState (s : State) : State := raise .senseLost (s.setSi { s.si with active := none, senseLost := true })

/-- R13: the four signals of the loss of sense, side by side. -/
theorem loseSense_eq (s : State) :
    loseSense s = ((safeAtSenseLoss (lostState s)).setLs (senseShed s.ls)).setCm { s.cm with
      lastElev := ⟨none, none⟩ } := by
  have l : (safeAtSenseLoss (lostState s)).ls = s.ls := (safeAtSenseLoss_touches (lostState s)).ls (by decide)
  have c : (safeAtSenseLoss (lostState s)).cm = s.cm := (safeAtSenseLoss_touches (lostState s)).cm (by decide)
  show ((safeAtSenseLoss (lostState s)).setLs (senseShed (safeAtSenseLoss (lostState s)).ls)).setCm
    { (safeAtSenseLoss (lostState s)).cm with lastElev := ⟨none, none⟩ } = _
  rw [l, c]

/-! ### The over-grant check -/

/-- R110: a check that finds an unreported grant over raises GRANT_OVER and sets the reported flag. -/
theorem overGrantCheck_over {s : State} (h : s.tg.reported = false)
    (k : grantOver s.be.record s.tg.lastGrant = true) :
    overGrantCheck s = raise .grantOver (s.setTg { s.tg with reported := true }) := if_pos ⟨h, k⟩

/-- R110: a check that does not changes no state. -/
theorem overGrantCheck_covered {s : State}
    (h : ¬(s.tg.reported = false ∧ grantOver s.be.record s.tg.lastGrant = true)) : overGrantCheck s = s := if_neg h

/-- R110: a ceiling of 0 leaves every grant but 0 uncovered. -/
theorem grantOver_zero (r : BudgetRecord) (g : Int) (t : r.t = 0) (u : r.g = 0) : grantOver r g = decide (g ≠ 0) := by
  unfold grantOver
  rw [t, u]
  by_cases a : 0 < g
  · simp [a]; omega
  · by_cases b : g < 0
    · simp [a, b]; omega
    · have : g = 0 := by omega
      simp [this]

end Sys2Proof.Machine
end

