-- ==== Sys2Proof/Laws/Setup.lean ====
section
/-! SUPPORT. LOAD SETUP rule by rule (R116 to R119): each rule of a kept slot moves one record and its place in the queue, and
what the whole setup leaves. -/

namespace Sys2Proof.Machine

theorem isLevelZero_eq (ls : Loads) : isLevelZero ls = fun j => decide ((entry ls.slots j).level = 0) := rfl

theorem clearBand_entry (i j : Fin 24) (ls : Loads) : entry (clearBand i ls).slots j = if j = i then { entry ls.slots i with bandCount := 0 } else entry ls.slots j :=
  entry_setEntry _ _ _ _

/-- From `s`, the rules so far have left slot `i` configured as `c`, in state `st` with idle count `idle`, the queue being `q`
and every other record as it was. -/
structure SetupLeaves (s : Loads) (i : Fin 24) (c : SlotSetup) (ls : Loads) (st : SlotState) (idle : Nat) (q : List (Fin 24)) : Prop where
  own : entry ls.slots i = { storeSetup c (entry s.slots i) with state := st, idle := idle }
  other : ∀ j, j ≠ i → entry ls.slots j = entry s.slots j
  queue : ls.queue = q
  rest : ls = { s with slots := ls.slots, queue := ls.queue }

/-- The level-0 test once slot `i` has the level of `c`. -/
def zeroAfter (s : Loads) (i : Fin 24) (c : SlotSetup) : Fin 24 → Bool := fun j => if j = i then decide (c.level = 0) else isLevelZero s j

section

variable {s : Loads} {i : Fin 24} {c : SlotSetup} {ls : Loads} {st : SlotState} {idle : Nat} {q : List (Fin 24)}

theorem SetupLeaves.lv (h : SetupLeaves s i c ls st idle q) : isLevelZero ls = zeroAfter s i c := by
  funext j; unfold zeroAfter
  by_cases e : j = i
  · subst e; unfold isLevelZero; rw [h.own, if_pos rfl]; rfl
  · rw [if_neg e]; unfold isLevelZero; rw [h.other j e]

theorem SetupLeaves.of_move {st' : SlotState} {q'} (h : SetupLeaves s i c ls st idle q) (hq : (moveSlot st' i ls).queue = q') : SetupLeaves s i c (moveSlot st' i ls) st' 0 q' := by
  refine ⟨?_, fun j e => ?_, hq, ?_⟩
  · refine ((moveSlot_entry st' i i ls).trans (if_pos rfl)).trans ?_
    rw [h.own]
  · exact ((moveSlot_entry st' i j ls).trans (if_neg e)).trans (h.other j e)
  · rw [moveSlot_rest st' i ls, h.rest]

theorem SetupLeaves.st_eq (h : SetupLeaves s i c ls st idle q) : (entry ls.slots i).state = st := by rw [h.own]

theorem SetupLeaves.leave {st' : SlotState} (h : SetupLeaves s i c ls st idle q) (n : st' ≠ .waiting) :
   SetupLeaves s i c (moveSlot st' i ls) st' 0 (if st = .waiting then q.filter (· ≠ i) else q) := by
  refine h.of_move ?_
  rw [moveSlot_queue_leave n, h.st_eq, h.queue]

theorem SetupLeaves.join (h : SetupLeaves s i c ls st idle q) (n : st ≠ .waiting) :
   SetupLeaves s i c (moveSlot .waiting i ls) .waiting 0 (insertBy (zeroAfter s i c) i q) := by
  refine h.of_move ?_
  rw [moveSlot_queue_join, h.st_eq, if_neg n, h.lv, h.queue]

theorem SetupLeaves.rejoin (h : SetupLeaves s i c ls st idle q) :
   SetupLeaves s i c (joinQueue i (leaveQueue i ls)) st idle (insertBy (zeroAfter s i c) i (q.filter (· ≠ i))) := by
  refine ⟨h.own, h.other, ?_, ?_⟩
  · rw [joinQueue_queue]
    show insertBy (isLevelZero (leaveQueue i ls)) i (ls.queue.filter _) = _
    rw [show isLevelZero (leaveQueue i ls) = isLevelZero ls from rfl, h.lv, h.queue]
  · show Loads.mk _ _ _ _ _ _ _ _ = _
    conv_lhs => rw [h.rest]
    rfl

theorem SetupLeaves.stop (h : SetupLeaves s i c ls st idle q) : SetupLeaves s i c (ls.setSlot i { entry ls.slots i with idle := 0 }) st 0 q := by
  refine ⟨?_, fun j e => ?_, h.queue, ?_⟩
  · refine (entry_setEntry_same _ _ _).trans ?_
    rw [h.own]
  · exact (entry_setEntry_other _ _ e).trans (h.other j e)
  · show Loads.mk _ _ _ _ _ _ _ _ = _
    conv_lhs => rw [h.rest]
    rfl
end

/-- R116: the fields are stored. -/
theorem setupLeaves_store (s : Loads) (i : Fin 24) (c : SlotSetup) : SetupLeaves s i c (s.setSlot i (storeSetup c (entry s.slots i))) (entry s.slots i).state (entry s.slots i).idle s.queue :=
  ⟨(entry_setEntry_same _ _ _).trans rfl, fun j e => entry_setEntry_other _ _ e, rfl, rfl⟩

/-- R119, step 1: the rule of a change of mode. -/
theorem setupLeaves_mode {s : State} {i c ls st idle q} (h : SetupLeaves s.ls i c ls st idle q) :
   setupMode i (s.setLs ls) = s.setLs (setupMode i (s.setLs ls)).ls ∧
   SetupLeaves s.ls i c (setupMode i (s.setLs ls)).ls (if st = .parked ∧ wantsNow i s c.mode = true then .waiting else st) 0
     (if st = .parked ∧ wantsNow i s c.mode = true then insertBy (zeroAfter s.ls i c) i q else q) := by
  have w : wantsNow i (s.setLs ls) (entry (s.setLs ls).ls.slots i).mode = wantsNow i s c.mode := by
    rw [show (entry (s.setLs ls).ls.slots i).mode = c.mode by rw [State.setLs_ls, h.own]; rfl]
    cases c.mode with
    | off => rfl
    | on => rfl
    | onDemand => show ls.demand.getLsbD i.val = s.ls.demand.getLsbD i.val; rw [h.rest]
    | cycle g => show decide (ls.gens.get g < _) = decide (s.ls.gens.get g < _); rw [h.rest]; rfl
  have cond : ((entry (s.setLs ls).ls.slots i).state = .parked ∧ wantsNow i (s.setLs ls) (entry (s.setLs ls).ls.slots i).mode = true) ↔ (st = .parked ∧ wantsNow i s c.mode = true) := by
    rw [w, State.setLs_ls, h.st_eq]
  unfold setupMode
  dsimp only
  by_cases p : st = .parked ∧ wantsNow i s c.mode = true
  · rw [if_pos (cond.mpr p), if_pos p, if_pos p]
    exact ⟨rfl, h.stop.join (by rw [p.1]; decide)⟩
  · rw [if_neg (fun x => p (cond.mp x)), if_neg p, if_neg p]
    exact ⟨rfl, h.stop⟩

/-- R119, step 2: the rule of a change of level. -/
theorem setupLeaves_level {s : State} {i c ls st idle q} (h : SetupLeaves s.ls i c ls st idle q) :
   setupLevel i (s.setLs ls) = s.setLs (setupLevel i (s.setLs ls)).ls ∧
   SetupLeaves s.ls i c (setupLevel i (s.setLs ls)).ls 
     (if st = .running ∧ 4 - s.be.h ≤ c.level.val then .shed .budget else if st = .shed .budget ∧ c.level.val < 4 - s.be.h then .waiting else st)
     (if (st = .running ∧ 4 - s.be.h ≤ c.level.val) ∨ (st = .shed .budget ∧ c.level.val < 4 - s.be.h) then 0 else idle)
     (if st = .waiting then insertBy (zeroAfter s.ls i c) i (q.filter (· ≠ i)) else if st = .shed .budget ∧ c.level.val < 4 - s.be.h then insertBy (zeroAfter s.ls i c) i q else q) := by
  have lv : (entry ls.slots i).level = c.level := by rw [h.own]; rfl
  unfold setupLevel
  dsimp only
  simp only [State.setLs_ls, State.setLs_be, h.st_eq, inShedRange, lv, decide_eq_true_eq]
  cases st with
  | running =>
    simp only [true_and, reduceCtorEq, if_false, false_and, or_false]
    by_cases p : 4 - s.be.h ≤ c.level.val
    · simp only [p, if_true]; exact ⟨rfl, by simpa using h.leave (st' := .shed .budget) (by simp)⟩
    · simp only [p, if_false]; exact ⟨rfl, h⟩
  | waiting =>
    simp only [reduceCtorEq, if_false, false_and, or_false, if_true]
    exact ⟨rfl, h.rejoin⟩
  | shed r =>
    cases r with
    | budget =>
      simp only [reduceCtorEq, if_false, false_and, true_and, false_or]
      by_cases p : 4 - s.be.h ≤ c.level.val
      · have p' : ¬ c.level.val < 4 - s.be.h := by omega
        simp only [p, p', if_true, if_false]; exact ⟨rfl, h⟩
      · have p' : c.level.val < 4 - s.be.h := by omega
        simp only [p, p', if_false, if_true]; exact ⟨rfl, h.join (by simp)⟩
    | supply => simpa using h
    | band => simpa using h
    | sense => simpa using h
  | off => simpa using h
  | parked => simpa using h
  | lockedOut => simpa using h

/-- R119, step 3: the rule of a change of ride-through. -/
theorem setupLeaves_ride {s : State} {i c ls st idle q} (h : SetupLeaves s.ls i c ls st idle q) :
   setupRide i (s.setLs ls) = s.setLs (setupRide i (s.setLs ls)).ls ∧
   SetupLeaves s.ls i c (setupRide i (s.setLs ls)).ls 
     (if st = .running then if s.si.senseLost = true then .shed .sense else if s.supply = .none then .shed .supply else st else st)
     (if st = .running ∧ (s.si.senseLost = true ∨ s.supply = .none) then 0 else idle) q := by
  have sp : (s.setLs ls).supply = s.supply := rfl
  unfold setupRide
  simp only [State.setLs_ls, State.setLs_si, sp, h.st_eq]
  by_cases r : st = .running
  · subst r
    simp only [if_true, true_and]
    by_cases l : s.si.senseLost = true
    · simp only [l, if_true, true_or]; exact ⟨rfl, by simpa using h.leave (st' := .shed .sense) (by simp)⟩
    · simp only [l, false_or]
      by_cases n : s.supply = .none
      · simp only [n, if_true]; exact ⟨rfl, by simpa using h.leave (st' := .shed .supply) (by simp)⟩
      · simp only [n]; exact ⟨rfl, by simpa using h⟩
  · simp only [r, if_false, false_and]; exact ⟨rfl, h⟩

/-- The idle count over the three rules. -/
theorem setup_idle {A L W I R S N : Prop} [Decidable A] [Decidable L] [Decidable W] [Decidable I] [Decidable R] [Decidable S] [Decidable N] (st one two three : SlotState) (idle : Nat)
   (one_eq : one = if ¬A ∧ st = .parked ∧ W then .waiting else st)
   (two_eq : two = if ¬L ∧ one = .running ∧ I then .shed .budget else if ¬L ∧ one = .shed .budget ∧ ¬I then .waiting else one)
   (three_eq : three = if R ∧ two = .running then if S then .shed .sense else if N then .shed .supply else two else two) :
   (if three ≠ two then 0 else if ¬L ∧ (one = .running ∧ I ∨ one = .shed .budget ∧ ¬I) then 0 else if A then idle else 0) = if A ∧ three = st then idle else 0 := by
  subst one_eq
  by_cases a : A <;> simp only [a, not_true_eq_false, not_false_eq_true, false_and, true_and, if_false, if_true] at *
  · by_cases l : L <;> simp only [l, not_true_eq_false, not_false_eq_true, false_and, true_and, if_false, if_true] at *
    · subst two_eq
      by_cases h : three = two <;> simp [h]
    · by_cases i : I <;> simp only [i, not_true_eq_false, not_false_eq_true, and_true, and_false, or_false, false_or, if_false] at *
      · by_cases h : st = .running
        · subst h; simp at two_eq; subst two_eq; simp at three_eq; subst three_eq; simp
        · simp only [h, if_false] at two_eq ⊢; subst two_eq
          by_cases h : three = two <;> simp [h]
      · by_cases h : st = .shed .budget
        · subst h; simp at two_eq; subst two_eq; simp at three_eq; subst three_eq; simp
        · simp only [h, if_false] at two_eq ⊢; subst two_eq
          by_cases h : three = two <;> simp [h]
  · rw [ite_self, ite_self]

/-- The queue over the three rules. -/
theorem setup_queue {A L W I R S N : Prop} [Decidable A] [Decidable L] [Decidable W] [Decidable I] [Decidable R] [Decidable S] [Decidable N] (st one two three : SlotState) (X O : List (Fin 24)) (J : List (Fin 24) → List (Fin 24))
   (nq : st ≠ .waiting → O = X)
   (one_eq : one = if ¬A ∧ st = .parked ∧ W then .waiting else st)
   (two_eq : two = if ¬L ∧ one = .running ∧ I then .shed .budget else if ¬L ∧ one = .shed .budget ∧ ¬I then .waiting else one)
   (three_eq : three = if R ∧ two = .running then if S then .shed .sense else if N then .shed .supply else two else two) :
   (if ¬L then (if one = .waiting then J O else if one = .shed .budget ∧ ¬I then J X else X) else if ¬A ∧ st = .parked ∧ W then J X else X) = 
    if three ≠ .waiting then O else if st = .waiting ∧ L then X else J O := by
  by_cases w : st = .waiting
  · subst w
    simp at one_eq; subst one_eq
    simp at two_eq; subst two_eq
    simp at three_eq; subst three_eq
    by_cases l : L <;> simp [l]
  · have o := nq w
    subst o
    have t : three = .waiting ↔ two = .waiting := by
      rw [three_eq]
      split
      · rename_i h; rw [h.2]; split
        · simp
        · split <;> simp
      · rfl
    have lhs : (if ¬L then (if one = .waiting then J O else if one = .shed .budget ∧ ¬I then J O else O) else if ¬A ∧ st = .parked ∧ W then J O else O) = if two = .waiting then J O else O := by
      by_cases l : L
      · simp only [l, not_true_eq_false, false_and, if_false] at two_eq ⊢
        rw [two_eq, one_eq]
        by_cases p : ¬A ∧ st = .parked ∧ W
        · rw [if_pos p, if_pos p, if_pos rfl]
        · rw [if_neg p, if_neg p, if_neg w]
      · simp only [l, not_false_eq_true, true_and, if_true] at two_eq ⊢
        by_cases ow : one = .waiting
        · rw [if_pos ow, two_eq, ow]; simp
        · rw [if_neg ow, two_eq]
          by_cases i : I
          · by_cases r : one = .running
            · simp [r, i]
            · simp [r, i, ow]
          · by_cases r : one = .shed .budget
            · simp [r, i]
            · simp [r, i, ow]
    rw [lhs]
    by_cases q : two = .waiting
    · rw [if_pos q, if_neg (fun x => x (t.mpr q)), if_neg (fun x => w x.1)]
    · rw [if_neg q, if_pos (fun x => q (t.mp x))]

/-- The queue that a setup leaves keeps its property. -/
theorem setupLeaves_queueInv {s : Loads} {i c ls st idle q} (h : SetupLeaves s i c ls st idle q) (qi : QueueInv s)
   (off : st = .off ↔ c.mode = .off)
   (hq : q = if st ≠ .waiting then s.queue.filter (· ≠ i) else if (entry s.slots i).state = .waiting ∧ (entry s.slots i).level = c.level then s.queue
     else insertBy (zeroAfter s i c) i (s.queue.filter (· ≠ i))) : QueueInv ls := by
  obtain ⟨nd, mem, ord, modes⟩ := qi
  have qi' : QueueInv s := ⟨nd, mem, ord, modes⟩
  have lvl : ∀ j, ((entry ls.slots j).level = 0 ↔ zeroAfter s i c j = true) := fun j => by rw [← h.lv]; unfold isLevelZero; simp
  have om : ∀ j, j ∈ s.queue.filter (· ≠ i) ↔ j ∈ s.queue ∧ j ≠ i := by intro j; simp
  have ordZ : (s.queue.filter (· ≠ i)).Pairwise fun a b => zeroAfter s i c b = true → zeroAfter s i c a = true := by
    refine List.Pairwise.imp_of_mem ?_ (qi'.ordered.sublist List.filter_sublist)
    intro a b ha hb hab
    have na := ((om a).mp ha).2; have nb := ((om b).mp hb).2
    unfold zeroAfter; rw [if_neg na, if_neg nb]; exact hab
  refine ⟨?_, fun j => ?_, ?_, fun j => ?_⟩
  · rw [h.queue, hq]
    split
    · exact nd.filter _
    · split
      · exact nd
      · exact insertBy_nodup (nd.filter _) (by simp)
  · rw [h.queue, hq]
    by_cases e : j = i
    · subst e
      rw [h.own]
      by_cases w : st = .waiting
      · rw [if_neg (by simpa using w)]
        split
        · rename_i p; simp only [w, iff_true]; exact (mem j).mpr p.1
        · simp [mem_insertBy, w]
      · rw [if_pos w]; simp [w]
    · rw [h.other j e]
      split
      · rw [om]; rw [mem]; simp [e]
      · split
        · exact mem j
        · rw [mem_insertBy, om, mem]; simp [e]
  · refine List.Pairwise.imp (R := fun a b => zeroAfter s i c b = true → zeroAfter s i c a = true) (fun k z => (lvl _).mpr (k ((lvl _).mp z))) ?_
    rw [h.queue, hq]
    split
    · exact ordZ
    · split
      · rename_i p
        have : zeroAfter s i c = isLevelZero s := by
          funext j; unfold zeroAfter
          by_cases e : j = i
          · subst e; rw [if_pos rfl, ← p.2]; rfl
          · rw [if_neg e]
        rw [this]; exact qi'.ordered
      · exact insertBy_zeros_first ordZ
  · by_cases e : j = i
    · subst e; rw [h.own]; exact off
    · rw [h.other j e]; exact modes j

/-- What the rules of a kept slot leave together. -/
theorem setupKept_leaves (s : State) (i : Fin 24) (c : SlotSetup) (qi : QueueInv s.ls) (m : c.mode ≠ .off) (om : (entry s.ls.slots i).mode ≠ .off)
   (old : Slot) (one two three : SlotState) (ho : entry s.ls.slots i = old)
   (one_eq : one = if old.mode ≠ c.mode ∧ old.state = .parked ∧ wantsNow i s c.mode = true then .waiting else old.state)
   (two_eq : two = if old.level ≠ c.level ∧ one = .running ∧ 4 - s.be.h ≤ c.level.val then .shed .budget
          else if old.level ≠ c.level ∧ one = .shed .budget ∧ c.level.val < 4 - s.be.h then .waiting
          else one)
   (three_eq : three = if old.rideThrough = true ∧ c.rideThrough = false ∧ two = .running then
            if s.si.senseLost = true then .shed .sense else if s.supply = .none then .shed .supply else two
          else two) :
   ∃ ls idle q, setupSlot i c s = s.setLs ls ∧ 
     SetupLeaves s.ls i c ls three idle q ∧ idle = (if old.mode = c.mode ∧ three = old.state then old.idle else 0) ∧
     q = if three ≠ .waiting then s.ls.queue.filter (· ≠ i) else if old.state = .waiting ∧ old.level = c.level then s.ls.queue
     else insertBy (zeroAfter s.ls i c) i (s.ls.queue.filter (· ≠ i)) := by
  have R0 := setupLeaves_store s.ls i c
  have ms := qi.2.1 i
  have offs := qi.2.2.2 i
  rw [ho] at R0 ms offs om
  have fq : ∀ x : List (Fin 24), (x.filter (· ≠ i)).filter (· ≠ i) = x.filter (· ≠ i) := fun x => by simp [List.filter_filter]
  have nq : old.state ≠ .waiting → s.ls.queue.filter (· ≠ i) = s.ls.queue := fun h => List.filter_eq_self.mpr fun j hj => by
    simp; rintro rfl; exact h (ms.mp hj)
  have noff : old.state ≠ .off := fun h => om (offs.mp h)
  have e0 : setupSlot i c s = setupKept i old c (s.setLs (s.ls.setSlot i (storeSetup c old))) := by
    simp only [setupSlot, ho, m, om, if_false]
  rw [e0]
  generalize s.ls.setSlot i (storeSetup c old) = ls0 at *
  -- step 1
  obtain ⟨ls1, e1, R1⟩ : ∃ ls1, (if old.mode = c.mode then s.setLs ls0 else setupMode i (s.setLs ls0)) = s.setLs ls1 ∧
     SetupLeaves s.ls i c ls1 (if old.mode ≠ c.mode ∧ old.state = .parked ∧ wantsNow i s c.mode = true then .waiting else old.state) (if old.mode = c.mode then old.idle else 0)
      (if old.mode ≠ c.mode ∧ old.state = .parked ∧ wantsNow i s c.mode = true then insertBy (zeroAfter s.ls i c) i s.ls.queue else s.ls.queue) := by
    by_cases h : old.mode = c.mode
    · refine ⟨ls0, if_pos h, ?_⟩; simp only [h]; simpa using R0
    · obtain ⟨a, b⟩ := setupLeaves_mode R0
      refine ⟨_, (if_neg h).trans a, ?_⟩; simpa [h] using b
  rw [← one_eq] at R1
  -- step 2
  obtain ⟨ls2, e2, R2⟩ : ∃ ls2, (if old.level = c.level then s.setLs ls1 else setupLevel i (s.setLs ls1)) = s.setLs ls2 ∧
     SetupLeaves s.ls i c ls2 two 
       (if old.level ≠ c.level ∧ ((one = .running ∧ 4 - s.be.h ≤ c.level.val) ∨ (one = .shed .budget ∧ c.level.val < 4 - s.be.h)) then 0 else (if old.mode = c.mode then old.idle else 0))
       (if old.level ≠ c.level then
          (if one = .waiting then insertBy (zeroAfter s.ls i c) i (s.ls.queue.filter (· ≠ i)) else if one = .shed .budget ∧ c.level.val < 4 - s.be.h then insertBy (zeroAfter s.ls i c) i s.ls.queue else s.ls.queue)
        else (if old.mode ≠ c.mode ∧ old.state = .parked ∧ wantsNow i s c.mode = true then insertBy (zeroAfter s.ls i c) i s.ls.queue else s.ls.queue)) := by
    by_cases h : old.level = c.level
    · refine ⟨ls1, if_pos h, ?_⟩
      have : two = one := by rw [two_eq]; simp [h]
      rw [this]; simpa [h] using R1
    · obtain ⟨a, b⟩ := setupLeaves_level R1
      refine ⟨_, (if_neg h).trans a, ?_⟩
      have q1 : (if old.mode ≠ c.mode ∧ old.state = .parked ∧ wantsNow i s c.mode = true then insertBy (zeroAfter s.ls i c) i s.ls.queue else s.ls.queue).filter (· ≠ i) = s.ls.queue.filter (· ≠ i) := by
        split
        · exact filter_ne_insertBy _ _ _
        · rfl
      rw [q1] at b
      have q2 : one ≠ .waiting → (if old.mode ≠ c.mode ∧ old.state = .parked ∧ wantsNow i s c.mode = true then insertBy (zeroAfter s.ls i c) i s.ls.queue else s.ls.queue) = s.ls.queue := by
        intro n; rw [if_neg]; intro p; rw [one_eq, if_pos p] at n; exact n rfl
      have tw : two = if one = .running ∧ 4 - s.be.h ≤ c.level.val then .shed .budget else if one = .shed .budget ∧ c.level.val < 4 - s.be.h then .waiting else one := by
        rw [two_eq]
        simp only [ne_eq, h, not_false_eq_true, true_and]
      rw [← tw] at b
      have b2 := b
      rw [if_pos (show old.level ≠ c.level from h)]
      have g1 : (if old.level ≠ c.level ∧ ((one = .running ∧ 4 - s.be.h ≤ c.level.val) ∨ (one = .shed .budget ∧ c.level.val < 4 - s.be.h)) then 0 else (if old.mode = c.mode then old.idle else 0)) = (if ((one = .running ∧ 4 - s.be.h ≤ c.level.val) ∨ (one = .shed .budget ∧ c.level.val < 4 - s.be.h)) then 0 else (if old.mode = c.mode then old.idle else 0)) := by
        simp only [ne_eq, h, not_false_eq_true, true_and]
      rw [g1]
      by_cases w : one = .waiting
      · rw [if_pos w]; rw [if_pos w] at b2; exact b2
      · rw [if_neg w]; rw [if_neg w, q2 w] at b2; exact b2
  obtain ⟨ls3, e3, R3⟩ : ∃ ls3, (if old.rideThrough = true ∧ c.rideThrough = false then setupRide i (s.setLs ls2) else s.setLs ls2) = s.setLs ls3 ∧
     ∃ idle3, SetupLeaves s.ls i c ls3 three idle3 ls2.queue ∧ (idle3 = if three ≠ two then 0 else (entry ls2.slots i).idle) := by
    by_cases h : old.rideThrough = true ∧ c.rideThrough = false
    · obtain ⟨a, b⟩ := setupLeaves_ride R2
      have tr : three = (if two = .running then if s.si.senseLost = true then .shed .sense else if s.supply = .none then .shed .supply else two else two) := by
        rw [three_eq]
        simp only [h.1, h.2, true_and]
      rw [← tr, ← R2.queue] at b
      refine ⟨_, (if_pos h).trans a, _, b, ?_⟩
      · rw [tr]
        rw [R2.own]
        by_cases r : two = .running
        · by_cases l : s.si.senseLost = true
          · simp [r, l]
          · by_cases n : s.supply = .none <;> simp [r, l, n]
        · simp [r]
    · refine ⟨ls2, if_neg h, (entry ls2.slots i).idle, ?_, ?_⟩
      · have : three = two := by
          rw [three_eq, if_neg (fun x => h ⟨x.1, x.2.1⟩)]
        rw [this, R2.own]; exact ⟨R2.own, R2.other, rfl, R2.rest⟩
      · have : three = two := by
          rw [three_eq, if_neg (fun x => h ⟨x.1, x.2.1⟩)]
        simp [this]
  obtain ⟨idle3, R3, id3⟩ := R3
  have i2 := congrArg Slot.idle R2.own
  dsimp only at i2
  refine ⟨ls3, idle3, ls2.queue, ?_, R3, ?_, ?_⟩
  · dsimp only [setupKept]
    rw [e1, e2, e3]
  · rw [id3, i2]
    have nlt : (c.level.val < 4 - s.be.h) = ¬(4 - s.be.h ≤ c.level.val) := by rw [Nat.not_le]
    simp only [nlt, ne_eq] at two_eq one_eq ⊢
    simp only [← and_assoc (a := old.rideThrough = true)] at three_eq
    exact setup_idle old.state one two three old.idle one_eq two_eq three_eq
  · rw [R2.queue]
    have nlt : (c.level.val < 4 - s.be.h) = ¬(4 - s.be.h ≤ c.level.val) := by rw [Nat.not_le]
    simp only [nlt, ne_eq] at two_eq one_eq ⊢
    simp only [← and_assoc (a := old.rideThrough = true)] at three_eq
    exact setup_queue old.state one two three _ _ (insertBy (zeroAfter s.ls i c) i) nq one_eq two_eq three_eq

/-- What a whole setup leaves: the record, its state by the modes, and the queue. -/
theorem setup_shape (s : State) (i : Fin 24) (c : SlotSetup) (qi : QueueInv s.ls) :
   ∃ ls st idle band, setupSlot i c s = s.setLs ls ∧
       entry ls.slots i = { storeSetup c (entry s.ls.slots i) with state := st, idle := idle, bandCount := band } ∧ (∀ j, j ≠ i → entry ls.slots j = entry s.ls.slots j) ∧
       ls = { s.ls with slots := ls.slots, queue := ls.queue } ∧
       ls.queue = (if st ≠ .waiting then s.ls.queue.filter (· ≠ i) else if (entry s.ls.slots i).state = .waiting ∧ (entry s.ls.slots i).level = c.level then s.ls.queue
         else insertBy (zeroAfter s.ls i c) i (s.ls.queue.filter (· ≠ i))) ∧ QueueInv ls ∧
       (c.mode = .off → st = .off ∧ band = 0 ∧ idle = 0) ∧
       (c.mode ≠ .off → (entry s.ls.slots i).mode = .off → st = .waiting ∧ band = 0 ∧ idle = 0) ∧
       (c.mode ≠ .off → (entry s.ls.slots i).mode ≠ .off → ∀ one two three,
        one = (if (entry s.ls.slots i).mode ≠ c.mode ∧ (entry s.ls.slots i).state = .parked ∧ wantsNow i s c.mode = true then .waiting else (entry s.ls.slots i).state) →
        two = (if (entry s.ls.slots i).level ≠ c.level ∧ one = .running ∧ 4 - s.be.h ≤ c.level.val then .shed .budget
          else if (entry s.ls.slots i).level ≠ c.level ∧ one = .shed .budget ∧ c.level.val < 4 - s.be.h then .waiting
          else one) →
        three = (if (entry s.ls.slots i).rideThrough = true ∧ c.rideThrough = false ∧ two = .running then
            if s.si.senseLost = true then .shed .sense else if s.supply = .none then .shed .supply else two
          else two) →
         st = three ∧ band = (entry s.ls.slots i).bandCount ∧
          idle = if (entry s.ls.slots i).mode = c.mode ∧ three = (entry s.ls.slots i).state then (entry s.ls.slots i).idle else 0) := by
  by_cases hm : c.mode = .off
  · have R0 := setupLeaves_store s.ls i c
    have R1 := R0.leave (st' := .off) (by decide)
    have e : setupSlot i c s = s.setLs (clearBand i (moveSlot .off i (s.ls.setSlot i (storeSetup c (entry s.ls.slots i))))) := by
      simp only [setupSlot, hm, if_true]; rfl
    have ent := clearBand_entry i i (moveSlot .off i (s.ls.setSlot i (storeSetup c (entry s.ls.slots i))))
    have q : (clearBand i (moveSlot .off i (s.ls.setSlot i (storeSetup c (entry s.ls.slots i))))).queue = s.ls.queue.filter (· ≠ i) := by
      refine R1.queue.trans ?_
      split
      · rfl
      · rename_i w
        exact (List.filter_eq_self.mpr fun j hj => by
          simp; rintro rfl; exact w ((qi.2.1 j).mp hj)).symm
    have rest : clearBand i (moveSlot .off i (s.ls.setSlot i (storeSetup c (entry s.ls.slots i)))) = { s.ls with slots := (clearBand i (moveSlot .off i (s.ls.setSlot i (storeSetup c (entry s.ls.slots i))))).slots, queue := (clearBand i (moveSlot .off i (s.ls.setSlot i (storeSetup c (entry s.ls.slots i))))).queue } := by
      show Loads.mk _ _ _ _ _ _ _ _ = _
      conv_lhs => rw [R1.rest]
      rfl
    have oth : ∀ j, j ≠ i → entry (clearBand i (moveSlot .off i (s.ls.setSlot i (storeSetup c (entry s.ls.slots i))))).slots j = entry s.ls.slots j := fun j hj => by
      refine ((clearBand_entry i j _).trans (if_neg hj)).trans (R1.other j hj)
    have own : entry (clearBand i (moveSlot .off i (s.ls.setSlot i (storeSetup c (entry s.ls.slots i))))).slots i = { storeSetup c (entry s.ls.slots i) with state := .off, idle := 0, bandCount := 0 } := by
      rw [ent, if_pos rfl, R1.own]
    refine ⟨_, .off, 0, 0, e, own, oth, rest, by rw [q]; simp, ?_, fun _ => ⟨rfl, rfl, rfl⟩, fun h => absurd hm h, fun h => absurd hm h⟩
    have Q1 : QueueInv (moveSlot .off i (s.ls.setSlot i (storeSetup c (entry s.ls.slots i)))) := by
      refine setupLeaves_queueInv R1 qi (by simp [hm]) ?_
      rw [if_pos (by decide : SlotState.off ≠ .waiting)]
      split
      · rfl
      · rename_i w
        exact (List.filter_eq_self.mpr fun j hj => by
          simp; rintro rfl; exact w ((qi.2.1 j).mp hj)).symm
    refine queueInv_of_same Q1 rfl fun j => ?_
    by_cases hj : j = i
    · subst hj; rw [ent, if_pos rfl]; exact ⟨rfl, rfl, rfl⟩
    · rw [(clearBand_entry i j _).trans (if_neg hj)]; exact ⟨rfl, rfl, rfl⟩
  · by_cases om : (entry s.ls.slots i).mode = .off
    · have R0 := setupLeaves_store s.ls i c
      have so : (entry s.ls.slots i).state = .off := (qi.2.2.2 i).mpr om
      have nw : (entry s.ls.slots i).state ≠ .waiting := by rw [so]; decide
      have e : setupSlot i c s = s.setLs (moveSlot .waiting i (clearBand i (s.ls.setSlot i (storeSetup c (entry s.ls.slots i))))) := by
        simp only [setupSlot, hm, om, if_true, if_false]; rfl
      let cb := clearBand i (s.ls.setSlot i (storeSetup c (entry s.ls.slots i)))
      have ent : entry cb.slots i = { storeSetup c (entry s.ls.slots i) with bandCount := 0 } := by
        refine ((clearBand_entry i i _).trans (if_pos rfl)).trans ?_
        rw [R0.own]; rfl
      have oth : ∀ j, j ≠ i → entry cb.slots j = entry s.ls.slots j := fun j hj => ((clearBand_entry i j _).trans (if_neg hj)).trans (R0.other j hj)
      have lv : isLevelZero cb = zeroAfter s.ls i c := by
        funext j; unfold isLevelZero zeroAfter
        by_cases hj : j = i
        · subst hj; rw [ent, if_pos rfl]; rfl
        · rw [oth j hj, if_neg hj]; rfl
      have qq : s.ls.queue.filter (· ≠ i) = s.ls.queue := List.filter_eq_self.mpr fun j hj => by
          simp; rintro rfl; exact nw ((qi.2.1 j).mp hj)
      have q : (moveSlot .waiting i cb).queue = insertBy (zeroAfter s.ls i c) i (s.ls.queue.filter (· ≠ i)) := by
        rw [moveSlot_queue_join, lv, if_neg, qq]
        · rfl
        · rw [ent]; exact nw
      have ee : ∀ j, entry (moveSlot .waiting i cb).slots j = _ := fun j => moveSlot_entry .waiting i j cb
      have own : entry (moveSlot .waiting i cb).slots i = { storeSetup c (entry s.ls.slots i) with state := .waiting, idle := 0, bandCount := 0 } := by
        rw [ee, if_pos rfl, ent]
      have oth' : ∀ j, j ≠ i → entry (moveSlot .waiting i cb).slots j = entry s.ls.slots j := fun j hj => by rw [ee, if_neg hj]; exact oth j hj
      have rest : moveSlot .waiting i cb = { s.ls with slots := (moveSlot .waiting i cb).slots, queue := (moveSlot .waiting i cb).queue } := moveSlot_rest _ _ _
      refine ⟨moveSlot .waiting i cb, .waiting, 0, 0, e, own, oth', rest, ?_, ?_, fun h => absurd h hm, fun _ _ => ⟨rfl, rfl, rfl⟩, fun _ h => absurd om h⟩
      · rw [q, if_neg (by decide), if_neg (fun x => nw x.1)]
      · generalize moveSlot .waiting i cb = ms at *
        have R : SetupLeaves s.ls i c { ms with slots := setEntry ms.slots i { storeSetup c (entry s.ls.slots i) with state := .waiting, idle := 0 } } .waiting 0 ms.queue := by
          refine ⟨entry_setEntry_same _ _ _, fun j hj => (entry_setEntry_other _ _ hj).trans (oth' j hj), rfl, ?_⟩
          conv_lhs => rw [rest]
        have Q := setupLeaves_queueInv R qi (by simp [hm]) (by rw [q, if_neg (by decide), if_neg (fun x => nw x.1)])
        refine queueInv_of_same (ls := { ms with slots := setEntry ms.slots i { storeSetup c (entry s.ls.slots i) with state := .waiting, idle := 0 } }) Q rfl fun j => ?_
        by_cases hj : j = i
        · subst hj; rw [own]
          have := entry_setEntry_same ms.slots j { storeSetup c (entry s.ls.slots j) with state := .waiting, idle := 0 }
          refine ⟨?_, ?_, ?_⟩ <;> (refine Eq.trans ?_ (congrArg _ this.symm); rfl)
        · have := entry_setEntry_other (j := j) ms.slots { storeSetup c (entry s.ls.slots i) with state := .waiting, idle := 0 } hj
          refine ⟨?_, ?_, ?_⟩ <;> exact congrArg _ this.symm
    · obtain ⟨ls, idle, q, h1, h2, h3, h4⟩ := setupKept_leaves s i c qi hm om _ _ _ _ rfl rfl rfl rfl
      have so : (entry s.ls.slots i).state ≠ .off := fun h => om ((qi.2.2.2 i).mp h)
      refine ⟨ls, _, idle, (entry s.ls.slots i).bandCount, h1, h2.own, h2.other, h2.rest, h2.queue.trans h4, setupLeaves_queueInv h2 qi ?_ h4, fun h => absurd h hm, fun _ h => absurd h om, fun _ _ one two three e1 e2 e3 => ?_⟩
      · simp only [hm, iff_false]
        split_ifs <;> first | exact so | (intro h; cases h) | skip
      · subst e1 e2 e3; exact ⟨rfl, rfl, h3⟩

end Sys2Proof.Machine
end

