-- ==== Sys2Proof/Laws/Steps.lean ====
section
/-! SUPPORT. What a step can do, said once: every command is one of a few changes, so a property that each of those
changes keeps is kept by every step. -/

namespace Sys2Proof.Machine

theorem whilePowered_keeps {P : State → Prop} {f : State → State} {s t : State} (h : P s)
    (k : s.resetPin = false → P (f s)) (e : whilePowered f s = .next t) : P t := by
  unfold whilePowered at e
  cases e
  split
  · exact h
  · rename_i n
    exact k (by simpa using n)

theorem whenDue_keeps {P : State → Prop} {due : Bool} {f : State → State} {s : State} (h : P s)
    (k : due = true → P (f s)) : P (whenDue due f s) := by
  unfold whenDue
  split
  · rename_i d
    exact k d
  · exact h

/-- A property that no write of a port breaks, and that every owning block's answer keeps, is kept by a completed
frame. -/
theorem completeFrame_keeps {P : State → Prop} (port : ∀ s x, P s → P (s.setLp x))
    (own : ∀ k l p s, P s → P (ownerAnswer k l p s).state) {s : State} (h : P s) (l : Link) (code : Byte)
    (body : RequestBody) : P (completeFrame l code body s) := by
  unfold completeFrame enterTurnaround
  refine port _ _ ?_
  unfold takeRequest
  split
  · split
    · exact port _ _ h
    · split
      · split
        · exact own _ _ _ _ (port _ _ h)
        · exact port _ _ h
      · exact port _ _ h
  · exact port _ _ (port _ _ h)

theorem releaseSelect_keeps {P : State → Prop} (port : ∀ s x, P s → P (s.setLp x)) {s : State} (h : P s) (l : Link)
    (edges : BitVec 3) : P (releaseSelect l edges s) := by
  unfold releaseSelect
  refine port _ _ ?_
  split
  · exact port _ _ h
  · exact h

theorem assertSelect_keeps {P : State → Prop} (port : ∀ s x, P s → P (s.setLp x)) {s : State} (h : P s) (l : Link) :
    P (assertSelect l s) := by
  unfold assertSelect
  dsimp only
  split
  · exact h
  · exact port _ _ h

theorem frameOnLink_keeps {P : State → Prop} (port : ∀ s x, P s → P (s.setLp x))
    (own : ∀ k l p s, P s → P (ownerAnswer k l p s).state) {s : State} (h : P s) (l : Link) (code : Byte)
    (body : RequestBody) : P (frameOnLink l code body s) := by
  have o := assertSelect_keeps port (releaseSelect_keeps port h l 0) l
  unfold frameOnLink
  dsimp only
  split
  · exact completeFrame_keeps port own o l code body
  · exact port _ _ (port _ _ (port _ _ o))

theorem byteCompletes_keeps {P : State → Prop} (port : ∀ s x, P s → P (s.setLp x))
    (own : ∀ k l p s, P s → P (ownerAnswer k l p s).state) {s : State} (h : P s) (l : Link) (b : Byte) :
    P (byteCompletes l b s) := by
  unfold byteCompletes
  dsimp only
  split
  · exact h
  · unfold requestByte
    dsimp only
    split
    · exact port _ _ (port _ _ h)
    · split
      · exact completeFrame_keeps port own h l _ _
      · exact port _ _ h
  · split <;> exact port _ _ h
  · split <;> exact port _ _ h
  · exact port _ _ h

/-! ### The collector states in which its counting events are due -/

theorem presentDue_state {x : Sample} {s : State} (d : presentDue x s = true) :
    s.cm.state ∈ [.raising, .gap, .suspect] := by
  unfold presentDue at d
  simp only [Bool.and_eq_true, decide_eq_true_eq] at d
  simpa using d.1.1.2

theorem confirmDue_state {x : Sample} {s : State} (d : confirmDue x s = true) :
    s.cm.state ∈ [.raising, .gap, .suspect] := by
  unfold confirmDue at d
  simp only [Bool.and_eq_true, decide_eq_true_eq] at d
  simp [d.1.1.2]

theorem raiseLimitDue_state {s : State} (d : raiseLimitDue s = true) : s.cm.state ∈ [.raising, .gap, .suspect] := by
  unfold raiseLimitDue at d
  simp only [Bool.and_eq_true, decide_eq_true_eq] at d
  simp [d.1.2]

theorem unloadLimitDue_state {s : State} (d : unloadLimitDue s = true) : s.cm.state = .unloading := by
  unfold unloadLimitDue at d
  simp only [Bool.and_eq_true, decide_eq_true_eq] at d
  exact d.1.2

/-- The changes that commands are made of, each keeping a property. -/
structure Kept (P : State → Prop) : Prop where
  port : ∀ s x, P s → P (s.setLp x)
  pending : ∀ s x, P s → P (s.setPending x)
  powerOn : ∀ sel q, P (State.powerOn true sel q)
  release : ∀ s, P s → s.resetPin = true → P (releasePin s)
  tick : ∀ s, P s → P (tick s)
  expire : ∀ ch s, P s → silenceDue ch s = true → P (failChannel ch .silence s)
  rx : ∀ s x, P s → P (s.setSi { s.si with rx := x })
  frame : ∀ ch f s, P s → s.si.rx.get ch = some f → P (frameArrives ch f s)
  share : ∀ x s, P s → s.cm.state ∈ [.raising, .gap, .suspect] → P (collectorShare x s)
  unload : ∀ x s, P s → s.cm.state = .unloading → P (unloadShare x s)
  wrap : ∀ g s, P s → P (wrapGen g s)
  idle : ∀ i s, P s → idleDue i s = true → P (s.setLs (idlePark i s.ls))
  observe : ∀ s, P s → P (endObservation s)
  window : ∀ v s, P s → P (windowStep v s)
  freeze : ∀ s, P s → freezeDue s = true → P (frozenComputation s)
  start : ∀ s, P s → startDue s = true → P (startHead s)
  own : ∀ k l p s, P s → P (ownerAnswer k l p s).state

theorem Kept.expireSilence {P : State → Prop} (k : Kept P) (ch : Channel) {s : State} (h : P s) :
    P (expireSilence ch s) :=
  whenDue_keeps h (k.expire ch s h)

/-- A property kept by each change is kept by every command. -/
theorem Kept.exec {P : State → Prop} (k : Kept P) {c : Instr} {s t : State} (h : P s) (e : exec c s = .next t) : P t := by
  have req : ∀ kd l body, requestCommand kd l body s = .next t → P t := fun kd l body r =>
    whilePowered_keeps h (fun _ => frameOnLink_keeps k.port k.own h l _ body) r
  cases c with
  | powerOnReset => cases e; exact k.powerOn _ _
  | resetRelease => cases e; exact whenDue_keeps h (k.release s h)
  | millisecondTick =>
    refine whilePowered_keeps (f := fun s => Machine.tick (takeOverdue s)) h (fun _ => k.tick _ ?_) e
    unfold takeOverdue
    dsimp only
    split <;> exact k.expireSilence _ (k.expireSilence _ h)
  | sampleFrame ch =>
    refine whilePowered_keeps h (fun _ => ?_) e
    unfold closeFrame
    split
    · exact h
    · rename_i f hf
      exact k.frame ch f s h hf
  | presentCountReached x => exact whilePowered_keeps h (fun _ => whenDue_keeps h fun d => k.share x s h (presentDue_state d)) e
  | confirmCountReached x => exact whilePowered_keeps h (fun _ => whenDue_keeps h fun d => k.share x s h (confirmDue_state d)) e
  | raiseLimitExpiry x =>
    exact whilePowered_keeps h (fun _ => whenDue_keeps h fun d => k.share x s h (raiseLimitDue_state d)) e
  | unloadLimitExpiry x =>
    exact whilePowered_keeps h (fun _ => whenDue_keeps h fun d => k.unload x s h (unloadLimitDue_state d)) e
  | cyclePeriodWrap g => exact whilePowered_keeps h (fun _ => whenDue_keeps h fun _ => k.wrap g s h) e
  | idleLimitPark i => exact whilePowered_keeps h (fun _ => whenDue_keeps h (k.idle i s h)) e
  | observationPeriodEnd => exact whilePowered_keeps h (fun _ => whenDue_keeps h fun _ => k.observe s h) e
  | derateWindowEnd v => exact whilePowered_keeps h (fun _ => whenDue_keeps h fun _ => k.window v s h) e
  | freezeLimitReached => exact whilePowered_keeps h (fun _ => whenDue_keeps h (k.freeze s h)) e
  | slotStart => exact whilePowered_keeps h (fun _ => whenDue_keeps h (k.start s h)) e
  | silenceTimerExpiry ch => exact whilePowered_keeps h (fun _ => k.expireSilence ch h) e
  | selectAsserted l =>
    cases e
    split
    · exact k.port _ _ h
    · exact assertSelect_keeps k.port h l
  | selectReleased l edges =>
    cases e
    split
    · exact k.port _ _ h
    · exact releaseSelect_keeps k.port h l edges
  | requestLengthOverrange l n =>
    exact whilePowered_keeps h (fun _ => whenDue_keeps h fun _ => k.port _ _ (k.port _ _ h)) e
  | frameAbandoned l edges =>
    exact whilePowered_keeps h (fun _ => whenDue_keeps h fun _ => releaseSelect_keeps k.port h l edges) e
  | unknownKind l code body =>
    exact whilePowered_keeps h (fun _ => frameOnLink_keeps k.port k.own h l code body) e
  | senseCharacter ch c stop =>
    exact whilePowered_keeps (f := fun s => s.setSi { s.si with
      rx := s.si.rx.put ch (receiveChar c stop (s.si.rx.get ch)) }) h (fun _ => k.rx s _ h) e
  | linkByteComplete l b => exact whilePowered_keeps h (fun _ => byteCompletes_keeps k.port k.own h l b) e
  | readStatus l body => exact req _ _ _ e
  | readBudget l body => exact req _ _ _ e
  | dropSeen l body => exact req _ _ _ e
  | takeAlarm l body => exact req _ _ _ e
  | doneAlarm l body => exact req _ _ _ e
  | tractionRequest l body => exact req _ _ _ e
  | loadSetup l body => exact req _ _ _ e
  | loadDemand l body => exact req _ _ _ e
  | loadReEnable l body => exact req _ _ _ e
  | readLoads l body => exact req _ _ _ e
  | raise l body => exact req _ _ _ e
  | lower l body => exact req _ _ _ e
  | clearDrop l body => exact req _ _ _ e
  | readDropLog l body => exact req _ _ _ e
  | popDropLog l body => exact req _ _ _ e
  | setPosition l body => exact req _ _ _ e
  | restoreChannel l body => exact req _ _ _ e
  | featurePut l body => exact req _ _ _ e
  | featureEvict l body => exact req _ _ _ e
  | featureRead l body => exact req _ _ _ e
  | tableClear l body => exact req _ _ _ e
  | armedRead l body => exact req _ _ _ e
  | zoneSet l body => exact req _ _ _ e
  | zoneRead l body => exact req _ _ _ e
  | clearConditions l body => exact req _ _ _ e
  | alarmRouteSet l body => exact req _ _ _ e
  | readAlarmRoutes l body => exact req _ _ _ e
  | setParam l body => exact req _ _ _ e
  | readParam l body => exact req _ _ _ e
  | reinit l body => exact req _ _ _ e

/-- A property kept by each change is kept by every step. -/
theorem Kept.step {P : State → Prop} (k : Kept P) {s t : State} (h : P s) (e : step s = .next t) : P t := by
  unfold Machine.step at e
  split at e
  · cases e
    exact h
  · exact k.exec (k.pending _ _ h) e

end Sys2Proof.Machine
end

