-- ==== Sys2Proof/Laws/Views.lean ====
section
/-! SUPPORT. What the views, the packings and the conditions of the model say, in the terms that statements use. -/

namespace Sys2Proof.Machine

/-! ### Packing -/

/-- A packed byte is the sum of its fields at their bits. -/
theorem packByte_eq (fs : List (Nat × Nat)) : packByte fs = BitVec.ofNat 8 (fs.map fun f => f.1 * 2 ^ f.2).sum := by
  unfold packByte byteOf
  have : ∀ (l : List (Nat × Nat)) a, l.foldl (fun acc f => acc + f.1 * 2 ^ f.2) a = a + (l.map fun f => f.1 * 2 ^ f.2).sum := by
    intro l; induction l with
    | nil => simp
    | cons x l ih => intro a; rw [List.foldl_cons, ih, List.map_cons, List.sum_cons]; omega
  rw [this, Nat.zero_add]

/-- A 24-bit value as the three bytes of a payload. -/
theorem three_bytes_eq (m : Nat) : (BitVec.ofNat 8 (m / 65536) ++ BitVec.ofNat 8 (m / 256) ++ BitVec.ofNat 8 m : BitVec 24) = BitVec.ofNat 24 m := by
  apply BitVec.eq_of_toNat_eq
  simp only [BitVec.toNat_append, BitVec.toNat_ofNat]
  rw [← Nat.shiftLeft_add_eq_or_of_lt (by omega), ← Nat.shiftLeft_add_eq_or_of_lt (by omega)]
  simp only [Nat.shiftLeft_eq]
  omega

/-- The bits of a sum of powers of two, one per index that passes. -/
theorem testBit_sum_pow (g : Nat → Bool) (n : Nat) : (((List.range n).map fun k => if g k then 2 ^ k else 0).sum < 2 ^ n) ∧
   ∀ i, (((List.range n).map fun k => if g k then 2 ^ k else 0).sum).testBit i = (decide (i < n) && g i) := by
  induction n with
  | zero => simp
  | succ n ih =>
    obtain ⟨lt, tb⟩ := ih
    rw [List.range_succ, List.map_append, List.sum_append]
    simp only [List.map_cons, List.map_nil, List.sum_cons, List.sum_nil, Nat.add_zero]
    generalize ((List.range n).map fun k => if g k then 2 ^ k else 0).sum = S at *
    refine ⟨by rw [pow_succ]; split <;> omega, fun i => ?_⟩
    cases hg : g n
    · simp only [Bool.false_eq_true, if_false, Nat.add_zero]
      rw [tb]
      by_cases h : i = n
      · subst h; simp [hg]
      · have : (decide (i < n) : Bool) = decide (i < n + 1) := by simp; omega
        rw [this]
    · simp only [if_true]
      rw [Nat.add_comm]
      rcases Nat.lt_trichotomy i n with h | h | h
      · rw [Nat.testBit_two_pow_add_gt h, tb]; simp [h, Nat.lt_succ_of_lt h]
      · subst h; rw [Nat.testBit_two_pow_add_eq, tb]; simp [hg]
      · have : 2 ^ n + S < 2 ^ i := lt_of_lt_of_le (by rw [pow_succ]; omega : 2 ^ n + S < 2 ^ (n + 1)) (Nat.pow_le_pow_right (by decide) h)
        rw [Nat.testBit_lt_two_pow this]
        have : ¬ i < n + 1 := by omega
        simp [this]

/-- R115: a bit of the permit set is the permit of its slot. -/
theorem testBit_permitMask (ls : Loads) (i : Fin 24) : (permitMask ls).testBit i.val = permit ls i := by
  have e : permitMask ls = ((List.range 24).map fun k => if (if h : k < 24 then permit ls ⟨k, h⟩ else false) then 2 ^ k else 0).sum := by
    unfold permitMask
    rw [show slotNumbers = List.finRange 24 by decide]
    congr 1
  rw [e, (testBit_sum_pow _ 24).2]
  simp

/-- A byte that carries a number below 256 given as a byte's value. -/
theorem byteOf_eq {n : Nat} {b : Byte} (h : n = b.toNat) : byteOf n = b := by
  unfold byteOf; apply BitVec.eq_of_toNat_eq; simp; omega

/-! ### Vectors, events, presence -/

/-- The entries of an indexed register, in order. -/
theorem toList_eq_entries {α} {n} (v : Vector α n) : v.toList = (List.finRange n).map (entry v) := by
  apply List.ext_getElem
  · simp
  · intro i h1 h2; simp [entry]

/-- An event that is due acts, and one that is not changes nothing (log 5). -/
theorem whilePowered_whenDue {f : State → State} {due : Bool} {p : Prop} {s : State} (on : s.resetPin = false) (h : due = true ↔ p) :
    (p → whilePowered (fun s => whenDue due f s) s = .next (f s)) ∧
      (¬p → whilePowered (fun s => whenDue due f s) s = .next s) := by
  constructor
  · intro k; simp [whilePowered, whenDue, on, h.2 k]
  · intro k
    have : due = false := by cases e : due; rfl; exact absurd (h.1 e) k
    simp [whilePowered, whenDue, on, this]

/-- R48: V is present: valid and at or above the limit. -/
theorem presenceOf_present (limit : Nat) (v : Option (BitVec 10)) :
    presenceOf limit v = .present ↔ ∃ x, v = some x ∧ limit ≤ x.toNat := by
  cases v with
  | none => simp [presenceOf]
  | some x => simp only [presenceOf]; split <;> simp_all

/-- R48: V is absent: valid and below the limit. -/
theorem presenceOf_absent (limit : Nat) (v : Option (BitVec 10)) :
    presenceOf limit v = .absent ↔ ∃ x, v = some x ∧ x.toNat < limit := by
  cases v with
  | none => simp [presenceOf]
  | some x =>
    simp only [presenceOf]
    split
    · rename_i h; simp; omega
    · rename_i h; simp; omega

/-! ### Route features -/

/-- R39: a FROG in the armed list. -/
theorem frogEffective_iff (armed : List ArmedCopy) : frogEffective armed = true ↔ ∃ c ∈ armed, c.kind = .frog := by
  simp [frogEffective]

/-- R39: a feature other than a FROG in the armed list. -/
theorem gapExpected_iff (armed : List ArmedCopy) : gapExpected armed = true ↔ ∃ c ∈ armed, c.kind ≠ .frog := by
  have : ∀ k : FeatureKind, (k = .sectionGap ∨ k = .crossing ∨ k = .learnedGap) ↔ k ≠ .frog := by intro k; cases k <;> simp
  simp [gapExpected, this]

/-- R42: an entry of a kind that matches at P. -/
theorem zoneMatches_kind (k : ZoneKind) (s : State) (i : Fin 8) :
    (zoneMatches s.pt (entry s.rft.zones i) && decide ((entry s.rft.zones i).kind = k)) = true ↔ (entry s.rft.zones i).kind = k ∧
      (entry s.rft.zones i).enable = true ∧ s.pt.isSet = true ∧
      (BitVec.ofNat 12 (s.pt.metre / 16) ^^^ (entry s.rft.zones i).base) &&& (entry s.rft.zones i).mask = 0 := by
  simp [zoneMatches, segmentOf, and_assoc]
  tauto

/-- The tag of a metre. -/
theorem tagOf_eq (m : Nat) : tagOf m = m / 1024 := by unfold tagOf segmentOf; omega

/-- R37: a copy placed in the armed list is one more copy. -/
theorem placeCopy_perm (c : ArmedCopy) (l : List ArmedCopy) : (placeCopy c l).Perm (c :: l) := by
  unfold placeCopy
  refine List.perm_middle.trans (List.Perm.cons c ?_)
  rw [List.takeWhile_append_dropWhile]

/-- R37: a copy placed in a list in ascending start order keeps the order. -/
theorem placeCopy_sorted (c : ArmedCopy) {l : List ArmedCopy} (h : l.Pairwise (fun a b => a.start ≤ b.start)) :
    (placeCopy c l).Pairwise (fun a b => a.start ≤ b.start) := by
  unfold placeCopy
  induction l with
  | nil => simp
  | cons a l ih =>
    rw [List.pairwise_cons] at h
    by_cases p : a.start ≤ c.start
    · simp only [List.takeWhile_cons, List.dropWhile_cons, p, decide_true, if_true, List.cons_append]
      rw [List.pairwise_cons]
      refine ⟨fun b hb => ?_, ih h.2⟩
      have := (placeCopy_perm c l).mem_iff.mp (by exact hb)
      rcases List.mem_cons.mp this with e | e
      · rw [e]; exact p
      · exact h.1 b e
    · simp only [List.takeWhile_cons, List.dropWhile_cons, p, decide_false, Bool.false_eq_true, if_false, List.nil_append]
      refine List.pairwise_cons.mpr ⟨fun b hb => ?_, List.pairwise_cons.mpr h⟩
      rcases List.mem_cons.mp hb with e | e
      · subst e; omega
      · have := h.1 b e; omega

/-! ### Alarms -/

/-- R161: which entry is eligible against a stack. -/
theorem eligible_iff (stack : List AlarmFrame) (e : PendingEntry) :
    eligible stack e = true ↔ e.pending = true ∧ ∀ f, stack.getLast? = some f →
      e.level < f.level ∨ (e.level = 0 ∧ f.level = 0) := by
  unfold eligible
  cases stack.getLast? <;> simp

/-- R162: when the attention line is asserted. -/
theorem attention_iff {b : LinkAlarms} (h : b.attention = wantsAttention b) :
    b.attention = true ↔ b.stack.length < 4 ∧ ∃ m, (entry b.pending m).pending = true ∧ ∀ f, b.stack.getLast? = some f →
        (entry b.pending m).level < f.level ∨ ((entry b.pending m).level = 0 ∧ f.level = 0) := by
  rw [h, wantsAttention_iff]; simp only [eligible_iff]

/-- The number of pending entries. -/
theorem pendingCount_eq (b : LinkAlarms) : pendingCount b = (List.finRange 16).countP fun m => (entry b.pending m).pending := by
  have : sourceNumbers = List.finRange 16 := by decide
  rw [← this]; rfl

/-! ### Parameters (R187) -/

theorem fitParam_dMin (st : Vector Nat 52) (v : Nat) : fitParam st 29 v = min v (entry st 30) := by
  show min (max v 0) (entry st 30) = _
  rw [Nat.max_zero]

theorem fitParam_dMax (st : Vector Nat 52) (v : Nat) (h : entry st 29 ≤ 15) : fitParam st 30 v = max (min v 15) (entry st 29) := by
  show min (max v (entry st 29)) 15 = _
  omega

theorem fitParam_cycleAOn (st : Vector Nat 52) (v : Nat) : fitParam st 50 v = min v (entry st 48) := by
  show min (max v 0) (entry st 48) = _
  rw [Nat.max_zero]

theorem fitParam_cycleBOn (st : Vector Nat 52) (v : Nat) : fitParam st 51 v = min v (entry st 49) := by
  show min (max v 0) (entry st 49) = _
  rw [Nat.max_zero]

theorem fitParam_learnFactor (st : Vector Nat 52) (v : Nat) : fitParam st 17 v = if 16 < v then 16 else v - v % 4 := by
  show min (v / 4 * 4) 16 = _
  split <;> omega

theorem paramBounds_other (st : Vector Nat 52) (n : Fin 52) (h : n ∉ ([50, 51, 29, 30] : List (Fin 52))) :
    paramBounds st n = ((entry paramTable n).lower, (entry paramTable n).upper) := by
  simp at h
  have a : n ≠ paramNumber .dMin := h.2.2.1
  have b : n ≠ paramNumber .dMax := h.2.2.2
  have c : n ≠ paramNumber .cycleAOn := h.1
  have d : n ≠ paramNumber .cycleBOn := h.2.1
  simp only [paramBounds, a, b, c, d, if_false]

theorem paramTable_ordered (n : Fin 52) : (entry paramTable n).lower ≤ (entry paramTable n).upper := by revert n; decide

theorem fitParam_other (st : Vector Nat 52) (n : Fin 52) (v : Nat) (h : n ∉ ([17, 50, 51, 29, 30] : List (Fin 52))) :
    fitParam st n v = if v < (entry paramTable n).lower then (entry paramTable n).lower
        else if (entry paramTable n).upper < v then (entry paramTable n).upper else v := by
  have e : n ≠ paramNumber .learnFactor := by simp at h; exact h.1
  have := paramTable_ordered n
  simp only [fitParam, paramBounds_other st n (by simp at h ⊢; tauto), e, if_false]
  split <;> (try split) <;> omega

end Sys2Proof.Machine
end

