-- ==== Sys2Proof/WellFormed.lean ====
section
/-! DEFINITION. Which commands are well formed: the conditions under which the spec's row describes the command.
Every other operand is bounded by its type. -/

namespace Sys2Proof

/-- R171: a framed request carries 0 to 28 payload bytes. -/
def RequestBody.wellFormed (b : RequestBody) : Bool := decide (b.payload.length ≤ 28)

/-- A command is well formed when its operands are those its row is about: a request frame of at most 28 payload
bytes (R171), an over-range length byte above 28 (R171), an unknown kind that is in no row of Table 9-3 (R175). -/
def Instr.wellFormed : Instr → Bool
  | .requestLengthOverrange _ n => decide (28 < n.toNat)
  | .unknownKind _ code body => (Machine.kindOfCode code).isNone && body.wellFormed
  | .readStatus _ b | .readBudget _ b | .dropSeen _ b | .takeAlarm _ b | .doneAlarm _ b | .tractionRequest _ b
  | .loadSetup _ b | .loadDemand _ b | .loadReEnable _ b | .readLoads _ b | .raise _ b | .lower _ b
  | .clearDrop _ b | .readDropLog _ b | .popDropLog _ b | .setPosition _ b | .restoreChannel _ b
  | .featurePut _ b | .featureEvict _ b | .featureRead _ b | .tableClear _ b | .armedRead _ b | .zoneSet _ b
  | .zoneRead _ b | .clearConditions _ b | .alarmRouteSet _ b | .readAlarmRoutes _ b | .setParam _ b
  | .readParam _ b | .reinit _ b => b.wellFormed
  | .powerOnReset | .resetRelease | .millisecondTick | .sampleFrame _ | .presentCountReached _
  | .confirmCountReached _ | .raiseLimitExpiry _ | .unloadLimitExpiry _ | .cyclePeriodWrap _ | .idleLimitPark _
  | .observationPeriodEnd | .derateWindowEnd _ | .freezeLimitReached | .slotStart | .silenceTimerExpiry _
  | .selectAsserted _ | .frameAbandoned _ _ | .selectReleased _ _ | .senseCharacter _ _ _
  | .linkByteComplete _ _ => true

end Sys2Proof
end

