-- ==== Sys2Proof/Tests/Slice0.lean ====
section
/-! SUPPORT. Tests of the model on small states: the smoke test of the well-formedness checks, rows of the spec's worked
examples, and for each statement with hypotheses a witness that they can be met. -/

open Sys2Proof Sys2Proof.Machine

namespace Sys2Proof.Tests

set_option Elab.async false

/-! ### Helpers -/

/-- A request frame of a kind with a good check. -/
def request (k : Kind) (p : List Byte) : RequestBody := ⟨p, crc (kindCode k :: byteOf p.length :: p)⟩

theorem framed (k : Kind) (p : List Byte) (h : p.length = kindLength k) : FramedAs k (request k p) := ⟨h, rfl⟩

/-- A state whose ports and reset pin are as after reset has free links. -/
theorem free (l : Link) {s : State} (p : s.resetPin = false) (q : s.lp = State.reset.lp) : LinkFree l s := by
  refine ⟨p, ?_, ?_⟩ <;> rw [q] <;> cases l <;> rfl

/-- What a command leaves, read through a function. -/
def after {α : Type} (c : Instr) (s : State) (f : State → α) : Option α :=
  match exec c s with
  | .next t => some (f t)
  | .fault _ | .refused _ => none

/-- The result code and payload of the reply on a link. -/
def answered (l : Link) (t : State) : List Byte := ((t.lp.get l).reply.drop 3).dropLast

/-- The reset state in a collector state. -/
def inState (c : CollectorState) : State :=
  let mask := if c = .dropped then some DropPoles.pos else none
  State.reset.setCm { State.reset.cm with
    state := c, dropMask := mask, lines := linesOf c mask 0, lossEpoch := if c = .suspect then some 0 else none }

theorem inState_inv (c : CollectorState) : CollectorInv (inState c).cm := by
  unfold CollectorInv
  cases c <;> decide

/-- A sample with every field valid: V 700, I 0, elevations 500, laterals 0. -/
def sample : Sample := ⟨0, some 700, some 0, some 500, some 500, some 0, some 0, 0, 0⟩

/-- A state whose channel A holds this open frame. -/
def holding (f : OpenFrame) (s : State) : State := s.setSi { s.si with rx := ⟨some f, none⟩ }

/-- The closed frame of a sample. -/
def frameOf (x : Sample) : OpenFrame := ⟨encodeSample x, 13, false⟩

/-- A state with channel A's counter at a value. -/
def withCounter (n : Nat) (s : State) : State :=
  s.setSi { s.si with chan := { s.si.chan with a := { s.si.chan.a with plaus := n } } }

/-- SENSE_LOST: both channels FAILED, none active. -/
def lost : State :=
  State.reset.setSi { State.reset.si with
    chan := ⟨{ resetChannel with health := .failed, reason := some .silence },
      { resetChannel with health := .failed, reason := some .silence }⟩
    active := none, senseLost := true }

/-- The reset state with one slot written, and a queue. -/
def withSlot (i : Fin 24) (sl : Slot) (q : List (Fin 24)) (s : State) : State :=
  s.setLs { s.ls with slots := setEntry s.ls.slots i sl, queue := q }

/-! ### The well-formedness checks refuse ill-formed terms -/

theorem test_wellFormed_refuses_long_payload :
    (Instr.readStatus .t ⟨List.replicate 29 0, 0⟩).wellFormed = false ∧
      (Instr.readStatus .t ⟨List.replicate 28 0, 0⟩).wellFormed = true := by decide +kernel

theorem test_wellFormed_refuses_length_in_range :
    (Instr.requestLengthOverrange .t 28).wellFormed = false ∧ (Instr.requestLengthOverrange .t 29).wellFormed = true := by
  decide +kernel

theorem test_wellFormed_refuses_known_code :
    (Instr.unknownKind .t 0x30 ⟨[], 0⟩).wellFormed = false ∧ (Instr.unknownKind .t 0x00 ⟨[], 0⟩).wellFormed = true := by
  decide +kernel

theorem test_no_word_spells_a_command : decodeTableWord 0 0 = none ∧ decodeTableWord 32 0xC3 = none := by decide +kernel

/-! ### Rows of the spec's examples -/

/-- 01, example of a channel wearing out: a counter of 36 and a bad check give 38, and no epoch. -/
theorem test_bad_frame_counts_two :
    after (.sampleFrame .a) (holding ⟨[0xC3], 1, false⟩ (withCounter 36 State.reset))
      (fun t => (t.si.chan.a.plaus, t.si.epoch)) = some (38, 0) := by decide +kernel

/-- The same example: at 40 the implausible frame fails channel A, and B becomes active. -/
theorem test_counter_above_limit_fails_over :
    after (.sampleFrame .a) (holding (frameOf { sample with v := some 1010 }) (withCounter 40 State.reset))
      (fun t => (t.si.chan.a.plaus, t.si.chan.a.health, t.si.active, t.si.epoch)) =
        some (42, .failed, some .b, 0) := by decide +kernel

/-- 01, example of the position: P 1201, remainder 32, increment 255 give P 1203, remainder 87; from 65534 and 150 cm,
65535 and 50. -/
theorem test_position_example :
    advancePosition 255 ⟨1201, 32, true⟩ = ⟨1203, 87, true⟩ ∧
      advancePosition 150 ⟨65534, 0, true⟩ = ⟨65535, 50, true⟩ := by decide +kernel

/-- 02, example of one set under pressure: 2950 CROSSING with factor 10 goes to set 56 with factor 8, CLAMPED. -/
theorem test_feature_put_clamps :
    after (.featurePut .v (request .featurePut [0x0B, 0x86, 20, 1, 10, 1])) State.reset
      (fun t => (answered .v t, (entry t.rft.points 56).way0, t.rft.lockCount)) =
        some ([1, 4, 56, 0, 8, 1], ⟨true, 2950, 20, .crossing, 8, true⟩, 1) := by decide +kernel

/-- The same example: a learned insert at 905 merges into the LEARNED_GAP at 900, keeping its start. -/
theorem test_learned_insert_merges :
    ((learnedInsert 900 6 16 State.reset.rft).bind (learnedInsert 905 9 16)).map (fun rt => (entry rt.points 56).way0) =
      some ⟨true, 900, 9, .learnedGap, 16, false⟩ := by decide +kernel

/-- 02, the zone example: base 120 with mask 4088 matches at metre 2000 and not at 2048. -/
theorem test_zone_example :
    zoneMatches ⟨2000, 0, true⟩ { resetZone with enable := true, base := 120, mask := 4088 } = true ∧
      zoneMatches ⟨2048, 0, true⟩ { resetZone with enable := true, base := 120, mask := 4088 } = false ∧
      zoneMatches ⟨2000, 0, false⟩ { resetZone with enable := true, base := 120, mask := 4088 } = false := by decide +kernel

/-- 05, example 1: against T 445 and G 780, 600 gives 445 and −900 gives −780, both CLIPPED. -/
theorem test_grant_example :
    (after (.tractionRequest .t (request .tractionRequest [0x02, 0x58]))
      (State.reset.setBe { State.reset.be with record := { State.reset.be.record with t := 445, g := 780 } })
      (fun t => (t.tg.lastGrant, ((answered .t t).drop 2).take 3))) = some (445, [0x01, 0xBD, 1]) ∧
    (after (.tractionRequest .t (request .tractionRequest [0xFC, 0x7C]))
      (State.reset.setBe { State.reset.be with record := { State.reset.be.record with t := 445, g := 780 } })
      (fun t => (t.tg.lastGrant, ((answered .t t).drop 2).take 3))) = some (-780, [0xFC, 0xF4, 1]) := by decide +kernel

/-- 07, R134's example: H rises to 2: slots 5 and 8 are shed with reason BUDGET, slot 9 keeps reason BAND and slot 14
stays PARKED. -/
theorem test_budget_shed_example :
    let s := withSlot 5 ⟨10, 2, .on, false, false, .running, 0, 0⟩ [8] (withSlot 8 ⟨10, 3, .on, false, false, .waiting, 0, 0⟩ []
      (withSlot 9 ⟨10, 3, .on, false, false, .shed .band, 1, 0⟩ [] (withSlot 14 ⟨10, 3, .onDemand, false, false, .parked, 0, 0⟩ []
        State.reset)))
    ([5, 8, 9, 14].map (fun i => (entry (budgetShed 2 s.ls).slots i).state), (budgetShed 2 s.ls).queue) =
      ([.shed .budget, .shed .budget, .shed .band, .parked], []) := by decide +kernel

/-- R145: slot 3 of mode ON_DEMAND, asked for, and slots 20 and 22 of mode CYCLE_A, in the on phase, wake at one set: they
join in ascending slot order whatever their modes, and slot 22, of level 0, passes the others. -/
theorem test_mode_work_joins_ascending :
    let s := withSlot 3 ⟨10, 2, .onDemand, false, false, .parked, 0, 0⟩ [] (withSlot 20 ⟨10, 1, .cycle .a, false, false, .parked, 0, 0⟩ []
      (withSlot 22 ⟨10, 0, .cycle .a, false, false, .parked, 0, 0⟩ [] State.reset))
    (modeWork (s.setLs { s.ls with demand := 8#24 })).ls.queue = [22, 3, 20] := by decide +kernel

/-- 08, section 8.10: GRANT_OVER is taken on the T-link at level 1; DERATE_RISE then leaves the attention line released,
and POLE_DROP asserts it. -/
theorem test_alarm_nesting_example :
    after (.takeAlarm .t (request .takeAlarm [])) (raise .grantOver State.reset) (fun t =>
      (answered .t t, t.ad.links.t.attention, (raise .derateRise t).ad.links.t.attention,
        (raise .poleDrop (raise .derateRise t)).ad.links.t.attention)) =
      some ([0, 5, 3, 1, 1, 0, 1], false, false, true) := by decide +kernel

/-- 10, the run of writes: P_D_MAX 300 is CLAMPED to 15 at once, and parameter 52 is BAD_VALUE. -/
theorem test_param_example :
    after (.setParam .v (request .setParam [30, 0x01, 0x2C])) State.reset (answered .v) =
      some [1, 5, 30, 0, 15, 0, 15] ∧
    after (.setParam .v (request .setParam [52, 0, 7])) State.reset (answered .v) = some [7, 0] := by decide +kernel

/-- 10: P_LEARN_FACTOR 10 is rounded down to 8 and waits for a set; 16 stays in force. -/
theorem test_param_waits :
    after (.setParam .v (request .setParam [17, 0, 10])) State.reset (answered .v) = some [1, 5, 17, 0, 8, 0, 16] := by
  decide +kernel

/-- R63: RAISE from DOWN is RAISING with both lower lines released; R64: LOWER from there asserts them. -/
theorem test_raise_and_lower :
    after (.raise .v (request .raise [])) State.reset (fun t => (t.cm.state, t.cm.lines)) =
      some (.raising, ⟨false, false⟩) ∧
    after (.lower .v (request .lower [])) (inState .raising) (fun t => (t.cm.state, t.cm.lines)) =
      some (.lowering, ⟨true, true⟩) := by decide +kernel

/-- R178: the V-link may not send TRACTION REQUEST; R177: a bad check is counted. -/
theorem test_port_checks :
    after (.tractionRequest .v (request .tractionRequest [0, 0])) State.reset (answered .v) = some [3, 0] ∧
    after (.readStatus .t ⟨[], crc [1, 0] + 1⟩) State.reset (fun t => (answered .t t, t.lp.t.bad)) = some ([6, 0], 1) := by
  decide +kernel

/-- R70: READ DROP LOG on an empty log sends the three counts. -/
theorem test_empty_drop_log :
    after (.readDropLog .v (request .readDropLog [])) State.reset (answered .v) = some [0, 3, 0, 0, 0] := by decide +kernel

/-- R116, R145: LOAD SETUP from OFF to ON is WAITING and in the queue; a demand of 64 is CLAMPED to 63. -/
theorem test_load_setup :
    after (.loadSetup .a (request .loadSetup [7, 64, 0, 1, 1, 0])) State.reset (fun t => (answered .a t, t.ls.queue)) =
      some ([1, 4, 7, 1, 0xFF, 63], [7]) := by decide +kernel

/-- The state that commands run one after the other lead to. -/
def run (cs : List Instr) (s : State) : Option State :=
  match execAll cs s with
  | .next t => some t
  | .fault _ | .refused _ => none

/-- R170: select, the three bytes of a request and two bytes of TURNAROUND lead to REPLY. -/
theorem test_turnaround :
    (run [.selectAsserted .v, .linkByteComplete .v 0x7F, .linkByteComplete .v 0, .linkByteComplete .v (crc [0x7F, 0]),
      .linkByteComplete .v 0, .linkByteComplete .v 0] State.reset).map
      (fun t => ((t.lp.get .v).phase, (t.lp.get .v).pos, answered .v t)) = some (.reply, 0, [4, 0]) := by decide +kernel


/-! ### Witnesses: the hypotheses of each statement can be met, clause by clause -/

/-- A state that a command leads to exists: every command answers a next state from reset. -/
theorem witness_OtherPortsUntouched :
    (Instr.millisecondTick ≠ .powerOnReset ∧ linkOf .millisecondTick ≠ some .t ∧
      ∃ t, exec .millisecondTick State.reset = .next t) ∧
    linkOf (.reinit .v (request .reinit [])) ≠ some .a ∧
      ∃ t, exec (.reinit .v (request .reinit [])) State.reset = .next t := by
  exact ⟨⟨by decide, by decide, _, rfl⟩, by decide, _, rfl⟩

/-- R177: a REINIT accepted on the V-link clears the counter of the A-link, whichever command completes its frame. -/
theorem test_reinit_clears_other_counters :
    let s := State.reset.setLp ⟨State.reset.lp.t, { State.reset.lp.a with bad := 3 },
      { State.reset.lp.v with select := true, phase := .request, pos := 2, request := [0x7E, 0] }⟩
    after (.linkByteComplete .v (crc [0x7E, 0])) s (fun t => t.lp.a.bad) = some 0 ∧
      after (.linkByteComplete .v (crc [0x7E, 0] + 1)) s (fun t => t.lp.a.bad) = some 3 := by decide +kernel

theorem witness_PowerOnResetAndRelease :
    (State.powerOn true ⟨false, false, false⟩ []).resetPin = true ∧ State.reset.resetPin = false := by decide +kernel

theorem witness_ResetPinHoldsEverything :
    (State.powerOn true ⟨false, false, false⟩ []).resetPin = true ∧ Instr.slotStart ≠ .powerOnReset ∧
      Instr.slotStart ≠ .resetRelease ∧ (∀ l, Instr.slotStart ≠ .selectAsserted l) ∧
      ∀ l e, Instr.slotStart ≠ .selectReleased l e :=
  ⟨rfl, by decide, by decide, fun _ => by simp, fun _ _ => by simp⟩

/-- A hunting receiver, and open frames of 1, 12 and 13 bytes. -/
theorem witness_SenseCharacterReceived :
    State.reset.resetPin = false ∧ State.reset.si.rx.get .a = none ∧ (0x00#8 : Byte) ≠ 0xC3#8 ∧
      ∀ f : OpenFrame, (holding f State.reset).resetPin = false ∧ (holding f State.reset).si.rx.get .a = some f :=
  ⟨rfl, rfl, by decide, fun _ => ⟨rfl, rfl⟩⟩

theorem witness_SampleFrameRoundTrip : State.reset.resetPin = false ∧ State.reset.si.rx.get .b = none := ⟨rfl, rfl⟩

/-- A bad frame with the counter at the limit, above it, and on a FAILED channel; a good-check frame likewise, and one on
the standby channel. -/
theorem witness_FrameJudged :
    (frameSample ⟨[0xC3], 1, false⟩ = none ∧ frameSample (frameOf sample) = some sample) ∧
    (let s := holding ⟨[0xC3], 1, false⟩ (withCounter 38 State.reset)
     s.resetPin = false ∧ (s.si.chan.get .a).health = .healthy ∧
      min ((s.si.chan.get .a).plaus + 2) 255 = s.par .plausLimit) ∧
    (let s := holding ⟨[0xC3], 1, false⟩ (withCounter 39 State.reset)
     s.par .plausLimit < min ((s.si.chan.get .a).plaus + 2) 255) ∧
    ((holding ⟨[0xC3], 1, false⟩ lost).si.chan.get .a).health = .failed ∧
    (let s := holding (frameOf sample) (withCounter 42 State.reset)
     implausible (s.si.chan.get .a) sample s = false ∧ s.par .plausLimit < (s.si.chan.get .a).plaus - 1) ∧
    (let s := (holding (frameOf sample) (withCounter 41 State.reset)).setSi
      { (holding (frameOf sample) (withCounter 41 State.reset)).si with active := some .b }
     (s.si.chan.get .a).health = .healthy ∧ (s.si.chan.get .a).plaus - 1 ≤ s.par .plausLimit ∧ s.si.active ≠ some .a) := by
  decide +kernel

/-- An accepted set on the active channel. -/
theorem accepts : Accepts .a sample (holding (frameOf sample) State.reset) :=
  ⟨rfl, ⟨_, rfl, by decide +kernel⟩, rfl, rfl, by decide +kernel⟩

theorem witness_AcceptedSetAdvances : ∃ ch x s, Accepts ch x s := ⟨_, _, _, accepts⟩

/-- A state with channel A's silence timer at a value. -/
def silentFor (n : Nat) : State :=
  State.reset.setSi { State.reset.si with chan := ⟨{ resetChannel with silence := n }, { resetChannel with silence := n }⟩ }

/-- Channel A is at its silence limit while channel B is one millisecond short of it. -/
def silentOnA : State :=
  (silentFor 10).setSi { (silentFor 10).si with
    chan := ⟨{ resetChannel with silence := 10 }, { resetChannel with silence := 9 }⟩ }

/-- The timers one increment below the limit, and at it; and one overdue with the other below the limit. -/
theorem witness_TimeAndSilence :
    ((silentFor 9).resetPin = false ∧ ∀ ch, ((silentFor 9).si.chan.get ch).health = .healthy ∧
      ((silentFor 9).si.chan.get ch).silence + 1 = (silentFor 9).par .silenceMs) ∧
    ((silentFor 10).si.chan.a.health = .healthy ∧ (silentFor 10).par .silenceMs = (silentFor 10).si.chan.a.silence) ∧
    (lost.si.chan.get .a).health = .failed ∧
    (let s := silentOnA
     s.resetPin = false ∧ (s.si.chan.get .a).health = .healthy ∧ s.par .silenceMs = (s.si.chan.get .a).silence ∧
      (s.si.chan.get (otherChannel .a)).silence < s.par .silenceMs) := by
  refine ⟨⟨rfl, fun ch => ?_⟩, by decide +kernel⟩
  cases ch <;> decide +kernel

theorem witness_ChannelFailure :
    State.reset.si.active ≠ some .b ∧ State.reset.si.active = some .a ∧
      (State.reset.si.chan.get (otherChannel .a)).health = .healthy := by decide +kernel

/-- Channel A active, channel B FAILED, with a grant of 1 kW that is not reported, and with none. -/
def lastChannel (g : Int) : State :=
  (State.reset.setSi { State.reset.si with chan := ⟨resetChannel, { resetChannel with health := .failed }⟩ }).setTg
    ⟨g, 0, decide (g = 0)⟩

theorem witness_SenseLoss :
    ((lastChannel 1).si.active = some .a ∧ ((lastChannel 1).si.chan.get (otherChannel .a)).health = .failed ∧
      (lastChannel 1).tg.reported = false ∧ (lastChannel 1).tg.lastGrant ≠ 0) ∧
    (lastChannel 0).si.active = some .a ∧ ((lastChannel 0).si.chan.get (otherChannel .a)).health = .failed ∧
      (lastChannel 0).tg.reported = true := by decide +kernel

theorem senseInv_of {s : State} (a : s.si.active = some .a) (h : s.si.chan.a.health = .healthy)
    (l : s.si.senseLost = false) : SenseInv s := by
  refine ⟨fun ch e => ?_, by rw [a, l]; decide, fun e => by rw [a] at e; cases e⟩
  rw [a] at e
  cases e
  exact h

theorem witness_BothChannelsSilent :
    (silentFor 10).resetPin = false ∧ SenseInv (silentFor 10) ∧
      ∀ ch, ((silentFor 10).si.chan.get ch).health = .healthy ∧
        (silentFor 10).par .silenceMs ≤ ((silentFor 10).si.chan.get ch).silence := by
  refine ⟨rfl, senseInv_of rfl rfl rfl, fun ch => ?_⟩
  cases ch <;> decide +kernel

/-- A free link in every collector state. -/
theorem free_inState (l : Link) (c : CollectorState) : LinkFree l (inState c) := free l rfl rfl

/-- DOWN with SENSE_LOST, and DOWN in an OFF_WIRE zone. -/
def inZone : State :=
  (State.reset.setPt ⟨0, 0, true⟩).setRft { State.reset.rft with
    zones := setEntry State.reset.rft.zones 7 { resetZone with enable := true, mask := 4095 } }

theorem witness_RaiseAnswered :
    (∀ c, LinkFree .v (inState c) ∧ FramedAs .raise (request .raise []) ∧ CollectorInv (inState c).cm ∧
      (inState c).cm.state = c ∧ (inState c).si.senseLost = false) ∧
    (LinkFree .v lost ∧ CollectorInv lost.cm ∧ lost.cm.state = .down ∧ lost.si.senseLost = true) ∧
    (LinkFree .v inZone ∧ CollectorInv inZone.cm ∧ inZone.cm.state = .down ∧ inZone.si.senseLost = false ∧
      (entry inZone.rft.zones 7).kind = .offWire ∧ (entry inZone.rft.zones 7).enable = true ∧ inZone.pt.isSet = true ∧
      (BitVec.ofNat 12 (inZone.pt.metre / 16) ^^^ (entry inZone.rft.zones 7).base) &&& (entry inZone.rft.zones 7).mask = 0) :=
  ⟨fun c => ⟨free_inState _ c, framed _ _ rfl, inState_inv c, rfl, rfl⟩,
    ⟨free _ rfl rfl, inState_inv .down, by decide +kernel⟩, ⟨free _ rfl rfl, inState_inv .down, by decide +kernel⟩⟩

theorem witness_LowerAnswered :
    ∀ c, LinkFree .v (inState c) ∧ FramedAs .lower (request .lower []) ∧ CollectorInv (inState c).cm ∧
      (inState c).cm.state = c :=
  fun c => ⟨free_inState _ c, framed _ _ rfl, inState_inv c, rfl⟩

/-- DROPPED with both elevations at P_STOW, and with one above it. -/
def droppedAt (e : BitVec 10) : State :=
  (inState .dropped).setCm { (inState .dropped).cm with lastElev := ⟨some 80, some e⟩ }

theorem droppedAt_inv (e : BitVec 10) : CollectorInv (droppedAt e).cm := by
  have h := inState_inv .dropped
  unfold CollectorInv at h ⊢
  exact h

theorem witness_ClearDropAnswered :
    (∀ e, LinkFree .v (droppedAt e) ∧ FramedAs .clearDrop (request .clearDrop []) ∧ CollectorInv (droppedAt e).cm ∧
      (droppedAt e).cm.state = .dropped) ∧
    (∃ x, (droppedAt 80).cm.lastElev.neg = some x ∧ x.toNat ≤ (droppedAt 80).par .stow) ∧
    (¬∃ x, (droppedAt 81).cm.lastElev.neg = some x ∧ x.toNat ≤ (droppedAt 81).par .stow) ∧
    (inState .down).cm.state ≠ .dropped := by
  refine ⟨fun e => ⟨free _ rfl rfl, framed _ _ rfl, droppedAt_inv e, rfl⟩, ⟨80, rfl, by decide +kernel⟩, ?_, by decide⟩
  rintro ⟨x, a, b⟩
  cases a
  revert b
  decide +kernel

/-- The drop record that a sample makes at reset. -/
def record : DropRecord := dropRecord .pos .rate sample State.reset

theorem witness_DropSeenAndDropLog :
    (∀ l, LinkFree l State.reset ∧ FramedAs .dropSeen (request .dropSeen []) ∧ State.reset.cm.marks.get l = false) ∧
    (let s := State.reset.setCm { State.reset.cm with marks := ⟨true, true, true⟩, log := [record] }
     ∀ l, LinkFree l s ∧ s.cm.marks.get l = true ∧ s.cm.log = record :: []) ∧
    FramedAs .readDropLog (request .readDropLog []) ∧ FramedAs .popDropLog (request .popDropLog []) ∧
    State.reset.cm.log = [] := by
  refine ⟨fun l => ⟨free _ rfl rfl, framed _ _ rfl, ?_⟩, fun l => ⟨free _ rfl rfl, ?_, rfl⟩, framed _ _ rfl,
    framed _ _ rfl, rfl⟩ <;> cases l <;> rfl

theorem witness_PositionSetAndConditionsCleared :
    LinkFree .v State.reset ∧ FramedAs .setPosition (request .setPosition [0xFF, 0xFF]) ∧
      FramedAs .clearConditions (request .clearConditions []) := ⟨free _ rfl rfl, framed _ _ rfl, framed _ _ rfl⟩

theorem witness_RestoreChannelAnswered :
    (∀ b, FramedAs .restoreChannel (request .restoreChannel [b])) ∧ LinkFree .v State.reset ∧ LinkFree .v lost ∧
    LinkFree .v (lastChannel 0) ∧ 1 < (2 : Byte).toNat ∧ (State.reset.si.chan.get .a).health = .healthy ∧
    ((lastChannel 0).si.chan.get .b).health = .failed ∧ (lastChannel 0).si.active ≠ none ∧
    (lost.si.chan.get .a).health = .failed ∧ lost.si.active = none ∧ QueueInv lost.ls := by
  refine ⟨fun _ => framed _ _ rfl, free _ rfl rfl, free _ rfl rfl, free _ rfl rfl, by decide, rfl, ?_⟩
  unfold QueueInv
  decide +kernel

/-! ### Witnesses: the route feature table -/

theorem emptyPoints : PointsInv State.reset.rft := by
  refine ⟨fun i => ?_, by decide +kernel, by decide +kernel⟩
  have e : entry State.reset.rft.points i = emptySet := entry_replicate _ _
  rw [e]
  unfold EntryOk
  simp [emptySet, invalidEntry]

/-- A point table with one set written. -/
def tableWith (ps : PointSet) (locks : Nat) : RouteTable :=
  { State.reset.rft with points := setEntry State.reset.rft.points 0 ps, lockCount := locks }

/-- A SECTION_GAP and a CROSSING at metre 0, with the given locks. -/
def pair (a b : Bool) : PointSet := ⟨⟨true, 0, 1, .sectionGap, 0, a⟩, ⟨true, 0, 255, .crossing, 16, b⟩, .w1⟩

theorem pair_points (a b : Bool) : PointsInv (tableWith (pair a b) (a.toNat + b.toNat)) := by
  refine ⟨fun i => ?_, ?_, ?_⟩
  · by_cases h : i = 0
    · subst h
      have e : entry (tableWith (pair a b) (a.toNat + b.toNat)).points 0 = pair a b := entry_setEntry_same _ _ _
      rw [e]
      unfold EntryOk
      revert a b
      decide +kernel
    · have e : entry (tableWith (pair a b) (a.toNat + b.toNat)).points i = emptySet :=
        (entry_setEntry_other _ _ h).trans (entry_replicate _ _)
      rw [e]
      unfold EntryOk
      simp [emptySet, invalidEntry]
  · revert a b
    decide +kernel
  · revert a b
    decide +kernel

/-- The inserts at both ends of the length and the factor; one that is refused. -/
theorem witness_PutInsertion :
    PointsInv State.reset.rft ∧ (1 ≤ 1 ∧ 1 ≤ 255 ∧ 255 ≤ 255) ∧ (0 ∈ [0, 4, 8, 12, 16] ∧ 16 ∈ [0, 4, 8, 12, 16]) ∧
    FeatureKind.frog ≠ .learnedGap ∧ (putInsert 0 255 .frog 16 true State.reset.rft).isSome = true ∧
    (putInsert 0 1 .sectionGap 0 false (tableWith (pair true true) 2)).isSome = true ∧
    PointsInv (tableWith (pair true true) 2) ∧ putInsert 0 1 .frog 0 false (tableWith (pair true true) 2) = none :=
  ⟨emptyPoints, by decide, by decide, by decide, by decide +kernel, by decide +kernel, pair_points true true,
    Option.isNone_iff_eq_none.mp (by decide +kernel)⟩

theorem witness_LearnedInsertion :
    PointsInv State.reset.rft ∧ 1 ≤ 255 ∧ 0 ∈ [0, 4, 8, 12, 16] ∧
    (learnedInsert 65535 255 0 State.reset.rft).isSome = true ∧
    PointsInv (tableWith (pair true true) 2) ∧ learnedInsert 0 1 16 (tableWith (pair true true) 2) = none :=
  ⟨emptyPoints, by decide, by decide, by decide +kernel, pair_points true true, by decide +kernel⟩

/-- Armed copies of set 63, starting at 0. -/
def copies (n : Nat) : List ArmedCopy :=
  (List.range n).map fun k => ⟨.frog, 16, k, 1, 30, 63, .w0⟩

/-- At metre 0 with POSITION_SET set and some copies armed. -/
def armedWith (n : Nat) : State := (State.reset.setPt ⟨0, 0, true⟩).setRft { State.reset.rft with armed := copies n }

/-- FEATURE PUT: the bounds of the fields, a refused insert, and a stored one that is armed, finds no room, is not
armed. -/
theorem witness_FeaturePutAnswered :
    (∀ p, p.length = 6 → FramedAs .featurePut (request .featurePut p)) ∧
    (2 < (3 : Byte).toNat ∧ featureCode .frog = 2 ∧ (2 : Byte).toNat ≤ 2 ∧ (1 : Byte) ≠ 0 ∧ (1 : Byte).toNat ≤ 1 ∧
      1 < (2 : Byte).toNat) ∧
    (LinkFree .v (State.reset.setRft (tableWith (pair true true) 2)) ∧
      putInsert 0 1 .frog 0 true (State.reset.setRft (tableWith (pair true true) 2)).rft = none) ∧
    (∀ n, LinkFree .v (armedWith n) ∧ (armedWith n).pt.isSet = true ∧
      0 - (armedWith n).par .lead ≤ (armedWith n).pt.metre) ∧
    ((putInsert 0 1 .frog 0 true (armedWith 3).rft).map (fun r => (r.2, r.1.armed.length)) = some (.w0, 3) ∧
      (putInsert 0 1 .frog 0 true (armedWith 4).rft).map (fun r => (r.2, r.1.armed.length)) = some (.w0, 4) ∧
      (∀ c ∈ copies 4, ¬(c.set = 0 ∧ c.way = .w0 ∧ c.start = 0)) ∧ State.reset.pt.isSet = false) := by
  refine ⟨fun p h => framed _ _ h, by decide, ⟨free _ rfl rfl, by decide +kernel⟩,
    fun n => ⟨free _ rfl rfl, rfl, ?_⟩, by decide +kernel, by decide +kernel, by decide +kernel, rfl⟩
  exact Nat.le_of_eq (Nat.zero_sub _)

theorem witness_EntriesEvictedAndCleared :
    (∀ a b, LinkFree .v (State.reset.setRft (tableWith (pair a b) (a.toNat + b.toNat))) ∧
      PointsInv (State.reset.setRft (tableWith (pair a b) (a.toNat + b.toNat))).rft) ∧
    (∀ k, FramedAs .featureEvict (request .featureEvict [0, 0, k])) ∧ FramedAs .tableClear (request .tableClear []) ∧
    (∀ a b, (pair a b).way0.valid = true ∧ (pair a b).way0.start = 0 ∧ featureCode (pair a b).way0.kind = 0 ∧
      featureCode (pair a b).way0.kind ≠ 3 ∧ featureCode (pair a b).way1.kind ≠ 3) :=
  ⟨fun a b => ⟨free _ rfl rfl, pair_points a b⟩, fun _ => framed _ _ rfl, framed _ _ rfl, by decide⟩

theorem witness_RouteTableRead :
    LinkFree .v State.reset ∧ (∀ i w, FramedAs .featureRead (request .featureRead [i, w])) ∧
    FramedAs .armedRead (request .armedRead []) ∧ (∀ i, FramedAs .zoneRead (request .zoneRead [i])) ∧
    ((63 : Fin 64).val = (63 : Byte).toNat ∧ 63 < (64 : Byte).toNat ∧ wayCode .w1 = (1 : Byte).toNat ∧
      1 < (2 : Byte).toNat ∧ (7 : Fin 8).val = (7 : Byte).toNat ∧ 7 < (8 : Byte).toNat) :=
  ⟨free _ rfl rfl, fun _ _ => framed _ _ rfl, framed _ _ rfl, fun _ => framed _ _ rfl, by decide⟩

/-- ZONE SET with every field at its upper bound, for each kind; and one with the index above it. -/
theorem witness_ZoneSetAnswered :
    LinkFree .v State.reset ∧ (∀ ix kc : Byte,
      FramedAs .zoneSet (request .zoneSet [ix, 1, kc, 0x0F, 0xFF, 0x0F, 0xFF, 1, 0x08, 0x00, 0x04, 0x00])) ∧
    7 < (8 : Byte).toNat ∧ (0x0F : Byte).toNat * 256 + (0xFF : Byte).toNat = 4095 ∧
    2047 < (0x08 : Byte).toNat * 256 + (0x00 : Byte).toNat ∧
    ∀ kc : Byte, kc.toNat ≤ 2 → ¬(7 < (7 : Byte).toNat ∨ 1 < (1 : Byte).toNat ∨ 2 < kc.toNat ∨
      (kc = 0 ∧ 1 < (1 : Byte).toNat) ∨ 4095 < 4095 ∨ 4095 < 4095) :=
  ⟨free _ rfl rfl, fun _ _ => framed _ _ rfl, by decide, by decide, by decide, fun kc h => by simp; omega⟩

/-! ### Witnesses: grants, loads -/

/-- A request of 0, of the most negative power, and the T mark set and clear. -/
theorem witness_TractionGranted :
    LinkFree .t State.reset ∧ FramedAs .tractionRequest (request .tractionRequest [0, 0]) ∧
    FramedAs .tractionRequest (request .tractionRequest [0x80, 0]) ∧ ((0 : Byte) ++ (0 : Byte) : BitVec 16).toInt = 0 ∧
    ((0x80 : Byte) ++ (0 : Byte) : BitVec 16).toInt = -32768 ∧ State.reset.cm.marks.t = false ∧
    (let s := State.reset.setCm { State.reset.cm with marks := ⟨true, false, false⟩ }
     LinkFree .t s ∧ s.cm.marks.t = true) :=
  ⟨free _ rfl rfl, framed _ _ rfl, framed _ _ rfl, by decide, by decide, rfl, free _ rfl rfl, rfl⟩

theorem witness_BudgetRead : ∀ l, LinkFree l State.reset ∧ FramedAs .readBudget (request .readBudget []) :=
  fun _ => ⟨free _ rfl rfl, framed _ _ rfl⟩

theorem queueInv_reset : QueueInv State.reset.ls := by
  unfold QueueInv
  decide +kernel

/-- A slot of mode ON in a state. -/
def slotIn (st : SlotState) : Slot := ⟨10, 1, .on, true, false, st, 3, 0⟩

/-- Slot 23 LOCKED_OUT; slot 23 WAITING; slot 23 PARKED in mode ON_DEMAND. -/
def lockedOut : State := withSlot 23 (slotIn .lockedOut) [] State.reset
def waiting : State := withSlot 23 (slotIn .waiting) [23] State.reset
def parked : State := withSlot 23 { slotIn .parked with mode := .onDemand } [] State.reset
def running : State := withSlot 23 (slotIn .running) [] State.reset

theorem queueInv_lockedOut : QueueInv lockedOut.ls := by
  unfold QueueInv
  decide +kernel

theorem queueInv_waiting : QueueInv waiting.ls := by
  unfold QueueInv
  decide +kernel

theorem queueInv_parked : QueueInv parked.ls := by
  unfold QueueInv
  decide +kernel

theorem queueInv_running : QueueInv running.ls := by
  unfold QueueInv
  decide +kernel

/-- LOAD SETUP with every field at its upper bound and each mode, from OFF and from RUNNING; and a slot above 23. -/
theorem witness_LoadSetupAnswered :
    (LinkFree .a State.reset ∧ QueueInv State.reset.ls ∧ (entry State.reset.ls.slots 23).mode = .off) ∧
    (LinkFree .a running ∧ QueueInv running.ls ∧ (entry running.ls.slots 23).mode ≠ .off) ∧
    (∀ b m : Byte, FramedAs .loadSetup (request .loadSetup [b, 64, 3, m, 1, 1])) ∧ (23 < (24 : Byte).toNat ∧
      (23 : Fin 24).val = (23 : Byte).toNat ∧ (3 : Fin 4).val = (3 : Byte).toNat ∧ modeCode .off = (0 : Byte).toNat ∧
      modeCode (.cycle .b) = (4 : Byte).toNat ∧ true.toNat = (1 : Byte).toNat) :=
  ⟨⟨free _ rfl rfl, queueInv_reset, by decide +kernel⟩, ⟨free _ rfl rfl, queueInv_running, by decide +kernel⟩,
    fun _ _ => framed _ _ rfl, by decide⟩

theorem witness_LoadDemandAndReEnable :
    (LinkFree .a parked ∧ QueueInv parked.ls ∧ FramedAs .loadDemand (request .loadDemand [0, 0, 0x80])) ∧
    (LinkFree .a lockedOut ∧ QueueInv lockedOut.ls ∧ (entry lockedOut.ls.slots 23).state = .lockedOut) ∧
    (LinkFree .a waiting ∧ QueueInv waiting.ls ∧ (entry waiting.ls.slots 23).state ≠ .lockedOut) ∧
    FramedAs .loadReEnable (request .loadReEnable [23]) ∧ FramedAs .loadReEnable (request .loadReEnable [24]) :=
  ⟨⟨free _ rfl rfl, queueInv_parked, framed _ _ rfl⟩, ⟨free _ rfl rfl, queueInv_lockedOut, by decide +kernel⟩,
    ⟨free _ rfl rfl, queueInv_waiting, by decide +kernel⟩, framed _ _ rfl, framed _ _ rfl⟩

theorem witness_LoadsRead :
    Link.a ≠ .t ∧ Link.v ≠ .t ∧ ∀ l, LinkFree l State.reset ∧ FramedAs .readLoads (request .readLoads []) :=
  ⟨by decide, by decide, fun _ => ⟨free _ rfl rfl, framed _ _ rfl⟩⟩

/-! ### Witnesses: alarms, parameters, ports -/

/-- POLE_DROP pending on every link, over a stack of this many POLE_DROP frames. -/
def alarmed (n : Nat) : State :=
  let s := raise .poleDrop State.reset
  let deep := fun (a : LinkAlarms) => { a with stack := List.replicate n ⟨0, 0⟩ }
  s.setAd { s.ad with links := ⟨deep s.ad.links.t, deep s.ad.links.a, deep s.ad.links.v⟩ }

theorem witness_AlarmOccurs :
    ((entry State.reset.ad.sources (sourceNumber .grantOver)).mask &&& 2#3) = 0 ∧
    ((entry State.reset.ad.sources (sourceNumber .grantOver)).mask &&& 1#3) ≠ 0 ∧
    (entry (alarmed 0).ad.links.t.pending (sourceNumber .poleDrop)).pending = true := by decide +kernel

/-- TAKE ALARM with 4 frames, with 3 and an eligible entry, and with none pending; DONE ALARM with a frame and none. -/
theorem witness_AlarmTakenAndDone :
    (∀ l n, LinkFree l (alarmed n)) ∧ (∀ l, LinkFree l State.reset) ∧ FramedAs .takeAlarm (request .takeAlarm []) ∧
    FramedAs .doneAlarm (request .doneAlarm []) ∧ ((alarmed 4).ad.links.v.stack.length = 4 ∧
      (alarmed 3).ad.links.v.stack.length = 3 ∧
      eligible (alarmed 3).ad.links.v.stack (entry (alarmed 3).ad.links.v.pending 0) ∧
      (∀ m, (entry State.reset.ad.links.v.pending m).pending = false) ∧ (alarmed 0).ad.links.v.stack = [] ∧
      (alarmed 1).ad.links.v.stack = [] ++ [⟨0, 0⟩]) :=
  ⟨fun _ _ => free _ rfl rfl, fun _ => free _ rfl rfl, framed _ _ rfl, framed _ _ rfl, by decide +kernel⟩

theorem witness_AlarmRoutesSetAndRead :
    LinkFree .v State.reset ∧ (∀ src level mask, FramedAs .alarmRouteSet (request .alarmRouteSet [src, level, mask])) ∧
    FramedAs .readAlarmRoutes (request .readAlarmRoutes []) ∧
    ((15 : Fin 16).val = (15 : Byte).toNat ∧ (3 : Fin 4).val = (3 : Byte).toNat ∧ (7 : BitVec 3).toNat = (7 : Byte).toNat ∧
      15 < (16 : Byte).toNat ∧ 3 < (4 : Byte).toNat ∧ 7 < (8 : Byte).toNat) :=
  ⟨free _ rfl rfl, fun _ _ _ => framed _ _ rfl, framed _ _ rfl, by decide⟩

theorem params_reset : ParamInv State.reset.pm := by
  unfold ParamInv
  decide +kernel

theorem witness_ParametersSetAndRead :
    LinkFree .v State.reset ∧ ParamInv State.reset.pm ∧
    (∀ n, FramedAs .setParam (request .setParam [n, 0xFF, 0xFF]) ∧ FramedAs .readParam (request .readParam [n])) ∧
    (51 < (52 : Byte).toNat ∧ (51 : Fin 52).val = (51 : Byte).toNat ∧ (0 : Fin 52).val = (0 : Byte).toNat) :=
  ⟨free _ rfl rfl, params_reset, fun _ => ⟨framed _ _ rfl, framed _ _ rfl⟩, by decide⟩

theorem witness_ReinitAnswered :
    ∀ c, LinkFree .v (inState c) ∧ FramedAs .reinit (request .reinit []) ∧ (inState c).cm.state = c :=
  fun c => ⟨free_inState _ c, framed _ _ rfl, rfl⟩

theorem witness_StatusRead : ∀ l, LinkFree l State.reset ∧ FramedAs .readStatus (request .readStatus []) :=
  fun _ => ⟨free _ rfl rfl, framed _ _ rfl⟩

/-- A reply of 255 payload bytes; a request payload of 28 bytes with a bad check, an unknown code with a good one, a wrong
length, and a kind denied on each link. -/
theorem witness_PortChecks :
    (List.replicate 255 (0 : Byte)).length ≤ 255 ∧ (∀ l, LinkFree l State.reset) ∧
    (List.replicate 28 (0 : Byte)).length ≤ 28 ∧
    crc (0x01 :: byteOf 28 :: List.replicate 28 0) ≠ crc (0x01 :: byteOf 28 :: List.replicate 28 0) + 1 ∧
    (∀ k, kindCode k ≠ 0x00) ∧ (([0] : List Byte).length ≠ kindLength .raise ∧
      permitted .t .raise = false ∧ permitted .a .raise = false ∧ permitted .v .loadSetup = false ∧
      ([] : List Byte).length = kindLength .raise) := by
  refine ⟨by rw [List.length_replicate], fun _ => free _ rfl rfl, Nat.le_of_eq List.length_replicate, by decide +kernel,
    fun k => ?_, by decide⟩
  cases k <;> decide

/-- A V-link port in each phase. -/
def portIn (p : Port) : State := State.reset.setLp { State.reset.lp with v := p }

theorem witness_PortPhases :
    (∀ p, (portIn p).resetPin = false ∧ (portIn p).lp.get .v = p) ∧
    (let p : Port := ⟨true, .request, 1, [0x01], [], 0⟩
     p.phase = .request ∧ p.pos = 1 ∧ 28 < (29 : Byte).toNat ∧ (28 : Byte).toNat ≤ 28 ∧ (0 < p.pos ∨ (0 : BitVec 3) ≠ 0)) ∧
    (let p : Port := ⟨true, .request, 2, [0x03, 1], [], 0⟩
     2 ≤ p.pos ∧ p.request.length = p.pos ∧ p.request.take 2 = [0x03, 1] ∧ p.pos ≠ (1 : Byte).toNat + 2) ∧
    (let p : Port := ⟨true, .request, 30, 0x40 :: 28 :: List.replicate 28 0, [], 0⟩
     p.phase = .request ∧ p.select = true ∧ (List.replicate 28 (0 : Byte)).length ≤ 28 ∧
      p.pos = (List.replicate 28 (0 : Byte)).length + 2 ∧
      p.request = 0x40 :: BitVec.ofNat 8 (List.replicate 28 (0 : Byte)).length :: List.replicate 28 0) ∧
    (let p : Port := ⟨true, .request, 2, [0x30, 0], [], 0⟩
     p.pos = ([] : List Byte).length + 2 ∧ p.request = 0x30 :: BitVec.ofNat 8 ([] : List Byte).length :: []) ∧
    (let p : Port := ⟨true, .reply, 4, [], List.replicate 6 0, 0⟩
     p.pos + 1 < p.reply.length ∧ p.reply[p.pos]? = some 0) ∧
    (let p : Port := ⟨true, .reply, 5, [], List.replicate 6 0, 0⟩
     p.reply.length ≤ p.pos + 1 ∧ p.reply[p.pos]? = some 0 ∧ (5 : BitVec 3) ≠ 0) :=
  ⟨fun _ => ⟨rfl, rfl⟩, by decide, by decide, by decide +kernel, by decide, ⟨by decide, rfl⟩, ⟨by decide, rfl, by decide⟩⟩

/-- R170, R174, Table 9-1: a RAISE at reset is answered with header RAISING, BATTERY; header 2 and 3 zero; OK; no payload;
and the port drives 0xFF in TURNAROUND, the reply in REPLY and 0xFF after it. -/
theorem test_reply_read_out :
    let r := request .raise []
    let bytes := (Machine.kindCode .raise :: 0 :: [r.check]).map (Instr.linkByteComplete .v)
    let reads := fun n => ((run (.selectAsserted .v :: bytes ++ List.replicate n (.linkByteComplete .v 0)) State.reset).map
      fun t => (t.lp.get .v).dataOut)
    [0, 1, 2, 3, 4, 5, 6, 7, 8, 9].map reads =
      [0xFF, 0xFF, 0x09, 0, 0, 0, 0, crc [0x09, 0, 0, 0, 0], 0xFF, 0xFF].map fun b => some (some b) := by decide +kernel

/-- Requests with no payload and with 28 bytes; the reply of the first is 6 bytes. -/
theorem witness_RequestByteByByte :
    LinkFree .v State.reset ∧ ([] : List Byte).length ≤ 28 ∧ (List.replicate 28 (0 : Byte)).length ≤ 28 ∧
    after (.unknownKind .v 0 ⟨[], 0⟩) State.reset (fun t => (t.lp.get .v).reply.length) = some 6 ∧
    (List.replicate 8 (0 : Byte)).length = 6 + 2 :=
  ⟨free _ rfl rfl, by decide, by decide, by decide +kernel, by decide⟩

/-! ### Witnesses: an accepted set -/

theorem witness_AcceptedSetInOrder : ∃ ch x s, Accepts ch x s := ⟨_, _, _, accepts⟩

theorem armed_reset : ArmedInv State.reset := by
  unfold ArmedInv
  decide

/-- Three copies armed, which leave room for one more. -/
theorem armed_three : ArmedInv (armedWith 3) := by
  unfold ArmedInv
  decide +kernel

theorem witness_ArmedAtASet :
    (ArmedInv State.reset ∧ State.reset.pt.isSet = false) ∧ ArmedInv (armedWith 3) ∧ (armedWith 3).pt.isSet = true :=
  ⟨⟨armed_reset, rfl⟩, armed_three, rfl⟩

/-- Angle hits in ON_WIRE: at the elevation limit none, above it on one pole and on both; the further pole in DROPPED. -/
theorem witness_AngleChecksAndDrop :
    angleCheck { sample with elevPos := some 650, elevNeg := some 650 } ⟨none, none⟩ (inState .onWire) = none ∧
    angleCheck { sample with elevPos := some 651 } ⟨none, none⟩ (inState .onWire) = some (.pos, .elevation) ∧
    angleCheck { sample with elevPos := some 651, elevNeg := some 651 } ⟨none, none⟩ (inState .onWire) =
      some (.both, .elevation) ∧
    angleCheck sample ⟨none, some 469⟩ (inState .onWire) = some (.neg, .rate) ∧
    angleCheck { sample with elevNeg := some 651 } ⟨none, none⟩ (inState .dropped) = some (.neg, .elevation) := by
  decide +kernel

/-- A collector state with its counts at values, and copies armed. -/
def counting (c : CollectorState) (n : Nat) (armed : List ArmedCopy) : State :=
  ((inState c).setCm { (inState c).cm with presentCount := n, confirmCount := n, epochsIn := n }).setRft
    { State.reset.rft with armed := armed }

theorem counting_inv (c : CollectorState) (n : Nat) (armed : List ArmedCopy) : CollectorInv (counting c n armed).cm := by
  have h := inState_inv c
  unfold CollectorInv at h ⊢
  exact h

/-- A sample with this V, at elevations that pass the checks. -/
def atV (v : Option (BitVec 10)) : Sample := { sample with v := v }

/-- A CROSSING armed: a gap expected. -/
def crossing : List ArmedCopy := [⟨.crossing, 16, 0, 1, 30, 0, .w0⟩]

/-- A SUSPECT whose loss metre is known, with POSITION_SET set and its counts one below the limit. -/
def suspectAt (m : Nat) : State :=
  let s := counting .suspect 4 []
  (s.setCm { s.cm with lossMetre := some m }).setPt ⟨m + 5, 0, true⟩

theorem suspectAt_inv (m : Nat) : CollectorInv (suspectAt m).cm := by
  have h := counting_inv .suspect 4 []
  unfold CollectorInv at h ⊢
  exact ⟨h.1, h.2.1, h.2.2.1, h.2.2.2.1, fun n => absurd rfl n, h.2.2.2.2.2.1, h.2.2.2.2.2.2⟩

/-- In every state a set without an angle hit; V at P_V_PRESENT, one below it and tainted; a count that reaches its limit
with this set; a gap expected and none; the quiet current and the stowed elevations at their limits; a learned gap. -/
theorem witness_CollectorTransition :
    (∀ c n armed, CollectorInv (counting c n armed).cm ∧ (counting c n armed).cm.state = c) ∧
    (∀ c ∈ [CollectorState.down, .raising, .onWire, .gap, .suspect, .dropped, .unloading, .lowering],
      ∀ v ∈ [none, some 249, some 250], angleCheck (atV v) ⟨none, none⟩ (counting c 4 []) = none) ∧
    ((250#10).toNat = State.reset.par .vPresent ∧ (249#10).toNat < State.reset.par .vPresent ∧
      State.reset.par .presentCount = 4 + 1 ∧ State.reset.par .confirmCount = 19 + 1 ∧
      State.reset.par .raiseLimit = 2999 + 1 ∧ State.reset.par .unloadLimit = 49 + 1 ∧
      gapExpected (counting .onWire 0 crossing).rft.armed = true ∧ gapExpected (counting .onWire 0 []).rft.armed = false ∧
      (20#12).toInt.natAbs ≤ State.reset.par .iQuiet ∧ State.reset.par .iQuiet < (21#12).toInt.natAbs ∧
      (80#10).toNat ≤ State.reset.par .stow ∧ State.reset.par .stow < (81#10).toNat) ∧
    CollectorInv (suspectAt 7).cm ∧ (angleCheck sample ⟨none, none⟩ (suspectAt 7) = none ∧
      (suspectAt 7).par .learn = 1 ∧ (suspectAt 7).pt.isSet = true ∧ (suspectAt 7).cm.lossMetre = some 7) := by
  refine ⟨fun c n armed => ⟨counting_inv c n armed, rfl⟩, ?_, ?_, suspectAt_inv 7, ?_⟩ <;> decide +kernel

/-- The mode work of a state whose observation period ends with this set, and of one that has another set to come. -/
theorem witness_ModeWorkDone :
    QueueInv waiting.ls ∧ min (waiting.ls.observation + 1) 65535 < waiting.par .parkObs ∧
    (let s := parked.setLs { parked.ls with observation := 59999 }
     s.par .parkObs ≤ min (s.ls.observation + 1) 65535) ∧
    QueueInv (parked.setLs { parked.ls with observation := 59999 }).ls := by
  have h := queueInv_parked
  unfold QueueInv at h ⊢
  exact ⟨queueInv_waiting, by decide +kernel, by decide +kernel, h⟩

/-- The same state with P_BATTERY 0, stored and in force. -/
def noBattery (s : State) : State :=
  s.setPm ⟨setEntry s.pm.stored (paramNumber .battery) 0, setEntry s.pm.inForce (paramNumber .battery) 0⟩

/-- The waiting slot in LINE supply, and in NONE. -/
def onLine : State := waiting.setCm { waiting.cm with state := .onWire }
def noSupply : State := noBattery (waiting.setCm { waiting.cm with state := .dropped, dropMask := some .pos })

/-- NONE, BATTERY and LINE supply; V at both ends of the band and outside it. -/
theorem witness_SupplyAndBandSteps :
    QueueInv onLine.ls ∧ onLine.supply = .line ∧ QueueInv noSupply.ls ∧ noSupply.supply = .none ∧
    QueueInv waiting.ls ∧ waiting.supply = .battery ∧
    ((419#10).toNat < onLine.par .vAuxLow ∧ onLine.par .vAuxLow ≤ (420#10).toNat) ∧
    ((950#10).toNat ≤ onLine.par .vAuxHigh ∧ onLine.par .vAuxHigh < (951#10).toNat) := by
  refine ⟨queueInv_waiting, ?_, queueInv_waiting, ?_, queueInv_waiting, ?_⟩ <;> decide +kernel

/-- Stage 4 in NONE supply; a target of 4 above H, and one at H. -/
theorem witness_ShedDepthChosen :
    (noSupply.supply = .none ∧ onLine.supply ≠ .none ∧ onLine.be.h < targetDepth 0 onLine ∧
      targetDepth 1000 onLine = onLine.be.h) ∧ QueueInv onLine.ls :=
  ⟨by decide +kernel, queueInv_waiting⟩

theorem witness_CeilingsComputed :
    noSupply.supply = .none ∧ waiting.supply = .battery ∧ (inState .unloading).cm.state = .unloading ∧
    onLine.cm.state = .onWire := by
  decide +kernel

/-- TAINT escalated and not. -/
theorem witness_ComputationConcluded :
    (let s := onLine.setPm { onLine.pm with inForce := setEntry onLine.pm.inForce (paramNumber .escalate) 1 }
     ((s.par .escalate).testBit 0 && true) = true ∧ s.par .freezeLimit = 7 + 1) ∧
    (onLine.par .escalate).testBit 0 = false ∧ QueueInv onLine.ls :=
  ⟨by decide +kernel, by decide +kernel, queueInv_waiting⟩

/-- A queue whose head is shed, whose head starts, and whose head does not. -/
theorem witness_StartDecided :
    (QueueInv (waiting.setBe { waiting.be with h := 3 }).ls ∧
      (waiting.setBe { waiting.be with h := 3 }).ls.queue.dropWhile (fun i =>
        decide (4 - 3 ≤ (entry waiting.ls.slots i).level.val)) = []) ∧
    (let s := waiting.setLs { waiting.ls with sinceStart := 49 }
     s.ls.queue = 23 :: [] ∧ s.par .startGap = min (s.ls.sinceStart + 1) 65535 ∧
      mayStart 50 23 (s.setBe { s.be with record := { s.be.record with pAvail := 10 } }) = true ∧
      mayStart 50 23 (s.setBe { s.be with record := { s.be.record with pAvail := 9 } }) = false ∧
      mayStart 49 23 (s.setBe { s.be with record := { s.be.record with pAvail := 10 } }) = false) := by
  have h := queueInv_waiting
  unfold QueueInv at h ⊢
  exact ⟨⟨h, by decide +kernel⟩, by decide +kernel⟩

/-! ### Witnesses: the events of a set, and what every step keeps -/

/-- Each event due with this set; the end of UNLOADING with a battery and without. -/
theorem witness_CollectorEvents :
    (∀ c n armed, (counting c n armed).resetPin = false ∧ (counting c n armed).si.senseLost = false) ∧
    QueueInv (counting .unloading 49 []).ls ∧
    (∀ c ∈ [CollectorState.raising, .gap, .suspect], presentDue (atV (some 250)) (counting c 4 []) = true ∧
      presentDue (atV (some 250)) (counting c 3 []) = false) ∧
    confirmDue (atV (some 249)) (counting .suspect 19 []) = true ∧
    confirmDue (atV (some 249)) (counting .suspect 18 []) = false ∧
    raiseLimitDue (counting .raising 2999 []) = true ∧ raiseLimitDue (counting .raising 2998 []) = false ∧
    unloadLimitDue (counting .unloading 49 []) = true ∧ unloadLimitDue (counting .unloading 48 []) = false ∧
    (collectorShare sample (counting .unloading 49 [])).supply = .battery ∧
    (collectorShare sample (noBattery (counting .unloading 49 []))).supply = .none ∧
    (∀ c ∈ [CollectorState.raising, .gap, .suspect, .unloading], ∀ v ∈ [some 249, some 250],
      angleCheck (atV v) (counting c 4 []).si.prevElev (counting c 4 []) = none) :=
  ⟨fun _ _ _ => ⟨rfl, rfl⟩, queueInv_reset, by decide +kernel⟩

/-- R137, R115: a slot that runs without ride-through is shed when the end of UNLOADING leaves NONE supply, and not with a
battery. -/
theorem test_unloading_ends_without_battery :
    let s := withSlot 4 ⟨10, 1, .on, false, false, .running, 0, 0⟩ [] (counting .unloading 49 [])
    after (.unloadLimitExpiry sample) (noBattery s) (fun t => (entry t.ls.slots 4).state) = some (.shed .supply) ∧
      after (.unloadLimitExpiry sample) s (fun t => (entry t.ls.slots 4).state) = some .running := by decide +kernel

/-- A running ON_DEMAND slot one set below the idle limit, generators one advance below their periods, and so on. -/
def late (n : Nat) : State :=
  withSlot 0 ⟨10, 0, .onDemand, true, false, .running, 0, n⟩ []
    (State.reset.setLs { State.reset.ls with gens := ⟨n, n⟩, observation := n })

theorem witness_LoadEvents :
    (∀ n, (late n).resetPin = false ∧ (late n).si.senseLost = false) ∧
    (∀ g, wrapDue g (late 9999) = true ∧ wrapDue g (late 9998) = false) ∧
    idleDue 0 (late 4999) = true ∧ idleDue 0 (late 4998) = false ∧ observationDue (late 59999) = true ∧
    observationDue (late 59998) = false ∧
    (let s := waiting.setLs { waiting.ls with sinceStart := 49 }
     startDue (s.setBe { s.be with record := { s.be.record with pAvail := 10 } }) = true ∧
      startDue (s.setBe { s.be with record := { s.be.record with pAvail := 9 } }) = false ∧
      (noBattery s).supply = .none ∧ startDue (noBattery s) = true) ∧ QueueInv waiting.ls := by
  refine ⟨fun _ => ⟨rfl, rfl⟩, fun g => ?_, ?_⟩
  · cases g <;> decide +kernel
  · unfold QueueInv
    decide +kernel

/-- R115, R137: in NONE supply a head that is not ride-through does not start. -/
theorem test_no_start_without_supply :
    let head := fun (ride : Bool) =>
      let s := withSlot 23 ⟨10, 1, .on, ride, false, .waiting, 0, 0⟩ [23] (noBattery State.reset)
      after .slotStart (s.setLs { s.ls with sinceStart := 49 }) (fun t => (entry t.ls.slots 23).state)
    head false = some .waiting ∧ head true = some .running := by decide +kernel

/-- A window of LINE supply one set below its length; a frozen computation one below the freeze limit. -/
theorem witness_BudgetEvents :
    (let s := onLine.setBe { onLine.be with windowCount := 99 }
     s.resetPin = false ∧ windowDue s = true ∧ windowDue (s.setBe { s.be with windowCount := 98 }) = false) ∧
    (let s := (onLine.setPm { onLine.pm with inForce := setEntry onLine.pm.inForce (paramNumber .escalate) 1 }).setBe
      { onLine.be with causes := ⟨true, false, false, false⟩, freeze := 7 }
     freezeDue s = true ∧ freezeDue (s.setBe { s.be with freeze := 6 }) = false) := by decide +kernel

theorem alarms_reset : AlarmInv State.reset.ad := by
  intro l
  unfold LinkAlarmsInv
  cases l <;> decide +kernel

theorem witness_StepKeepsSenseAndAlarms :
    SenseInv State.reset ∧ AlarmInv State.reset.ad ∧ ∃ t, step (State.reset.setPending [.millisecondTick]) = .next t :=
  ⟨senseInv_of rfl rfl rfl, alarms_reset, _, rfl⟩

theorem witness_StepKeepsParametersAndBudget :
    ParamInv State.reset.pm ∧ PositionInv State.reset.pt ∧ DepthInv State.reset ∧ RecordInv State.reset.be.record ∧
      GrantInv State.reset ∧ (∃ t, step (State.reset.setPending [.slotStart]) = .next t) ∧
      (∃ t, Accepts .a sample (holding (frameOf sample) noSupply) ∧
        exec (.sampleFrame .a) (holding (frameOf sample) noSupply) = .next t ∧ t.supply = .none) ∧
      (let x := { sample with i := some 100 }
       ∃ t, Accepts .a x (holding (frameOf x) (inState .unloading)) ∧
        exec (.sampleFrame .a) (holding (frameOf x) (inState .unloading)) = .next t ∧ t.cm.state = .unloading) ∧
      ((∃ t, exec .millisecondTick State.reset = .next t) ∧
        ∀ ch x, Instr.millisecondTick = .sampleFrame ch → ¬Accepts ch x State.reset) := by
  have none_acc : Accepts .a sample (holding (frameOf sample) noSupply) :=
    ⟨rfl, ⟨_, rfl, by decide +kernel⟩, rfl, rfl, by decide +kernel⟩
  have unload_acc : Accepts .a { sample with i := some 100 }
      (holding (frameOf { sample with i := some 100 }) (inState .unloading)) :=
    ⟨rfl, ⟨_, rfl, by decide +kernel⟩, rfl, rfl, by decide +kernel⟩
  refine ⟨params_reset, ?_, ?_, ?_, ?_, ⟨_, rfl⟩, ⟨_, none_acc, exec_accepted none_acc, by decide +kernel⟩,
    ⟨_, unload_acc, exec_accepted unload_acc, by decide +kernel⟩, ⟨_, rfl⟩, fun _ _ e => by cases e⟩
  · unfold PositionInv; decide
  · unfold DepthInv; decide +kernel
  · unfold RecordInv; decide
  · unfold GrantInv; decide

theorem witness_StepKeepsCollectorInv :
    ∀ c, CollectorInv (inState c).cm ∧ ∃ t, step ((inState c).setPending [.lower .v (request .lower [])]) = .next t :=
  fun c => ⟨inState_inv c, _, rfl⟩

theorem witness_StepKeepsRouteTable :
    ParamInv State.reset.pm ∧ PointsInv (tableWith (pair true false) 1) ∧ ArmedInv (armedWith 3) ∧
      (PositionInv (armedWith 3).pt ∧ WindowInv (armedWith 3)) ∧
      ∃ t, step ((armedWith 3).setPending [.tableClear .v (request .tableClear [])]) = .next t := by
  refine ⟨params_reset, pair_points true false, armed_three, ⟨?_, ?_⟩, _, rfl⟩
  · unfold PositionInv; decide
  · have window : ∀ n < 3, 30 = min (n + 1 + (29 - n)) 65535 ∧ n - 63 ≤ 0 := by decide
    intro c mem
    obtain ⟨n, h, rfl⟩ := List.mem_map.mp mem
    have := window n (List.mem_range.mp h)
    exact ⟨Nat.zero_le _, ⟨29 - n, by omega, this.1⟩, 63, Nat.le_refl _, this.2⟩

theorem witness_StepKeepsLoads :
    (SenseInv running ∧ QueueInv running.ls ∧ RunningInv running ∧
      ∃ t, step (running.setPending [.slotStart]) = .next t) ∧
    (let s := holding (frameOf sample) (noSupply.setLs running.ls)
     Accepts .a sample s ∧ SenseInv s ∧ QueueInv s.ls ∧ RunningInv s ∧
      ∃ t, exec (.sampleFrame .a) s = .next t ∧ t.supply = .none) := by
  have r : RunningInv running := by
    unfold RunningInv
    decide +kernel
  have acc : Accepts .a sample (holding (frameOf sample) (noSupply.setLs running.ls)) :=
    ⟨rfl, ⟨_, rfl, by decide +kernel⟩, rfl, rfl, by decide +kernel⟩
  refine ⟨⟨senseInv_of rfl rfl rfl, queueInv_running, r, _, rfl⟩, acc, senseInv_of rfl rfl rfl, queueInv_running, ?_, _,
    exec_accepted acc, by decide +kernel⟩
  unfold RunningInv
  decide +kernel

end Sys2Proof.Tests
end

/-! PROOFS. An accepted set stage by stage: what reaches SI, PT and PM at its end (R7 to R9, R17, R189). -/

namespace Sys2Proof.Machine

/-- CM's share of an accepted set: the state that LS and BE find. -/
def movedAtSet (x : Sample) (s : State) : State :=
  collectorTake x s.si.prevElev (offWireEntry (setFound x s)) (notePrevMatch (setFound x s))

theorem acceptedSet_eq (x : Sample) (s : State) :
    acceptedSet x s = (loadsAndBudget x.v (movedAtSet x s)).setSi { (loadsAndBudget x.v (movedAtSet x s)).si with
      prevElev := ⟨keepElev s.si.prevElev.pos x.elevPos, keepElev s.si.prevElev.neg x.elevNeg⟩ } := rfl

theorem notePrevMatch_touches (s : State) : Touches [.rft] s (notePrevMatch s) := State.setRft_touches _ _

/-- After P has advanced, an accepted set changes no block but these. -/
theorem movedAtSet_touches (x : Sample) (s : State) : Touches [.rft, .cm, .ad] (passOn x s) (movedAtSet x s) :=
  (((armForSet_touches _).mono (by decide)).trans ((notePrevMatch_touches _).mono (by decide))).trans
    ((collectorTake_touches _ _ _ _).mono (by decide))

theorem loadsAndBudget_movedAtSet_touches (x : Sample) (s : State) :
    Touches [.rft, .cm, .be, .tg, .ls, .ad] (passOn x s) (loadsAndBudget x.v (movedAtSet x s)) :=
  ((movedAtSet_touches x s).mono (by decide)).trans ((loadsAndBudget_touches _ _).mono (by decide))

@[simp] theorem acceptedSet_si (x : Sample) (s : State) : (acceptedSet x s).si = { s.si with
    epoch := s.si.epoch + 1
    prevElev := ⟨keepElev s.si.prevElev.pos x.elevPos, keepElev s.si.prevElev.neg x.elevNeg⟩ } := by
  have same : (loadsAndBudget x.v (movedAtSet x s)).si = (passOn x s).si :=
    (loadsAndBudget_movedAtSet_touches x s).si (by decide)
  rw [acceptedSet_eq, State.setSi_si, same]
  rfl

@[simp] theorem acceptedSet_pt (x : Sample) (s : State) :
    (acceptedSet x s).pt = advancePosition x.inc.toNat s.pt :=
  (loadsAndBudget_movedAtSet_touches x s).pt (by decide)

@[simp] theorem acceptedSet_pm (x : Sample) (s : State) : (acceptedSet x s).pm = bringIntoForce s.pm :=
  (loadsAndBudget_movedAtSet_touches x s).pm (by decide)

/-- A property that the receivers, a channel's record, the failure of a channel and an accepted set each keep is kept by a
closed frame (R2 to R8). -/
theorem frameArrives_keeps {P : State → Prop} {ch : Channel} {f : OpenFrame} {s : State}
    (hunts : P (s.setSi { s.si with rx := s.si.rx.put ch none }))
    (record : ∀ u c, P u → c.health = (u.si.chan.get ch).health → P (setChannel ch c u))
    (fail : ∀ u, P u → P (failChannel ch .plausibility u)) (take : ∀ x u, P u → P (acceptedSet x u)) :
    P (frameArrives ch f s) := by
  generalize hu : s.setSi { s.si with rx := s.si.rx.put ch none } = u at hunts
  cases e : (s.si.chan.get ch).health with
  | failed => rw [frameArrives_failed e, hu]; exact hunts
  | healthy =>
    cases g : frameSample f with
    | none =>
      rw [frameArrives_bad e g, hu]
      unfold takeBadFrame
      dsimp only
      split
      · exact fail _ (record _ _ hunts rfl)
      · exact record _ _ hunts rfl
    | some x =>
      rw [frameArrives_good e g, hu]
      unfold takeGoodFrame
      dsimp only
      split
      · exact fail _ (record _ _ hunts rfl)
      · split
        · exact take _ _ (record _ _ hunts rfl)
        · exact record _ _ hunts rfl

end Sys2Proof.Machine

/-! PROOFS. Every step keeps the sense property (R13, R14). -/

namespace Sys2Proof.Machine

/-- The sense property reads SI's channel healths, active channel and SENSE_LOST alone. -/
theorem SenseInv.congr {s t : State} (h : SenseInv s)
    (health : ∀ ch, (t.si.chan.get ch).health = (s.si.chan.get ch).health) (active : t.si.active = s.si.active)
    (lost : t.si.senseLost = s.si.senseLost) : SenseInv t := by
  obtain ⟨healthy, lostIff, failed⟩ := h
  refine ⟨fun ch a => ?_, ?_, fun a ch => ?_⟩
  · rw [health]; exact healthy ch (active ▸ a)
  · rw [lost, active]; exact lostIff
  · rw [health]; exact failed (active ▸ a) ch

theorem SenseInv.of_si_eq {s t : State} (h : SenseInv s) (e : t.si = s.si) : SenseInv t :=
  h.congr (fun _ => by rw [e]) (by rw [e]) (by rw [e])

theorem PerChannel.get_put {α : Type} (p : PerChannel α) (c d : Channel) (x : α) :
    (p.put c x).get d = if d = c then x else p.get d := by
  cases c <;> cases d <;> rfl

/-- A write of one channel that keeps its health keeps the sense property. -/
theorem setChannel_senseInv {s : State} (h : SenseInv s) {ch : Channel} {c : SenseChannel}
    (health : c.health = (s.si.chan.get ch).health) : SenseInv (setChannel ch c s) := by
  refine h.congr (fun d => ?_) rfl rfl
  show ((s.si.chan.put ch c).get d).health = _
  rw [PerChannel.get_put]
  split
  · next e => rw [e, health]
  · rfl

theorem loseSense_si (s : State) : (loseSense s).si = { s.si with active := none, senseLost := true } := by
  have same : (safeAtSenseLoss (lostState s)).si = (lostState s).si :=
    (safeAtSenseLoss_touches (lostState s)).si (by decide)
  rw [loseSense_eq, State.setCm_si, State.setLs_si, same]
  rfl

/-- A channel other than FAILED is HEALTHY. -/
theorem health_failed_of_ne {h : Health} (n : h ≠ .healthy) : h = .failed := by
  cases h
  · exact absurd rfl n
  · rfl

/-- R12 to R14: the failure of a channel keeps the sense property. -/
theorem failChannel_senseInv {s : State} (h : SenseInv s) (ch : Channel) (why : FailReason) :
    SenseInv (failChannel ch why s) := by
  obtain ⟨healthy, lostIff, failed⟩ := h
  have mark : ∀ d, ((failedState ch why s).si.chan.get d).health =
      if d = ch then .failed else (s.si.chan.get d).health := fun d => by
    show ((s.si.chan.put ch _).get d).health = _
    rw [PerChannel.get_put]
    split <;> rfl
  by_cases active : s.si.active = some ch
  · by_cases standby : (s.si.chan.get (otherChannel ch)).health = .healthy
    · rw [failChannel_failover active standby]
      have notLost : s.si.senseLost = false := by
        cases l : s.si.senseLost
        · rfl
        · rw [lostIff.mp l] at active; cases active
      refine ⟨fun d a => ?_, ?_, fun a => nomatch a⟩
      · have : otherChannel ch = d := Option.some.inj a
        subst this
        exact (congrArg SenseChannel.health (PerChannel.get_put_same _ _ _)).trans standby
      · show s.si.senseLost = true ↔ some _ = none
        simp [notLost]
    · rw [failChannel_lost active (health_failed_of_ne standby)]
      refine ⟨fun d a => ?_, ?_, fun _ d => ?_⟩
      · rw [loseSense_si] at a; cases a
      · rw [loseSense_si]; simp
      · rw [loseSense_si]
        show ((failedState ch why s).si.chan.get d).health = _
        rw [mark]
        split
        · rfl
        · next n => rw [eq_otherChannel_of_ne n]; exact health_failed_of_ne standby
  · rw [failChannel_standby active]
    refine ⟨fun d a => ?_, lostIff, fun a d => ?_⟩
    · have n : d ≠ ch := fun e => active (e ▸ a)
      rw [mark, if_neg n]
      exact healthy d a
    · rw [mark]
      split
      · rfl
      · exact failed a d

theorem acceptedSet_senseInv {s : State} (h : SenseInv s) (x : Sample) : SenseInv (acceptedSet x s) :=
  h.congr (fun _ => by rw [acceptedSet_si]) (by rw [acceptedSet_si]) (by rw [acceptedSet_si])

theorem frameArrives_senseInv {s : State} (h : SenseInv s) (ch : Channel) (f : OpenFrame) :
    SenseInv (frameArrives ch f s) :=
  frameArrives_keeps h (fun _ _ h health => setChannel_senseInv h health) (fun _ h => failChannel_senseInv h ch _)
    (fun x _ h => acceptedSet_senseInv h x)

/-- R15: a channel restored keeps the sense property. -/
theorem restore_senseInv {s : State} (h : SenseInv s) (ch : Channel) : SenseInv (restore ch s) := by
  obtain ⟨healthy, lostIff, failed⟩ := h
  have get : ∀ d, ((s.si.chan.put ch (restoredChannel (s.si.chan.get ch))).get d).health =
      if d = ch then .healthy else (s.si.chan.get d).health := fun d => by
    rw [PerChannel.get_put]
    split <;> rfl
  cases a : s.si.active with
  | some d =>
    have e : restore ch s = setChannel ch (restoredChannel (s.si.chan.get ch)) s := by
      simp only [restore, a]
    rw [e]
    refine ⟨fun k ak => ?_, lostIff, fun n => ?_⟩
    · refine (get k).trans ?_
      split
      · rfl
      · exact healthy k ak
    · rw [show s.si.active = none from n] at a; cases a
  | none =>
    have e : (restore ch s).si = { s.si with
        chan := s.si.chan.put ch (restoredChannel (s.si.chan.get ch))
        active := some ch, senseLost := false, prevElev := ⟨none, none⟩ } := by
      simp only [restore, a]
      rfl
    refine ⟨fun k ak => ?_, ?_, fun n => ?_⟩
    · rw [e] at ak ⊢
      obtain rfl : ch = k := Option.some.inj ak
      exact (get ch).trans (if_pos rfl)
    · rw [e]; simp
    · rw [e] at n; cases n

theorem senseInv_reset_si {s : State} (x : PerChannel (Option OpenFrame)) (e : s.si = { resetSense with rx := x }) :
    SenseInv s := by
  refine ⟨fun ch _ => ?_, ?_, fun a => ?_⟩
  · rw [e]; cases ch <;> rfl
  · rw [e]; simp [resetSense]
  · rw [e] at a; cases a

theorem requestBlocks_si {k : Kind} (restore : k ≠ .restoreChannel) (reinit : k ≠ .reinit) :
    Block.si ∉ .lp :: requestBlocks k := by
  cases k
  case restoreChannel => exact absurd rfl restore
  case reinit => exact absurd rfl reinit
  all_goals decide

/-- R15, R179: RESTORE CHANNEL and REINIT alone write SI. -/
theorem ownerAnswer_senseInv {s : State} (h : SenseInv s) (k : Kind) (l : Link) (p : List Byte) :
    SenseInv (ownerAnswer k l p s).state := by
  by_cases restore : k = .restoreChannel
  · subst restore
    simp only [ownerAnswer, ownRestoreChannel]
    split
    · exact h
    · split
      · exact h
      · exact restore_senseInv h _
  · by_cases reinit : k = .reinit
    · subst reinit
      simp only [ownerAnswer, ownReinit]
      split
      · exact senseInv_reset_si s.si.rx rfl
      · exact h
    · exact h.of_si_eq ((ownerAnswer_touches k l p s).si (requestBlocks_si restore reinit))

theorem countSilence_health (c : SenseChannel) : (countSilence c).health = c.health := by
  unfold countSilence
  split <;> rfl

/-- R13: each change that commands are made of keeps the sense property. -/
theorem senseInv_kept : Kept SenseInv where
  port _ _ h := h
  pending _ _ h := h
  powerOn _ _ := senseInv_reset_si _ rfl
  release _ h _ := h.congr (fun ch => by cases ch <;> rfl) rfl rfl
  tick _ h := h.congr (fun ch => by cases ch <;> exact countSilence_health _) rfl rfl
  expire ch _ h _ := failChannel_senseInv h ch _
  rx _ _ h := h
  frame ch f _ h _ := frameArrives_senseInv h ch f
  share x s h _ := h.of_si_eq ((collectorShare_touches x s).si (by decide))
  unload x s h _ := h.of_si_eq ((unloadShare_touches x s).si (by decide))
  wrap _ _ h := h
  idle _ _ h _ := h
  observe _ h := h
  window v s h := h.of_si_eq ((windowStep_touches v s).si (by decide))
  freeze s h _ := h.of_si_eq ((frozenComputation_touches s).si (by decide))
  start s h _ := by
    unfold startHead
    split <;> exact h
  own k l p _ h := ownerAnswer_senseInv h k l p

end Sys2Proof.Machine

/-! PROOFS. Every step keeps the alarm property of each link (R153, R160, R162). -/

namespace Sys2Proof.Machine

/-- A property that a write of the table and the arming of one candidate each keep is kept by the probe (R35). -/
theorem probe_keeps {P : State → Prop} {s : State} (h : P s) (note : ∀ u q, P u → P (u.setRft { u.rft with lastQ := q }))
    (arm : ∀ i w e u, P u → P (armCandidate i w e u)) : P (probe s) := by
  unfold probe
  split
  · have noted := note s (lookAhead s) h
    dsimp only
    generalize s.setRft { s.rft with lastQ := lookAhead s } = u at noted ⊢
    generalize candidates (lookAhead s) (entry s.rft.points (setOf (lookAhead s))) = cs
    induction cs generalizing u with
    | nil => exact noted
    | cons c cs ih => exact ih _ (arm _ _ _ _ noted)
  · exact h

/-! ### The collector and the route table -/

theorem enterSuspect_alarmInv {s : State} (h : AlarmInv s.ad) : AlarmInv (enterSuspect s).ad :=
  raise_alarmInv (by exact h) _

theorem makeDrop_alarmInv {s : State} (h : AlarmInv s.ad) (p : DropPoles) (c : DropCause) (x : Sample) :
    AlarmInv (makeDrop p c x s).ad := by
  unfold makeDrop
  refine raise_alarmInv ?_ _
  rw [State.setCm_ad]
  split <;> exact h

theorem learnGap_alarmInv {s : State} (h : AlarmInv s.ad) : AlarmInv (learnGap s).ad := by
  unfold learnGap
  split
  · exact h
  · split
    · split
      · exact raise_alarmInv (by exact h) _
      · exact raise_alarmInv h _
    · exact h

theorem takeTransition_alarmInv {s : State} (h : AlarmInv s.ad) (x : Sample) (offWire : Bool) :
    AlarmInv (takeTransition x offWire s).ad := by
  unfold takeTransition
  have counted : AlarmInv (s.setCm (countSet (presenceOf (s.par .vPresent) x.v) s.cm)).ad := h
  dsimp only
  generalize s.setCm (countSet (presenceOf (s.par .vPresent) x.v) s.cm) = u at counted ⊢
  split
  · exact counted
  · exact counted
  · unfold takeRaising
    split
    · exact counted
    · split
      · exact raise_alarmInv (by exact counted) _
      · exact counted
  · unfold takeOnWire
    split
    · exact counted
    · split
      · split
        · exact counted
        · exact enterSuspect_alarmInv counted
      · exact counted
  · unfold takeGap
    split
    · exact counted
    · split
      · exact counted
      · split
        · exact raise_alarmInv (enterSuspect_alarmInv counted) _
        · exact counted
  · unfold takeSuspect
    split
    · exact counted
    · split
      · exact makeDrop_alarmInv counted _ _ _
      · split
        · exact learnGap_alarmInv counted
        · exact counted
  · unfold takeUnloading
    dsimp only
    split <;> split <;> exact counted
  · unfold takeLowering
    split <;> exact counted

theorem collectorTake_alarmInv {s : State} (h : AlarmInv s.ad) (x : Sample) (prev : PerPole (Option (BitVec 10)))
    (offWire : Bool) : AlarmInv (collectorTake x prev offWire s).ad := by
  unfold collectorTake
  have ticked : AlarmInv (s.setCm (countEpoch s.cm)).ad := h
  dsimp only
  generalize s.setCm (countEpoch s.cm) = u at ticked ⊢
  rw [State.setCm_ad]
  split
  · exact makeDrop_alarmInv ticked _ _ _
  · exact takeTransition_alarmInv ticked _ _

theorem armCandidate_alarmInv {s : State} (h : AlarmInv s.ad) (i : Fin 64) (w : Way) (e : PointEntry) :
    AlarmInv (armCandidate i w e s).ad := by
  unfold armCandidate
  split
  · split
    · exact h
    · exact raise_alarmInv h _
  · exact h

theorem probe_alarmInv {s : State} (h : AlarmInv s.ad) : AlarmInv (probe s).ad :=
  probe_keeps (P := fun u => AlarmInv u.ad) h (fun _ _ h => h) fun i w e _ h => armCandidate_alarmInv h i w e

/-! ### Loads and budget -/

theorem bandStep_alarmInv {s : State} (h : AlarmInv s.ad) (v : Option (BitVec 10)) : AlarmInv (bandStep v s).ad := by
  unfold bandStep
  split
  · split
    · unfold bandShed
      have locked : ∀ k x, AlarmInv (raiseTimes .loadLockout k (s.setLs x)).ad := fun k x =>
        raiseTimes_alarmInv (by rw [State.setLs_ad]; exact h) _ _
      dsimp only
      split
      · exact raise_alarmInv (locked _ _) _
      · exact locked _ _
    · exact raiseTimes_alarmInv (by rw [State.setLs_ad]; exact h) _ _
  · exact h
  · exact h
  · exact h

theorem overGrantCheck_alarmInv {s : State} (h : AlarmInv s.ad) : AlarmInv (overGrantCheck s).ad := by
  unfold overGrantCheck
  split
  · exact raise_alarmInv (by exact h) _
  · exact h

theorem windowStep_alarmInv {s : State} (h : AlarmInv s.ad) (v : Option (BitVec 10)) : AlarmInv (windowStep v s).ad := by
  unfold windowStep
  split
  · dsimp only
    split
    · unfold endWindow
      dsimp only
      split
      · exact raise_alarmInv (by exact h) _
      · exact h
    · exact h
  · exact h

theorem depthStage_alarmInv {s : State} (h : AlarmInv s.ad) (pAvail : Nat) : AlarmInv (depthStage pAvail s).state.ad := by
  unfold depthStage
  split
  · exact h
  · dsimp only
    split
    · exact raise_alarmInv (by exact h) _
    · exact h

theorem freezeLimitTest_alarmInv {s : State} (h : AlarmInv s.ad) : AlarmInv (freezeLimitTest s).ad := by
  unfold freezeLimitTest
  split
  · exact overGrantCheck_alarmInv (raise_alarmInv (s := publish _ s) h _)
  · exact h

theorem frozenComputation_alarmInv {s : State} (h : AlarmInv s.ad) : AlarmInv (frozenComputation s).ad := by
  unfold frozenComputation
  refine freezeLimitTest_alarmInv ?_
  have kept : AlarmInv (s.setBe { s.be with record := keptRecord s, freeze := satAdd 255 s.be.freeze 1 }).ad := h
  generalize s.setBe { s.be with record := keptRecord s, freeze := satAdd 255 s.be.freeze 1 } = u at kept
  have raised : AlarmInv (if satAdd 255 s.be.freeze 1 = 1 then raise .budgetFrozen u else u).ad := by
    split
    · exact raise_alarmInv kept _
    · exact kept
  split
  · exact overGrantCheck_alarmInv raised
  · exact raised

theorem conclude_alarmInv {s : State} (h : AlarmInv s.ad) (pAvail served : Nat) (c : Ceilings) (causes : Conditions)
    (fall : Bool) : AlarmInv (conclude pAvail served c causes fall s).ad := by
  unfold conclude
  have noted : AlarmInv (noteCauses causes s).ad := h
  generalize noteCauses causes s = u at noted
  dsimp only
  split
  · exact frozenComputation_alarmInv noted
  · unfold normalPublication
    have published := overGrantCheck_alarmInv (s := publish (freshRecord pAvail served
      (u.setBe { fallDepth fall u.be with freeze := 0 }).be.h c causes.taint
      (u.setBe { fallDepth fall u.be with freeze := 0 })) (u.setBe { fallDepth fall u.be with freeze := 0 })) noted
    dsimp only
    split
    · rw [State.setLs_ad]; exact published
    · exact published

theorem budgetComputation_alarmInv {s : State} (h : AlarmInv s.ad) (v : Option (BitVec 10)) :
    AlarmInv (budgetComputation v s).ad := by
  have held : AlarmInv (holdV v s).ad := by
    unfold holdV
    split <;> exact h
  exact conclude_alarmInv (depthStage_alarmInv (windowStep_alarmInv held v) _) _ _ _ _ _

theorem loadsAndBudget_alarmInv {s : State} (h : AlarmInv s.ad) (v : Option (BitVec 10)) :
    AlarmInv (loadsAndBudget v s).ad := by
  have before : (supplyStep (modeWork s)).ad = s.ad :=
    ((modeWork_touches s).trans (supplyStep_touches _)).ad (by decide)
  have banded : AlarmInv (loadsBeforeBudget v s).ad := bandStep_alarmInv (before ▸ h) v
  have decided : (loadsAndBudget v s).ad = (budgetComputation v (loadsBeforeBudget v s)).ad :=
    (startDecision_touches _).ad (by decide)
  rw [decided]
  exact budgetComputation_alarmInv banded v

/-! ### Sense -/

theorem acceptedSet_alarmInv {s : State} (h : AlarmInv s.ad) (x : Sample) : AlarmInv (acceptedSet x s).ad := by
  have found : AlarmInv (setFound x s).ad := probe_alarmInv (s := removePassed (passOn x s)) h
  exact loadsAndBudget_alarmInv (collectorTake_alarmInv (s := notePrevMatch (setFound x s)) found _ _ _) _

theorem failChannel_alarmInv {s : State} (h : AlarmInv s.ad) (ch : Channel) (why : FailReason) :
    AlarmInv (failChannel ch why s).ad := by
  by_cases active : s.si.active = some ch
  · by_cases standby : (s.si.chan.get (otherChannel ch)).health = .healthy
    · rw [failChannel_failover active standby]
      exact raise_alarmInv (by exact h) _
    · rw [failChannel_lost active (health_failed_of_ne standby), loseSense_eq, State.setCm_ad, State.setLs_ad]
      have lost : AlarmInv (lostState (failedState ch why s)).ad :=
        raise_alarmInv (s := (failedState ch why s).setSi _) h _
      exact overGrantCheck_alarmInv (s := publish _ _) lost
  · rw [failChannel_standby active]
    exact h

/-! ### Requests -/

theorem setLinkAlarms_alarmInv {s : State} (h : AlarmInv s.ad) (l : Link) {a : LinkAlarms} (inv : LinkAlarmsInv a) :
    AlarmInv (setLinkAlarms l a s).ad := by
  intro k
  show LinkAlarmsInv ((s.ad.links.put l a).get k)
  by_cases e : k = l
  · rw [e, PerLink.get_put_same]; exact inv
  · rw [PerLink.get_put_other _ _ e]; exact h k

theorem resetLinkAlarms_inv : LinkAlarmsInv resetLinkAlarms := by
  refine ⟨fun n => ?_, by decide, List.isChain_nil, ?_⟩
  · simp [resetLinkAlarms, clearEntry]
  · simp [resetLinkAlarms, clearEntry, eligible]

theorem reset_alarmInv {ad : Alarms} (h : ad.links = ⟨resetLinkAlarms, resetLinkAlarms, resetLinkAlarms⟩) :
    AlarmInv ad := by
  intro l
  rw [h]
  cases l <;> exact resetLinkAlarms_inv

theorem requestBlocks_ad {k : Kind} (h : k ∉ [.takeAlarm, .doneAlarm, .alarmRouteSet, .featurePut, .reinit]) :
    Block.ad ∉ .lp :: requestBlocks k := by
  revert h; cases k <;> decide

theorem ownFeaturePut_alarmInv {s : State} (h : AlarmInv s.ad) (p : List Byte) : AlarmInv (ownFeaturePut p s).state.ad := by
  unfold ownFeaturePut
  split
  · split
    · exact h
    · unfold putChecked
      split
      · exact raise_alarmInv h _
      · unfold putStored
        dsimp only
        split
        · exact armCandidate_alarmInv (by rw [State.setRft_ad]; exact h) _ _ _
        · rw [State.setRft_ad]; exact h
  · exact h

theorem ownTakeAlarm_alarmInv {s : State} (h : AlarmInv s.ad) (l : Link) : AlarmInv (ownTakeAlarm l s).state.ad := by
  unfold ownTakeAlarm
  dsimp only
  split
  · exact h
  · next room =>
    split
    · exact h
    · next n chosen =>
      exact setLinkAlarms_alarmInv h l (takeEntry_inv (h l) (chooseAlarm_eligible chosen) (Nat.lt_of_not_le room))

theorem ownerAnswer_alarmInv {s : State} (h : AlarmInv s.ad) (k : Kind) (l : Link) (p : List Byte) :
    AlarmInv (ownerAnswer k l p s).state.ad := by
  by_cases m : k ∈ [.takeAlarm, .doneAlarm, .alarmRouteSet, .featurePut, .reinit]
  · simp only [List.mem_cons, List.not_mem_nil, or_false] at m
    obtain rfl | rfl | rfl | rfl | rfl := m
    · exact ownTakeAlarm_alarmInv h l
    · simp only [ownerAnswer, ownDoneAlarm]
      split
      · exact h
      · exact setLinkAlarms_alarmInv h l (dropTop_inv (h l))
    · simp only [ownerAnswer, ownAlarmRouteSet]
      split
      · split <;> exact h
      · exact h
    · exact ownFeaturePut_alarmInv h p
    · simp only [ownerAnswer, ownReinit]
      split
      · exact reset_alarmInv rfl
      · exact h
  · rw [(ownerAnswer_touches k l p s).ad (requestBlocks_ad m)]
    exact h

/-- R153, R160, R162: each change that commands are made of keeps the alarm property. -/
theorem alarmInv_kept : Kept fun s => AlarmInv s.ad where
  port _ _ h := h
  pending _ _ h := h
  powerOn _ _ := reset_alarmInv rfl
  release _ h _ := h
  tick _ h := h
  expire ch _ h _ := failChannel_alarmInv h ch _
  rx _ _ h := h
  frame ch f _ h _ := frameArrives_keeps (P := fun s => AlarmInv s.ad) h (fun _ _ h _ => h)
    (fun _ h => failChannel_alarmInv h ch _) (fun x _ h => acceptedSet_alarmInv h x)
  share x s h _ := collectorTake_alarmInv h x _ _
  unload x s h _ := by
    have share := collectorTake_alarmInv h x s.si.prevElev false
    unfold unloadShare
    dsimp only
    split
    · rw [(supplyStep_touches _).ad (by decide)]; exact share
    · exact share
  wrap _ _ h := h
  idle _ _ h _ := h
  observe _ h := h
  window v _ h := windowStep_alarmInv h v
  freeze _ h _ := frozenComputation_alarmInv h
  start s h _ := by
    unfold startHead
    split <;> exact h
  own k l p _ h := ownerAnswer_alarmInv h k l p

/-- Settles O56: the sense property and the alarm property, each kept by every change that a step is made of. -/
theorem stepKeepsSenseAndAlarms : Obligations.StepKeepsSenseAndAlarms := by
  unfold Obligations.StepKeepsSenseAndAlarms
  exact ⟨fun _ _ h e => senseInv_kept.step h e, fun _ _ h e => alarmInv_kept.step h e⟩

end Sys2Proof.Machine

/-! PROOFS. The frame of every command (commandBlocks), the reset pin, and the reset values. -/

namespace Sys2Proof.Machine

/-! ### The frame of a command -/

theorem whilePowered_touches {bs : List Block} {f : State → State} {s : State} (h : Touches bs s (f s)) :
    ∃ t, whilePowered f s = .next t ∧ Touches bs s t :=
  ⟨_, rfl, (Touches.refl _ _).of_if h⟩

theorem whenDue_touches {bs : List Block} {due : Bool} {f : State → State} {s : State} (h : Touches bs s (f s)) :
    Touches bs s (whenDue due f s) :=
  h.of_if (Touches.refl _ _)

/-- An event of the table, due or not, under the pin or not. -/
theorem event_touches {bs : List Block} {due : State → Bool} {f : State → State} {s : State} (h : Touches bs s (f s)) :
    ∃ t, whilePowered (fun u => whenDue (due u) f u) s = .next t ∧ Touches bs s t :=
  whilePowered_touches (whenDue_touches h)

theorem setPort_touches (l : Link) (p : Port) (s : State) : Touches [.lp] s (setPort l p s) := State.setLp_touches _ _

theorem countBadFrame_touches (l : Link) (s : State) : Touches [.lp] s (countBadFrame l s) := setPort_touches _ _ _

theorem malformed_touches (l : Link) (s : State) : Touches [.lp] s (malformed l s) :=
  (countBadFrame_touches l s).trans (setPort_touches _ _ _)

theorem assertSelect_touches (l : Link) (s : State) : Touches [.lp] s (assertSelect l s) :=
  (Touches.refl _ _).of_if (setPort_touches _ _ _)

theorem releaseSelect_touches (l : Link) (edges : BitVec 3) (s : State) : Touches [.lp] s (releaseSelect l edges s) :=
  ((countBadFrame_touches l s).of_if (Touches.refl _ _)).trans (setPort_touches _ _ _)

/-- R175: a request changes what the kind that its code names may change, and its port. -/
theorem takeRequest_touches {bs : List Block} {code : Byte} (port : Block.lp ∈ bs)
    (own : ∀ k, kindOfCode code = some k → ∀ b ∈ requestBlocks k, b ∈ bs) (l : Link) (body : RequestBody) (s : State) :
    Touches bs s (takeRequest l code body s).state := by
  unfold takeRequest
  split
  · split
    · exact Touches.refl _ _
    · next k named =>
      split
      · split
        · exact (ownerAnswer_touches k l body.payload s).mono (List.forall_mem_cons.mpr ⟨port, own k named⟩)
        · exact Touches.refl _ _
      · exact Touches.refl _ _
  · exact (countBadFrame_touches l s).mono (by simpa using port)

theorem completeFrame_touches {bs : List Block} {code : Byte} (port : Block.lp ∈ bs)
    (own : ∀ k, kindOfCode code = some k → ∀ b ∈ requestBlocks k, b ∈ bs) (l : Link) (body : RequestBody) (s : State) :
    Touches bs s (completeFrame l code body s) :=
  (((setPort_touches l _ s).mono (by simpa using port)).trans (takeRequest_touches port own l body _)).trans
    ((enterTurnaround_touches l _).mono (by simpa using port))

theorem frameOnLink_touches {bs : List Block} {code : Byte} (port : Block.lp ∈ bs)
    (own : ∀ k, kindOfCode code = some k → ∀ b ∈ requestBlocks k, b ∈ bs) (l : Link) (body : RequestBody) (s : State) :
    Touches bs s (frameOnLink l code body s) := by
  have lp : ∀ {u v : State}, Touches [.lp] u v → Touches bs u v := fun h => h.mono (by simpa using port)
  have opened := lp ((releaseSelect_touches l 0 s).trans (assertSelect_touches l _))
  exact (opened.trans (completeFrame_touches port own l body _)).of_if
    (opened.trans (lp ((setPort_touches l _ _).trans (malformed_touches l _))))

theorem requestBlocks_subset (k : Kind) : ∀ b ∈ requestBlocks k, b ∈ .lp :: setBlocks := by cases k <;> decide

theorem byteCompletes_touches (l : Link) (b : Byte) (s : State) :
    Touches (.lp :: setBlocks) s (byteCompletes l b s) := by
  have lp : ∀ {u v : State}, Touches [.lp] u v → Touches (.lp :: setBlocks) u v := fun h => h.mono (by decide)
  have port : ∀ p, Touches (.lp :: setBlocks) s (setPort l p s) := fun p => lp (setPort_touches l p s)
  unfold byteCompletes
  dsimp only
  split
  · exact Touches.refl _ _
  · unfold requestByte
    exact (lp (malformed_touches l s)).of_if
      ((completeFrame_touches (by decide) (fun k _ => requestBlocks_subset k) l _ s).of_if (port _))
  · exact (port _).of_if (port _)
  · exact (port _).of_if (port _)
  · exact port _

theorem requestCommand_touches (k : Kind) (l : Link) (body : RequestBody) (s : State) :
    ∃ t, requestCommand k l body s = .next t ∧ Touches (.lp :: requestBlocks k) s t := by
  refine whilePowered_touches (frameOnLink_touches (List.mem_cons_self ..) (fun j named => ?_) l body s)
  obtain rfl : k = j := Option.some.inj ((kindOfCode_kindCode k).symm.trans named)
  exact fun b mem => List.mem_cons_of_mem _ mem

theorem powerOn_touches (pin : Bool) (select : PerLink Bool) (s : State) :
    Touches (.lp :: .timeBase :: .resetPin :: setBlocks) s (State.powerOn pin select s.pending) := by
  constructor
  case pending => exact fun _ => rfl
  all_goals exact fun notListed => absurd (by decide) notListed

theorem State.setTimeBase_touches (s : State) (x : BitVec 32) : Touches [.timeBase] s (s.setTimeBase x) := by
  constructor
  case timeBase => exact fun notListed => absurd (by decide) notListed
  all_goals exact fun _ => rfl

theorem State.setResetPin_touches (s : State) (x : Bool) : Touches [.resetPin] s (s.setResetPin x) := by
  constructor
  case resetPin => exact fun notListed => absurd (by decide) notListed
  all_goals exact fun _ => rfl

theorem releasePin_touches (s : State) : Touches [.si, .timeBase, .resetPin] s (releasePin s) :=
  (((State.setSi_touches s _).mono (by decide)).trans ((State.setTimeBase_touches _ _).mono (by decide))).trans
    ((State.setResetPin_touches _ _).mono (by decide))

theorem tick_touches (s : State) : Touches [.timeBase, .si] s (tick s) :=
  ((State.setTimeBase_touches s _).mono (by decide)).trans ((State.setSi_touches _ _).mono (by decide))

theorem tick_takeOverdue_touches (s : State) : Touches (.timeBase :: failBlocks) s (tick (takeOverdue s)) :=
  ((takeOverdue_touches s).mono (by decide)).trans ((tick_touches _).mono (by decide))

theorem startHead_touches (s : State) : Touches [.ls] s (startHead s) := by
  unfold startHead
  split
  · exact State.setLs_touches _ _
  · exact Touches.refl _ _

theorem endObservation_touches (s : State) : Touches [.ls] s (endObservation s) := State.setLs_touches _ _

theorem wrapGen_touches (g : CycleGen) (s : State) : Touches [.ls] s (wrapGen g s) := State.setLs_touches _ _

/-- Settles O2, command by command: each is one of the operations whose blocks are known. -/
theorem everyCommandCompletesInItsFrame : Obligations.EveryCommandCompletesInItsFrame := by
  intro c s
  cases c with
  | powerOnReset => exact ⟨_, rfl, powerOn_touches _ _ s⟩
  | resetRelease => exact ⟨_, rfl, whenDue_touches (releasePin_touches s)⟩
  | millisecondTick => exact whilePowered_touches (f := fun s => tick (takeOverdue s)) (tick_takeOverdue_touches s)
  | sampleFrame ch => exact whilePowered_touches (closeFrame_touches ch s)
  | presentCountReached x => exact event_touches (collectorShare_touches x s)
  | confirmCountReached x => exact event_touches (collectorShare_touches x s)
  | raiseLimitExpiry x => exact event_touches (collectorShare_touches x s)
  | unloadLimitExpiry x => exact event_touches (unloadShare_touches x s)
  | cyclePeriodWrap g => exact event_touches (wrapGen_touches g s)
  | idleLimitPark i => exact event_touches (f := fun s => s.setLs (idlePark i s.ls)) (State.setLs_touches _ _)
  | observationPeriodEnd => exact event_touches (endObservation_touches s)
  | derateWindowEnd v => exact event_touches (windowStep_touches v s)
  | freezeLimitReached => exact event_touches (frozenComputation_touches s)
  | slotStart => exact event_touches (startHead_touches s)
  | silenceTimerExpiry ch => exact whilePowered_touches (expireSilence_touches ch s)
  | selectAsserted l => exact ⟨_, rfl, (setPort_touches _ _ _).of_if (assertSelect_touches l s)⟩
  | selectReleased l edges => exact ⟨_, rfl, (setPort_touches _ _ _).of_if (releaseSelect_touches l edges s)⟩
  | requestLengthOverrange l n => exact event_touches (malformed_touches l s)
  | frameAbandoned l edges => exact event_touches (releaseSelect_touches l edges s)
  | unknownKind l code body =>
    exact whilePowered_touches (frameOnLink_touches (List.mem_cons_self ..) (fun k _ => requestBlocks_subset k) l body s)
  | senseCharacter ch c stop => 
    exact whilePowered_touches (f := fun s => s.setSi { s.si with rx := s.si.rx.put ch (receiveChar c stop (s.si.rx.get ch)) })
      (State.setSi_touches _ _)
  | linkByteComplete l b => exact whilePowered_touches (byteCompletes_touches l b s)
  | readStatus l body => exact requestCommand_touches .readStatus l body s
  | readBudget l body => exact requestCommand_touches .readBudget l body s
  | dropSeen l body => exact requestCommand_touches .dropSeen l body s
  | takeAlarm l body => exact requestCommand_touches .takeAlarm l body s
  | doneAlarm l body => exact requestCommand_touches .doneAlarm l body s
  | tractionRequest l body => exact requestCommand_touches .tractionRequest l body s
  | loadSetup l body => exact requestCommand_touches .loadSetup l body s
  | loadDemand l body => exact requestCommand_touches .loadDemand l body s
  | loadReEnable l body => exact requestCommand_touches .loadReEnable l body s
  | readLoads l body => exact requestCommand_touches .readLoads l body s
  | raise l body => exact requestCommand_touches .raise l body s
  | lower l body => exact requestCommand_touches .lower l body s
  | clearDrop l body => exact requestCommand_touches .clearDrop l body s
  | readDropLog l body => exact requestCommand_touches .readDropLog l body s
  | popDropLog l body => exact requestCommand_touches .popDropLog l body s
  | setPosition l body => exact requestCommand_touches .setPosition l body s
  | restoreChannel l body => exact requestCommand_touches .restoreChannel l body s
  | featurePut l body => exact requestCommand_touches .featurePut l body s
  | featureEvict l body => exact requestCommand_touches .featureEvict l body s
  | featureRead l body => exact requestCommand_touches .featureRead l body s
  | tableClear l body => exact requestCommand_touches .tableClear l body s
  | armedRead l body => exact requestCommand_touches .armedRead l body s
  | zoneSet l body => exact requestCommand_touches .zoneSet l body s
  | zoneRead l body => exact requestCommand_touches .zoneRead l body s
  | clearConditions l body => exact requestCommand_touches .clearConditions l body s
  | alarmRouteSet l body => exact requestCommand_touches .alarmRouteSet l body s
  | readAlarmRoutes l body => exact requestCommand_touches .readAlarmRoutes l body s
  | setParam l body => exact requestCommand_touches .setParam l body s
  | readParam l body => exact requestCommand_touches .readParam l body s
  | reinit l body => exact requestCommand_touches .reinit l body s

/-! ### The reset pin -/

/-- Settles O4. -/
theorem powerOnResetAndRelease : Obligations.PowerOnResetAndRelease := by
  intro s
  refine ⟨rfl, fun pin => ?_, fun pin => ?_⟩
  · show execResetRelease s = _
    rw [execResetRelease, whenDue, pin, if_pos rfl]
    rfl
  · show execResetRelease s = _
    rw [execResetRelease, whenDue, pin]
    rfl

theorem whilePowered_pinned {s : State} (pin : s.resetPin = true) (f : State → State) : whilePowered f s = .next s := by
  rw [whilePowered, if_pos pin]

/-- Settles O6: under the pin every command but those of the pin and of the select lines is held off whole. -/
theorem resetPinHoldsEverything : Obligations.ResetPinHoldsEverything := by
  intro c s pin
  refine ⟨fun on release assert leave => ?_, fun l e => ⟨?_, ?_⟩⟩
  · cases c with
    | powerOnReset => exact absurd rfl on
    | resetRelease => exact absurd rfl release
    | selectAsserted l => exact absurd rfl (assert l)
    | selectReleased l e => exact absurd rfl (leave l e)
    | millisecondTick => exact whilePowered_pinned pin fun s => tick (takeOverdue s)
    | senseCharacter ch c stop =>
      exact whilePowered_pinned pin fun s => s.setSi { s.si with rx := s.si.rx.put ch (receiveChar c stop (s.si.rx.get ch)) }
    | _ => exact whilePowered_pinned pin _
  · show execSelectAsserted l s = _
    rw [execSelectAsserted, if_pos pin]
    rfl
  · show execSelectReleased l e s = _
    rw [execSelectReleased, if_pos pin]
    rfl

/-! ### The reset values -/

/-- Settles O5, block by block off the reset tables. -/
theorem resetValues : Obligations.ResetValues := by
  unfold Obligations.ResetValues
  have points : ∀ i, entry State.reset.rft.points i = emptySet := fun i => entry_replicate emptySet i
  have zones : ∀ i, entry State.reset.rft.zones i = resetZone := fun i => entry_replicate resetZone i
  have slots : ∀ i, entry State.reset.ls.slots i = resetSlot := fun i => entry_replicate resetSlot i
  have links : ∀ l, State.reset.ad.links.get l = resetLinkAlarms := fun l => by cases l <;> rfl
  have pending : ∀ n, entry resetLinkAlarms.pending n = clearEntry := fun n => entry_replicate clearEntry n
  have ports : ∀ l, State.reset.lp.get l = resetPort false := fun l => by cases l <;> rfl
  refine ⟨fun ch => by cases ch <;> exact ⟨rfl, rfl, rfl, rfl, rfl, rfl, rfl⟩, rfl, rfl, rfl, rfl, rfl, rfl, points, rfl,
    rfl, rfl, zones, rfl, rfl, rfl, ⟨rfl, rfl, rfl, rfl, rfl, rfl, rfl, rfl, rfl, rfl, rfl⟩, rfl, slots, rfl, rfl, rfl, rfl,
    rfl, rfl, rfl, by decide, fun l => ?_, by decide, by decide⟩
  rw [links, ports]
  exact ⟨fun n => by rw [pending]; exact ⟨rfl, rfl⟩, rfl, rfl, rfl, rfl, rfl, rfl⟩

theorem emptySet_ok (i : Fin 64) : SetOk i emptySet :=
  ⟨invalidEntry_ok i, invalidEntry_ok i, fun valid => absurd valid (by decide)⟩

/-- R33, R44: an empty point table is well filed. -/
theorem emptyTable_pointsInv {rt : RouteTable} (points : rt.points = Vector.replicate 64 emptySet) (count : rt.lockCount = 0) :
    PointsInv rt := by
  refine ⟨fun i => ?_, ?_, by omega⟩
  · rw [points, entry_replicate]; exact emptySet_ok i
  · rw [count, lockedEntries, points]; decide

theorem resetParams_inv : ParamInv resetParams := by
  unfold ParamInv
  decide

/-- Settles O7. -/
theorem resetMeetsInvariants : Obligations.ResetMeetsInvariants := by
  refine ⟨senseInv_reset_si _ rfl, resetParams_inv, ?_, ?_, emptyTable_pointsInv rfl rfl, ?_, ?_, ?_, ?_, ?_, ?_, ?_,
    reset_alarmInv rfl⟩
  · unfold PositionInv; decide
  · unfold DepthInv; decide
  · exact ⟨by decide, List.Pairwise.nil, fun _ => rfl⟩
  · exact fun c mem => absurd mem (List.not_mem_nil)
  · unfold CollectorInv; decide
  · unfold RecordInv; decide
  · exact fun live => absurd live (by decide)
  · refine ⟨List.nodup_nil, fun i => ?_, List.Pairwise.nil, fun i => ?_⟩
    · rw [show entry State.reset.ls.slots i = resetSlot from entry_replicate resetSlot i]
      exact ⟨fun mem => absurd mem List.not_mem_nil, fun e => absurd e (by decide)⟩
    · rw [show entry State.reset.ls.slots i = resetSlot from entry_replicate resetSlot i]
      exact ⟨fun _ => rfl, fun _ => rfl⟩
  · intro i run
    rw [show entry State.reset.ls.slots i = resetSlot from entry_replicate resetSlot i] at run
    exact absurd run (by decide)

/-! ### One character -/

theorem exec_senseCharacter {s : State} (on : s.resetPin = false) (ch : Channel) (c : Byte) (stop : Bool) :
    exec (.senseCharacter ch c stop) s =
      .next (s.setSi { s.si with rx := s.si.rx.put ch (receiveChar c stop (s.si.rx.get ch)) }) := by
  show execSenseCharacter ch c stop s = _
  rw [execSenseCharacter, whilePowered, on]
  rfl

/-- Settles O8, by the state of the receiver. -/
theorem senseCharacterReceived : Obligations.SenseCharacterReceived := by
  intro ch c stop s on
  refine ⟨fun hunts other => ?_, fun hunts start => ?_, fun f isOpen => ?_⟩
  · rw [exec_senseCharacter on, hunts, receiveChar, if_neg other, ← hunts, PerChannel.put_get]
    rfl
  · rw [exec_senseCharacter on, hunts, receiveChar, if_pos start]
  · rw [exec_senseCharacter on, isOpen, receiveChar]

end Sys2Proof.Machine

/-! PROOFS. The sense channels: frames judged, an accepted set's fields, time, silence, failure and loss (R2 to R17). -/

namespace Sys2Proof.Machine

/-! ### Frames judged -/

/-- R2, R3: which frames are bad. -/
theorem frameSample_eq_none (f : OpenFrame) :
    frameSample f = none ↔ f.count ≠ 13 ∨ f.stopMissing = true ∨ crc (f.bytes.take 12) ≠ f.bytes.getD 12 0 := by
  unfold frameSample byteAt
  split
  · next good => simp [good]
  · next bad =>
    simp only [true_iff]
    by_contra none
    push Not at none
    exact bad ⟨none.1, by simpa using none.2.1, none.2.2⟩

theorem frameSample_eq_some {f : OpenFrame} (h : frameSample f ≠ none) : frameSample f = some (decodeSample f.bytes) := by
  unfold frameSample at h ⊢
  split
  · rfl
  · next bad => rw [if_neg bad] at h; exact absurd rfl h

/-- R4, R6: a judged frame moves the counter up by 2 or down by 1. -/
theorem plausAfter_eq (bad : Bool) (n : Nat) : plausAfter bad n = if bad then min (n + 2) 255 else n - 1 := rfl

/-- R5: which good-check frames are implausible. -/
theorem implausible_iff (c : SenseChannel) (x : Sample) (s : State) :
    implausible c x s = true ↔ (∃ r, c.seqRecord = some r ∧ x.seq ≠ r + 1) ∨
      (∃ v, x.v = some v ∧ s.par .vPlausMax < v.toNat) ∨ (∃ i, x.i = some i ∧ s.par .iPlausMax < i.toInt.natAbs) := by
  unfold implausible
  cases c.seqRecord <;> cases x.v <;> cases x.i <;> simp [or_assoc]

/-- R4: a bad frame within the limit is counted. -/
theorem takeBadFrame_counts {ch : Channel} {s : State} (h : min ((s.si.chan.get ch).plaus + 2) 255 ≤ s.par .plausLimit) :
    takeBadFrame ch s = setChannel ch { s.si.chan.get ch with plaus := min ((s.si.chan.get ch).plaus + 2) 255 } s :=
  if_neg (Nat.not_lt.mpr h)

/-- R6: a bad frame that passes the limit fails its channel. -/
theorem takeBadFrame_fails {ch : Channel} {s : State} (h : s.par .plausLimit < min ((s.si.chan.get ch).plaus + 2) 255) :
    takeBadFrame ch s = failChannel ch .plausibility
      (setChannel ch { s.si.chan.get ch with plaus := min ((s.si.chan.get ch).plaus + 2) 255 } s) :=
  if_pos h

/-- Settles O10, by the health of the channel and the counter after the frame. -/
theorem frameJudged : Obligations.FrameJudged := by
  refine ⟨fun f => ⟨frameSample_eq_none f, frameSample_eq_some⟩, fun ch f s on held bad => ?_,
    fun ch f x s on held good => ?_⟩
  · refine ⟨fun failed => ?_, fun healthy within => ?_, fun healthy passes => ?_⟩
    · rw [exec_sampleFrame on held, frameArrives_failed failed]
    · rw [exec_sampleFrame on held, frameArrives_bad healthy bad, takeBadFrame_counts]
      · rfl
      · exact within
    · rw [exec_sampleFrame on held, frameArrives_bad healthy bad, takeBadFrame_fails]
      · rfl
      · exact passes
  · have same : ∀ rx, implausible (s.si.chan.get ch) x (s.setSi { s.si with rx := rx }) =
        implausible (s.si.chan.get ch) x s := fun _ => implausible_congr rfl _ _
    refine ⟨implausible_iff _ x s, fun failed => ?_, fun healthy passes => ?_, fun healthy within standby => ?_⟩
    · rw [exec_sampleFrame on held, frameArrives_failed failed]
    · rw [exec_sampleFrame on held, frameArrives_good healthy good, takeGoodFrame_fails]
      · simp only [State.setSi_si, same, plausAfter_eq]
        rfl
      · simp only [State.setSi_si, same, plausAfter_eq]
        exact passes
    · rw [exec_sampleFrame on held, frameArrives_good healthy good, takeGoodFrame_standby]
      · simp only [judgedState, State.setSi_si, same, plausAfter_eq]
        rfl
      · simp only [State.setSi_si, same, plausAfter_eq]
        exact within
      · exact standby

/-! ### An accepted set -/

/-- R9: a valid elevation replaces the pole's previous one. -/
theorem keepElev_eq (old new : Option (BitVec 10)) : keepElev old new = if new.isSome then new else old := by
  cases new <;> rfl

/-- Settles O11, from what an accepted set leaves in each block. -/
theorem acceptedSetAdvances : Obligations.AcceptedSetAdvances := by
  intro ch x s h
  have touched := acceptedSet_touches x (passedOnFrom ch x s)
  refine ⟨_, exec_accepted h, ?_⟩
  rw [acceptedSet_si, acceptedSet_pt, acceptedSet_pm, touched.lp (by decide), touched.timeBase (by decide),
    touched.resetPin (by decide), touched.pending (by decide), keepElev_eq, keepElev_eq]
  exact ⟨rfl, h.active, rfl, PerChannel.get_put_same _ _ _, PerChannel.get_put_other _ _ (otherChannel_ne ch),
    PerChannel.get_put_same _ _ _, PerChannel.get_put_other _ _ (otherChannel_ne ch), rfl, rfl, rfl, rfl, rfl, h.powered, rfl⟩

/-! ### Time and silence -/

/-- R11: when a channel's silence timer is due. -/
theorem silenceDue_iff (ch : Channel) (s : State) : silenceDue ch s = true ↔
    (s.si.chan.get ch).health = .healthy ∧ s.par .silenceMs ≤ (s.si.chan.get ch).silence := by
  simp [silenceDue]

theorem expireSilence_due {ch : Channel} {s : State} (h : silenceDue ch s = true) :
    expireSilence ch s = failChannel ch .silence s := if_pos h

theorem expireSilence_notDue {ch : Channel} {s : State} (h : ¬silenceDue ch s = true) : expireSilence ch s = s := if_neg h

@[simp] theorem tick_chan (s : State) (ch : Channel) : (tick s).si.chan.get ch = countSilence (s.si.chan.get ch) := by
  cases ch <;> rfl

theorem exec_millisecondTick {s : State} (on : s.resetPin = false) :
    exec .millisecondTick s = .next (tick (takeOverdue s)) := by
  show execMillisecondTick s = _
  rw [execMillisecondTick, whilePowered, on]
  rfl

theorem exec_silenceTimerExpiry {s : State} (on : s.resetPin = false) (ch : Channel) :
    exec (.silenceTimerExpiry ch) s = .next (expireSilence ch s) := by
  show execSilenceTimerExpiry ch s = _
  rw [execSilenceTimerExpiry, whilePowered, on]
  rfl

/-- R11: without an expiry due the next increment finds none to take. -/
theorem takeOverdue_none {s : State} (h : ∀ ch, ¬silenceDue ch s = true) : takeOverdue s = s := by
  unfold takeOverdue
  rw [if_neg (by simp [h]), expireSilence_notDue (h .a), expireSilence_notDue (h .b)]

theorem failedState_same (ch : Channel) (why : FailReason) (s : State) :
    (failedState ch why s).si.chan.get ch = { s.si.chan.get ch with health := .failed, reason := some why } :=
  PerChannel.get_put_same _ _ _

/-- R6, R11: a channel that fails is FAILED with that reason. -/
theorem failChannel_get_same (ch : Channel) (why : FailReason) (s : State) :
    (failChannel ch why s).si.chan.get ch = { s.si.chan.get ch with health := .failed, reason := some why } := by
  by_cases active : s.si.active = some ch
  · by_cases standby : (s.si.chan.get (otherChannel ch)).health = .healthy
    · rw [failChannel_failover active standby]
      refine (PerChannel.get_put_other _ _ ?_).trans (failedState_same ch why s)
      exact fun e => otherChannel_ne ch e.symm
    · rw [failChannel_lost active (health_failed_of_ne standby), loseSense_si]
      exact failedState_same ch why s
  · rw [failChannel_standby active]
    exact failedState_same ch why s

/-- R12 to R14: the failure of a channel leaves the other one's health and silence timer. -/
theorem failChannel_get_other (ch : Channel) (why : FailReason) (s : State) :
    ((failChannel ch why s).si.chan.get (otherChannel ch)).health = (s.si.chan.get (otherChannel ch)).health ∧
      ((failChannel ch why s).si.chan.get (otherChannel ch)).silence = (s.si.chan.get (otherChannel ch)).silence := by
  by_cases active : s.si.active = some ch
  · by_cases standby : (s.si.chan.get (otherChannel ch)).health = .healthy
    · have get : (failChannel ch why s).si.chan.get (otherChannel ch) =
          { s.si.chan.get (otherChannel ch) with seqRecord := none } := by
        rw [failChannel_failover active standby]
        exact PerChannel.get_put_same _ _ _
      rw [get]
      exact ⟨rfl, rfl⟩
    · rw [failChannel_lost active (health_failed_of_ne standby), loseSense_si]
      exact ⟨congrArg _ (failedState_other ch why s), congrArg _ (failedState_other ch why s)⟩
  · rw [failChannel_standby active]
    exact ⟨congrArg _ (failedState_other ch why s), congrArg _ (failedState_other ch why s)⟩

/-- The parameters stay when a channel fails. -/
theorem failChannel_par (ch : Channel) (why : FailReason) (s : State) (p : Param) :
    (failChannel ch why s).par p = s.par p := by
  unfold State.par
  rw [(failChannel_touches ch why s).pm (by decide)]

/-- The failure of one channel moves no expiry of the other. -/
theorem silenceDue_failChannel (ch : Channel) (why : FailReason) (s : State) :
    silenceDue (otherChannel ch) (failChannel ch why s) = silenceDue (otherChannel ch) s := by
  obtain ⟨health, silence⟩ := failChannel_get_other ch why s
  simp only [silenceDue, health, silence, failChannel_par]

/-- R11: exactly one expiry due at the next increment is taken before it (log 6). -/
theorem takeOverdue_one {ch : Channel} {s : State} (due : silenceDue ch s = true)
    (other : ¬silenceDue (otherChannel ch) s = true) : takeOverdue s = failChannel ch .silence s := by
  have after : ¬silenceDue (otherChannel ch) (failChannel ch .silence s) = true := by
    rw [silenceDue_failChannel]; exact other
  unfold takeOverdue
  cases ch with
  | a =>
    rw [if_neg (by simp [show ¬silenceDue .b s = true from other]), expireSilence_due due]
    exact expireSilence_notDue after
  | b =>
    rw [if_neg (by simp [show ¬silenceDue .a s = true from other]), show expireSilence .a s = s from expireSilence_notDue other,
      expireSilence_due due]

/-- Settles O12: a tick with no expiry due, an expiry alone, and a tick with one expiry due. -/
theorem timeAndSilence : Obligations.TimeAndSilence := by
  refine ⟨fun s on short => ?_, fun ch s on => ⟨fun healthy run => ?_, fun not => ?_⟩, fun ch s on healthy run other => ?_⟩
  · have none : takeOverdue s = s := takeOverdue_none fun ch due => by
      obtain ⟨healthy, run⟩ := (silenceDue_iff ch s).mp due
      exact Nat.not_lt.mpr run (short ch healthy)
    rw [exec_millisecondTick on, none]
    exact ⟨_, rfl, rfl, tick_chan s, rfl⟩
  · rw [exec_silenceTimerExpiry on, expireSilence_due ((silenceDue_iff ch s).mpr ⟨healthy, run⟩)]
  · rw [exec_silenceTimerExpiry on, expireSilence_notDue]
    rw [silenceDue_iff]
    rintro ⟨healthy, run⟩
    obtain failed | short := not
    · rw [healthy] at failed; cases failed
    · omega
  · have due : silenceDue ch s = true := (silenceDue_iff ch s).mpr ⟨healthy, run⟩
    have notDue : ¬silenceDue (otherChannel ch) s = true := by
      rw [silenceDue_iff]
      rintro ⟨h, k⟩
      obtain failed | short := other
      · rw [h] at failed; cases failed
      · omega
    have failed := failChannel_get_same ch .silence s
    have clock : (failChannel ch .silence s).timeBase = s.timeBase := (failChannel_touches ch _ s).timeBase (by decide)
    rw [exec_millisecondTick on, takeOverdue_one due notDue]
    refine ⟨_, rfl, ?_, ?_, ?_, ?_, ?_⟩
    · rw [← clock]; rfl
    · rw [tick_chan, failed, countSilence, if_neg (by simp)]
    · rw [failed]
    · exact tick_chan _ _
    · rfl

/-! ### The failure of a channel -/

/-- Settles O13. -/
theorem channelFailure : Obligations.ChannelFailure := by
  intro ch why s
  exact ⟨fun standby => failChannel_standby standby why, fun active healthy => failChannel_failover active healthy why⟩

/-- R98: the record that the loss of sense leaves. -/
def lostRecord (r : BudgetRecord) : BudgetRecord := { safeRecord r with senseLost := true }

theorem safeAtSenseLoss_eq (s : State) : safeAtSenseLoss s = overGrantCheck (publish (lostRecord s.be.record) s) := rfl

theorem safeAtSenseLoss_be (s : State) : (safeAtSenseLoss s).be = { s.be with record := lostRecord s.be.record } :=
  (overGrantCheck_touches _).be (by decide)

/-- R110: at the loss of sense a live grant other than 0 is reported. -/
theorem safeAtSenseLoss_uncovered {s : State} (live : s.tg.reported = false) (grant : s.tg.lastGrant ≠ 0) :
    (safeAtSenseLoss s).tg = { s.tg with reported := true } ∧ (safeAtSenseLoss s).ad = s.ad.occurrence .grantOver := by
  have passes : grantOver (lostRecord s.be.record) s.tg.lastGrant = true := by
    rw [grantOver_zero _ _ rfl rfl]; exact decide_eq_true grant
  rw [safeAtSenseLoss_eq, overGrantCheck_over (s := publish (lostRecord s.be.record) s) live passes]
  exact ⟨rfl, rfl⟩

theorem safeAtSenseLoss_covered {s : State} (h : ¬(s.tg.reported = false ∧ s.tg.lastGrant ≠ 0)) :
    (safeAtSenseLoss s).tg = s.tg ∧ (safeAtSenseLoss s).ad = s.ad := by
  rw [safeAtSenseLoss_eq, overGrantCheck_covered (s := publish (lostRecord s.be.record) s)]
  · exact ⟨rfl, rfl⟩
  · rintro ⟨live, passes⟩
    have grant : grantOver (lostRecord s.be.record) s.tg.lastGrant = true := passes
    rw [grantOver_zero _ _ rfl rfl] at grant
    exact h ⟨live, of_decide_eq_true grant⟩

theorem isActive_iff (st : SlotState) : isActive st = true ↔ st = .running ∨ st = .waiting := by
  cases st <;> simp [isActive]

/-- Settles O14: the four signals of the loss, block by block. -/
theorem senseLoss : Obligations.SenseLoss := by
  intro ch why s active failed
  have run : failChannel ch why s = loseSense (failedState ch why s) := failChannel_lost active failed why
  have be : (loseSense (failedState ch why s)).be = { s.be with record := lostRecord s.be.record } := by
    rw [loseSense_eq, State.setCm_be, State.setLs_be, safeAtSenseLoss_be]
    rfl
  have ls : (loseSense (failedState ch why s)).ls = senseShed s.ls := by
    rw [loseSense_eq, State.setCm_ls, State.setLs_ls]
    rfl
  have tg : (loseSense (failedState ch why s)).tg = (safeAtSenseLoss (lostState (failedState ch why s))).tg := by
    rw [loseSense_eq, State.setCm_tg, State.setLs_tg]
  have ad : (loseSense (failedState ch why s)).ad = (safeAtSenseLoss (lostState (failedState ch why s))).ad := by
    rw [loseSense_eq, State.setCm_ad, State.setLs_ad]
  refine ⟨?_, ?_, fun uncovered => ?_, fun covered => ?_, ?_, fun i => ⟨fun sheds => ?_, fun stays => ?_⟩, ?_,
    failChannel_touches ch why s⟩
  · rw [run, loseSense_si]; rfl
  · rw [run, be]; rfl
  · rw [run, tg, ad]
    exact safeAtSenseLoss_uncovered (s := lostState (failedState ch why s)) uncovered.1 uncovered.2
  · rw [run, tg, ad]
    exact safeAtSenseLoss_covered (s := lostState (failedState ch why s)) covered
  · rw [run, loseSense_eq, State.setCm_cm]; rfl
  · rw [run, ls, senseShed, shedWhere_entry, if_pos]
    simpa [isActive_iff] using sheds
  · rw [run, ls, senseShed, shedWhere_entry, if_neg]
    simpa [isActive_iff] using stays
  · rw [run, ls, senseShed, shedWhere_queue]
    exact List.filter_congr fun i _ => by simp

/-! ### Both channels silent -/

/-- An occurrence leaves every pending entry pending. -/
theorem occurrence_pending {src : Source} {ad : Alarms} {l : Link} {n : Fin 16}
    (h : (entry (ad.links.get l).pending n).pending = true) :
    (entry ((ad.occurrence src).links.get l).pending n).pending = true := by
  rw [occurrence_get]
  split
  · rw [occurOnLink_entry]
    split
    · exact occurEntry_pending _ _
    · exact h
  · exact h

/-- R155: an occurrence makes its entry pending on the links of its route. -/
theorem occurrence_raises {src : Source} {ad : Alarms} {l : Link}
    (h : routedTo (entry ad.sources (sourceNumber src)).mask l = true) :
    (entry ((ad.occurrence src).links.get l).pending (sourceNumber src)).pending = true := by
  rw [occurrence_get, if_pos h, occurOnLink_entry, if_pos rfl]
  exact occurEntry_pending _ _

/-- R155: SENSE_LOST is pending on every link of its route after the loss of sense. -/
theorem loseSense_raises {s : State} {l : Link}
    (h : routedTo (entry s.ad.sources (sourceNumber .senseLost)).mask l = true) :
    (entry ((loseSense s).ad.links.get l).pending (sourceNumber .senseLost)).pending = true := by
  have raised : (entry ((s.ad.occurrence .senseLost).links.get l).pending (sourceNumber .senseLost)).pending = true :=
    occurrence_raises h
  rw [loseSense_eq, State.setCm_ad, State.setLs_ad]
  by_cases u : (lostState s).tg.reported = false ∧ (lostState s).tg.lastGrant ≠ 0
  · rw [(safeAtSenseLoss_uncovered u.1 u.2).2]
    exact occurrence_pending raised
  · rw [(safeAtSenseLoss_covered u).2]
    exact raised

/-- What the statement on two silent channels says of a state. -/
def SilentBoth (sources : Vector SourceRow 16) (t : State) : Prop :=
  (∀ ch, (t.si.chan.get ch).health = .failed ∧ (t.si.chan.get ch).reason = some .silence) ∧
    t.si.active = none ∧ t.si.senseLost = true ∧
    ∀ l, routedTo (entry sources (sourceNumber .senseLost)).mask l = true →
      (entry (t.ad.links.get l).pending (sourceNumber .senseLost)).pending = true

theorem failChannel_sources (ch : Channel) (why : FailReason) (s : State) :
    (failChannel ch why s).ad.sources = s.ad.sources := by
  by_cases active : s.si.active = some ch
  · by_cases standby : (s.si.chan.get (otherChannel ch)).health = .healthy
    · rw [failChannel_failover active standby]
      rfl
    · rw [failChannel_lost active (health_failed_of_ne standby), loseSense_eq, State.setCm_ad, State.setLs_ad]
      by_cases u : (lostState (failedState ch why s)).tg.reported = false ∧ (lostState (failedState ch why s)).tg.lastGrant ≠ 0
      · rw [(safeAtSenseLoss_uncovered u.1 u.2).2]; rfl
      · rw [(safeAtSenseLoss_covered u).2]; rfl
  · rw [failChannel_standby active]
    rfl

/-- R12, R14: while the other channel is HEALTHY, the failure of one leaves the other active. -/
theorem failChannel_active {ch : Channel} {s : State} (inv : SenseInv s)
    (healthy : ∀ ch, (s.si.chan.get ch).health = .healthy) (why : FailReason) :
    (failChannel ch why s).si.active = some (otherChannel ch) := by
  by_cases active : s.si.active = some ch
  · rw [failChannel_failover active (healthy _)]
    rfl
  · rw [failChannel_standby active]
    cases a : s.si.active with
    | none =>
      have := inv.2.2 a ch
      rw [healthy ch] at this
      cases this
    | some d =>
      refine a.trans (congrArg some (eq_otherChannel_of_ne fun e => active ?_))
      rw [a, e]

/-- R11, R13: both timers due, and both channels failed one after the other. -/
theorem expireSilence_both {s : State} (inv : SenseInv s) (due : ∀ ch, silenceDue ch s = true) (first : Channel) :
    SilentBoth s.ad.sources (expireSilence (otherChannel first) (expireSilence first s)) := by
  have healthy : ∀ ch, (s.si.chan.get ch).health = .healthy := fun ch => ((silenceDue_iff ch s).mp (due ch)).1
  rw [expireSilence_due (due first)]
  have active := failChannel_active (ch := first) inv healthy .silence
  have same := failChannel_get_same first .silence s
  have sources := failChannel_sources first .silence s
  have due' : silenceDue (otherChannel first) (failChannel first .silence s) = true := by
    rw [silenceDue_failChannel]; exact due _
  generalize failChannel first .silence s = u at *
  rw [expireSilence_due due']
  have failed : (u.si.chan.get (otherChannel (otherChannel first))).health = .failed := by
    rw [otherChannel_otherChannel, same]
  have lost := failChannel_lost active failed .silence
  refine ⟨fun ch => ?_, ?_, ?_, fun l routed => ?_⟩
  · by_cases e : ch = otherChannel first
    · rw [e, failChannel_get_same]; exact ⟨rfl, rfl⟩
    · have : ch = first := by
        rw [eq_otherChannel_of_ne e, otherChannel_otherChannel]
      subst this
      rw [lost, loseSense_si]
      have other := failedState_other (otherChannel ch) .silence u
      rw [otherChannel_otherChannel] at other
      have get := other.trans same
      exact ⟨congrArg SenseChannel.health get, congrArg SenseChannel.reason get⟩
  · rw [lost, loseSense_si]
  · rw [lost, loseSense_si]
  · rw [lost]
    refine loseSense_raises ?_
    rw [← sources] at routed
    exact routed

theorem SilentBoth.tick {sources : Vector SourceRow 16} {t : State} (h : SilentBoth sources t) :
    SilentBoth sources (tick t) := by
  obtain ⟨failed, active, lost, raised⟩ := h
  refine ⟨fun ch => ?_, active, lost, raised⟩
  rw [tick_chan, countSilence, if_neg (by rw [(failed ch).1]; decide)]
  exact failed ch

/-- Settles O15, for both orders of the expiries and for both values of the free choice at a tick. -/
theorem bothChannelsSilent : Obligations.BothChannelsSilent := by
  intro first s on inv timers cs mem
  have due : ∀ ch, silenceDue ch s = true := fun ch => (silenceDue_iff ch s).mpr (timers ch)
  obtain rfl | rfl : cs = _ ∨ cs = _ := by simpa using mem
  · have on' : (expireSilence first s).resetPin = false :=
      ((expireSilence_touches first s).resetPin (by decide)).trans on
    refine ⟨_, ?_, expireSilence_both inv due first⟩
    simp only [execAll, exec_silenceTimerExpiry on, exec_silenceTimerExpiry on']
  · refine ⟨_, ?_, (expireSilence_both inv due (Config.firstExpiry s.timeBase)).tick⟩
    have both : takeOverdue s = expireSilence (otherChannel (Config.firstExpiry s.timeBase))
        (expireSilence (Config.firstExpiry s.timeBase) s) := by
      unfold takeOverdue
      rw [if_pos (by rw [due, due]; rfl)]
    simp only [execAll, exec_millisecondTick on, both]

end Sys2Proof.Machine

/-! PROOFS. The requests of SI and PT, and REINIT (R15, R18, R38, R53, R93, R144, R179). -/

namespace Sys2Proof.Machine

theorem length_one {p : List Byte} (h : p.length = 1) : ∃ b, p = [b] := List.length_eq_one_iff.mp h

theorem length_two {p : List Byte} (h : p.length = 2) : ∃ hi lo, p = [hi, lo] := List.length_eq_two.mp h

/-- Settles O20, each request by its owning block's answer. -/
theorem positionSetAndConditionsCleared : Obligations.PositionSetAndConditionsCleared := by
  refine ⟨fun body s free framed => ?_, fun body s free framed => ?_⟩
  · obtain ⟨hi, lo, payload⟩ := length_two framed.length
    refine ⟨hi, lo, payload, ?_⟩
    have answered := requestCommand_replied free framed rfl
    rw [payload] at answered
    exact answered
  · exact requestCommand_replied free framed rfl

/-! ### RESTORE CHANNEL -/

/-- R15: the channel that a byte names. -/
theorem channelField_named {b : Byte} {ch : Channel} (h : b = match ch with | .a => 0 | .b => 1) :
    channelField b = some ch := by
  subst h
  cases ch <;> rfl

theorem channelField_none {b : Byte} (h : 1 < b.toNat) : channelField b = none := by
  unfold channelField
  rw [if_neg (by rintro rfl; exact absurd h (by decide)), if_neg (by rintro rfl; exact absurd h (by decide))]

theorem ownRestoreChannel_healthy {b : Byte} {ch : Channel} {s : State} (named : channelField b = some ch)
    (h : (s.si.chan.get ch).health = .healthy) : ownRestoreChannel [b] s = refuse .already s := by
  simp only [ownRestoreChannel, byteAt, List.getD_cons_zero, named, h, if_true]

theorem ownRestoreChannel_failed {b : Byte} {ch : Channel} {s : State} (named : channelField b = some ch)
    (h : (s.si.chan.get ch).health = .failed) : ownRestoreChannel [b] s = answerOk (restore ch s) := by
  simp only [ownRestoreChannel, byteAt, List.getD_cons_zero, named, h]
  exact if_neg (by decide)

/-- R15: a channel restored while the other is active is the standby. -/
theorem restore_standby {ch : Channel} {s : State} (h : s.si.active ≠ none) :
    restore ch s = s.setSi { s.si with chan := s.si.chan.put ch (restoredChannel (s.si.chan.get ch)) } := by
  unfold restore
  dsimp only
  split
  · rfl
  · next none => exact absurd none h

/-- R15, R144: a channel restored while none is active becomes active. -/
theorem restore_active {ch : Channel} {s : State} (h : s.si.active = none) :
    restore ch s = (s.setSi { s.si with
      chan := s.si.chan.put ch (restoredChannel (s.si.chan.get ch))
      active := some ch, senseLost := false, prevElev := ⟨none, none⟩ }).setLs (senseRestore s.ls) := by
  simp only [restore, h]
  rfl

/-- R144, R145: the queue after the slots shed for sense have rejoined it. -/
theorem senseRestore_queue {ls : Loads} (h : QueueInv ls) :
    (senseRestore ls).queue =
      ls.queue.filter (isLevelZero ls) ++
        (slotNumbers.filter fun i => decide ((entry ls.slots i).state = .shed .sense)).filter (isLevelZero ls) ++
        ls.queue.filter (fun j => !isLevelZero ls j) ++
        (slotNumbers.filter fun i => decide ((entry ls.slots i).state = .shed .sense)).filter
          (fun j => !isLevelZero ls j) := by
  have woken : senseRestore ls = wakeSlots (fun _ sl => decide (sl.state = .shed .sense) && true) ls :=
    restoreWhere_eq_wakeSlots _ _ _
  rw [woken, wakeSlots_queue _ _ (fun i shed => ?_) h.ordered]
  · simp only [Bool.and_true]
  · rw [Bool.and_true, decide_eq_true_eq] at shed
    rw [shed]
    decide

/-- Settles O21: refused, the standby restored, the active channel restored. -/
theorem restoreChannelAnswered : Obligations.RestoreChannelAnswered := by
  intro body s free framed
  obtain ⟨b, payload⟩ := length_one framed.length
  have answered : exec (.restoreChannel .v body) s = .next (replied .v 0x39 body (ownRestoreChannel [b] s).result
      (ownRestoreChannel [b] s).payload (ownRestoreChannel [b] s).state) := by
    rw [← payload]; exact requestCommand_replied free framed rfl
  refine ⟨b, payload, fun range => ?_, fun ch named => ⟨fun healthy => ?_, fun failed active => ?_, fun failed lost => ?_⟩⟩
  · have bad : ownRestoreChannel [b] s = refuse .badValue s := by
      simp only [ownRestoreChannel, byteAt, List.getD_cons_zero, channelField_none range]
    dsimp only
    rw [answered, bad]
    rfl
  · dsimp only
    rw [answered, ownRestoreChannel_healthy (channelField_named named) healthy]
    rfl
  · dsimp only
    rw [answered, ownRestoreChannel_failed (channelField_named named) failed]
    exact congrArg (fun t => Host.Outcome.next (replied .v 0x39 body .ok [] t)) (restore_standby active)
  · have run : exec (.restoreChannel .v body) s = .next (replied .v 0x39 body .ok [] (restore ch s)) := by
      rw [answered, ownRestoreChannel_failed (channelField_named named) failed]
      rfl
    have ls : (restore ch s).ls = senseRestore s.ls := by rw [restore_active lost, State.setLs_ls]
    refine ⟨restore ch s, run, ?_, ?_, ?_, fun i => ?_, fun inv => ⟨?_, ?_⟩⟩
    · rw [restore_active lost]
      exact ((State.setSi_touches s _).mono (by decide)).trans ((State.setLs_touches _ _).mono (by decide))
    · rw [restore_active lost]
      rfl
    · rw [ls, senseRestore]
      exact restoreWhere_rest _ _ _
    · rw [ls]
      exact restoreAll_entry _ _ _
    · rw [ls]
      exact restoreWhere_queueInv inv _ _
    · rw [ls, senseRestore_queue inv]
      have zero : isLevelZero s.ls = fun i => decide ((entry s.ls.slots i).level = 0) := rfl
      simp only [zero, decide_not]

/-! ### REINIT -/

/-- Settles O37: BUSY outside DOWN; in DOWN the state that REINIT gives, block by block. -/
theorem reinitAnswered : Obligations.ReinitAnswered := by
  intro body s free framed
  have answered := requestCommand_replied free framed rfl
  refine ⟨fun busy => ?_, fun down => ⟨reinitState s, ?_, ?_⟩⟩
  · exact answered.trans (by simp only [ownerAnswer, ownReinit_busy busy]; rfl)
  · exact answered.trans (by simp only [ownerAnswer, ownReinit_down down]; rfl)
  · refine ⟨rfl, rfl, rfl, fun i => ?_, rfl, rfl, rfl, rfl, rfl, rfl, fun i => ?_, ?_, rfl, rfl, fun l => ?_, rfl, rfl⟩
    · exact entry_mapEntries _ _ _
    · exact entry_mapEntries _ _ _
    · rfl
    · cases l <;> rfl

end Sys2Proof.Machine

/-! PROOFS. Every step keeps the parameters in range, P and D and H within bounds (R17, R85, R184, R187, R188). -/

namespace Sys2Proof.Machine

/-! ### Parameters -/

theorem roundFactor_mem (n : Nat) : roundFactor n ∈ [0, 4, 8, 12, 16] := by
  unfold roundFactor
  simp only [List.mem_cons, List.not_mem_nil, or_false]
  omega

/-- R187, R188: the value a write is fitted to lies in the parameter's range. -/
theorem fitParam_range {pm : Params} (h : ParamInv pm) (n : Fin 52) (v : Nat) :
    (entry paramTable n).lower ≤ fitParam pm.stored n v ∧ fitParam pm.stored n v ≤ (entry paramTable n).upper := by
  obtain ⟨stored, _, _, _, _, _, _⟩ := h
  by_cases special : n ∈ ([17, 50, 51, 29, 30] : List (Fin 52))
  · have d29 : entry pm.stored 29 ≤ 15 := (stored 29).2
    have d30 : entry pm.stored 30 ≤ 15 := (stored 30).2
    have c48 : entry pm.stored 48 ≤ 65535 := (stored 48).2
    have c49 : entry pm.stored 49 ≤ 65535 := (stored 49).2
    simp only [List.mem_cons, List.not_mem_nil, or_false] at special
    obtain rfl | rfl | rfl | rfl | rfl := special
    · exact ⟨Nat.zero_le _, Nat.min_le_right _ 16⟩
    · rw [fitParam_cycleAOn]
      exact ⟨Nat.zero_le _, (Nat.min_le_right _ _).trans c48⟩
    · rw [fitParam_cycleBOn]
      exact ⟨Nat.zero_le _, (Nat.min_le_right _ _).trans c49⟩
    · rw [fitParam_dMin]
      exact ⟨Nat.zero_le _, (Nat.min_le_right _ _).trans d30⟩
    · rw [fitParam_dMax _ _ d29]
      exact ⟨Nat.zero_le _, Nat.max_le.mpr ⟨Nat.min_le_right _ _, d29⟩⟩
  · rw [fitParam_other _ _ _ special]
    have ordered := paramTable_ordered n
    split
    · exact ⟨Nat.le_refl _, ordered⟩
    · split <;> omega

theorem storeParam_stored (n m : Fin 52) (v : Nat) (pm : Params) :
    entry (storeParam n v pm).stored m = if m = n then v else entry pm.stored m := entry_setEntry _ _ _ _

/-- R186, R188: a bound of D is in force as it is stored; every other value in force waits for the next set. -/
theorem storeParam_inForce (n m : Fin 52) (v : Nat) (pm : Params) :
    entry (storeParam n v pm).inForce m = if m = n ∧ atOnce n = true then v else entry pm.inForce m := by
  unfold storeParam
  by_cases now : atOnce n = true
  · simp [now, entry_setEntry]
  · simp [now]

/-- R188: a bound of D that is in force as it is stored stays so under every write. -/
theorem storeParam_bound {m : Fin 52} {pm : Params} (now : atOnce m = true) (same : entry pm.inForce m = entry pm.stored m)
    (n : Fin 52) (v : Nat) : entry (storeParam n v pm).inForce m = entry (storeParam n v pm).stored m := by
  rw [storeParam_inForce, storeParam_stored]
  by_cases e : m = n
  · subst e
    rw [if_pos ⟨rfl, now⟩, if_pos rfl]
  · rw [if_neg fun c => e c.1, if_neg e]
    exact same

/-- R186 to R188: a write keeps the table in its ranges. -/
theorem storeParam_inv {pm : Params} (h : ParamInv pm) (n : Fin 52) (v : Nat) :
    ParamInv (storeParam n (fitParam pm.stored n v) pm) := by
  have range := fitParam_range h n v
  obtain ⟨stored, inForce, ordered, low, high, learn, learn'⟩ := h
  refine ⟨fun m => ?_, fun m => ?_, ?_,
    storeParam_bound (m := 29) rfl low _ _, storeParam_bound (m := 30) rfl high _ _, ?_, ?_⟩
  · rw [storeParam_stored]
    split
    · next e => rw [e]; exact range
    · exact stored m
  · rw [storeParam_inForce]
    split
    · next e => rw [e.1]; exact range
    · exact inForce m
  · show entry (storeParam n _ pm).stored 29 ≤ entry (storeParam n _ pm).stored 30
    have ordered : entry pm.stored 29 ≤ entry pm.stored 30 := ordered
    rw [storeParam_stored, storeParam_stored]
    by_cases e : (29 : Fin 52) = n
    · subst e
      rw [if_pos rfl, if_neg (by decide), fitParam_dMin]
      exact Nat.min_le_right _ _
    · by_cases k : (30 : Fin 52) = n
      · subst k
        rw [if_neg e, if_pos rfl, fitParam_dMax _ _ (stored 29).2]
        exact Nat.le_max_right _ _
      · rw [if_neg e, if_neg k]
        exact ordered
  · show entry (storeParam n _ pm).stored 17 ∈ _
    rw [storeParam_stored]
    split
    · next e => subst e; exact roundFactor_mem v
    · exact learn
  · show entry (storeParam n _ pm).inForce 17 ∈ _
    rw [storeParam_inForce, if_neg]
    · exact learn'
    · rintro ⟨rfl, now⟩
      exact absurd now (by decide)

/-- R189: the stored values brought into force keep the table in its ranges. -/
theorem bringIntoForce_inv {pm : Params} (h : ParamInv pm) : ParamInv (bringIntoForce pm) := by
  obtain ⟨stored, _, ordered, _, _, learn, _⟩ := h
  exact ⟨stored, stored, ordered, rfl, rfl, learn, learn⟩

theorem writeParam_pm (n : Fin 52) (v : Nat) (s : State) : (writeParam n v s).pm = storeParam n v s.pm := by
  unfold writeParam
  dsimp only
  split <;> rfl

theorem requestBlocks_pm {k : Kind} (set : k ≠ .setParam) (reinit : k ≠ .reinit) : Block.pm ∉ .lp :: requestBlocks k := by
  cases k
  case setParam => exact absurd rfl set
  case reinit => exact absurd rfl reinit
  all_goals decide

theorem ownerAnswer_paramInv {s : State} (h : ParamInv s.pm) (k : Kind) (l : Link) (p : List Byte) :
    ParamInv (ownerAnswer k l p s).state.pm := by
  by_cases set : k = .setParam
  · subst set
    simp only [ownerAnswer, ownSetParam]
    split
    · exact h
    · rw [writeParam_pm]
      exact storeParam_inv h _ _
  · by_cases reinit : k = .reinit
    · subst reinit
      simp only [ownerAnswer, ownReinit]
      split
      · exact bringIntoForce_inv h
      · exact h
    · rw [(ownerAnswer_touches k l p s).pm (requestBlocks_pm set reinit)]
      exact h

/-- R184, R188: each change that commands are made of keeps the parameters in their ranges. -/
theorem paramInv_kept : Kept fun s => ParamInv s.pm where
  port _ _ h := h
  pending _ _ h := h
  powerOn _ _ := resetParams_inv
  release _ h _ := h
  tick _ h := h
  expire ch s h _ := by rw [(failChannel_touches ch _ s).pm (by decide)]; exact h
  rx _ _ h := h
  frame ch f _ h _ := frameArrives_keeps (P := fun s => ParamInv s.pm) h (fun _ _ h _ => h)
    (fun s h => by rw [(failChannel_touches ch _ s).pm (by decide)]; exact h)
    (fun x s h => by rw [acceptedSet_pm]; exact bringIntoForce_inv h)
  share x s h _ := by rw [(collectorShare_touches x s).pm (by decide)]; exact h
  unload x s h _ := by rw [(unloadShare_touches x s).pm (by decide)]; exact h
  wrap _ _ h := h
  idle _ _ h _ := h
  observe _ h := h
  window v s h := by rw [(windowStep_touches v s).pm (by decide)]; exact h
  freeze s h _ := by rw [(frozenComputation_touches s).pm (by decide)]; exact h
  start s h _ := by rw [(startHead_touches s).pm (by decide)]; exact h
  own k l p _ h := ownerAnswer_paramInv h k l p

/-! ### Position -/

theorem word_le (p : List Byte) (n : Nat) : word p n ≤ 65535 := by
  unfold word
  have high := (byteAt p n).isLt
  have low := (byteAt p (n + 1)).isLt
  omega

theorem advancePosition_inv (inc : Nat) (pt : Position) : PositionInv (advancePosition inc pt) :=
  ⟨Nat.le_of_lt_succ (Nat.mod_lt _ (by decide)), Nat.min_le_right _ _⟩

theorem requestBlocks_pt {k : Kind} (set : k ≠ .setPosition) : Block.pt ∉ .lp :: requestBlocks k := by
  cases k
  case setPosition => exact absurd rfl set
  all_goals decide

theorem ownerAnswer_positionInv {s : State} (h : PositionInv s.pt) (k : Kind) (l : Link) (p : List Byte) :
    PositionInv (ownerAnswer k l p s).state.pt := by
  by_cases set : k = .setPosition
  · subst set
    exact ⟨Nat.zero_le _, word_le p 0⟩
  · rw [(ownerAnswer_touches k l p s).pt (requestBlocks_pt set)]
    exact h

/-- R17: each change that commands are made of keeps P and its remainder in range. -/
theorem positionInv_kept : Kept fun s => PositionInv s.pt where
  port _ _ h := h
  pending _ _ h := h
  powerOn _ _ := ⟨Nat.zero_le _, Nat.zero_le _⟩
  release _ h _ := h
  tick _ h := h
  expire ch s h _ := by rw [(failChannel_touches ch _ s).pt (by decide)]; exact h
  rx _ _ h := h
  frame ch f _ h _ := frameArrives_keeps (P := fun s => PositionInv s.pt) h (fun _ _ h _ => h)
    (fun s h => by rw [(failChannel_touches ch _ s).pt (by decide)]; exact h)
    (fun x s _ => by rw [acceptedSet_pt]; exact advancePosition_inv _ _)
  share x s h _ := by rw [(collectorShare_touches x s).pt (by decide)]; exact h
  unload x s h _ := by rw [(unloadShare_touches x s).pt (by decide)]; exact h
  wrap _ _ h := h
  idle _ _ h _ := h
  observe _ h := h
  window v s h := by rw [(windowStep_touches v s).pt (by decide)]; exact h
  freeze s h _ := by rw [(frozenComputation_touches s).pt (by decide)]; exact h
  start s h _ := by rw [(startHead_touches s).pt (by decide)]; exact h
  own k l p _ h := ownerAnswer_positionInv h k l p

/-! ### D and H -/

/-- The parameters in force stand with the table. -/
theorem par_eq_of_pm {s t : State} (h : t.pm = s.pm) (p : Param) : t.par p = s.par p := by
  unfold State.par
  rw [h]

/-- D and H within bounds, for a table in its ranges. -/
def DepthOk (s : State) : Prop := s.par .dMin ≤ s.be.d ∧ s.be.d ≤ s.par .dMax ∧ s.be.h ≤ 4

theorem depthInv_iff {s : State} (h : ParamInv s.pm) : DepthInv s ↔ DepthOk s := by
  obtain ⟨_, inForce, _, low, high, _, _⟩ := h
  constructor
  · rintro ⟨_, _, least, most, _, depth⟩
    exact ⟨least, most, depth⟩
  · rintro ⟨least, most, depth⟩
    exact ⟨low, high, least, most, (inForce 30).2, depth⟩

/-- The bounds of D in force are in order. -/
theorem ParamInv.dBounds {s : State} (h : ParamInv s.pm) : s.par .dMin ≤ s.par .dMax := by
  obtain ⟨_, _, ordered, low, high, _, _⟩ := h
  exact low.trans_le (ordered.trans_eq high.symm)

theorem DepthOk.congr {s t : State} (h : DepthOk s) (pm : t.pm = s.pm) (d : t.be.d = s.be.d) (depth : t.be.h ≤ s.be.h) :
    DepthOk t := by
  obtain ⟨least, most, le⟩ := h
  rw [← par_eq_of_pm pm .dMin, ← d] at least
  rw [← par_eq_of_pm pm .dMax, ← d] at most
  exact ⟨least, most, depth.trans le⟩

theorem DepthOk.of_be {s t : State} (h : DepthOk s) (pm : t.pm = s.pm) (be : t.be = s.be) : DepthOk t :=
  h.congr pm (by rw [be]) (by rw [be])

/-- R80: D stays in its bounds at the end of a window. -/
theorem steppedD_bounds {s : State} (h : DepthOk s) (bounds : s.par .dMin ≤ s.par .dMax) (sag : Bool) :
    s.par .dMin ≤ steppedD sag s ∧ steppedD sag s ≤ s.par .dMax := by
  obtain ⟨least, most, _⟩ := h
  unfold steppedD
  split <;> omega

theorem windowStep_depthOk {s : State} (h : DepthOk s) (bounds : s.par .dMin ≤ s.par .dMax) (v : Option (BitVec 10)) :
    DepthOk (windowStep v s) := by
  obtain ⟨least, most⟩ := steppedD_bounds h bounds (sagAfter v s)
  unfold windowStep
  split
  · dsimp only
    split
    · unfold endWindow
      dsimp only
      split <;> exact ⟨least, most, h.2.2⟩
    · exact h
  · exact h

theorem targetDepth_le (pAvail : Nat) (s : State) : targetDepth pAvail s ≤ 4 := by
  unfold targetDepth
  cases e : [0, 1, 2, 3, 4].find? (depthFits pAvail s) with
  | none => exact Nat.le_refl 4
  | some n =>
    have mem := List.mem_of_find?_eq_some e
    simp only [List.mem_cons, List.not_mem_nil, or_false] at mem
    show n ≤ 4
    omega

theorem depthStage_depthOk {s : State} (h : DepthOk s) (pAvail : Nat) : DepthOk (depthStage pAvail s).state := by
  unfold depthStage
  split
  · exact h
  · dsimp only
    split
    · exact ⟨h.1, h.2.1, targetDepth_le pAvail s⟩
    · exact h

theorem overGrantCheck_be (s : State) : (overGrantCheck s).be = s.be := (overGrantCheck_touches s).be (by decide)

theorem raise_be (src : Source) (s : State) : (raise src s).be = s.be := rfl

/-- R94, R95: a frozen computation writes the record and the freeze count alone. -/
theorem frozenComputation_be (s : State) : ∃ record freeze,
    (frozenComputation s).be = { s.be with record := record, freeze := freeze } := by
  have kept : ∀ u : State, (∃ record freeze, u.be = { s.be with record := record, freeze := freeze }) →
      ∃ record freeze, (freezeLimitTest u).be = { s.be with record := record, freeze := freeze } := by
    rintro u ⟨record, freeze, e⟩
    unfold freezeLimitTest
    split
    · rw [overGrantCheck_be, raise_be]
      exact ⟨_, freeze, by unfold publish; rw [State.setBe_be, e]⟩
    · exact ⟨record, freeze, e⟩
  unfold frozenComputation
  refine kept _ ⟨keptRecord s, satAdd 255 s.be.freeze 1, ?_⟩
  dsimp only
  split
  · rw [overGrantCheck_be]
    split <;> rfl
  · split <;> rfl

/-- R84, R96: a normal publication writes the record, the freeze count and, at a fall, H and its epochs. -/
theorem normalPublication_be (pAvail served : Nat) (c : Ceilings) (vHeld fall : Bool) (s : State) :
    (normalPublication pAvail served c vHeld fall s).be =
      { fallDepth fall s.be with
        freeze := 0
        record := freshRecord pAvail served (fallDepth fall s.be).h c vHeld
          (s.setBe { fallDepth fall s.be with freeze := 0 }) } := by
  unfold normalPublication
  dsimp only
  split
  · rw [State.setLs_be, overGrantCheck_be]; rfl
  · rw [overGrantCheck_be]; rfl

theorem fallDepth_depth (fall : Bool) (be : Budget) : (fallDepth fall be).d = be.d ∧ (fallDepth fall be).h ≤ be.h := by
  unfold fallDepth
  split
  · exact ⟨rfl, Nat.sub_le _ _⟩
  · exact ⟨rfl, Nat.le_refl _⟩

theorem conclude_depth (pAvail served : Nat) (c : Ceilings) (causes : Conditions) (fall : Bool) (s : State) :
    (conclude pAvail served c causes fall s).be.d = s.be.d ∧ (conclude pAvail served c causes fall s).be.h ≤ s.be.h := by
  unfold conclude
  dsimp only
  split
  · obtain ⟨record, freeze, e⟩ := frozenComputation_be (noteCauses causes s)
    rw [e]
    exact ⟨rfl, Nat.le_refl _⟩
  · rw [normalPublication_be]
    exact fallDepth_depth fall (noteCauses causes s).be

theorem budgetComputation_depthOk {s : State} (h : DepthOk s) (bounds : s.par .dMin ≤ s.par .dMax) (v : Option (BitVec 10)) :
    DepthOk (budgetComputation v s) := by
  have held : DepthOk (holdV v s) ∧ (holdV v s).pm = s.pm := by
    unfold holdV
    split <;> exact ⟨h, rfl⟩
  have bounds' : (holdV v s).par .dMin ≤ (holdV v s).par .dMax := by
    rw [par_eq_of_pm held.2, par_eq_of_pm held.2]; exact bounds
  have staged := depthStage_depthOk (windowStep_depthOk held.1 bounds' v) (availablePower (windowStep v (holdV v s)))
  exact staged.congr ((conclude_touches ..).pm (by decide)) (conclude_depth ..).1 (conclude_depth ..).2

theorem acceptedSet_depthOk {s : State} (h : DepthOk s) (params : ParamInv s.pm) (x : Sample) : DepthOk (acceptedSet x s) := by
  have passed : DepthOk (passOn x s) := by
    obtain ⟨_, _, _, low, high, _, _⟩ := params
    obtain ⟨least, most, depth⟩ := h
    exact ⟨low.symm.trans_le least, most.trans_eq high, depth⟩
  have touched : Touches [.rft, .cm, .ls, .ad] (passOn x s) (loadsBeforeBudget x.v (movedAtSet x s)) :=
    ((movedAtSet_touches x s).mono (by decide)).trans ((loadsBeforeBudget_touches _ _).mono (by decide))
  have found : DepthOk (loadsBeforeBudget x.v (movedAtSet x s)) :=
    passed.of_be (touched.pm (by decide)) (touched.be (by decide))
  have bounds : ParamInv (loadsBeforeBudget x.v (movedAtSet x s)).pm := by
    rw [touched.pm (by decide)]
    exact bringIntoForce_inv params
  have computed := budgetComputation_depthOk found bounds.dBounds x.v
  exact computed.of_be ((startDecision_touches _).pm (by decide)) ((startDecision_touches _).be (by decide))

theorem failChannel_be_depth (ch : Channel) (why : FailReason) (s : State) :
    (failChannel ch why s).be.d = s.be.d ∧ (failChannel ch why s).be.h = s.be.h := by
  by_cases active : s.si.active = some ch
  · by_cases standby : (s.si.chan.get (otherChannel ch)).health = .healthy
    · rw [failChannel_failover active standby]
      exact ⟨rfl, rfl⟩
    · rw [failChannel_lost active (health_failed_of_ne standby), loseSense_eq, State.setCm_be, State.setLs_be,
        safeAtSenseLoss_be]
      exact ⟨rfl, rfl⟩
  · rw [failChannel_standby active]
    exact ⟨rfl, rfl⟩

theorem failChannel_depthOk {s : State} (h : DepthOk s) (ch : Channel) (why : FailReason) :
    DepthOk (failChannel ch why s) := by
  obtain ⟨d, depth⟩ := failChannel_be_depth ch why s
  exact h.congr ((failChannel_touches ch why s).pm (by decide)) d depth.le

/-- R81: a write to a bound of D clamps D into the new bounds. -/
theorem writeParam_depthOk {s : State} (h : DepthOk s) (n : Fin 52) (v : Nat)
    (bounds : (s.setPm (storeParam n v s.pm)).par .dMin ≤ (s.setPm (storeParam n v s.pm)).par .dMax) :
    DepthOk (writeParam n v s) := by
  unfold writeParam
  by_cases now : atOnce n = true
  · rw [if_pos now]
    exact ⟨Nat.le_max_right _ _, Nat.max_le.mpr ⟨Nat.min_le_right _ _, bounds⟩, h.2.2⟩
  · rw [if_neg now]
    have same : (storeParam n v s.pm).inForce = s.pm.inForce := if_neg now
    refine ⟨?_, ?_, h.2.2⟩
    · show paramValue (storeParam n v s.pm).inForce .dMin ≤ _
      rw [same]
      exact h.1
    · show _ ≤ paramValue (storeParam n v s.pm).inForce .dMax
      rw [same]
      exact h.2.1

theorem requestBlocks_be {k : Kind} (h : k ∉ [.clearConditions, .setParam, .reinit]) : Block.be ∉ .lp :: requestBlocks k := by
  revert h; cases k <;> decide

theorem ownerAnswer_depthOk {s : State} (h : DepthOk s) (params : ParamInv s.pm) (k : Kind) (l : Link) (p : List Byte) :
    DepthOk (ownerAnswer k l p s).state := by
  by_cases m : k ∈ [.clearConditions, .setParam, .reinit]
  · simp only [List.mem_cons, List.not_mem_nil, or_false] at m
    obtain rfl | rfl | rfl := m
    · exact h
    · simp only [ownerAnswer, ownSetParam]
      split
      · exact h
      · exact writeParam_depthOk h _ _ (ParamInv.dBounds (s := s.setPm _) (storeParam_inv params _ _))
    · simp only [ownerAnswer, ownReinit]
      split
      · exact ⟨Nat.le_refl _, ParamInv.dBounds (s := reinitState s) (bringIntoForce_inv params), Nat.zero_le _⟩
      · exact h
  · have touched := ownerAnswer_touches k l p s
    refine h.of_be (touched.pm (requestBlocks_pm ?_ ?_)) (touched.be (requestBlocks_be m))
    · rintro rfl; exact m (by decide)
    · rintro rfl; exact m (by decide)

/-- The parameters in their ranges, and D and H in their bounds. -/
def ParamsAndDepth (s : State) : Prop := ParamInv s.pm ∧ DepthOk s

/-- R85: each change that commands are made of keeps D and H in bounds, with the parameters in their ranges. -/
theorem paramsAndDepth_kept : Kept ParamsAndDepth where
  port _ _ h := h
  pending _ _ h := h
  powerOn _ _ := ⟨resetParams_inv, Nat.le_refl _, ParamInv.dBounds (s := State.reset) resetParams_inv, Nat.zero_le _⟩
  release _ h _ := h
  tick _ h := h
  expire ch s h due := ⟨paramInv_kept.expire ch s h.1 due, failChannel_depthOk h.2 ch _⟩
  rx _ _ h := h
  frame ch f _ h _ := frameArrives_keeps (P := ParamsAndDepth) h (fun _ _ h _ => h)
    (fun s h => ⟨by rw [(failChannel_touches ch _ s).pm (by decide)]; exact h.1, failChannel_depthOk h.2 ch _⟩)
    (fun x _ h => ⟨by rw [acceptedSet_pm]; exact bringIntoForce_inv h.1, acceptedSet_depthOk h.2 h.1 x⟩)
  share x s h m := ⟨paramInv_kept.share x s h.1 m,
    h.2.of_be ((collectorShare_touches x s).pm (by decide)) ((collectorShare_touches x s).be (by decide))⟩
  unload x s h m := ⟨paramInv_kept.unload x s h.1 m,
    h.2.of_be ((unloadShare_touches x s).pm (by decide)) ((unloadShare_touches x s).be (by decide))⟩
  wrap _ _ h := h
  idle _ _ h _ := h
  observe _ h := h
  window v s h := ⟨paramInv_kept.window v s h.1, windowStep_depthOk h.2 h.1.dBounds v⟩
  freeze s h due := by
    obtain ⟨record, freeze, e⟩ := frozenComputation_be s
    exact ⟨paramInv_kept.freeze s h.1 due,
      h.2.congr ((frozenComputation_touches s).pm (by decide)) (by rw [e]) (by rw [e])⟩
  start s h due := ⟨paramInv_kept.start s h.1 due,
    h.2.of_be ((startHead_touches s).pm (by decide)) ((startHead_touches s).be (by decide))⟩
  own k l p _ h := ⟨ownerAnswer_paramInv h.1 k l p, ownerAnswer_depthOk h.2 h.1 k l p⟩

end Sys2Proof.Machine

/-! PROOFS. Every step keeps the published record's properties and a live grant covered (R97, R108, R110), and the ceilings
of a set taken in NONE supply or in UNLOADING stay 0 (R94, R97). -/

namespace Sys2Proof.Machine

/-! ### The over-grant check -/

/-- R108: a grant that has not been reported is not 0. -/
def GrantLive (s : State) : Prop := s.tg.reported = false → s.tg.lastGrant ≠ 0

theorem GrantInv.live {s : State} (h : GrantInv s) : GrantLive s := fun r => (h r).1

/-- R110: a grant that the record's ceilings do not cover is over. -/
theorem covered_of_not_grantOver {r : BudgetRecord} {g : Int} (h : grantOver r g = false) :
    g ≤ (r.t : Int) ∧ -g ≤ (r.g : Int) := by
  unfold grantOver at h
  split at h
  · rw [decide_eq_false_iff_not] at h; omega
  · split at h
    · rw [decide_eq_false_iff_not] at h; omega
    · omega

/-- R110: after the check a grant that is not reported is covered, whatever record was offered. -/
theorem overGrantCheck_grantInv {s : State} (h : GrantLive s) : GrantInv (overGrantCheck s) := by
  unfold overGrantCheck
  split
  · exact fun r => Bool.noConfusion r
  · next covered =>
    intro r
    refine ⟨h r, covered_of_not_grantOver ?_⟩
    cases g : grantOver s.be.record s.tg.lastGrant
    · rfl
    · exact absurd ⟨r, g⟩ covered

theorem GrantInv.congr {s t : State} (h : GrantInv s) (tg : t.tg = s.tg) (motoring : t.be.record.t = s.be.record.t)
    (braking : t.be.record.g = s.be.record.g) : GrantInv t := by
  unfold GrantInv
  rw [tg, motoring, braking]
  exact h

/-- A live grant covered, and the record with its properties. -/
def BudgetOk (s : State) : Prop := RecordInv s.be.record ∧ GrantInv s

theorem BudgetOk.congr {s t : State} (h : BudgetOk s) (record : t.be.record = s.be.record) (tg : t.tg = s.tg) : BudgetOk t :=
  ⟨by rw [record]; exact h.1, h.2.congr tg (by rw [record]) (by rw [record])⟩

theorem BudgetOk.raise {s : State} (h : BudgetOk s) (src : Source) : BudgetOk (raise src s) := h.congr rfl rfl

/-- A record published and checked. -/
theorem BudgetOk.offer {s : State} (record : RecordInv s.be.record) (live : GrantLive s) : BudgetOk (overGrantCheck s) :=
  ⟨by rw [overGrantCheck_be]; exact record, overGrantCheck_grantInv live⟩

/-! ### The records -/

theorem zeroed_recordInv {r : BudgetRecord} (h : RecordInv r) {q : BudgetRecord} (motoring : q.t = 0) (braking : q.g = 0)
    (served : q.served = r.served) (reserve : q.r = r.r) (avail : q.pAvail = r.pAvail) (short : q.shortfall = r.shortfall) :
    RecordInv q := by
  refine ⟨?_, .inr motoring, fun _ => ⟨motoring, braking⟩⟩
  rw [short, served, reserve, avail]
  exact h.1.imp (fun ⟨mark, _⟩ => ⟨mark, motoring⟩) id

theorem safeRecord_inv {r : BudgetRecord} (h : RecordInv r) : RecordInv (safeRecord r) :=
  zeroed_recordInv h rfl rfl rfl rfl rfl rfl

theorem lostRecord_inv {r : BudgetRecord} (h : RecordInv r) : RecordInv (lostRecord r) :=
  zeroed_recordInv h rfl rfl rfl rfl rfl rfl

theorem keptRecord_zero {s : State} (h : zeroesKept s = true) : (keptRecord s).t = 0 ∧ (keptRecord s).g = 0 :=
  ⟨if_pos h, if_pos h⟩

theorem keptRecord_same {s : State} (h : ¬zeroesKept s = true) :
    keptRecord s = { s.be.record with frozen := true, senseLost := false } := by
  simp only [keptRecord, if_neg h]

theorem keptRecord_inv {s : State} (h : RecordInv s.be.record) : RecordInv (keptRecord s) := by
  by_cases z : zeroesKept s = true
  · exact zeroed_recordInv h (keptRecord_zero z).1 (keptRecord_zero z).2 rfl rfl rfl rfl
  · rw [keptRecord_same z]; exact h

/-- R39: the coast factor is at most 16. -/
theorem coastFactor_le (armed : List ArmedCopy) : coastFactor armed ≤ 16 := by
  have least : ∀ (l : List ArmedCopy) (m : Nat), l.foldl (fun m c => min m c.factor) m ≤ m := by
    intro l
    induction l with
    | nil => exact fun m => Nat.le_refl m
    | cons c l ih => exact fun m => (ih _).trans (Nat.min_le_left _ _)
  exact least armed 16

/-- R88, R89: neither the derating nor the coast factor raises a figure. -/
theorem tOneRaw_le (tZ d : Nat) : tOneRaw tZ d ≤ tZ :=
  Nat.div_le_of_le_mul (by rw [Nat.mul_comm 16]; exact Nat.mul_le_mul_left _ (Nat.sub_le _ _))

theorem coasted_le (t : Nat) (armed : List ArmedCopy) : t * coastFactor armed / 16 ≤ t :=
  Nat.div_le_of_le_mul (by rw [Nat.mul_comm 16]; exact Nat.mul_le_mul_left _ (coastFactor_le armed))

/-- R87 to R89: T is at most T0. -/
theorem ceilings_t_le (pAvail served : Nat) (s : State) :
    (ceilings pAvail served s).t ≤ pAvail - served - s.par .reserve := by
  unfold ceilings tZero
  dsimp only
  split
  · exact Nat.zero_le _
  · exact Nat.min_le_left _ _
  · split
    · exact Nat.zero_le _
    · exact (coasted_le _ _).trans ((Nat.min_le_left _ _).trans (tOneRaw_le _ _))

/-- R90, R92: in NONE supply and in UNLOADING both ceilings are 0. -/
theorem ceilings_zero {s : State} (h : zeroesKept s = true) (pAvail served : Nat) :
    (ceilings pAvail served s).t = 0 ∧ (ceilings pAvail served s).g = 0 := by
  unfold zeroesKept at h
  rw [Bool.or_eq_true, decide_eq_true_eq, decide_eq_true_eq] at h
  unfold ceilings
  dsimp only
  split
  · exact ⟨rfl, rfl⟩
  · next battery =>
    obtain none | unloading := h
    · rw [battery] at none; cases none
    · rw [State.supply, unloading] at battery; cases battery
  · next line =>
    obtain none | unloading := h
    · rw [line] at none; cases none
    · rw [if_pos unloading]; exact ⟨rfl, rfl⟩

theorem freshRecord_inv {s : State} {pAvail served h : Nat} {c : Ceilings} (vHeld : Bool)
    (t : c.t ≤ pAvail - served - s.par .reserve) (zero : s.supply = .none → c.t = 0 ∧ c.g = 0) :
    RecordInv (freshRecord pAvail served h c vHeld s) := by
  by_cases short : pAvail < served + s.par .reserve
  · have none : c.t = 0 := by omega
    exact ⟨.inl ⟨decide_eq_true short, none⟩, .inr none, fun k => zero (k.resolve_right Bool.noConfusion)⟩
  · have fits : served + s.par .reserve ≤ pAvail := Nat.le_of_not_lt short
    exact ⟨.inr fits, .inl (by show c.t + served + s.par .reserve ≤ pAvail; omega),
      fun k => zero (k.resolve_right Bool.noConfusion)⟩

/-! ### Stage 7 -/

theorem freezeLimitTest_budgetOk {s : State} (h : BudgetOk s) : BudgetOk (freezeLimitTest s) := by
  unfold freezeLimitTest
  split
  · exact BudgetOk.offer (s := raise .budgetSafe (publish (safeRecord s.be.record) s)) (safeRecord_inv h.1) h.2.live
  · exact h

theorem frozenComputation_budgetOk {s : State} (h : BudgetOk s) : BudgetOk (frozenComputation s) := by
  unfold frozenComputation
  refine freezeLimitTest_budgetOk ?_
  dsimp only
  generalize hu : (if satAdd 255 s.be.freeze 1 = 1 then
    raise .budgetFrozen (s.setBe { s.be with record := keptRecord s, freeze := satAdd 255 s.be.freeze 1 })
    else s.setBe { s.be with record := keptRecord s, freeze := satAdd 255 s.be.freeze 1 }) = u
  have record : u.be.record = keptRecord s := by
    rw [← hu]
    split <;> rfl
  have tg : u.tg = s.tg := by
    rw [← hu]
    split <;> rfl
  have inv : RecordInv u.be.record := by rw [record]; exact keptRecord_inv h.1
  split
  · exact BudgetOk.offer inv (by unfold GrantLive; rw [tg]; exact h.2.live)
  · next z =>
    refine ⟨inv, h.2.congr tg ?_ ?_⟩
    · rw [record, keptRecord_same z]
    · rw [record, keptRecord_same z]

theorem normalPublication_budgetOk {s : State} (h : BudgetOk s) {pAvail served : Nat} {c : Ceilings} (vHeld fall : Bool)
    (t : c.t ≤ pAvail - served - s.par .reserve) (zero : s.supply = .none → c.t = 0 ∧ c.g = 0) :
    BudgetOk (normalPublication pAvail served c vHeld fall s) := by
  unfold normalPublication
  have offered : BudgetOk (overGrantCheck (publish (freshRecord pAvail served
      (s.setBe { fallDepth fall s.be with freeze := 0 }).be.h c vHeld (s.setBe { fallDepth fall s.be with freeze := 0 }))
      (s.setBe { fallDepth fall s.be with freeze := 0 }))) :=
    BudgetOk.offer (freshRecord_inv (s := s.setBe _) vHeld t zero) h.2.live
  dsimp only
  split
  · exact offered.congr (by rw [State.setLs_be]) (by rw [State.setLs_tg])
  · exact offered

/-- What stage 7 is given: the figures of stages 5 and 6 on this state. -/
theorem conclude_budgetOk {s : State} (h : BudgetOk s) (pAvail served : Nat) (causes : Conditions) (fall : Bool) :
    BudgetOk (conclude pAvail served (ceilings pAvail served s) causes fall s) := by
  have noted : BudgetOk (noteCauses causes s) := h
  unfold conclude
  dsimp only
  split
  · exact frozenComputation_budgetOk noted
  · refine normalPublication_budgetOk noted _ _ (ceilings_t_le pAvail served s) fun none => ?_
    have supply : s.supply = .none := none
    exact ceilings_zero (by unfold zeroesKept; rw [supply]; rfl) pAvail served

theorem windowStep_record (v : Option (BitVec 10)) (s : State) :
    (windowStep v s).be.record = s.be.record ∧ (windowStep v s).tg = s.tg := by
  refine ⟨?_, (windowStep_touches v s).tg (by decide)⟩
  unfold windowStep
  split
  · dsimp only
    split
    · unfold endWindow
      dsimp only
      split <;> rfl
    · rfl
  · rfl

theorem depthStage_record (pAvail : Nat) (s : State) :
    (depthStage pAvail s).state.be.record = s.be.record ∧ (depthStage pAvail s).state.tg = s.tg := by
  refine ⟨?_, (depthStage_touches pAvail s).tg (by decide)⟩
  unfold depthStage
  split
  · rfl
  · dsimp only
    split <;> rfl

theorem holdV_record (v : Option (BitVec 10)) (s : State) :
    (holdV v s).be.record = s.be.record ∧ (holdV v s).tg = s.tg := by
  unfold holdV
  split <;> exact ⟨rfl, rfl⟩

/-- The state that stages 1 to 4 leave to the ceilings. -/
def staged (v : Option (BitVec 10)) (s : State) : State :=
  (depthStage (availablePower (windowStep v (holdV v s))) (windowStep v (holdV v s))).state

theorem staged_record (v : Option (BitVec 10)) (s : State) :
    (staged v s).be.record = s.be.record ∧ (staged v s).tg = s.tg := by
  obtain ⟨r1, t1⟩ := holdV_record v s
  obtain ⟨r2, t2⟩ := windowStep_record v (holdV v s)
  obtain ⟨r3, t3⟩ := depthStage_record (availablePower (windowStep v (holdV v s))) (windowStep v (holdV v s))
  exact ⟨r3.trans (r2.trans r1), t3.trans (t2.trans t1)⟩

/-- R75: a computation concludes on the state of stages 1 to 4, with the ceilings taken there. -/
theorem budgetComputation_eq (v : Option (BitVec 10)) (s : State) : ∃ pAvail served causes fall,
    budgetComputation v s = conclude pAvail served (ceilings pAvail served (staged v s)) causes fall (staged v s) :=
  ⟨_, _, _, _, rfl⟩

theorem budgetComputation_budgetOk {s : State} (h : BudgetOk s) (v : Option (BitVec 10)) :
    BudgetOk (budgetComputation v s) := by
  obtain ⟨pAvail, served, causes, fall, e⟩ := budgetComputation_eq v s
  obtain ⟨record, tg⟩ := staged_record v s
  rw [e]
  exact conclude_budgetOk (h.congr record tg) _ _ _ _

/-! ### Every command -/

/-- What LS and BE take on an accepted set, up to the computation. -/
def computing (x : Sample) (s : State) : State := loadsBeforeBudget x.v (movedAtSet x s)

theorem computing_touches (x : Sample) (s : State) : Touches [.rft, .cm, .ls, .ad] (passOn x s) (computing x s) :=
  ((movedAtSet_touches x s).mono (by decide)).trans ((loadsBeforeBudget_touches _ _).mono (by decide))

/-- After its computation an accepted set writes LS and SI alone. -/
theorem acceptedSet_after (x : Sample) (s : State) :
    Touches [.ls, .si] (budgetComputation x.v (computing x s)) (acceptedSet x s) :=
  ((startDecision_touches _).mono (by decide)).trans ((State.setSi_touches _ _).mono (by decide))

theorem acceptedSet_budgetOk {s : State} (h : BudgetOk s) (x : Sample) : BudgetOk (acceptedSet x s) := by
  have touched := computing_touches x s
  have found : BudgetOk (computing x s) :=
    h.congr (by rw [touched.be (by decide)]; rfl) ((touched.tg (by decide)).trans rfl)
  have after := acceptedSet_after x s
  exact (budgetComputation_budgetOk found x.v).congr (by rw [after.be (by decide)]) (after.tg (by decide))

theorem failChannel_budgetOk {s : State} (h : BudgetOk s) (ch : Channel) (why : FailReason) :
    BudgetOk (failChannel ch why s) := by
  by_cases active : s.si.active = some ch
  · by_cases standby : (s.si.chan.get (otherChannel ch)).health = .healthy
    · rw [failChannel_failover active standby]
      exact h.congr rfl rfl
    · rw [failChannel_lost active (health_failed_of_ne standby), loseSense_eq]
      have offered : BudgetOk (safeAtSenseLoss (lostState (failedState ch why s))) :=
        BudgetOk.offer (s := publish _ _) (lostRecord_inv h.1) h.2.live
      exact offered.congr (by rw [State.setCm_be, State.setLs_be]) (by rw [State.setCm_tg, State.setLs_tg])
  · rw [failChannel_standby active]
    exact h.congr rfl rfl

/-- R104 to R106: a grant is covered by the record's ceilings. -/
theorem grantFor_covered (r : Int) (s : State) :
    grantFor r s ≤ (s.be.record.t : Int) ∧ -grantFor r s ≤ (s.be.record.g : Int) := by
  unfold grantFor
  dsimp only
  split
  · split <;> omega
  · omega

theorem resetRecord_inv (supply : Supply) : RecordInv (resetRecord supply) :=
  ⟨.inr (Nat.le_refl _), .inr rfl, fun _ => ⟨rfl, rfl⟩⟩

theorem reset_budgetOk {s : State} {supply : Supply} (record : s.be.record = resetRecord supply) (tg : s.tg = resetGrants) :
    BudgetOk s :=
  ⟨by rw [record]; exact resetRecord_inv supply, fun live => by rw [tg] at live; cases live⟩

theorem writeParam_record (n : Fin 52) (v : Nat) (s : State) :
    (writeParam n v s).be.record = s.be.record ∧ (writeParam n v s).tg = s.tg := by
  unfold writeParam
  dsimp only
  split <;> exact ⟨rfl, rfl⟩

theorem ownerAnswer_budgetOk {s : State} (h : BudgetOk s) (k : Kind) (l : Link) (p : List Byte) :
    BudgetOk (ownerAnswer k l p s).state := by
  by_cases m : k ∈ [.clearConditions, .setParam, .reinit, .tractionRequest]
  · simp only [List.mem_cons, List.not_mem_nil, or_false] at m
    obtain rfl | rfl | rfl | rfl := m
    · exact h
    · simp only [ownerAnswer, ownSetParam]
      split
      · exact h
      · exact h.congr (writeParam_record _ _ s).1 (writeParam_record _ _ s).2
    · simp only [ownerAnswer, ownReinit]
      split
      · exact reset_budgetOk rfl rfl
      · exact h
    · refine ⟨h.1, fun live => ⟨?_, grantFor_covered _ s⟩⟩
      exact of_decide_eq_false live
  · have touched := ownerAnswer_touches k l p s
    have be : (ownerAnswer k l p s).state.be = s.be := touched.be (by revert m; cases k <;> decide)
    exact h.congr (by rw [be]) (touched.tg (by revert m; cases k <;> decide))

/-- R97, R108, R110: each change that commands are made of keeps the record's properties and a live grant covered. -/
theorem budgetOk_kept : Kept BudgetOk where
  port _ _ h := h
  pending _ _ h := h
  powerOn _ _ := reset_budgetOk rfl rfl
  release _ h _ := h
  tick _ h := h
  expire ch _ h _ := failChannel_budgetOk h ch _
  rx _ _ h := h
  frame ch f _ h _ := frameArrives_keeps (P := BudgetOk) h (fun _ _ h _ => h) (fun _ h => failChannel_budgetOk h ch _)
    (fun x _ h => acceptedSet_budgetOk h x)
  share x s h _ := h.congr (by rw [(collectorShare_touches x s).be (by decide)]) ((collectorShare_touches x s).tg (by decide))
  unload x s h _ := h.congr (by rw [(unloadShare_touches x s).be (by decide)]) ((unloadShare_touches x s).tg (by decide))
  wrap _ _ h := h
  idle _ _ h _ := h
  observe _ h := h
  window v s h := h.congr (windowStep_record v s).1 (windowStep_record v s).2
  freeze _ h _ := frozenComputation_budgetOk h
  start s h _ := h.congr (by rw [(startHead_touches s).be (by decide)]) ((startHead_touches s).tg (by decide))
  own k l p _ h := ownerAnswer_budgetOk h k l p

end Sys2Proof.Machine

/-! PROOFS. The ceilings between computations (R94, R97), and O57. -/

namespace Sys2Proof.Machine

/-! ### The ceilings of a computation in NONE supply or in UNLOADING -/

/-- Both ceilings of the published record are 0. -/
def CeilingsZero (s : State) : Prop := s.be.record.t = 0 ∧ s.be.record.g = 0

/-- From `s` to `t` the ceilings stand, or become 0. -/
def CeilingsStand (s t : State) : Prop :=
  (t.be.record.t = s.be.record.t ∧ t.be.record.g = s.be.record.g) ∨ (t.be.record.t = 0 ∧ t.be.record.g = 0)

theorem CeilingsStand.of_record {s t : State} (h : t.be.record = s.be.record) : CeilingsStand s t :=
  .inl ⟨by rw [h], by rw [h]⟩

theorem CeilingsStand.of_be {s t : State} (h : t.be = s.be) : CeilingsStand s t := .of_record (by rw [h])

theorem CeilingsStand.trans {s t u : State} (h : CeilingsStand s t) (k : CeilingsStand t u) : CeilingsStand s u := by
  obtain ⟨motoring, braking⟩ | zero := k
  · unfold CeilingsStand
    rw [motoring, braking]
    exact h
  · exact .inr zero

theorem CeilingsStand.zero {s t : State} (h : CeilingsStand s t) (zero : CeilingsZero s) : CeilingsZero t := by
  obtain ⟨motoring, braking⟩ | zeroed := h
  · exact ⟨motoring.trans zero.1, braking.trans zero.2⟩
  · exact zeroed

theorem freezeLimitTest_stand (s : State) : CeilingsStand s (freezeLimitTest s) := by
  unfold freezeLimitTest
  split
  · refine .inr ?_
    rw [overGrantCheck_be, raise_be]
    exact ⟨rfl, rfl⟩
  · exact .of_be rfl

/-- R94: the record offered by a frozen computation, before the freeze limit is tested. -/
theorem frozenComputation_kept (s : State) : ∃ u : State, u.be.record = keptRecord s ∧
    frozenComputation s = freezeLimitTest u := by
  refine ⟨_, ?_, rfl⟩
  dsimp only
  split
  · rw [overGrantCheck_be]
    split <;> rfl
  · split <;> rfl

theorem frozenComputation_stand (s : State) : CeilingsStand s (frozenComputation s) := by
  obtain ⟨u, record, e⟩ := frozenComputation_kept s
  rw [e]
  refine CeilingsStand.trans ?_ (freezeLimitTest_stand u)
  by_cases z : zeroesKept s = true
  · refine .inr ?_
    rw [record]
    exact keptRecord_zero z
  · rw [keptRecord_same z] at record
    exact .inl ⟨by rw [record], by rw [record]⟩

/-- R90, R92, R94: a computation in NONE supply or in UNLOADING leaves both ceilings 0, frozen or not. -/
theorem conclude_zero {s : State} (h : zeroesKept s = true) (pAvail served : Nat) (causes : Conditions) (fall : Bool) :
    CeilingsZero (conclude pAvail served (ceilings pAvail served s) causes fall s) := by
  have noted : zeroesKept (noteCauses causes s) = true := h
  unfold conclude
  dsimp only
  split
  · obtain ⟨u, record, e⟩ := frozenComputation_kept (noteCauses causes s)
    rw [e]
    refine (freezeLimitTest_stand u).zero ?_
    unfold CeilingsZero
    rw [record]
    exact keptRecord_zero noted
  · unfold CeilingsZero
    rw [normalPublication_be]
    exact ceilings_zero h pAvail served

theorem zeroesKept_congr {s t : State} (cm : t.cm = s.cm) (pm : t.pm = s.pm) : zeroesKept t = zeroesKept s := by
  unfold zeroesKept State.supply
  rw [cm, par_eq_of_pm pm]

theorem zeroesKept_iff (s : State) : zeroesKept s = true ↔ s.supply = .none ∨ s.cm.state = .unloading := by
  simp [zeroesKept]

/-- R94, R97: an accepted set that ends in NONE supply or in UNLOADING ends with both ceilings 0. -/
theorem acceptedSet_zero {x : Sample} {s : State} (h : zeroesKept (acceptedSet x s) = true) :
    CeilingsZero (acceptedSet x s) := by
  obtain ⟨pAvail, served, causes, fall, e⟩ := budgetComputation_eq x.v (computing x s)
  have after := acceptedSet_after x s
  rw [e] at after
  have concluded := conclude_touches pAvail served (ceilings pAvail served (staged x.v (computing x s))) causes fall
    (staged x.v (computing x s))
  have found : zeroesKept (staged x.v (computing x s)) = true := by
    rw [← h]
    exact (zeroesKept_congr ((after.cm (by decide)).trans (concluded.cm (by decide)))
      ((after.pm (by decide)).trans (concluded.pm (by decide)))).symm
  unfold CeilingsZero
  rw [after.be (by decide)]
  exact conclude_zero found pAvail served causes fall

/-! ### The ceilings of every other command -/

theorem failChannel_stand (ch : Channel) (why : FailReason) (s : State) : CeilingsStand s (failChannel ch why s) := by
  by_cases active : s.si.active = some ch
  · by_cases standby : (s.si.chan.get (otherChannel ch)).health = .healthy
    · rw [failChannel_failover active standby]
      exact .of_be rfl
    · rw [failChannel_lost active (health_failed_of_ne standby), loseSense_eq]
      refine .inr ?_
      rw [State.setCm_be, State.setLs_be, safeAtSenseLoss_be]
      exact ⟨rfl, rfl⟩
  · rw [failChannel_standby active]
    exact .of_be rfl

theorem expireSilence_stand (ch : Channel) (s : State) : CeilingsStand s (expireSilence ch s) :=
  whenDue_keeps (.of_be rfl) fun _ => failChannel_stand ch _ s

theorem takeOverdue_stand (s : State) : CeilingsStand s (takeOverdue s) := by
  unfold takeOverdue
  dsimp only
  split <;> exact (expireSilence_stand _ s).trans (expireSilence_stand _ _)

/-- A closed frame that is no accepted set. -/
theorem frameArrives_stand {ch : Channel} {f : OpenFrame} {s : State} (on : s.resetPin = false)
    (held : s.si.rx.get ch = some f) (no : ∀ x, ¬Accepts ch x s) : CeilingsStand s (frameArrives ch f s) := by
  have fails : ∀ u : State, u.be = s.be → CeilingsStand s (failChannel ch .plausibility u) := fun u be =>
    CeilingsStand.trans (.of_be be) (failChannel_stand ch _ u)
  cases healthy : (s.si.chan.get ch).health with
  | failed => rw [frameArrives_failed healthy]; exact .of_be rfl
  | healthy =>
    cases good : frameSample f with
    | none =>
      rw [frameArrives_bad healthy good]
      unfold takeBadFrame
      dsimp only
      split
      · exact fails _ rfl
      · exact .of_be rfl
    | some x =>
      rw [frameArrives_good healthy good]
      have same : implausible (s.si.chan.get ch) x (s.setSi { s.si with rx := s.si.rx.put ch none }) =
        implausible (s.si.chan.get ch) x s := implausible_congr rfl _ _
      by_cases within : plausAfter (implausible (s.si.chan.get ch) x s) (s.si.chan.get ch).plaus ≤ s.par .plausLimit
      · rw [takeGoodFrame_standby]
        · exact .of_be rfl
        · rw [State.setSi_si, same]; exact within
        · exact fun active => no x ⟨on, ⟨f, held, good⟩, healthy, active, within⟩
      · rw [takeGoodFrame_fails]
        · exact fails _ rfl
        · rw [State.setSi_si, same]; exact Nat.lt_of_not_le within

theorem ownerAnswer_stand (k : Kind) (l : Link) (p : List Byte) (s : State) :
    CeilingsStand s (ownerAnswer k l p s).state := by
  by_cases m : k ∈ [.clearConditions, .setParam, .reinit]
  · simp only [List.mem_cons, List.not_mem_nil, or_false] at m
    obtain rfl | rfl | rfl := m
    · exact .of_record rfl
    · simp only [ownerAnswer, ownSetParam]
      split
      · exact .of_be rfl
      · exact .of_record (writeParam_record _ _ s).1
    · simp only [ownerAnswer, ownReinit]
      split
      · exact .inr ⟨rfl, rfl⟩
      · exact .of_be rfl
  · exact .of_be ((ownerAnswer_touches k l p s).be (requestBlocks_be m))

/-- Commands that may change BE. -/
theorem exec_be_of_not_mem {c : Instr} {s t : State} (h : Block.be ∉ commandBlocks c) (e : exec c s = .next t) :
    t.be = s.be := by
  obtain ⟨u, run, touched⟩ := everyCommandCompletesInItsFrame c s
  obtain rfl : u = t := Host.Outcome.next.inj (run.symm.trans e)
  exact touched.be h

/-- R94, R97: no command but an accepted set moves the ceilings other than to 0. -/
theorem exec_stand {c : Instr} {s t : State} (e : exec c s = .next t)
    (no : ∀ ch x, c = .sampleFrame ch → ¬Accepts ch x s) : CeilingsStand s t := by
  have port : ∀ u x, CeilingsStand s u → CeilingsStand s (u.setLp x) := fun u x h => h.trans (.of_be rfl)
  have own : ∀ k l p u, CeilingsStand s u → CeilingsStand s (ownerAnswer k l p u).state := fun k l p u h =>
    h.trans (ownerAnswer_stand k l p u)
  have still : CeilingsStand s s := .of_be rfl
  have request : ∀ k l body, requestCommand k l body s = .next t → CeilingsStand s t := fun k l body r =>
    whilePowered_keeps still (fun _ => frameOnLink_keeps port own still l _ body) r
  by_cases writes : Block.be ∈ commandBlocks c
  · cases c with
    | powerOnReset => cases e; exact .inr ⟨rfl, rfl⟩
    | millisecondTick =>
      refine whilePowered_keeps (f := fun s => tick (takeOverdue s)) still (fun _ => ?_) e
      exact (takeOverdue_stand s).trans (.of_be rfl)
    | silenceTimerExpiry ch => exact whilePowered_keeps still (fun _ => expireSilence_stand ch s) e
    | sampleFrame ch =>
      refine whilePowered_keeps still (fun on => ?_) e
      unfold closeFrame
      split
      · exact still
      · next f held => exact frameArrives_stand on held fun x => no ch x rfl
    | derateWindowEnd v =>
      exact whilePowered_keeps still (fun _ => whenDue_keeps still fun _ => .of_record (windowStep_record v s).1) e
    | freezeLimitReached =>
      exact whilePowered_keeps still (fun _ => whenDue_keeps still fun _ => frozenComputation_stand s) e
    | unknownKind l code body =>
      exact whilePowered_keeps still (fun _ => frameOnLink_keeps port own still l code body) e
    | linkByteComplete l b => exact whilePowered_keeps still (fun _ => byteCompletes_keeps port own still l b) e
    | clearConditions l body => exact request _ _ _ e
    | setParam l body => exact request _ _ _ e
    | reinit l body => exact request _ _ _ e
    | _ => exact absurd writes (by simp [commandBlocks, requestBlocks])
  · exact .of_be (exec_be_of_not_mem writes e)

/-- Settles O57: the parameters, P, D and H; the record and a live grant; the ceilings at a set and between sets. -/
theorem stepKeepsParametersAndBudget : Obligations.StepKeepsParametersAndBudget := by
  refine ⟨fun s t e => ⟨fun h => paramInv_kept.step h e, fun h => positionInv_kept.step h e, fun params depth => ?_⟩,
    fun s t record grant e => budgetOk_kept.step (P := BudgetOk) ⟨record, grant⟩ e, fun ch x s t h e ends => ?_,
    fun c s t e no => exec_stand e no⟩
  · obtain ⟨params', depth'⟩ := paramsAndDepth_kept.step ⟨params, (depthInv_iff params).mp depth⟩ e
    exact (depthInv_iff params').mpr depth'
  · obtain rfl := Host.Outcome.next.inj ((exec_accepted h).symm.trans e)
    exact acceptedSet_zero ((zeroesKept_iff _).mpr ends)

end Sys2Proof.Machine

/-! PROOFS. Every step keeps the point table well filed (R21, R22, R27), the armed list in order (R19, R37), and P in each
copy's window (R36, R38). -/

namespace Sys2Proof.Machine

/-! ### The point table -/

theorem PointsInv.congr {rt ru : RouteTable} (h : PointsInv rt) (points : ru.points = rt.points)
    (count : ru.lockCount = rt.lockCount) : PointsInv ru := by
  unfold PointsInv lockedEntries
  rw [points, count]
  exact h

/-- R25: a fill takes an unlocked way. -/
theorem Fills.unlocked {rt : RouteTable} (h : PointsInv rt) {i : Fin 64} {w : Way} (f : Fills (entry rt.points i) w) :
    ((entry rt.points i).at w).locked = false := by
  obtain ⟨invalid, _⟩ | ⟨_, _, unlocked, _⟩ := f
  · rw [(h.at i w).1 invalid]
    rfl
  · exact unlocked

/-- R21: the figures that an insert may write in an entry. -/
structure Figures (length factor : Nat) : Prop where
  least : 1 ≤ length
  most : length ≤ 255
  factor : factor ∈ [0, 4, 8, 12, 16]

theorem EntryOk.intro {i : Fin 64} {e : PointEntry} (valid : e.valid = true) (filed : Machine.setOf e.start = i)
    (figures : Figures e.length e.factor) (unlocked : e.kind = .learnedGap → e.locked = false) : EntryOk i e :=
  ⟨fun v => absurd (v.symm.trans valid) Bool.noConfusion,
    fun _ => ⟨filed, ⟨figures.least, figures.most⟩, figures.factor, unlocked⟩⟩

/-- R24 to R26: a learned insert keeps the table well filed. -/
theorem learnedInsert_pointsInv {rt ru : RouteTable} (h : PointsInv rt) {start length factor : Nat}
    (figures : Figures length factor) (e : learnedInsert start length factor rt = some ru) : PointsInv ru := by
  cases near : findNear start (entry rt.points (Machine.setOf start)) with
  | some w =>
    rw [learned_same near] at e
    obtain rfl := Option.some.inj e
    obtain ⟨⟨valid, kind, _⟩, _⟩ := findNear_some _ _ _ near
    obtain ⟨filed, ⟨least, most⟩, _, unlocked⟩ := (h.at (Machine.setOf start) w).2 valid
    refine put_inv h _ w _ _ rt.lockCount (PointSet.at_write_same _ _ _) (PointSet.at_write_other _ _ _)
      (.intro valid filed ⟨least.trans (Nat.le_max_left _ _), Nat.max_le.mpr ⟨most, figures.most⟩, figures.factor⟩ fun _ => rfl)
      (fun _ valid' same => ?_) ?_ h.2.2
    · obtain ⟨_, _, distinct⟩ := h.1 (Machine.setOf start)
      cases w
      · exact distinct valid valid' same
      · exact distinct valid' valid ⟨same.1.symm, same.2.symm⟩
    · rw [unlocked kind]
  | none =>
    cases way : chooseWay (entry rt.points (Machine.setOf start)) with
    | none => rw [learned_none near way] at e; cases e
    | some w =>
      rw [learned_fill near way] at e
      obtain rfl := Option.some.inj e
      refine put_inv h _ w _ _ rt.lockCount (fillWay_at_same _ _ _) (fillWay_at_other _ _ _)
        (.intro rfl rfl figures fun _ => rfl) (fun _ valid same => ?_) ?_ h.2.2
      · refine (findNear_none _ _).mp near (otherWay w) ⟨valid, same.2.symm, ?_⟩
        have start' : start = _ := same.1
        rw [← start', dist_eq]
        omega
      · rw [((chooseWay_eq_some _ _).mp way).unlocked h]

/-- R23, R25 to R27: a PUT's insert keeps the table well filed with its lock count. -/
theorem putInsert_pointsInv {rt ru : RouteTable} (h : PointsInv rt) {start length factor : Nat} {kind : FeatureKind}
    {lock : Bool} {w : Way} (figures : Figures length factor) (put : kind ≠ .learnedGap)
    (e : putInsert start length kind factor lock rt = some (ru, w)) : PointsInv ru := by
  cases found : findSame start kind (entry rt.points (Machine.setOf start)) with
  | some v =>
    rw [putInsert_same found] at e
    obtain ⟨rfl, rfl⟩ := Prod.mk.inj (Option.some.inj e)
    obtain ⟨valid, _, kind'⟩ := findSame_some _ _ _ _ found
    obtain ⟨filed, _⟩ := (h.at (Machine.setOf start) v).2 valid
    obtain ⟨_, locks, most⟩ := lockEntry_spec lock ((entry rt.points (Machine.setOf start)).at v).locked rt.lockCount h.2.2
      (locks_pos h _ v)
    refine put_inv h _ v _ _ _ (PointSet.at_write_same _ _ _) (PointSet.at_write_other _ _ _)
      (.intro valid filed figures fun learned => absurd (kind'.symm.trans learned) put) (fun _ valid' same => ?_) locks most
    obtain ⟨_, _, distinct⟩ := h.1 (Machine.setOf start)
    cases v
    · exact distinct valid valid' same
    · exact distinct valid' valid ⟨same.1.symm, same.2.symm⟩
  | none =>
    cases way : chooseWay (entry rt.points (Machine.setOf start)) with
    | none => rw [putInsert_none found way] at e; cases e
    | some v =>
      rw [putInsert_fill found way] at e
      obtain ⟨rfl, rfl⟩ := Prod.mk.inj (Option.some.inj e)
      obtain ⟨_, locks, most⟩ := lockEntry_spec lock false rt.lockCount h.2.2 (fun l => Bool.noConfusion l)
      refine put_inv h _ v _ _ _ (fillWay_at_same _ _ _) (fillWay_at_other _ _ _)
        (.intro rfl rfl figures fun learned => absurd learned put) (fun _ valid same => ?_) ?_ most
      · exact (findSame_none _ _ _).mp found (otherWay v) ⟨valid, same.1.symm, same.2.symm⟩
      · rw [((chooseWay_eq_some _ _).mp way).unlocked h]
        exact locks

/-- R31: an eviction keeps the table well filed with its lock count. -/
theorem evictWay_pointsInv {rt : RouteTable} (h : PointsInv rt) (i : Fin 64) (w : Way) : PointsInv (evictWay i w rt) := by
  refine put_inv h i w _ invalidEntry _ (PointSet.at_write_same _ _ _) (PointSet.at_write_other _ _ _) (invalidEntry_ok i)
    (fun valid => absurd valid (by decide)) ?_ ?_
  · have pos := locks_pos h i w
    cases l : ((entry rt.points i).at w).locked
    · rfl
    · have pos := pos l
      show rt.lockCount - 1 + 1 = rt.lockCount + 0
      omega
  · have le := h.2.2
    split <;> omega

/-! ### What the collector and the probe write in the route table -/

/-- R24 to R26: a learned insert leaves the armed list. -/
theorem learnedInsert_armed {rt ru : RouteTable} {start length factor : Nat}
    (e : learnedInsert start length factor rt = some ru) : ru.armed = rt.armed := by
  unfold learnedInsert at e
  dsimp only at e
  split at e
  · obtain rfl := Option.some.inj e; rfl
  · split at e
    · cases e
    · obtain rfl := Option.some.inj e; rfl

/-- What CM may write in the route table: a learned insert of a length in range, with the learn factor in force. -/
def LearnsIn (s : State) (rt : RouteTable) : Prop :=
  rt = s.rft ∨ ∃ start length, 1 ≤ length ∧ length ≤ 255 ∧ learnedInsert start length (s.par .learnFactor) s.rft = some rt

theorem LearnsIn.armed {s : State} {rt : RouteTable} (h : LearnsIn s rt) : rt.armed = s.rft.armed := by
  obtain rfl | ⟨_, _, _, _, e⟩ := h
  · rfl
  · exact learnedInsert_armed e

theorem LearnsIn.pointsInv {s : State} {rt : RouteTable} (h : LearnsIn s rt) (params : ParamInv s.pm)
    (points : PointsInv s.rft) : PointsInv rt := by
  obtain rfl | ⟨_, _, least, most, e⟩ := h
  · exact points
  · exact learnedInsert_pointsInv points ⟨least, most, params.2.2.2.2.2.2⟩ e

/-- R55: a recovery writes the table by a learned insert, or not at all. -/
theorem learnGap_learns (s : State) : LearnsIn s (learnGap s).rft := by
  unfold learnGap
  split
  · exact .inl rfl
  · next loss _ =>
    split
    · split
      · next rt e =>
        refine .inr ⟨loss, learnedLength s.pt.metre loss, ?_, Nat.min_le_right _ _, e⟩
        exact Nat.le_min.mpr ⟨Nat.le_max_right _ _, by decide⟩
      · exact .inl rfl
    · exact .inl rfl

theorem makeDrop_rft (p : DropPoles) (c : DropCause) (x : Sample) (s : State) : (makeDrop p c x s).rft = s.rft :=
  (makeDrop_touches p c x s).rft (by decide)

theorem enterSuspect_rft (s : State) : (enterSuspect s).rft = s.rft := (enterSuspect_touches s).rft (by decide)

theorem takeTransition_learns (x : Sample) (offWire : Bool) (s : State) : LearnsIn s (takeTransition x offWire s).rft := by
  have same : ∀ u : State, u.rft = s.rft → LearnsIn s u.rft := fun _ e => .inl e
  unfold takeTransition
  dsimp only
  have counted : (s.setCm (countSet (presenceOf (s.par .vPresent) x.v) s.cm)).rft = s.rft := rfl
  have learns := learnGap_learns (s.setCm (countSet (presenceOf (s.par .vPresent) x.v) s.cm))
  have learns : LearnsIn s (learnGap (s.setCm (countSet (presenceOf (s.par .vPresent) x.v) s.cm))).rft := learns
  generalize s.setCm (countSet (presenceOf (s.par .vPresent) x.v) s.cm) = u at counted learns ⊢
  split
  · exact same _ counted
  · exact same _ counted
  · unfold takeRaising
    split
    · exact same _ counted
    · split <;> exact same _ counted
  · unfold takeOnWire
    split
    · exact same _ counted
    · split
      · split
        · exact same _ counted
        · exact same _ ((enterSuspect_rft u).trans counted)
      · exact same _ counted
  · unfold takeGap
    split
    · exact same _ counted
    · split
      · exact same _ counted
      · split
        · exact same _ ((enterSuspect_rft u).trans counted)
        · exact same _ counted
  · unfold takeSuspect
    split
    · exact same _ counted
    · split
      · exact same _ ((makeDrop_rft _ _ _ u).trans counted)
      · split
        · exact learns
        · exact same _ counted
  · unfold takeUnloading
    dsimp only
    split <;> split <;> exact same _ counted
  · unfold takeLowering
    split <;> exact same _ counted

/-- R49, R55: CM's work on a set writes the route table by a learned insert, or not at all. -/
theorem collectorTake_learns (x : Sample) (prev : PerPole (Option (BitVec 10))) (offWire : Bool) (s : State) :
    LearnsIn s (collectorTake x prev offWire s).rft := by
  unfold collectorTake
  dsimp only
  rw [State.setCm_rft]
  split
  · exact .inl (makeDrop_rft _ _ _ _)
  · exact takeTransition_learns x offWire (s.setCm (countEpoch s.cm))

theorem unloadShare_rft (x : Sample) (s : State) : (unloadShare x s).rft = (collectorShare x s).rft := by
  unfold unloadShare
  dsimp only
  split
  · exact (supplyStep_touches _).rft (by decide)
  · rfl

theorem setFound_pm (x : Sample) (s : State) : (setFound x s).pm = bringIntoForce s.pm :=
  (armForSet_touches (passOn x s)).pm (by decide)

theorem setFound_pt (x : Sample) (s : State) : (setFound x s).pt = advancePosition x.inc.toNat s.pt :=
  (armForSet_touches (passOn x s)).pt (by decide)

theorem armCandidate_points (i : Fin 64) (w : Way) (e : PointEntry) (s : State) :
    (armCandidate i w e s).rft.points = s.rft.points ∧ (armCandidate i w e s).rft.lockCount = s.rft.lockCount := by
  unfold armCandidate
  split
  · split <;> exact ⟨rfl, rfl⟩
  · exact ⟨rfl, rfl⟩

theorem armCandidate_pointsInv {s : State} (h : PointsInv s.rft) (i : Fin 64) (w : Way) (e : PointEntry) :
    PointsInv (armCandidate i w e s).rft :=
  h.congr (armCandidate_points i w e s).1 (armCandidate_points i w e s).2

/-! ### The point table under every command -/

/-- The parameters in their ranges, and the point table well filed. -/
def ParamsAndPoints (s : State) : Prop := ParamInv s.pm ∧ PointsInv s.rft

theorem acceptedSet_rft (x : Sample) (s : State) : (acceptedSet x s).rft = (movedAtSet x s).rft :=
  (loadsAndBudget_touches _ _).rft (by decide)

theorem acceptedSet_pointsInv {s : State} (params : ParamInv s.pm) (h : PointsInv s.rft) (x : Sample) :
    PointsInv (acceptedSet x s).rft := by
  have found : PointsInv (setFound x s).rft :=
    probe_keeps (P := fun u => PointsInv u.rft) (s := removePassed (passOn x s)) h (fun _ _ h => h)
      fun i w e _ h => armCandidate_pointsInv h i w e
  have pm : ParamInv (notePrevMatch (setFound x s)).pm := by
    rw [(notePrevMatch_touches _).pm (by decide), (setFound_pm x s)]
    exact bringIntoForce_inv params
  rw [acceptedSet_rft]
  exact (collectorTake_learns x _ _ _).pointsInv pm found

theorem requestBlocks_rft {k : Kind} (h : k ∉ [.setPosition, .featurePut, .featureEvict, .tableClear, .zoneSet, .reinit]) :
    Block.rft ∉ .lp :: requestBlocks k := by
  revert h; cases k <;> decide

theorem putKind_not_learned {b : Byte} {kind : FeatureKind} (h : putKind b = some kind) : kind ≠ .learnedGap := by
  unfold putKind at h
  split at h
  · cases h
  · cases h
  · next k no _ =>
    obtain rfl := Option.some.inj h
    exact no

theorem ownFeaturePut_pointsInv {s : State} (h : PointsInv s.rft) (p : List Byte) :
    PointsInv (ownFeaturePut p s).state.rft := by
  unfold ownFeaturePut
  split
  · next kind lock put _ =>
    split
    · exact h
    · next length =>
      unfold putChecked
      split
      · exact h
      · next rt w e =>
        have least : 1 ≤ (byteAt p 2).toNat := Nat.one_le_iff_ne_zero.mpr fun z => length (BitVec.eq_of_toNat_eq z)
        have most : (byteAt p 2).toNat ≤ 255 := Nat.le_of_lt_succ (byteAt p 2).isLt
        have stored := putInsert_pointsInv h ⟨least, most, roundFactor_mem _⟩ (putKind_not_learned put) e
        unfold putStored
        dsimp only
        split
        · exact armCandidate_pointsInv (by rw [State.setRft_rft]; exact stored) _ _ _
        · exact stored
  · exact h

theorem ownerAnswer_pointsInv {s : State} (h : PointsInv s.rft) (k : Kind) (l : Link) (p : List Byte) :
    PointsInv (ownerAnswer k l p s).state.rft := by
  by_cases m : k ∈ [.setPosition, .featurePut, .featureEvict, .tableClear, .zoneSet, .reinit]
  · simp only [List.mem_cons, List.not_mem_nil, or_false] at m
    obtain rfl | rfl | rfl | rfl | rfl | rfl := m
    · exact h
    · exact ownFeaturePut_pointsInv h p
    · simp only [ownerAnswer, ownFeatureEvict]
      split
      · exact h
      · split
        · exact h
        · exact evictWay_pointsInv h _ _
    · exact emptyTable_pointsInv rfl rfl
    · simp only [ownerAnswer, ownZoneSet]
      split
      · split <;> exact h
      · exact h
    · simp only [ownerAnswer, ownReinit]
      split <;> exact h
  · rw [(ownerAnswer_touches k l p s).rft (requestBlocks_rft m)]
    exact h

/-- R21, R22, R27: each change that commands are made of keeps the point table well filed. -/
theorem paramsAndPoints_kept : Kept ParamsAndPoints where
  port _ _ h := h
  pending _ _ h := h
  powerOn _ _ := ⟨resetParams_inv, emptyTable_pointsInv rfl rfl⟩
  release _ h _ := h
  tick _ h := h
  expire ch s h due := ⟨paramInv_kept.expire ch s h.1 due, by rw [(failChannel_touches ch _ s).rft (by decide)]; exact h.2⟩
  rx _ _ h := h
  frame ch f _ h _ := frameArrives_keeps (P := ParamsAndPoints) h (fun _ _ h _ => h)
    (fun s h => ⟨by rw [(failChannel_touches ch _ s).pm (by decide)]; exact h.1,
      by rw [(failChannel_touches ch _ s).rft (by decide)]; exact h.2⟩)
    (fun x _ h => ⟨by rw [acceptedSet_pm]; exact bringIntoForce_inv h.1, acceptedSet_pointsInv h.1 h.2 x⟩)
  share x s h m := ⟨paramInv_kept.share x s h.1 m, (collectorTake_learns x _ _ s).pointsInv h.1 h.2⟩
  unload x s h m := ⟨paramInv_kept.unload x s h.1 m, by
    rw [unloadShare_rft]
    exact (collectorTake_learns x _ _ s).pointsInv h.1 h.2⟩
  wrap _ _ h := h
  idle _ _ h _ := h
  observe _ h := h
  window v s h := ⟨paramInv_kept.window v s h.1, by rw [(windowStep_touches v s).rft (by decide)]; exact h.2⟩
  freeze s h due := ⟨paramInv_kept.freeze s h.1 due, by rw [(frozenComputation_touches s).rft (by decide)]; exact h.2⟩
  start s h due := ⟨paramInv_kept.start s h.1 due, by rw [(startHead_touches s).rft (by decide)]; exact h.2⟩
  own k l p _ h := ⟨ownerAnswer_paramInv h.1 k l p, ownerAnswer_pointsInv h.2 k l p⟩

end Sys2Proof.Machine

/-! PROOFS. The armed list in order (R19, R37) and P in each copy's window (R36, R38) under every step, and O59. -/

namespace Sys2Proof.Machine

/-! ### The armed list -/

/-- R30, R35: the list holds no copy of this set, way and start. -/
theorem hasCopy_eq_false {armed : List ArmedCopy} {i : Fin 64} {w : Way} {start : Nat} :
    hasCopy armed i w start = false ↔ ∀ c ∈ armed, ¬(c.set = i ∧ c.way = w ∧ c.start = start) := by
  simp [hasCopy, and_assoc]

/-- The armed list holds at most 4 copies in ascending start order, no two alike. -/
def ListOk (armed : List ArmedCopy) : Prop :=
  armed.length ≤ 4 ∧
    armed.Pairwise (fun c d => c.start ≤ d.start ∧ ¬(c.set = d.set ∧ c.way = d.way ∧ c.start = d.start))

theorem ListOk.filter {armed : List ArmedCopy} (h : ListOk armed) (p : ArmedCopy → Bool) : ListOk (armed.filter p) :=
  ⟨(List.length_filter_le _ _).trans h.1, h.2.filter p⟩

/-- R37: a copy placed in a list with room that holds none like it. -/
theorem ListOk.placeCopy {armed : List ArmedCopy} (h : ListOk armed) {c : ArmedCopy} (room : armed.length < 4)
    (new : ∀ d ∈ armed, ¬(d.set = c.set ∧ d.way = c.way ∧ d.start = c.start)) : ListOk (placeCopy c armed) := by
  obtain ⟨_, ordered⟩ := h
  obtain ⟨sorted, distinct⟩ := List.pairwise_and_iff.mp ordered
  have perm := placeCopy_perm c armed
  refine ⟨?_, List.pairwise_and_iff.mpr ⟨placeCopy_sorted c sorted, ?_⟩⟩
  · rw [perm.length_eq]
    exact room
  · rw [perm.pairwise_iff fun {a b} no same => no ⟨same.1.symm, same.2.1.symm, same.2.2.symm⟩]
    exact List.pairwise_cons.mpr ⟨fun d mem same => new d mem ⟨same.1.symm, same.2.1.symm, same.2.2.symm⟩, distinct⟩

/-- What arming a candidate leaves: the list as it was, or with a copy of an entry whose window holds P, new to a list with
room. -/
theorem armCandidate_armed (i : Fin 64) (w : Way) (e : PointEntry) (s : State) :
    (armCandidate i w e s).rft.armed = s.rft.armed ∨
      ((armCandidate i w e s).rft.armed = placeCopy (copyOf i w e (s.par .margin)) s.rft.armed ∧ s.rft.armed.length < 4 ∧
        windowContains (s.par .lead) (s.par .margin) e s.pt.metre = true ∧ hasCopy s.rft.armed i w e.start = false) := by
  unfold armCandidate
  split
  · next may =>
    split
    · next room =>
      simp only [armable, Bool.and_eq_true, Bool.not_eq_true'] at may
      exact .inr ⟨rfl, room, may.1, may.2⟩
    · exact .inl rfl
  · exact .inl rfl

theorem armCandidate_listOk {s : State} (h : ListOk s.rft.armed) (i : Fin 64) (w : Way) (e : PointEntry) :
    ListOk (armCandidate i w e s).rft.armed := by
  obtain same | ⟨placed, room, _, new⟩ := armCandidate_armed i w e s
  · rw [same]; exact h
  · rw [placed]
    exact h.placeCopy room (hasCopy_eq_false.mp new)

theorem armCandidate_pt (i : Fin 64) (w : Way) (e : PointEntry) (s : State) : (armCandidate i w e s).pt = s.pt :=
  (armCandidate_touches i w e s).pt (by decide)

theorem armedInv_iff (s : State) : ArmedInv s ↔ ListOk s.rft.armed ∧ (s.pt.isSet = false → s.rft.armed = []) :=
  and_assoc.symm

theorem ArmedInv.congr {s t : State} (h : ArmedInv s) (armed : t.rft.armed = s.rft.armed) (pt : t.pt = s.pt) :
    ArmedInv t := by
  unfold ArmedInv
  rw [armed, pt]
  exact h

theorem ArmedInv.of_touches {bs : List Block} {s t : State} (h : ArmedInv s) (touched : Touches bs s t)
    (pt : Block.pt ∉ bs) (rft : Block.rft ∉ bs) : ArmedInv t :=
  h.congr (by rw [touched.rft rft]) (touched.pt pt)

theorem armedInv_of_empty {s : State} (h : s.rft.armed = []) : ArmedInv s := by
  unfold ArmedInv
  rw [h]
  exact ⟨Nat.zero_le _, List.Pairwise.nil, fun _ => rfl⟩

/-- The armed list while POSITION_SET is set. -/
theorem armCandidate_armedInv {s : State} (h : ArmedInv s) (on : s.pt.isSet = true) (i : Fin 64) (w : Way) (e : PointEntry) :
    ArmedInv (armCandidate i w e s) := by
  refine (armedInv_iff _).mpr ⟨armCandidate_listOk ((armedInv_iff s).mp h).1 i w e, fun off => ?_⟩
  rw [armCandidate_pt, on] at off
  cases off

/-- R35: the probe keeps the armed list in order. -/
theorem probe_armedInv {s : State} (h : ArmedInv s) : ArmedInv (probe s) := by
  cases on : s.pt.isSet with
  | false =>
    rw [probe, on]
    exact h
  | true =>
    exact (probe_keeps (P := fun u => ArmedInv u ∧ u.pt.isSet = true) ⟨h, on⟩ (fun _ _ h => h) fun i w e u h =>
      ⟨armCandidate_armedInv h.1 h.2 i w e, by rw [armCandidate_pt]; exact h.2⟩).1

theorem removePassed_armedInv {s : State} (h : ArmedInv s) : ArmedInv (removePassed s) := by
  obtain ⟨list, unset⟩ := (armedInv_iff s).mp h
  refine (armedInv_iff _).mpr ⟨list.filter _, fun off => ?_⟩
  show s.rft.armed.filter _ = []
  rw [unset off]
  rfl

/-- After the probe, an accepted set leaves the armed list. -/
theorem acceptedSet_armed (x : Sample) (s : State) : (acceptedSet x s).rft.armed = (setFound x s).rft.armed := by
  rw [acceptedSet_rft]
  exact (collectorTake_learns x _ _ _).armed

theorem acceptedSet_armedInv {s : State} (h : ArmedInv s) (x : Sample) : ArmedInv (acceptedSet x s) := by
  have passed : ArmedInv (passOn x s) := h
  have found : ArmedInv (setFound x s) := probe_armedInv (removePassed_armedInv passed)
  exact found.congr (acceptedSet_armed x s) ((acceptedSet_pt x s).trans (setFound_pt x s).symm)

theorem collectorShare_armed (x : Sample) (s : State) : (collectorShare x s).rft.armed = s.rft.armed :=
  (collectorTake_learns x _ _ s).armed

theorem unloadShare_armed (x : Sample) (s : State) : (unloadShare x s).rft.armed = s.rft.armed := by
  rw [unloadShare_rft, collectorShare_armed]

/-- R23 to R27: an insert leaves the armed list. -/
theorem putInsert_armed {rt ru : RouteTable} {start length factor : Nat} {kind : FeatureKind} {lock : Bool} {w : Way}
    (e : putInsert start length kind factor lock rt = some (ru, w)) : ru.armed = rt.armed := by
  unfold putInsert at e
  dsimp only at e
  split at e
  · obtain ⟨rfl, _⟩ := Prod.mk.inj (Option.some.inj e); rfl
  · split at e
    · cases e
    · obtain ⟨rfl, _⟩ := Prod.mk.inj (Option.some.inj e); rfl

/-- A property of P and the armed list that arming keeps is kept by a PUT (R29, R30). -/
theorem ownFeaturePut_keeps {P : State → Prop} {s : State} (h : P s)
    (congr : ∀ t : State, t.rft.armed = s.rft.armed → t.pt = s.pt → t.pm = s.pm → P t)
    (arm : ∀ i w e u, u.pt.isSet = true → P u → P (armCandidate i w e u)) (p : List Byte) : P (ownFeaturePut p s).state := by
  unfold ownFeaturePut
  split
  · split
    · exact h
    · unfold putChecked
      split
      · exact congr _ rfl rfl rfl
      · next rt w e =>
        have stored : P (s.setRft rt) := congr _ (putInsert_armed e) rfl rfl
        unfold putStored
        dsimp only
        split
        · next on => exact arm _ _ _ _ on stored
        · exact stored
  · exact h

theorem ownerAnswer_armedInv {s : State} (h : ArmedInv s) (k : Kind) (l : Link) (p : List Byte) :
    ArmedInv (ownerAnswer k l p s).state := by
  by_cases m : k ∈ [.setPosition, .featurePut, .featureEvict, .tableClear, .zoneSet, .reinit]
  · simp only [List.mem_cons, List.not_mem_nil, or_false] at m
    obtain rfl | rfl | rfl | rfl | rfl | rfl := m
    · exact armedInv_of_empty rfl
    · exact ownFeaturePut_keeps h (fun _ armed pt _ => h.congr armed pt) (fun i w e _ on h => armCandidate_armedInv h on i w e) p
    · simp only [ownerAnswer, ownFeatureEvict]
      split
      · exact h
      · split <;> exact h
    · exact h
    · simp only [ownerAnswer, ownZoneSet]
      split
      · split <;> exact h
      · exact h
    · simp only [ownerAnswer, ownReinit]
      split
      · exact armedInv_of_empty rfl
      · exact h
  · exact h.of_touches (ownerAnswer_touches k l p s) (requestBlocks_pt fun e => m (by rw [e]; decide)) (requestBlocks_rft m)

/-- R19, R37: each change that commands are made of keeps the armed list in order. -/
theorem armedInv_kept : Kept ArmedInv where
  port _ _ h := h
  pending _ _ h := h
  powerOn _ _ := armedInv_of_empty rfl
  release _ h _ := h
  tick _ h := h
  expire ch s h _ := h.of_touches (failChannel_touches ch _ s) (by decide) (by decide)
  rx _ _ h := h
  frame ch f _ h _ := frameArrives_keeps h (fun _ _ h _ => h)
    (fun s h => h.of_touches (failChannel_touches ch _ s) (by decide) (by decide)) (fun x _ h => acceptedSet_armedInv h x)
  share x s h _ := h.congr (collectorShare_armed x s) ((collectorShare_touches x s).pt (by decide))
  unload x s h _ := h.congr (unloadShare_armed x s) ((unloadShare_touches x s).pt (by decide))
  wrap _ _ h := h
  idle _ _ h _ := h
  observe _ h := h
  window v s h := h.of_touches (windowStep_touches v s) (by decide) (by decide)
  freeze s h _ := h.of_touches (frozenComputation_touches s) (by decide) (by decide)
  start s h _ := h.of_touches (startHead_touches s) (by decide) (by decide)
  own k l p _ h := ownerAnswer_armedInv h k l p

/-! ### P in the window of every copy -/

/-- R36: a metre in the effect window of a copy, for a margin and a lead within their ranges. -/
def InWindow (metre : Nat) (c : ArmedCopy) : Prop :=
  metre ≤ c.windowEnd ∧ (∃ margin ≤ 63, c.windowEnd = min (c.start + c.length + margin) 65535) ∧
    ∃ lead ≤ 63, c.start - lead ≤ metre

theorem windowInv_iff (s : State) : WindowInv s ↔ ∀ c ∈ s.rft.armed, InWindow s.pt.metre c := Iff.rfl

theorem WindowInv.congr {s t : State} (h : WindowInv s) (armed : t.rft.armed = s.rft.armed) (pt : t.pt = s.pt) :
    WindowInv t := by
  unfold WindowInv
  rw [armed, pt]
  exact h

theorem windowInv_of_empty {s : State} (h : s.rft.armed = []) : WindowInv s := by
  rw [windowInv_iff, h]
  exact fun _ mem => absurd mem List.not_mem_nil

/-- R36: an entry whose window holds P is armed with a copy whose window holds P. -/
theorem copyOf_inWindow {lead margin metre : Nat} (lead_le : lead ≤ 63) (margin_le : margin ≤ 63) {e : PointEntry}
    (h : windowContains lead margin e metre = true) (i : Fin 64) (w : Way) : InWindow metre (copyOf i w e margin) := by
  simp only [windowContains, Bool.and_eq_true, decide_eq_true_eq] at h
  exact ⟨h.2, ⟨margin, margin_le, rfl⟩, lead, lead_le, h.1⟩

/-- The parameters in their ranges, and P in the window of every copy. -/
def ParamsAndWindow (s : State) : Prop := ParamInv s.pm ∧ WindowInv s

theorem armCandidate_window {s : State} (h : ParamsAndWindow s) (i : Fin 64) (w : Way) (e : PointEntry) :
    ParamsAndWindow (armCandidate i w e s) := by
  obtain ⟨params, window⟩ := h
  refine ⟨by rw [(armCandidate_touches i w e s).pm (by decide)]; exact params, ?_⟩
  obtain same | ⟨placed, _, contains, _⟩ := armCandidate_armed i w e s
  · exact window.congr same (armCandidate_pt i w e s)
  · rw [windowInv_iff, placed, armCandidate_pt]
    intro c mem
    obtain rfl | mem := List.mem_cons.mp ((placeCopy_perm _ _).mem_iff.mp mem)
    · exact copyOf_inWindow (params.2.1 (paramNumber .lead)).2 (params.2.1 (paramNumber .margin)).2 contains i w
    · exact window c mem

/-- R38: when P has advanced, the copies that stay hold it in their windows. -/
theorem removePassed_window {s : State} (pos : PositionInv s.pt) (h : WindowInv s) (x : Sample) :
    WindowInv (removePassed (passOn x s)) := by
  intro c mem
  obtain ⟨mem, holds⟩ := List.mem_filter.mp (show c ∈ s.rft.armed.filter _ from mem)
  obtain ⟨_, figures, lead, lead_le, low⟩ := h c mem
  have ahead : s.pt.metre ≤ (passOn x s).pt.metre := Nat.le_min.mpr ⟨Nat.le_add_right _ _, pos.2⟩
  exact ⟨of_decide_eq_true holds, figures, lead, lead_le, low.trans ahead⟩

theorem acceptedSet_window {s : State} (params : ParamInv s.pm) (pos : PositionInv s.pt) (h : WindowInv s) (x : Sample) :
    WindowInv (acceptedSet x s) := by
  have passed : ParamsAndWindow (removePassed (passOn x s)) := ⟨bringIntoForce_inv params, removePassed_window pos h x⟩
  have found : ParamsAndWindow (setFound x s) := probe_keeps passed (fun _ _ h => h) fun i w e _ h => armCandidate_window h i w e
  exact found.2.congr (acceptedSet_armed x s) ((acceptedSet_pt x s).trans (setFound_pt x s).symm)

theorem ownerAnswer_window {s : State} (params : ParamInv s.pm) (h : WindowInv s) (k : Kind) (l : Link) (p : List Byte) :
    WindowInv (ownerAnswer k l p s).state := by
  by_cases m : k ∈ [.setPosition, .featurePut, .featureEvict, .tableClear, .zoneSet, .reinit]
  · simp only [List.mem_cons, List.not_mem_nil, or_false] at m
    obtain rfl | rfl | rfl | rfl | rfl | rfl := m
    · exact windowInv_of_empty rfl
    · have kept : ParamsAndWindow (ownFeaturePut p s).state :=
        ownFeaturePut_keeps (P := ParamsAndWindow) ⟨params, h⟩ 
          (fun _ armed pt pm => ⟨by rw [pm]; exact params, h.congr armed pt⟩) (fun i w e _ _ h => armCandidate_window h i w e) p
      exact kept.2
    · simp only [ownerAnswer, ownFeatureEvict]
      split
      · exact h
      · split <;> exact h
    · exact h
    · simp only [ownerAnswer, ownZoneSet]
      split
      · split <;> exact h
      · exact h
    · simp only [ownerAnswer, ownReinit]
      split
      · exact windowInv_of_empty rfl
      · exact h
  · have touched := ownerAnswer_touches k l p s
    exact h.congr (by rw [touched.rft (requestBlocks_rft m)])
      (touched.pt (requestBlocks_pt fun e => m (by rw [e]; decide)))

/-- The parameters and P in their ranges, and P in the window of every copy. -/
def WindowOk (s : State) : Prop := ParamInv s.pm ∧ PositionInv s.pt ∧ WindowInv s

theorem WindowInv.of_touches {bs : List Block} {s t : State} (h : WindowInv s) (touched : Touches bs s t)
    (pt : Block.pt ∉ bs) (rft : Block.rft ∉ bs) : WindowInv t :=
  h.congr (by rw [touched.rft rft]) (touched.pt pt)

/-- R36 to R38: each change that commands are made of keeps P in the window of every copy. -/
theorem windowOk_kept : Kept WindowOk where
  port _ _ h := h
  pending _ _ h := h
  powerOn _ _ := ⟨resetParams_inv, ⟨Nat.zero_le _, Nat.zero_le _⟩, windowInv_of_empty rfl⟩
  release _ h _ := h
  tick _ h := h
  expire ch s h due := ⟨paramInv_kept.expire ch s h.1 due, positionInv_kept.expire ch s h.2.1 due,
    h.2.2.of_touches (failChannel_touches ch _ s) (by decide) (by decide)⟩
  rx _ _ h := h
  frame ch f _ h _ := frameArrives_keeps (P := WindowOk) h (fun _ _ h _ => h)
    (fun s h => by
      have touched := failChannel_touches ch .plausibility s
      exact ⟨by rw [touched.pm (by decide)]; exact h.1, by rw [touched.pt (by decide)]; exact h.2.1,
        h.2.2.of_touches touched (by decide) (by decide)⟩)
    (fun x _ h => ⟨by rw [acceptedSet_pm]; exact bringIntoForce_inv h.1, by rw [acceptedSet_pt]; exact advancePosition_inv _ _,
      acceptedSet_window h.1 h.2.1 h.2.2 x⟩)
  share x s h m := ⟨paramInv_kept.share x s h.1 m, positionInv_kept.share x s h.2.1 m,
    h.2.2.congr (collectorShare_armed x s) ((collectorShare_touches x s).pt (by decide))⟩
  unload x s h m := ⟨paramInv_kept.unload x s h.1 m, positionInv_kept.unload x s h.2.1 m,
    h.2.2.congr (unloadShare_armed x s) ((unloadShare_touches x s).pt (by decide))⟩
  wrap _ _ h := h
  idle _ _ h _ := h
  observe _ h := h
  window v s h := ⟨paramInv_kept.window v s h.1, positionInv_kept.window v s h.2.1,
    h.2.2.of_touches (windowStep_touches v s) (by decide) (by decide)⟩
  freeze s h due := ⟨paramInv_kept.freeze s h.1 due, positionInv_kept.freeze s h.2.1 due,
    h.2.2.of_touches (frozenComputation_touches s) (by decide) (by decide)⟩
  start s h due := ⟨paramInv_kept.start s h.1 due, positionInv_kept.start s h.2.1 due,
    h.2.2.of_touches (startHead_touches s) (by decide) (by decide)⟩
  own k l p _ h := ⟨ownerAnswer_paramInv h.1 k l p, ownerAnswer_positionInv h.2.1 k l p, ownerAnswer_window h.1 h.2.2 k l p⟩

/-- Settles O59: the point table, the armed list, and the windows. -/
theorem stepKeepsRouteTable : Obligations.StepKeepsRouteTable := by
  intro s t e
  exact ⟨fun params points => (paramsAndPoints_kept.step ⟨params, points⟩ e).2, fun armed => armedInv_kept.step armed e,
    fun params pos _ window => (windowOk_kept.step ⟨params, pos, window⟩ e).2.2⟩

end Sys2Proof.Machine

/-! PROOFS. The order in which the blocks take an accepted set (R8, R34, R43, R49, R75, R132). -/

namespace Sys2Proof.Machine

/-- R42: the lowest-numbered entry of an indexed register that passes a test. -/
theorem find_entries_eq_some {α : Type} {n : Nat} (v : Vector α n) (p : α → Bool) (x : α) :
    v.toList.find? p = some x ↔ ∃ i, entry v i = x ∧ p x = true ∧ ∀ j, j < i → ¬p (entry v j) = true := by
  rw [List.find?_eq_some_iff_getElem]
  constructor
  · rintro ⟨passes, i, bound, rfl, first⟩
    have bound : i < n := by simpa using bound
    refine ⟨⟨i, bound⟩, by simp [entry], passes, fun j lt => ?_⟩
    have := first j.val lt
    simpa [entry] using this
  · rintro ⟨i, rfl, passes, first⟩
    refine ⟨passes, i.val, by simp, by simp [entry], fun j lt => ?_⟩
    have := first ⟨j, lt.trans i.isLt⟩ lt
    simpa [entry] using this

/-- R42: does an entry match at P? -/
theorem zoneMatches_iff (pt : Position) (z : Zone) : zoneMatches pt z = true ↔
    z.enable = true ∧ pt.isSet = true ∧ (BitVec.ofNat 12 (pt.metre / 16) ^^^ z.base) &&& z.mask = 0 := by
  simp [zoneMatches, segmentOf, and_assoc]

/-- R43: when a set enters an off-wire zone with auto-lower. -/
theorem offWireEntry_iff (s : State) : offWireEntry s = true ↔
    ∃ z, matchingZone .offWire s = some z ∧ z.autoLower = true ∧ z.prevMatch = false := by
  unfold offWireEntry
  cases matchingZone .offWire s <;> simp

/-- R43: the same, by the number of the entry. -/
theorem offWireEntry_iff_entry (s : State) : offWireEntry s = true ↔
    ∃ i, (entry s.rft.zones i).kind = .offWire ∧ zoneMatches s.pt (entry s.rft.zones i) = true ∧
      (∀ j, j < i → ¬((entry s.rft.zones j).kind = .offWire ∧ zoneMatches s.pt (entry s.rft.zones j) = true)) ∧
      (entry s.rft.zones i).autoLower = true ∧ (entry s.rft.zones i).prevMatch = false := by
  simp only [offWireEntry_iff, matchingZone, find_entries_eq_some, Bool.and_eq_true, decide_eq_true_eq]
  constructor
  · rintro ⟨_, ⟨i, rfl, ⟨here, kind⟩, first⟩, lower, clear⟩
    exact ⟨i, kind, here, fun j lt ⟨k, m⟩ => first j lt ⟨m, k⟩, lower, clear⟩
  · rintro ⟨i, kind, here, first, lower, clear⟩
    exact ⟨_, ⟨i, rfl, ⟨here, kind⟩, fun j lt ⟨m, k⟩ => first j lt ⟨k, m⟩⟩, lower, clear⟩

/-- The zones with their flags following the matches (R43). -/
def notedZones (s : State) : Vector Zone 8 :=
  mapEntries (fun z => { z with prevMatch := zoneMatches s.pt z }) s.rft.zones

theorem notePrevMatch_eq (s : State) : notePrevMatch s = s.setRft { s.rft with zones := notedZones s } := rfl

/-- Settles O42: the stages of `acceptedSet`, with the zones' flags and the entry into a zone said entry by entry. -/
theorem acceptedSetInOrder : Obligations.AcceptedSetInOrder := by
  intro ch x s h c judged found matching
  have same : setFound x (passedOnFrom ch x s) = found := rfl
  have matching_iff : ∀ z, zoneMatches found.pt z = true ↔ matching z := fun z => zoneMatches_iff found.pt z
  refine ⟨notedZones found, offWireEntry found, fun i => ?_, ?_, ?_⟩
  · have flag : zoneMatches found.pt (entry found.rft.zones i) = decide (matching (entry found.rft.zones i)) :=
      Bool.eq_iff_iff.mpr ((matching_iff _).trans decide_eq_true_iff.symm)
    exact (entry_mapEntries _ _ _).trans (by rw [flag])
  · simp only [offWireEntry_iff_entry, matching_iff]
  · rw [exec_accepted h, acceptedSet_eq, keepElev_eq, keepElev_eq, movedAtSet, same, notePrevMatch_eq]
    rfl

end Sys2Proof.Machine

/-! PROOFS. The bytes of a sample frame (R1, R3, Table 1-1). -/

namespace Sys2Proof.Machine

/-! ### The numbers of the concatenations of Table 1-1 -/

theorem toNat_concat {n m : Nat} (x : BitVec n) (y : BitVec m) : (x ++ y).toNat = x.toNat * 2 ^ m + y.toNat := by
  rw [BitVec.toNat_append, ← Nat.shiftLeft_add_eq_or_of_lt y.isLt, Nat.shiftLeft_eq]

theorem toNat_extract {w : Nat} (x : BitVec w) (start len : Nat) :
    (x.extractLsb' start len).toNat = x.toNat / 2 ^ start % 2 ^ len := by
  rw [BitVec.extractLsb'_toNat, Nat.shiftRight_eq_div_pow]

theorem toNat_flagBit (b : Bool) : (flagBit b).toNat = b.toNat := BitVec.toNat_ofBool b

theorem toNat_2114 (a : BitVec 2) (b c : BitVec 1) (d : BitVec 4) :
    BitVec.toNat (a ++ b ++ c ++ d : BitVec 8) = a.toNat * 64 + b.toNat * 32 + c.toNat * 16 + d.toNat := by
  show BitVec.toNat (w := 2 + 1 + 1 + 4) (a ++ b ++ c ++ d) = _
  rw [toNat_concat, toNat_concat, toNat_concat]
  omega

theorem toNat_611 (a : BitVec 6) (b c : BitVec 1) :
    BitVec.toNat (a ++ b ++ c : BitVec 8) = a.toNat * 4 + b.toNat * 2 + c.toNat := by
  show BitVec.toNat (w := 6 + 1 + 1) (a ++ b ++ c) = _
  rw [toNat_concat, toNat_concat]
  omega

theorem toNat_26 (a : BitVec 2) (b : BitVec 6) : BitVec.toNat (a ++ b : BitVec 8) = a.toNat * 64 + b.toNat := toNat_concat a b

theorem toNat_44 (a b : BitVec 4) : BitVec.toNat (a ++ b : BitVec 8) = a.toNat * 16 + b.toNat := toNat_concat a b

theorem toNat_82 (a : BitVec 8) (b : BitVec 2) : BitVec.toNat (a ++ b : BitVec 10) = a.toNat * 4 + b.toNat := toNat_concat a b

theorem toNat_48 (a : BitVec 4) (b : BitVec 8) : BitVec.toNat (a ++ b : BitVec 12) = a.toNat * 256 + b.toNat :=
  toNat_concat a b

theorem toNat_46 (a : BitVec 4) (b : BitVec 6) : BitVec.toNat (a ++ b : BitVec 10) = a.toNat * 64 + b.toNat :=
  toNat_concat a b

theorem toNat_64 (a : BitVec 6) (b : BitVec 4) : BitVec.toNat (a ++ b : BitVec 10) = a.toNat * 16 + b.toNat :=
  toNat_concat a b

/-- A number of a field in two's complement is the field's bits (R1). -/
theorem toNat_emod_toInt {w : Nat} (x : BitVec w) : (x.toInt % 2 ^ w).toNat = x.toNat := by
  have lt : (x.toNat : Int) < 2 ^ w := by exact_mod_cast x.isLt
  rw [BitVec.toInt_eq_toNat_bmod]
  have cast : ((2 ^ w : Nat) : Int) = 2 ^ w := by push_cast; rfl
  rw [← cast, Int.bmod_emod, cast, Int.emod_eq_of_lt (Int.natCast_nonneg _) lt]
  rfl

/-! ### The bytes of a sample -/

/-- Table 1-1: the 12 bytes that the check covers, as numbers of the fields. -/
def sampleNumbers (x : Sample) : List Byte :=
  let n := fun (k : Nat) => BitVec.ofNat 8 k
  let v := (fieldBits x.v).toNat
  let i := (fieldBits x.i).toNat
  let elevPos := (fieldBits x.elevPos).toNat
  let elevNeg := (fieldBits x.elevNeg).toNat
  let latPos := (fieldBits x.latPos).toNat
  let latNeg := (fieldBits x.latNeg).toNat
  [0xC3, x.seq, n (v / 4), n (v % 4 * 64 + x.v.isSome.toNat * 32 + x.i.isSome.toNat * 16 + i / 256), n i,
    n (elevPos / 4), n (elevPos % 4 * 64 + x.elevPos.isSome.toNat * 32 + x.elevNeg.isSome.toNat * 16 + elevNeg / 64),
    n (elevNeg % 64 * 4 + x.latPos.isSome.toNat * 2 + x.latNeg.isSome.toNat), n (latPos / 4),
    n (latPos % 4 * 64 + latNeg / 16), n (latNeg % 16 * 16 + x.status.toNat), x.inc]

theorem byte_eq_ofNat {b : Byte} {k : Nat} (h : b.toNat = k % 256) : b = BitVec.ofNat 8 k :=
  BitVec.eq_of_toNat_eq (by rw [BitVec.toNat_ofNat]; exact h)

/-- The ranges of the numbers that a sample's fields stand for. -/
structure FieldRanges (x : Sample) : Prop where
  v : (fieldBits x.v).toNat < 1024
  i : (fieldBits x.i).toNat < 4096
  elevPos : (fieldBits x.elevPos).toNat < 1024
  elevNeg : (fieldBits x.elevNeg).toNat < 1024
  latPos : (fieldBits x.latPos).toNat < 1024
  latNeg : (fieldBits x.latNeg).toNat < 1024
  status : x.status.toNat < 16
  flagV : x.v.isSome.toNat ≤ 1
  flagI : x.i.isSome.toNat ≤ 1
  flagElevPos : x.elevPos.isSome.toNat ≤ 1
  flagElevNeg : x.elevNeg.isSome.toNat ≤ 1
  flagLatPos : x.latPos.isSome.toNat ≤ 1
  flagLatNeg : x.latNeg.isSome.toNat ≤ 1

theorem fieldRanges (x : Sample) : FieldRanges x :=
  ⟨BitVec.isLt _, BitVec.isLt _, BitVec.isLt _, BitVec.isLt _, BitVec.isLt _, BitVec.isLt _, BitVec.isLt _,
   Bool.toNat_le _, Bool.toNat_le _, Bool.toNat_le _, Bool.toNat_le _, Bool.toNat_le _, Bool.toNat_le _⟩

theorem sampleBody_eq (x : Sample) : sampleBody x = sampleNumbers x := by
  obtain ⟨v, i, elevPos, elevNeg, latPos, latNeg, status, flagV, flagI, flagP, flagN, flagLP, flagLN⟩ := fieldRanges x
  unfold sampleBody sampleNumbers
  simp only [List.cons.injEq, true_and, and_true]
  refine ⟨rfl, ?_, ?_, ?_, ?_, ?_, ?_, ?_, ?_, ?_⟩
  all_goals
    apply byte_eq_ofNat
    simp only [toNat_extract, toNat_2114, toNat_611, toNat_26, toNat_44, toNat_flagBit]
    omega

/-! ### The fields of a frame -/

/-- A field read with its valid flag, as a number (R1). -/
theorem measured_ofNat {w : Nat} (valid : Bool) {x : BitVec w} {k : Nat} (h : x.toNat = k) :
    measured valid x = if valid then some (BitVec.ofNat w k) else none := by
  rw [← h, BitVec.ofNat_toNat, BitVec.setWidth_eq]
  rfl

/-- A field sent with its valid flag is read back from numbers that agree. -/
theorem measured_sent {w : Nat} {o : Option (BitVec w)} {b : Bool} {y : BitVec w} (flag : b = o.isSome)
    (value : y.toNat = (fieldBits o).toNat) : measured b y = o :=
  measured_eq flag (BitVec.eq_of_toNat_eq value)

theorem decodeSample_sampleBody (x : Sample) (check : Byte) : decodeSample (sampleBody x ++ [check]) = x := by
  obtain ⟨v, i, elevPos, elevNeg, latPos, latNeg, status, flagV, flagI, flagP, flagN, flagLP, flagLN⟩ := fieldRanges x
  obtain ⟨seq, xv, xi, xp, xn, xlp, xln, st, inc⟩ := x
  dsimp only at v i elevPos elevNeg latPos latNeg status flagV flagI flagP flagN flagLP flagLN
  simp only [decodeSample, sampleBody, byteAt, List.cons_append, List.nil_append, List.getD_cons_zero, List.getD_cons_succ,
    Sample.mk.injEq, true_and, and_true]
  refine ⟨measured_sent ?_ ?_, measured_sent ?_ ?_, measured_sent ?_ ?_, measured_sent ?_ ?_, measured_sent ?_ ?_,
    measured_sent ?_ ?_, BitVec.eq_of_toNat_eq ?_⟩
  case refine_1 | refine_3 | refine_5 | refine_7 =>
    rw [getLsbD_2114]
    simp [flagBit]
  case refine_9 | refine_11 =>
    rw [getLsbD_611]
    simp [flagBit]
  all_goals
    simp only [toNat_extract, toNat_2114, toNat_611, toNat_26, toNat_44, toNat_82, toNat_48, toNat_46, toNat_64,
      toNat_flagBit]
    omega

/-- R3: the check of a whole frame, its check byte included, is 0. -/
theorem crc_frame (body : List Byte) : crc (body ++ [crc body]) = 0 := by
  rw [crc_append_one, crcByte_self]

/-- The thirteenth byte after a sample's first 12 is the check byte that is sent. -/
theorem byteAt_sampleBody_twelve (x : Sample) (check : Byte) : byteAt (sampleBody x ++ [check]) 12 = check := rfl

theorem take_twelve_sampleBody (x : Sample) (check : Byte) : (sampleBody x ++ [check]).take 12 = sampleBody x := rfl

theorem frameSample_encodeSample (x : Sample) : frameSample ⟨encodeSample x, 13, false⟩ = some x := by
  have good : crc ((encodeSample x).take 12) = byteAt (encodeSample x) 12 := by
    rw [encodeSample, take_twelve_sampleBody, byteAt_sampleBody_twelve]
  rw [frameSample, if_pos ⟨rfl, rfl, good⟩, encodeSample, decodeSample_sampleBody]

/-! ### The characters of a frame -/

theorem receiveChar_open {p : List Byte} (room : p.length < 13) (b : Byte) :
    receiveChar b true (some ⟨p, p.length, false⟩) = some ⟨p ++ [b], (p ++ [b]).length, false⟩ := by
  simp [receiveChar, room]

/-- R2: the characters that follow in an open frame, up to 13, are kept in order. -/
theorem execAll_senseCharacters {ch : Channel} (l : List Byte) : ∀ (p : List Byte) (s : State), s.resetPin = false →
    p.length + l.length ≤ 13 → s.si.rx.get ch = some ⟨p, p.length, false⟩ →
    execAll (l.map fun b => .senseCharacter ch b true) s =
      .next (s.setSi { s.si with rx := s.si.rx.put ch (some ⟨p ++ l, (p ++ l).length, false⟩) }) := by
  induction l with
  | nil =>
    intro p s _ _ held
    rw [List.append_nil, ← held, PerChannel.put_get]
    rfl
  | cons b l ih =>
    intro p s on room held
    rw [List.length_cons] at room
    have first := exec_senseCharacter on ch b true
    rw [held, receiveChar_open (by omega)] at first
    rw [List.map_cons, execAll, first]
    refine (ih (p ++ [b])
      (s.setSi { s.si with rx := s.si.rx.put ch (some ⟨p ++ [b], (p ++ [b]).length, false⟩) }) on ?_
      (PerChannel.get_put_same _ _ _)).trans ?_
    · rw [List.length_append, List.length_singleton]
      omega
    · simp only [State.setSi_si, State.setSi_setSi, PerChannel.put_put, List.append_assoc, List.singleton_append]

/-- R2: the 13 characters of a frame at a hunting receiver. -/
theorem execAll_encodeSample {ch : Channel} {s : State} (on : s.resetPin = false) (hunts : s.si.rx.get ch = none) (x : Sample) :
    execAll ((encodeSample x).map fun b => .senseCharacter ch b true) s =
      .next (s.setSi { s.si with rx := s.si.rx.put ch (some ⟨encodeSample x, 13, false⟩) }) := by
  obtain ⟨rest, e, length⟩ : ∃ rest, encodeSample x = 0xC3#8 :: rest ∧ rest.length = 12 := ⟨_, rfl, rfl⟩
  have first := exec_senseCharacter on ch 0xC3#8 true
  rw [hunts, receiveChar, if_pos rfl] at first
  rw [e, List.map_cons, execAll, first]
  refine (execAll_senseCharacters rest [0xC3#8]
    (s.setSi { s.si with rx := s.si.rx.put ch (some ⟨[0xC3#8], 1, false⟩) }) on (by rw [length]; decide)
    (PerChannel.get_put_same _ _ _)).trans ?_
  simp only [State.setSi_si, State.setSi_setSi, PerChannel.put_put, List.singleton_append, List.length_cons, length]

/-- Settles O9: the bytes sent, the fields read from any bytes, and the round trip. -/
theorem sampleFrameRoundTrip : Obligations.SampleFrameRoundTrip := by
  intro x ch s on hunts
  refine ⟨?_, ?_, rfl, crc_frame _, decodeSample_sampleBody x _, frameSample_encodeSample x, execAll_encodeSample on hunts x⟩
  · have body := sampleBody_eq x
    unfold encodeSample
    rw [body]
    simp only [toNat_emod_toInt]
    rfl
  · intro start seq b2 b3 b4 b5 b6 b7 b8 b9 b10 inc check
    have byte : ∀ b : Byte, b.toNat < 256 := fun b => b.isLt
    have r3 := byte b3
    have r6 := byte b6
    have r7 := byte b7
    have r9 := byte b9
    have r10 := byte b10
    refine ⟨rfl, rfl, toNat_extract b10 0 4 |>.trans (by omega), measured_ofNat _ ?_, measured_ofNat _ ?_, measured_ofNat _ ?_,
      measured_ofNat _ ?_, measured_ofNat _ ?_, measured_ofNat _ ?_⟩
    · exact (toNat_82 _ _).trans (by rw [toNat_extract]; show b2.toNat * 4 + b3.toNat / 64 % 4 = _; omega)
    · exact (toNat_48 _ _).trans (by rw [toNat_extract]; show b3.toNat / 1 % 16 * 256 + b4.toNat = _; omega)
    · exact (toNat_82 _ _).trans (by rw [toNat_extract]; show b5.toNat * 4 + b6.toNat / 64 % 4 = _; omega)
    · exact (toNat_46 _ _).trans (by
        rw [toNat_extract, toNat_extract]; show b6.toNat / 1 % 16 * 64 + b7.toNat / 4 % 64 = _; omega)
    · exact (toNat_82 _ _).trans (by rw [toNat_extract]; show b8.toNat * 4 + b9.toNat / 64 % 4 = _; omega)
    · exact (toNat_64 _ _).trans (by
        rw [toNat_extract, toNat_extract]; show b9.toNat / 1 % 64 * 16 + b10.toNat / 16 % 16 = _; omega)

end Sys2Proof.Machine

/-! PROOFS. The checks of a port and the bytes of a reply (R3, R173 to R178, Tables 9-1 to 9-3). -/

namespace Sys2Proof.Machine

/-! ### The header bytes -/

/-- A packed byte whose fields fit is the sum of its fields. -/
theorem toNat_packByte {fs : List (Nat × Nat)} (fits : (fs.map fun f => f.1 * 2 ^ f.2).sum < 256) :
    (packByte fs).toNat = (fs.map fun f => f.1 * 2 ^ f.2).sum := by
  rw [packByte_eq, BitVec.toNat_ofNat, Nat.mod_eq_of_lt fits]

theorem collectorCode_lt (c : CollectorState) : collectorCode c < 8 := by cases c <;> decide

theorem supplyCode_lt (p : Supply) : supplyCode p < 4 := by cases p <;> decide

theorem headerOne_toNat (l : Link) (s : State) : (headerOne l s).toNat =
    collectorCode s.cm.state + 8 * supplyCode s.supply + 32 * (s.cm.marks.get l).toNat +
      64 * (s.ad.links.get l).attention.toNat + 128 * s.si.senseLost.toNat := by
  have state := collectorCode_lt s.cm.state
  have supply := supplyCode_lt s.supply
  have mark := Bool.toNat_le (s.cm.marks.get l)
  have attention := Bool.toNat_le (s.ad.links.get l).attention
  have lost := Bool.toNat_le s.si.senseLost
  rw [headerOne, toNat_packByte] <;> simp only [List.map_cons, List.map_nil, List.sum_cons, List.sum_nil] <;> omega

theorem headerTwo_toNat (s : State) : (headerTwo s).toNat =
    s.be.record.frozen.toNat + 2 * s.be.record.safe.toNat + 4 * s.be.record.shortfall.toNat + 8 * s.pt.isSet.toNat +
      16 * s.be.record.vHeld.toNat := by
  have frozen := Bool.toNat_le s.be.record.frozen
  have safe := Bool.toNat_le s.be.record.safe
  have shortfall := Bool.toNat_le s.be.record.shortfall
  have isSet := Bool.toNat_le s.pt.isSet
  have held := Bool.toNat_le s.be.record.vHeld
  rw [headerTwo, toNat_packByte] <;> simp only [List.map_cons, List.map_nil, List.sum_cons, List.sum_nil] <;> omega

theorem headerThree_toNat (s : State) : (headerThree s).toNat = s.si.epoch.toNat % 256 := by
  rw [headerThree, toNat_extract, Nat.pow_zero, Nat.div_one]
  rfl

/-! ### The check register -/

/-- R3: a byte is fed into the register in eight shifts. -/
theorem crcByte_eq_iterate (r b : Byte) : crcByte r b = crcBit^[8] (r ^^^ b) := rfl

/-! ### The checks in their order -/

/-- R175: a request that a check of the port refuses is answered without payload, nothing else being changed. -/
theorem frameOnLink_refused {l : Link} {code : Byte} {body : RequestBody} {s : State} {r : Result} (free : LinkFree l s)
    (short : body.payload.length ≤ 28) (refused : ∀ u, takeRequest l code body u = refuse r u) :
    frameOnLink l code body s = replied l code body r [] s := by
  rw [frameOnLink_free free short, refused]
  refine enterTurnaround_withPorts l (refuse r s) code body _ (body.payload.length + 2) ?_ ?_
  · rw [PerLink.get_put_same]
    rfl
  · rw [PerLink.get_put_same]
    rfl

/-- R177: a bad frame is counted on its own port, whatever that holds besides. -/
theorem countBadFrame_put (l : Link) (p : Port) (s : State) (same : p.bad = (s.lp.get l).bad) :
    countBadFrame l (s.setLp (s.lp.put l p)) =
      (oneMoreBad l s).setLp (s.lp.put l { p with bad := ((oneMoreBad l s).lp.get l).bad }) := by
  simp only [countBadFrame, oneMoreBad, setPort, State.setLp_lp, State.setLp_setLp, PerLink.get_put_same, PerLink.put_put,
    same]
  rfl

/-- R175, R177: a frame with a bad check is counted and answered CHECK_FAIL. -/
theorem frameOnLink_checkFail {l : Link} {code : Byte} {body : RequestBody} {s : State} (free : LinkFree l s)
    (short : body.payload.length ≤ 28) (bad : goodCheck code body = false) :
    frameOnLink l code body s = replied l code body .checkFail [] (oneMoreBad l s) := by
  rw [frameOnLink_free free short, takeRequest, bad, if_neg Bool.false_ne_true, countBadFrame_put l (heldPort l code body s) s rfl]
  refine enterTurnaround_withPorts l (refuse .checkFail (oneMoreBad l s)) code body _ (body.payload.length + 2) ?_ ?_
  · simp only [PerLink.get_put_same]
    simp only [refuse, oneMoreBad, State.setLp_lp, PerLink.put_put]
  · rw [PerLink.get_put_same]
    rfl

section
variable {l : Link} {code : Byte} {body : RequestBody} (good : goodCheck code body = true) (u : State)
include good

theorem takeRequest_unknown (unknown : kindOfCode code = none) : takeRequest l code body u = refuse .unknown u := by
  rw [takeRequest, if_pos good, unknown]

theorem takeRequest_length {k : Kind} (known : kindOfCode code = some k) (wrong : body.payload.length ≠ kindLength k) :
    takeRequest l code body u = refuse .length u := by
  rw [takeRequest, if_pos good, known]
  exact if_neg wrong

theorem takeRequest_denied {k : Kind} (known : kindOfCode code = some k) (fits : body.payload.length = kindLength k)
    (denied : permitted l k = false) : takeRequest l code body u = refuse .denied u := by
  rw [takeRequest, if_pos good, known]
  exact (if_pos fits).trans (if_neg (by rw [denied]; exact Bool.false_ne_true))

end

/-! ### The commands of the frames -/

theorem whilePowered_free {f : State → State} {s : State} (on : s.resetPin = false) : whilePowered f s = .next (f s) := by
  rw [whilePowered, on, if_neg Bool.false_ne_true]

/-- Log 21: UNKNOWN_KIND is the frame with its code. -/
theorem exec_unknownKind {s : State} (on : s.resetPin = false) (l : Link) (code : Byte) (body : RequestBody) :
    exec (.unknownKind l code body) s = .next (frameOnLink l code body s) := whilePowered_free on

/-- Table 9-3: a request is the frame with its kind's code. -/
theorem exec_requestOf {s : State} (on : s.resetPin = false) (k : Kind) (l : Link) (body : RequestBody) :
    exec (requestOf k l body) s = .next (frameOnLink l (kindCode k) body s) := by
  have command : exec (requestOf k l body) s = requestCommand k l body s := by cases k <;> rfl
  rw [command, requestCommand, whilePowered_free on]

/-- R178: the kinds that each link's master may not send. -/
theorem permitted_eq_false (l : Link) (k : Kind)
    (denied : match l with
      | .t => k ∉ [.readBudget, .dropSeen, .takeAlarm, .doneAlarm, .readStatus] ∧ k ≠ .tractionRequest
      | .a => k ∉ [.readBudget, .dropSeen, .takeAlarm, .doneAlarm, .readStatus] ∧
        k ∉ [.loadDemand, .loadSetup, .loadReEnable, .readLoads]
      | .v => k ∈ [Kind.tractionRequest, .loadDemand, .loadSetup, .loadReEnable]) : permitted l k = false := by
  cases l <;> simp only at denied <;> revert denied <;> cases k <;> decide

/-- Settles O39: the reply field by field, the check register, the kinds, and the checks of a port in their order. -/
theorem portChecks : Obligations.PortChecks := by
  refine ⟨fun l code body r payload t _ => ⟨headerOne l t, headerTwo t, headerThree t, ?_, ?_, ?_, ?_, ?_⟩,
    ⟨rfl, fun bytes b => ?_⟩, fun k => ?_, fun l code body s free short => ?_⟩
  · cases r <;> exact PerLink.get_put_same _ _ _
  · exact fun k other => PerLink.get_put_other _ _ other
  · exact headerOne_toNat l t
  · exact headerTwo_toNat t
  · exact headerThree_toNat t
  · rw [crc_append_one]
    exact crcByte_eq_iterate _ _
  · cases k <;> decide
  · intro good sends vOnly denied
    have on := free.powered
    have known : ∀ k, kindCode k = code → kindOfCode code = some k := fun k e => e ▸ kindOfCode_kindCode k
    have isGood : good → goodCheck code body = true := fun h => decide_eq_true h
    have isBad : ¬good → goodCheck code body = false := fun h => decide_eq_false h
    have sent : ∀ {r t}, frameOnLink l code body s = replied l code body r [] t → sends (.unknownKind l code body) r t :=
      fun e => (exec_unknownKind on l code body).trans (congrArg _ e)
    have failed := fun h => sent (frameOnLink_checkFail free short (isBad h))
    refine ⟨failed, fun h none => ?_, fun k e => ?_⟩
    · refine sent (frameOnLink_refused free short fun u => takeRequest_unknown (isGood h) u ?_)
      exact Option.eq_none_iff_forall_ne_some.mpr fun k found => none k (kindCode_of_kindOfCode found)
    · have same : exec (.unknownKind l code body) s = exec (requestOf k l body) s := by
        rw [exec_unknownKind on, exec_requestOf on, e]
      refine ⟨same, fun h => same.symm.trans (failed h), fun h wrong => same.symm.trans (sent ?_),
        fun h fits no => same.symm.trans (sent ?_)⟩
      · exact frameOnLink_refused free short fun u => takeRequest_length (isGood h) u (known k e) wrong
      · refine frameOnLink_refused free short fun u => takeRequest_denied (isGood h) u (known k e) fits ?_
        exact permitted_eq_false l k no

end Sys2Proof.Machine

/-! PROOFS. The two inserts of the point table: what each writes in its set, and what it leaves (R21 to R27). -/

namespace Sys2Proof.Machine

/-! ### The table an insert leaves -/

/-- R23, R31: an entry is valid and of this start metre and kind. -/
def PointEntry.IsSame (start : Nat) (kind : FeatureKind) (e : PointEntry) : Prop :=
  e.valid = true ∧ e.start = start ∧ e.kind = kind

/-- The table with one way of a set written, the set's marker and the lock count as given. -/
def RouteTable.withEntry (rt : RouteTable) (i : Fin 64) (w : Way) (e : PointEntry) (older : Way) (count : Nat) : RouteTable :=
  { rt.setPoints i { (entry rt.points i).write w e with older := older } with lockCount := count }

section
variable (rt : RouteTable) (i : Fin 64) (w : Way) (e : PointEntry) (older : Way) (count : Nat)

theorem RouteTable.withEntry_set : entry (rt.withEntry i w e older count).points i =
    { (entry rt.points i).write w e with older := older } := entry_setEntry_same _ _ _

@[simp] theorem RouteTable.withEntry_at : (entry (rt.withEntry i w e older count).points i).at w = e := by
  rw [withEntry_set]; cases w <;> rfl

@[simp] theorem RouteTable.withEntry_at_other :
    (entry (rt.withEntry i w e older count).points i).at (otherWay w) = (entry rt.points i).at (otherWay w) := by
  rw [withEntry_set]; cases w <;> rfl

@[simp] theorem RouteTable.withEntry_older : (entry (rt.withEntry i w e older count).points i).older = older := by
  rw [withEntry_set]

theorem RouteTable.withEntry_other {j : Fin 64} (h : j ≠ i) :
    entry (rt.withEntry i w e older count).points j = entry rt.points j := entry_setEntry_other _ _ h

end

/-- R23, R25 to R27: what a PUT's insert writes: the entry in the way that holds one of its start metre and kind, the marker
staying, or in the way that a fill takes, the marker then naming the other. -/
theorem putInsert_eq_some {start length factor : Nat} {kind : FeatureKind} {lock : Bool} {rt rt' : RouteTable} {w : Way}
    (h : putInsert start length kind factor lock rt = some (rt', w)) :
    let ps := entry rt.points (Machine.setOf start)
    ∃ (already : Bool) (older : Way),
      rt' = rt.withEntry (Machine.setOf start) w
        ⟨true, start, length, kind, factor, (lockEntry lock already rt.lockCount).1⟩ older (lockEntry lock already rt.lockCount).2 ∧
      (((ps.at w).IsSame start kind ∧ already = (ps.at w).locked ∧ older = ps.older) ∨
        ((∀ v, ¬(ps.at v).IsSame start kind) ∧ Fills ps w ∧ already = false ∧ older = otherWay w)) := by
  intro ps
  cases found : findSame start kind ps with
  | some v =>
    rw [putInsert_same found] at h
    obtain ⟨rfl, rfl⟩ := Prod.mk.inj (Option.some.inj h)
    obtain ⟨valid, start', kind'⟩ := findSame_some _ _ _ _ found
    refine ⟨_, _, ?_, .inl ⟨⟨valid, start', kind'⟩, rfl, rfl⟩⟩
    have updated : ∀ l, (⟨true, start, length, kind, factor, l⟩ : PointEntry) =
        { ps.at v with length := length, factor := factor, locked := l } := fun l => by simp only [valid, start', kind']
    rw [updated]
    cases v <;> rfl
  | none =>
    cases way : chooseWay ps with
    | none => rw [putInsert_none found way] at h; cases h
    | some v =>
      rw [putInsert_fill found way] at h
      obtain ⟨rfl, rfl⟩ := Prod.mk.inj (Option.some.inj h)
      exact ⟨_, _, rfl, .inr ⟨(findSame_none _ _ _).mp found, (chooseWay_eq_some _ _).mp way, rfl, rfl⟩⟩

/-- R25: a PUT's insert is refused when neither way holds its entry and no way can be filled. -/
theorem putInsert_eq_none {start length factor : Nat} {kind : FeatureKind} {lock : Bool} {rt : RouteTable} :
    putInsert start length kind factor lock rt = none ↔
      findSame start kind (entry rt.points (Machine.setOf start)) = none ∧
        chooseWay (entry rt.points (Machine.setOf start)) = none := by
  refine ⟨fun h => ?_, fun ⟨found, way⟩ => putInsert_none found way⟩
  cases found : findSame start kind (entry rt.points (Machine.setOf start)) with
  | some v => rw [putInsert_same found] at h; cases h
  | none =>
    refine ⟨rfl, ?_⟩
    cases way : chooseWay (entry rt.points (Machine.setOf start)) with
    | some v => rw [putInsert_fill found way] at h; cases h
    | none => rfl

theorem forall_way {p : Way → Prop} : (∀ w, p w) ↔ p .w0 ∧ p .w1 :=
  ⟨fun h => ⟨h _, h _⟩, fun ⟨a, b⟩ w => by cases w <;> assumption⟩

/-- Settles O22: the refusal, and the table that a stored PUT leaves. -/
theorem putInsertion : Obligations.PutInsertion := by
  intro start length factor kind lock rt inv least most factors put i ps same
  refine ⟨rfl, ?_, fun rt' w stored => ?_⟩
  · rw [putInsert_eq_none, findSame_none, chooseWay_eq_none, forall_way, and_assoc]
  · have kept := putInsert_pointsInv inv ⟨least, most, factors⟩ put stored
    obtain ⟨already, older, rfl, way⟩ := putInsert_eq_some stored
    have pos : already = true → 0 < rt.lockCount := by
      obtain ⟨_, rfl, _⟩ | ⟨_, _, rfl, _⟩ := way
      · exact locks_pos inv i w
      · exact fun l => Bool.noConfusion l
    obtain ⟨locks, -, -⟩ := lockEntry_spec lock already rt.lockCount inv.2.2 pos
    refine ⟨?_, ?_, RouteTable.withEntry_at_other .., ?_, fun j other => RouteTable.withEntry_other _ _ _ _ _ _ other,
      rfl, rfl, rfl, kept⟩
    · obtain ⟨here, _⟩ | ⟨absent, fills, _⟩ := way
      · exact .inl here
      · exact .inr ⟨absent .w0, absent .w1, fills⟩
    · dsimp only
      rw [RouteTable.withEntry_at]
      refine ⟨rfl, rfl, rfl, rfl, rfl, locks.trans ?_⟩
      obtain ⟨here, rfl, _⟩ | ⟨absent, _, rfl, _⟩ := way
      · exact and_congr_right fun _ => or_congr_right (and_iff_right here).symm
      · exact and_congr_right fun _ => or_congr_right
          ⟨fun l => Bool.noConfusion l, fun ⟨here, _⟩ => absurd here (absent w)⟩
    · rw [RouteTable.withEntry_older]
      obtain ⟨here, _, rfl⟩ | ⟨absent, _, _, rfl⟩ := way
      · exact (if_pos here).symm
      · exact (if_neg (absent w)).symm

/-! ### The learned insert -/

/-- R24 to R26: what a learned insert writes: the nearest LEARNED_GAP within 8 m merged, the marker staying, or an unlocked
entry in the way that a fill takes, the marker then naming the other; the lock count stays. -/
theorem learnedInsert_eq_some {start length factor : Nat} {rt rt' : RouteTable} (inv : PointsInv rt)
    (h : learnedInsert start length factor rt = some rt') :
    let ps := entry rt.points (Machine.setOf start)
    ∃ (w : Way) (e : PointEntry) (older : Way), rt' = rt.withEntry (Machine.setOf start) w e older rt.lockCount ∧
      ((findNear start ps = some w ∧ e = { ps.at w with length := max (ps.at w).length length, factor := factor } ∧
          older = ps.older) ∨
        (findNear start ps = none ∧ Fills ps w ∧ e = ⟨true, start, length, .learnedGap, factor, false⟩ ∧
          older = otherWay w)) := by
  intro ps
  cases near : findNear start ps with
  | some w =>
    rw [learned_same near] at h
    obtain rfl := Option.some.inj h
    obtain ⟨⟨valid, kind, _⟩, _⟩ := findNear_some _ _ _ near
    obtain ⟨_, _, _, unlocked⟩ := (inv.at (Machine.setOf start) w).2 valid
    have merged : { ps.at w with length := max (ps.at w).length length, factor := factor } =
        { ps.at w with length := max (ps.at w).length length, factor := factor, locked := false } := by
      simp only [show (ps.at w).locked = false from unlocked kind]
    refine ⟨w, _, _, ?_, .inl ⟨rfl, merged.symm, rfl⟩⟩
    cases w <;> rfl
  | none =>
    cases way : chooseWay ps with
    | none => rw [learned_none near way] at h; cases h
    | some w =>
      rw [learned_fill near way] at h
      obtain rfl := Option.some.inj h
      exact ⟨w, _, _, rfl, .inr ⟨rfl, (chooseWay_eq_some _ _).mp way, rfl, rfl⟩⟩

/-- R25: a learned insert is refused when neither way is near and no way can be filled. -/
theorem learnedInsert_eq_none {start length factor : Nat} {rt : RouteTable} :
    learnedInsert start length factor rt = none ↔ findNear start (entry rt.points (Machine.setOf start)) = none ∧
      chooseWay (entry rt.points (Machine.setOf start)) = none := by
  refine ⟨fun h => ?_, fun ⟨near, way⟩ => learned_none near way⟩
  cases near : findNear start (entry rt.points (Machine.setOf start)) with
  | some w => rw [learned_same near] at h; cases h
  | none =>
    refine ⟨rfl, ?_⟩
    cases way : chooseWay (entry rt.points (Machine.setOf start)) with
    | some w => rw [learned_fill near way] at h; cases h
    | none => rfl

/-- Settles O23: the refusal, and the table that a merge or a fill leaves. -/
theorem learnedInsertion : Obligations.LearnedInsertion := by
  intro start length factor rt inv least most factors i ps away near
  have far : findNear start ps = none ↔ ¬near .w0 ∧ ¬near .w1 := by
    rw [findNear_none, forall_way]
    simp only [dist_eq, near, away]
  refine ⟨?_, fun rt' stored => ?_⟩
  · rw [learnedInsert_eq_none, far, chooseWay_eq_none, and_assoc]
  · have kept := learnedInsert_pointsInv inv ⟨least, most, factors⟩ stored
    obtain ⟨w, e, older, rfl, way⟩ := learnedInsert_eq_some inv stored
    refine ⟨w, RouteTable.withEntry_at_other .., ?_, fun j other => RouteTable.withEntry_other _ _ _ _ _ _ other, rfl,
      rfl, kept⟩
    rw [RouteTable.withEntry_at, RouteTable.withEntry_older]
    obtain ⟨found, merged, stays⟩ | ⟨none, fills, filled, other⟩ := way
    · have nearest := findNear_some _ _ _ found
      simp only [dist_eq] at nearest
      exact .inl ⟨nearest.1, nearest.2, merged, stays⟩
    · exact .inr ⟨(far.mp none).1, (far.mp none).2, fills, filled, other⟩

end Sys2Proof.Machine

/-! PROOFS. FEATURE PUT, FEATURE EVICT and TABLE CLEAR: their checks, answers and payloads (R29 to R31, R33, R37). -/

namespace Sys2Proof.Machine

/-! ### The fields of the payload -/

theorem length_three {p : List Byte} (h : p.length = 3) : ∃ a b c, p = [a, b, c] := List.length_eq_three.mp h

theorem length_six {p : List Byte} (h : p.length = 6) : ∃ a b c d e f, p = [a, b, c, d, e, f] := by
  match p, h with
  | [a, b, c, d, e, f], _ => exact ⟨a, b, c, d, e, f, rfl⟩

theorem featureField_code (k : FeatureKind) : featureField (featureCode k) = some k := by cases k <;> rfl

theorem featureField_none {b : Byte} (h : 3 < b.toNat) : featureField b = none := by
  unfold featureField
  iterate 4 rw [if_neg (by rintro rfl; exact absurd h (by decide))]

theorem featureCode_of_field {b : Byte} (h : b.toNat ≤ 3) : ∃ k, featureCode k = b := by
  obtain e | e | e | e : b.toNat = 0 ∨ b.toNat = 1 ∨ b.toNat = 2 ∨ b.toNat = 3 := by omega
  · exact ⟨.sectionGap, BitVec.eq_of_toNat_eq e.symm⟩
  · exact ⟨.crossing, BitVec.eq_of_toNat_eq e.symm⟩
  · exact ⟨.frog, BitVec.eq_of_toNat_eq e.symm⟩
  · exact ⟨.learnedGap, BitVec.eq_of_toNat_eq e.symm⟩

/-- R29: the kinds that a PUT may carry. -/
theorem putKind_code {k : FeatureKind} (h : (featureCode k).toNat ≤ 2) : putKind (featureCode k) = some k := by
  cases k with
  | learnedGap => exact absurd h (by decide)
  | sectionGap | crossing | frog => rfl

theorem putKind_none {b : Byte} (h : 2 < b.toNat) : putKind b = none := by
  by_cases learned : b.toNat = 3
  · obtain rfl : b = featureCode .learnedGap := BitVec.eq_of_toNat_eq learned
    rfl
  · rw [putKind, featureField_none (by omega)]

/-- A field that is 0 or 1. -/
theorem flagField_some {b : Byte} (h : b.toNat ≤ 1) : flagField b = some (decide (b = 1)) := by
  revert h
  revert b
  decide

theorem flagField_none {b : Byte} (h : 1 < b.toNat) : flagField b = none := by
  unfold flagField
  iterate 2 rw [if_neg (by rintro rfl; exact absurd h (by decide))]

/-- R29: a factor rounded down to 0, 4, 8, 12 or 16. -/
theorem roundFactor_eq (n : Nat) : roundFactor n = if 16 ≤ n then 16 else n - n % 4 := by
  unfold roundFactor
  split <;> omega

/-! ### FEATURE PUT -/

theorem ownFeaturePut_badValue {hi lo len kc fc lk : Byte} (s : State)
    (h : 2 < kc.toNat ∨ len = 0 ∨ 1 < lk.toNat) : ownFeaturePut [hi, lo, len, kc, fc, lk] s = refuse .badValue s := by
  unfold ownFeaturePut
  split
  · next kind lock put flag =>
    obtain wrong | none | wrong := h
    · cases (putKind_none wrong).symm.trans put
    · exact if_pos none
    · cases (flagField_none wrong).symm.trans flag
  · rfl

theorem ownFeaturePut_checked {hi lo len kc fc lk : Byte} (s : State) {kind : FeatureKind} (named : featureCode kind = kc)
    (may : kc.toNat ≤ 2) (length : len ≠ 0) (lock : lk.toNat ≤ 1) : ownFeaturePut [hi, lo, len, kc, fc, lk] s =
      putChecked (hi.toNat * 256 + lo.toNat) len.toNat kind fc.toNat (decide (lk = 1)) s := by
  subst named
  have put : putKind (byteAt [hi, lo, len, featureCode kind, fc, lk] 3) = some kind := putKind_code may
  have flag : flagField (byteAt [hi, lo, len, featureCode kind, fc, lk] 5) = some (decide (lk = 1)) := flagField_some lock
  simp only [ownFeaturePut, put, flag]
  exact if_neg length

/-- R29: a refused PUT. -/
theorem putChecked_refused {start length given : Nat} {kind : FeatureKind} {lock : Bool} {s : State}
    (h : putInsert start length kind (roundFactor given) lock s.rft = none) : putChecked start length kind given lock s =
      { state := raise .tableRefused s, result := .tableRefused,
        payload := refusedPayload (Machine.setOf start) (entry s.rft.points (Machine.setOf start)) } := by
  simp only [putChecked, h]

/-- R29: a stored PUT. -/
theorem putChecked_stored {start length given : Nat} {kind : FeatureKind} {lock : Bool} {s : State} {rt : RouteTable} {w : Way}
    (h : putInsert start length kind (roundFactor given) lock s.rft = some (rt, w)) :
    putChecked start length kind given lock s = putStored (Machine.setOf start) w lock given (s.setRft rt) := by
  simp only [putChecked, h]

/-- R30: when an entry is armed at once, or would be with room in the list. -/
theorem armable_iff (i : Fin 64) (w : Way) (e : PointEntry) (s : State) : armable i w e s = true ↔
    e.start - s.par .lead ≤ s.pt.metre ∧ s.pt.metre ≤ min (e.start + e.length + s.par .margin) 65535 ∧
      ∀ c ∈ s.rft.armed, ¬(c.set = i ∧ c.way = w ∧ c.start = e.start) := by
  rw [armable, Bool.and_eq_true, Bool.not_eq_true', hasCopy_eq_false, windowContains, Bool.and_eq_true, decide_eq_true_eq,
    decide_eq_true_eq, and_assoc]
  rfl

theorem armCandidate_placed {i : Fin 64} {w : Way} {e : PointEntry} {s : State} (may : armable i w e s = true)
    (room : s.rft.armed.length < 4) : armCandidate i w e s =
      s.setRft { s.rft with armed := placeCopy (copyOf i w e (s.par .margin)) s.rft.armed } := by
  rw [armCandidate, if_pos may, if_pos room]

theorem armCandidate_full {i : Fin 64} {w : Way} {e : PointEntry} {s : State} (may : armable i w e s = true)
    (full : 4 ≤ s.rft.armed.length) : armCandidate i w e s = raise .armedOverflow s := by
  rw [armCandidate, if_pos may, if_neg (Nat.not_lt.mpr full)]

theorem armCandidate_not_armable {i : Fin 64} {w : Way} {e : PointEntry} {s : State} (h : ¬armable i w e s = true) :
    armCandidate i w e s = s := if_neg h

/-- Table 2-1: the payload of a stored PUT. -/
def storedPayload (i : Fin 64) (w : Way) (e : PointEntry) (armed : Bool) : List Byte :=
  [byteOf i.val, byteOf (wayCode w), byteOf e.factor, packByte [(e.locked.toNat, 0), (armed.toNat, 1)]]

section
variable {i : Fin 64} {w : Way} {lock : Bool} {given : Nat} {s : State}

/-- R30, R37: a stored PUT whose entry finds room in the list. -/
theorem putStored_armed (on : s.pt.isSet = true) (may : armable i w ((entry s.rft.points i).at w) s = true)
    (room : s.rft.armed.length < 4) {c : ArmedCopy} (copy : copyOf i w ((entry s.rft.points i).at w) (s.par .margin) = c) :
    putStored i w lock given s =
      { state := s.setRft { s.rft with armed := placeCopy c s.rft.armed }
        result := putResult lock given ((entry s.rft.points i).at w)
        payload := storedPayload i w ((entry s.rft.points i).at w) true } := by
  simp only [putStored, storedPayload, armsAtOnce, on, may, room, armCandidate_placed, copy, decide_true,
    Bool.and_self, if_true]

/-- R37: a stored PUT whose entry finds the list full. -/
theorem putStored_full (on : s.pt.isSet = true) (may : armable i w ((entry s.rft.points i).at w) s = true)
    (full : 4 ≤ s.rft.armed.length) : putStored i w lock given s =
      { state := raise .armedOverflow s
        result := putResult lock given ((entry s.rft.points i).at w)
        payload := storedPayload i w ((entry s.rft.points i).at w) false } := by
  simp only [putStored, storedPayload, armsAtOnce, on, may, armCandidate_full may full, Nat.not_lt.mpr full, decide_false,
    Bool.and_false, if_true]

/-- R30: a stored PUT whose entry is not to be armed. -/
theorem putStored_unarmed (h : ¬(s.pt.isSet = true ∧ armable i w ((entry s.rft.points i).at w) s = true)) :
    putStored i w lock given s =
      { state := s
        result := putResult lock given ((entry s.rft.points i).at w)
        payload := storedPayload i w ((entry s.rft.points i).at w) false } := by
  cases on : s.pt.isSet with
  | false => simp only [putStored, storedPayload, armsAtOnce, on, Bool.false_and]; rfl
  | true =>
    have no : ¬armable i w ((entry s.rft.points i).at w) s = true := fun may => h ⟨on, may⟩
    simp only [putStored, storedPayload, armsAtOnce, on, armCandidate_not_armable no, Bool.eq_false_iff.mpr no, Bool.and_false,
      Bool.false_and, if_true]

end

theorem storedPayload_eq (i : Fin 64) (w : Way) (e : PointEntry) (armed : Bool) : storedPayload i w e armed =
    [BitVec.ofNat 8 i.val, byteOf (wayCode w), BitVec.ofNat 8 e.factor,
      BitVec.ofNat 8 (e.locked.toNat + 2 * armed.toNat)] := by
  simp [storedPayload, packByte_eq, byteOf, Nat.mul_comm]

/-- R29: the result of a stored PUT. -/
theorem putResult_eq (lk : Byte) (given : Nat) (e : PointEntry) : putResult (decide (lk = 1)) given e =
    if lk = 1 ∧ e.locked = false then .lockLimit else if e.factor ≠ given then .clamped else .ok := by
  simp [putResult]

/-- Settles O24: the checks, then the refused insert and the stored one with its arming. -/
theorem featurePutAnswered : Obligations.FeaturePutAnswered := by
  intro body s free framed
  obtain ⟨hi, lo, len, kc, fc, lk, payload⟩ := length_six framed.length
  refine ⟨hi, lo, len, kc, fc, lk, payload, ?_⟩
  intro answers n code way start factor i ps
  have answered {a : Answer} (own : ownFeaturePut [hi, lo, len, kc, fc, lk] s = a) : answers a.result a.payload a.state := by
    rw [← own, ← payload]
    exact requestCommand_replied free framed rfl
  have code_eq : ∀ k, code k = featureCode k := fun k => by cases k <;> rfl
  have way_eq : ∀ w, way w = byteOf (wayCode w) := fun w => by cases w <;> rfl
  have factor_eq : factor = roundFactor fc.toNat := (roundFactor_eq _).symm
  refine ⟨fun wrong => answered (ownFeaturePut_badValue s wrong), fun kind named may length lock => ?_⟩
  rw [code_eq] at named
  have checked := ownFeaturePut_checked (hi := hi) (lo := lo) (fc := fc) s named may length lock
  refine ⟨fun refused => ?_, ?_⟩
  · rw [factor_eq] at refused
    simp only [code_eq]
    exact answered (checked.trans (putChecked_refused refused))
  · intro rt w stored e arms result sent
    rw [factor_eq] at stored
    have own : ownFeaturePut [hi, lo, len, kc, fc, lk] s = putStored i w (decide (lk = 1)) fc.toNat (s.setRft rt) :=
      checked.trans (putChecked_stored stored)
    obtain ⟨start_eq, length_eq, kind_eq, fact_eq⟩ := putInsert_entry stored
    rw [← factor_eq] at fact_eq
    have arms_iff : s.pt.isSet = true ∧ armable i w e (s.setRft rt) = true ↔ arms := by
      rw [armable_iff, show e.start = start from start_eq, show e.length = len.toNat from length_eq]
      rfl
    have result_eq : putResult (decide (lk = 1)) fc.toNat e = result := by
      rw [putResult_eq, show e.factor = factor from fact_eq]
    have sent_eq : ∀ b : Bool, storedPayload i w e b = sent b.toNat := fun b => by
      rw [storedPayload_eq, show e.factor = factor from fact_eq, ← way_eq]
    have copy_eq : copyOf i w e (s.par .margin) =
        ⟨kind, factor, start, len.toNat, min (start + len.toNat + s.par .margin) 65535, i, w⟩ := by
      rw [copyOf, show e.start = start from start_eq, show e.length = len.toNat from length_eq,
        show e.kind = kind from kind_eq, show e.factor = factor from fact_eq]
      rfl
    refine ⟨fun yes room => ?_, fun yes full => ?_, fun no => ?_⟩
    · obtain ⟨on, may⟩ := arms_iff.mpr yes
      rw [← result_eq, ← show _ = sent 1 from sent_eq true]
      exact answered (own.trans (putStored_armed (s := s.setRft rt) on may room copy_eq))
    · obtain ⟨on, may⟩ := arms_iff.mpr yes
      rw [← result_eq, ← show _ = sent 0 from sent_eq false]
      exact answered (own.trans (putStored_full (s := s.setRft rt) on may full))
    · rw [← result_eq, ← show _ = sent 0 from sent_eq false]
      exact answered (own.trans (putStored_unarmed (s := s.setRft rt) fun yes => no (arms_iff.mp yes)))

/-! ### FEATURE EVICT and TABLE CLEAR -/

/-- R31: a way with a start metre and a kind is the one that is found: no other holds them. -/
theorem findSame_eq_some {rt : RouteTable} (inv : PointsInv rt) {i : Fin 64} {start : Nat} {kind : FeatureKind} {w : Way}
    (h : ((entry rt.points i).at w).IsSame start kind) : findSame start kind (entry rt.points i) = some w := by
  cases found : findSame start kind (entry rt.points i) with
  | none => exact absurd h ((findSame_none _ _ _).mp found w)
  | some v =>
    obtain ⟨valid, start_eq, kind_eq⟩ := h
    obtain ⟨valid', start_eq', kind_eq'⟩ := findSame_some _ _ _ _ found
    obtain ⟨_, _, distinct⟩ := inv.1 i
    cases v <;> cases w
    · rfl
    · exact absurd ⟨start_eq'.trans start_eq.symm, kind_eq'.trans kind_eq.symm⟩ (distinct valid' valid)
    · exact absurd ⟨start_eq.trans start_eq'.symm, kind_eq.trans kind_eq'.symm⟩ (distinct valid valid')
    · rfl

/-- R31: what an eviction writes. -/
theorem evictWay_eq (i : Fin 64) (w : Way) (rt : RouteTable) : evictWay i w rt = rt.withEntry i w invalidEntry
    (entry rt.points i).older (if ((entry rt.points i).at w).locked then rt.lockCount - 1 else rt.lockCount) := by
  cases w <;> rfl

/-- R31: an eviction releases the lock. -/
theorem evictWay_lockCount {rt : RouteTable} (inv : PointsInv rt) (i : Fin 64) (w : Way) :
    (evictWay i w rt).lockCount + ((entry rt.points i).at w).locked.toNat = rt.lockCount := by
  rw [evictWay_eq]
  show (if ((entry rt.points i).at w).locked then rt.lockCount - 1 else rt.lockCount) + _ = _
  cases l : ((entry rt.points i).at w).locked with
  | false => rfl
  | true => exact Nat.sub_add_cancel (locks_pos inv i w l)

section
variable {hi lo kc : Byte} {s : State}

theorem ownFeatureEvict_badValue (h : 3 < kc.toNat) : ownFeatureEvict [hi, lo, kc] s = refuse .badValue s := by
  have unknown : featureField (byteAt [hi, lo, kc] 2) = none := featureField_none h
  simp only [ownFeatureEvict, unknown]

variable {kind : FeatureKind}

theorem ownFeatureEvict_notFound (h : findSame (hi.toNat * 256 + lo.toNat) kind
      (entry s.rft.points (Machine.setOf (hi.toNat * 256 + lo.toNat))) = none) :
    ownFeatureEvict [hi, lo, featureCode kind] s = refuse .notFound s := by
  have known : featureField (byteAt [hi, lo, featureCode kind] 2) = some kind := featureField_code kind
  have start : word [hi, lo, featureCode kind] 0 = hi.toNat * 256 + lo.toNat := rfl
  simp only [ownFeatureEvict, known, start, h]

theorem ownFeatureEvict_found {w : Way} (h : findSame (hi.toNat * 256 + lo.toNat) kind
      (entry s.rft.points (Machine.setOf (hi.toNat * 256 + lo.toNat))) = some w) :
    ownFeatureEvict [hi, lo, featureCode kind] s =
      answerOk (s.setRft (evictWay (Machine.setOf (hi.toNat * 256 + lo.toNat)) w s.rft)) := by
  have known : featureField (byteAt [hi, lo, featureCode kind] 2) = some kind := featureField_code kind
  have start : word [hi, lo, featureCode kind] 0 = hi.toNat * 256 + lo.toNat := rfl
  simp only [ownFeatureEvict, known, start, h]

end

theorem featureCode_inj {k m : FeatureKind} : featureCode k = featureCode m ↔ k = m :=
  ⟨fun h => Option.some.inj ((featureField_code k).symm.trans ((congrArg featureField h).trans (featureField_code m))),
    congrArg featureCode⟩

/-- Settles O25: the eviction refused and made, and the cleared table. -/
theorem entriesEvictedAndCleared : Obligations.EntriesEvictedAndCleared := by
  refine ⟨fun body s free framed inv => ?_, fun body s free framed => ?_⟩
  · obtain ⟨hi, lo, kc, payload⟩ := length_three framed.length
    refine ⟨hi, lo, kc, payload, ?_⟩
    intro answers start i ps code found
    have answered {a : Answer} (own : ownFeatureEvict [hi, lo, kc] s = a) :
        exec (.featureEvict .v body) s = .next (replied .v 0x41 body a.result a.payload a.state) := by
      rw [← own, ← payload]
      exact requestCommand_replied free framed rfl
    refine ⟨fun wrong => answered (ownFeatureEvict_badValue wrong), fun may none0 none1 => ?_, fun w may here => ?_⟩
    all_goals
      obtain ⟨kind, rfl⟩ := featureCode_of_field may
      have found_iff : ∀ v, found v ↔ (ps.at v).IsSame start kind := fun v => by
        have code_eq : ∀ k, code k = featureCode k := fun k => by cases k <;> rfl
        simp only [found, code_eq, featureCode_inj]
        rfl
    · have none : findSame start kind ps = none := (findSame_none _ _ _).mpr (forall_way.mpr
        ⟨fun h => none0 ((found_iff _).mpr h), fun h => none1 ((found_iff _).mpr h)⟩)
      exact answered (ownFeatureEvict_notFound none)
    · have found := findSame_eq_some inv ((found_iff w).mp here)
      refine ⟨evictWay i w s.rft, answered (ownFeatureEvict_found found), evictWay_pointsInv inv i w, ?_, ?_, ?_,
        fun j other => ?_, evictWay_lockCount inv i w, rfl⟩
      · rw [evictWay_eq, RouteTable.withEntry_at]
        rfl
      · rw [evictWay_eq, RouteTable.withEntry_at_other]
      · rw [evictWay_eq, RouteTable.withEntry_older]
      · rw [evictWay_eq, RouteTable.withEntry_other _ _ _ _ _ _ other]
  · exact ⟨Vector.replicate 64 emptySet, fun i => entry_replicate _ _, requestCommand_replied free framed rfl⟩

end Sys2Proof.Machine

/-! PROOFS. FEATURE READ, ARMED READ, ZONE READ and ZONE SET: their checks and payloads (R32, R39 to R41, R43). -/

namespace Sys2Proof.Machine

/-! ### The payloads -/

theorem featureFlags_eq (valid locked copy older : Nat) : packByte [(valid, 0), (locked, 1), (copy, 2), (older, 3)] =
    BitVec.ofNat 8 (valid + 2 * locked + 4 * copy + 8 * older) := by
  rw [packByte_eq]
  exact congrArg (BitVec.ofNat 8) (by simp; omega)

theorem zoneFlags_eq (enable kind auto matching : Nat) : packByte [(enable, 0), (kind, 1), (auto, 3), (matching, 4)] =
    BitVec.ofNat 8 (enable + 2 * kind + 8 * auto + 16 * matching) := by
  rw [packByte_eq]
  exact congrArg (BitVec.ofNat 8) (by simp; omega)

/-- Table 2-1: the payload of FEATURE READ in numbers. -/
theorem featurePayload_eq (i : Fin 64) (w : Way) (s : State) {copy : Nat} (ps : PointSet) (set : entry s.rft.points i = ps)
    (armed : (hasCopy s.rft.armed i w (ps.at w).start).toNat = copy) : featurePayload i w s =
      [BitVec.ofNat 8 ((ps.at w).valid.toNat + 2 * (ps.at w).locked.toNat + 4 * copy + 8 * wayCode ps.older)] ++
        wordOf (ps.at w).start ++ [byteOf (ps.at w).length, featureCode (ps.at w).kind, byteOf (ps.at w).factor,
          byteOf ((ps.at w).start / 1024), byteOf s.rft.lockCount] := by
  subst set armed
  simp only [featurePayload, featureFlags_eq, tagOf_eq]

theorem ownFeatureRead_badValue {i w : Byte} (s : State) (h : 63 < i.toNat ∨ 1 < w.toNat) :
    ownFeatureRead [i, w] s = refuse .badValue s := by
  unfold ownFeatureRead
  split
  · next set =>
    obtain wrong | wrong := h
    · exact absurd (show i.toNat < 64 from set) (by omega)
    · rw [if_neg, if_neg]
      · rintro (rfl : w = 1); exact absurd wrong (by decide)
      · rintro (rfl : w = 0); exact absurd wrong (by decide)
  · rfl

theorem ownFeatureRead_entry {i w : Byte} (s : State) {j : Fin 64} {way : Way} (set : j.val = i.toNat)
    (named : wayCode way = w.toNat) : ownFeatureRead [i, w] s = answerWith (featurePayload j way s) s := by
  have bound : (byteAt [i, w] 0).toNat < 64 := set ▸ j.isLt
  obtain rfl : j = ⟨(byteAt [i, w] 0).toNat, bound⟩ := Fin.ext set
  rw [ownFeatureRead, dif_pos bound]
  cases way with
  | w0 =>
    obtain rfl : w = 0 := BitVec.eq_of_toNat_eq named.symm
    rfl
  | w1 =>
    obtain rfl : w = 1 := BitVec.eq_of_toNat_eq named.symm
    rfl

/-- R39: the byte of the gap and frog flags of ARMED READ. -/
theorem armedFlags_eq {armed : List ArmedCopy} {gap frog : Nat} (expected : (gapExpected armed).toNat = gap)
    (effective : (frogEffective armed).toNat = frog) :
    packByte [((gapExpected armed).toNat, 0), ((frogEffective armed).toNat, 1)] = BitVec.ofNat 8 (gap + 2 * frog) := by
  subst expected effective
  simp [packByte_eq, Nat.mul_comm]

theorem zoneField_none {b : Byte} (h : 7 < b.toNat) : zoneField b = none := dif_neg (by omega)

theorem ownZoneRead_badValue {b : Byte} (s : State) (h : 7 < b.toNat) : ownZoneRead [b] s = refuse .badValue s := by
  have out : zoneField (byteAt [b] 0) = none := zoneField_none h
  simp only [ownZoneRead, out]

theorem zoneField_some {b : Byte} {i : Fin 8} (h : i.val = b.toNat) : zoneField b = some i := by
  have bound : b.toNat < 8 := h ▸ i.isLt
  rw [zoneField, dif_pos bound]
  exact congrArg some (Fin.ext h.symm)

theorem ownZoneRead_entry {b : Byte} (s : State) {i : Fin 8} (h : i.val = b.toNat) :
    ownZoneRead [b] s = answerWith (zonePayload i s) s := by
  have known : zoneField (byteAt [b] 0) = some i := zoneField_some h
  simp only [ownZoneRead, known]

/-- A flag of a payload is the truth of what it stands for. -/
theorem toNat_eq_ite {b : Bool} {p : Prop} [Decidable p] (h : b = true ↔ p) : b.toNat = if p then 1 else 0 := by
  obtain rfl : b = decide p := Bool.eq_iff_iff.mpr (h.trans decide_eq_true_iff.symm)
  by_cases p <;> simp_all

theorem hasCopy_iff {armed : List ArmedCopy} {i : Fin 64} {w : Way} {start : Nat} :
    hasCopy armed i w start = true ↔ ∃ c ∈ armed, c.set = i ∧ c.way = w ∧ c.start = start := by
  simp [hasCopy, and_assoc]

/-- Table 2-1: the payload of ZONE READ in numbers. -/
theorem zonePayload_eq (i : Fin 8) (s : State) {z : Zone} (here : entry s.rft.zones i = z) {b : Byte} (index : i.val = b.toNat)
    {matching : Nat} (h : (zoneMatches s.pt z).toNat = matching) : zonePayload i s =
      [b, BitVec.ofNat 8 (z.enable.toNat + 2 * zoneKindCode z.kind + 8 * z.autoLower.toNat + 16 * matching)] ++
        wordOf z.base.toNat ++ wordOf z.mask.toNat ++ wordOf z.iLim ++ wordOf z.vLow := by
  subst here h
  simp only [zonePayload, zoneFlags_eq, byteOf_eq index]

/-- Settles O26: the three payloads, each read from its own definition. -/
theorem routeTableRead : Obligations.RouteTableRead := by
  intro body s free n two flag code wayNumber zoneCode
  have code_eq : ∀ k, code k = featureCode k := fun k => by cases k <;> rfl
  have way_eq : ∀ w, wayNumber w = wayCode w := fun w => by cases w <;> rfl
  have zone_eq : ∀ k, zoneCode k = zoneKindCode k := fun k => by cases k <;> rfl
  refine ⟨fun framed => ?_, fun framed => ?_, fun framed => ?_⟩
  · obtain ⟨i, w, payload⟩ := length_two framed.length
    have answered {a : Answer} (own : ownFeatureRead [i, w] s = a) :
        exec (.featureRead .v body) s = .next (replied .v 0x42 body a.result a.payload a.state) := by
      rw [← own, ← payload]
      exact requestCommand_replied free framed rfl
    refine ⟨i, w, payload, fun wrong => answered (ownFeatureRead_badValue s wrong), fun j way set named => ?_⟩
    intro ps e
    rw [way_eq] at named
    have read := answered (ownFeatureRead_entry s set named)
    rw [featurePayload_eq j way s ps rfl (toNat_eq_ite hasCopy_iff)] at read
    simp only [code_eq, way_eq]
    exact read
  · have read : exec (.armedRead .v body) s = .next (replied .v 0x44 body _ _ _) := requestCommand_replied free framed rfl
    rw [read]
    simp only [ownerAnswer, ownArmedRead, answerWith, code_eq, way_eq,
      armedFlags_eq (toNat_eq_ite (gapExpected_iff _)) (toNat_eq_ite (frogEffective_iff _))]
    rfl
  · obtain ⟨b, payload⟩ := length_one framed.length
    have answered {a : Answer} (own : ownZoneRead [b] s = a) :
        exec (.zoneRead .v body) s = .next (replied .v 0x49 body a.result a.payload a.state) := by
      rw [← own, ← payload]
      exact requestCommand_replied free framed rfl
    refine ⟨b, payload, fun wrong => answered (ownZoneRead_badValue s wrong), fun i index => ?_⟩
    intro z
    have read := answered (ownZoneRead_entry s index)
    rw [zonePayload_eq i s rfl index (toNat_eq_ite (zoneMatches_iff _ _))] at read
    simp only [zone_eq]
    exact read

/-! ### ZONE SET -/

theorem length_twelve {p : List Byte} (h : p.length = 12) : ∃ b0 b1 b2 b3 b4 b5 b6 b7 b8 b9 b10 b11,
    p = [b0, b1, b2, b3, b4, b5, b6, b7, b8, b9, b10, b11] := by
  match p, h with
  | [b0, b1, b2, b3, b4, b5, b6, b7, b8, b9, b10, b11], _ =>
    exact ⟨b0, b1, b2, b3, b4, b5, b6, b7, b8, b9, b10, b11, rfl⟩

theorem zoneKindField_none {b : Byte} (h : 2 < b.toNat) : zoneKindField b = none := by
  unfold zoneKindField
  iterate 3 rw [if_neg (by rintro rfl; exact absurd h (by decide))]

/-- R41: an auto-lower field is wrong when it is above 1 in an OFF_WIRE entry; a base or a mask, when it is above 4095. -/
theorem zoneFieldsFit_eq_false {kind : ZoneKind} {p : List Byte}
    (h : (kind = .offWire ∧ 1 < (byteAt p 7).toNat) ∨ 4095 < word p 3 ∨ 4095 < word p 5) :
    zoneFieldsFit kind p = false := by
  unfold zoneFieldsFit
  obtain ⟨rfl, auto⟩ | base | mask := h
  · rw [flagField_none auto]
    rfl
  · rw [decide_eq_false (p := word p 3 ≤ 4095) (by omega), Bool.and_false, Bool.false_and]
  · rw [decide_eq_false (p := word p 5 ≤ 4095) (by omega), Bool.and_false]

theorem zoneFieldsFit_eq_true {kind : ZoneKind} {p : List Byte} (auto : kind = .offWire → (byteAt p 7).toNat ≤ 1)
    (base : word p 3 ≤ 4095) (mask : word p 5 ≤ 4095) : zoneFieldsFit kind p = true := by
  unfold zoneFieldsFit
  rw [decide_eq_true base, decide_eq_true mask, Bool.and_true, Bool.and_true, Bool.or_eq_true, Bool.not_eq_true',
    decide_eq_false_iff_not]
  by_cases offWire : kind = .offWire
  · exact .inr (by rw [flagField_some (auto offWire)]; rfl)
  · exact .inl offWire

/-- R41: a ZONE SET that a check refuses. -/
theorem ownZoneSet_badValue {p : List Byte} (s : State) (h : 7 < (byteAt p 0).toNat ∨ 1 < (byteAt p 1).toNat ∨
      2 < (byteAt p 2).toNat ∨ (byteAt p 2 = 0 ∧ 1 < (byteAt p 7).toNat) ∨ 4095 < word p 3 ∨ 4095 < word p 5) :
    ownZoneSet p s = refuse .badValue s := by
  unfold ownZoneSet
  split
  · next i enable kind index flag code =>
    obtain wrong | wrong | wrong | wrong := h
    · cases (zoneField_none wrong).symm.trans index
    · cases (flagField_none wrong).symm.trans flag
    · cases (zoneKindField_none wrong).symm.trans code
    · rw [zoneFieldsFit_eq_false (wrong.imp_left fun ⟨zero, auto⟩ => ⟨?_, auto⟩)]
      · rfl
      · rw [zero] at code
        exact (Option.some.inj code).symm
  · rfl

/-- R41: a ZONE SET that passes the checks. -/
theorem ownZoneSet_written {p : List Byte} (s : State) {i : Fin 8} {kind : ZoneKind} (index : i.val = (byteAt p 0).toNat)
    (enable : (byteAt p 1).toNat ≤ 1) (code : zoneKindField (byteAt p 2) = some kind) (fit : zoneFieldsFit kind p = true) :
    ownZoneSet p s =
      { state := s.setRft { s.rft with
          zones := setEntry s.rft.zones i (zoneEntry (decide (byteAt p 1 = 1)) kind p) }
        result := if zoneClamped kind p then .clamped else .ok
        payload := [] } := by
  simp only [ownZoneSet, zoneField_some index, flagField_some enable, code, fit, if_true]

/-- Settles O27: the checks, then the entry written for each kind. -/
theorem zoneSetAnswered : Obligations.ZoneSetAnswered := by
  intro body s free framed
  obtain ⟨ix, en, kc, b1, b0, m1, m0, auto, i1, i0, v1, v0, payload⟩ := length_twelve framed.length
  refine ⟨ix, en, kc, b1, b0, m1, m0, auto, i1, i0, v1, v0, payload, ?_⟩
  intro answers base mask iLim vLow wrong writes
  have answered {a : Answer} (own : ownZoneSet body.payload s = a) :
      exec (.zoneSet .v body) s = .next (replied .v 0x48 body a.result a.payload a.state) := by
    rw [← own]
    exact requestCommand_replied free framed rfl
  have written (right : ¬wrong) {kind : ZoneKind} (code : zoneKindField kc = some kind)
      (offWire : kind = .offWire → kc = 0) :
      writes (if zoneClamped kind body.payload then .clamped else .ok) (zoneEntry (decide (en = 1)) kind body.payload) := by
    simp only [wrong, not_or, not_and, Nat.not_lt] at right
    obtain ⟨index, enable, _, lower, base, mask⟩ := right
    have fit : zoneFieldsFit kind body.payload = true := by
      rw [payload]
      exact zoneFieldsFit_eq_true (fun off => lower (offWire off)) base mask
    let i : Fin 8 := ⟨ix.toNat, by omega⟩
    refine ⟨setEntry s.rft.zones i (zoneEntry (decide (en = 1)) kind body.payload), fun j => ?_, ?_⟩
    · rw [entry_setEntry]
      simp only [i, Fin.ext_iff]
    · have own := ownZoneSet_written (p := body.payload) s (i := i) (by rw [payload]; rfl) (by rw [payload]; exact enable)
        (by rw [payload]; exact code) fit
      have en_eq : byteAt body.payload 1 = en := by rw [payload]; rfl
      rw [en_eq] at own
      exact answered own
  refine ⟨fun bad => answered (ownZoneSet_badValue s (by rw [payload]; exact bad)), fun right zero => ?_, fun right one => ?_,
    fun right two => ?_⟩
  · have := written right (kind := .offWire) (by rw [zero]; rfl) fun _ => zero
    rw [payload] at this
    exact this
  · have := written right (kind := .limit) (by rw [one]; rfl) (fun h => nomatch h)
    rw [payload] at this
    simp only [zoneClamped, decide_true, Bool.true_and, Bool.or_eq_true, decide_eq_true_eq] at this
    exact this
  · have := written right (kind := .noRegen) (by rw [two]; rfl) (fun h => nomatch h)
    rw [payload] at this
    exact this

end Sys2Proof.Machine

/-! PROOFS. The armed list at a set: removal, probe, order, overflow (R34 to R38). -/

namespace Sys2Proof.Machine

/-! ### Copies placed in order -/

/-- The copies in ascending start order (R37). -/
def InStartOrder (armed : List ArmedCopy) : Prop := armed.Pairwise fun c d => c.start ≤ d.start

/-- In a list in start order, the copies that start at or before a metre come first. -/
theorem InStartOrder.split {armed : List ArmedCopy} (h : InStartOrder armed) (n : Nat) :
    armed.takeWhile (fun c => decide (c.start ≤ n)) = armed.filter (fun c => decide (c.start ≤ n)) ∧
      armed.dropWhile (fun c => decide (c.start ≤ n)) = armed.filter (fun c => decide (n < c.start)) := by
  induction armed with
  | nil => exact ⟨rfl, rfl⟩
  | cons a armed ih =>
    obtain ⟨first, rest⟩ := List.pairwise_cons.mp h
    by_cases before : a.start ≤ n
    · simp [before, Nat.not_lt.mpr before, ih rest]
    · have later : ∀ c ∈ a :: armed, n < c.start := by
        intro c mem
        obtain rfl | mem := List.mem_cons.mp mem
        · exact Nat.lt_of_not_le before
        · exact (Nat.lt_of_not_le before).trans_le (first c mem)
      constructor
      · rw [List.takeWhile_cons_of_neg (by simpa using before), eq_comm, List.filter_eq_nil_iff]
        exact fun c mem => by simpa using later c mem
      · rw [List.dropWhile_cons_of_neg (by simpa using before), eq_comm, List.filter_eq_self]
        exact fun c mem => by simpa using later c mem

/-- R37: copies placed in a list one after the other. -/
def placeCopies (copies armed : List ArmedCopy) : List ArmedCopy := copies.foldl (fun list c => placeCopy c list) armed

theorem placeCopies_inStartOrder {armed : List ArmedCopy} (h : InStartOrder armed) (copies : List ArmedCopy) :
    InStartOrder (placeCopies copies armed) := by
  induction copies generalizing armed with
  | nil => exact h
  | cons c copies ih => exact ih (placeCopy_sorted c h)

theorem placeCopies_perm (copies armed : List ArmedCopy) : (placeCopies copies armed).Perm (armed ++ copies) := by
  induction copies generalizing armed with
  | nil => rw [List.append_nil]; exact List.Perm.refl _
  | cons c copies ih =>
    exact (ih (placeCopy c armed)).trans (((placeCopy_perm c armed).append_right copies).trans List.perm_middle.symm)

/-- R37: each copy goes behind those that start at or before its start and ahead of the others. -/
theorem placeCopies_eq {armed : List ArmedCopy} (h : InStartOrder armed) (copies : List ArmedCopy) :
    placeCopies copies armed = copies.foldl (fun list c =>
      list.filter (fun d => d.start ≤ c.start) ++ c :: list.filter (fun d => c.start < d.start)) armed := by
  induction copies generalizing armed with
  | nil => rfl
  | cons c copies ih =>
    have placed : placeCopy c armed =
        armed.filter (fun d => d.start ≤ c.start) ++ c :: armed.filter (fun d => c.start < d.start) := by
      rw [placeCopy, (h.split c.start).1, (h.split c.start).2]
    rw [List.foldl_cons, ← placed]
    exact ih (placeCopy_sorted c h)

/-! ### The candidates -/

/-- A copy of one way placed in the list leaves what holds of the other way. -/
theorem armable_placed {i : Fin 64} {v w : Way} (other : v ≠ w) (d e : PointEntry) (margin : Nat) (s : State) :
    armable i w e (s.setRft { s.rft with armed := placeCopy (copyOf i v d margin) s.rft.armed }) = armable i w e s := by
  refine Bool.eq_iff_iff.mpr ?_
  rw [armable_iff, armable_iff]
  refine and_congr_right fun _ => and_congr_right fun _ => ?_
  simp only [State.setRft_rft, (placeCopy_perm _ _).mem_iff, List.mem_cons, forall_eq_or_imp]
  exact and_iff_right fun same => other same.2.1

/-- R37: the state after the entries of some ways are armed in turn: copies of the first ones while there is room for 4, and
ARMED_OVERFLOW for each of the others. -/
def armWays (i : Fin 64) (ps : PointSet) (found : List Way) (s : State) : State :=
  (s.setRft { s.rft with
      armed := placeCopies ((found.take (4 - s.rft.armed.length)).map fun w => copyOf i w (ps.at w) (s.par .margin))
        s.rft.armed }).setAd
    ((Alarms.occurrence .armedOverflow)^[found.length - (4 - s.rft.armed.length)] s.ad)

section
variable (i : Fin 64) (ps : PointSet) (v : Way) (found : List Way) {s : State}

theorem armWays_nil (s : State) : armWays i ps [] s = s := by
  rw [armWays, List.take_nil, List.length_nil, Nat.zero_sub]
  rfl

theorem armWays_room (room : s.rft.armed.length < 4) : armWays i ps (v :: found) s =
    armWays i ps found (s.setRft { s.rft with
      armed := placeCopy (copyOf i v (ps.at v) (s.par .margin)) s.rft.armed }) := by
  obtain ⟨n, left⟩ : ∃ n, 4 - s.rft.armed.length = n + 1 := ⟨3 - s.rft.armed.length, by omega⟩
  have after : 4 - (placeCopy (copyOf i v (ps.at v) (s.par .margin)) s.rft.armed).length = n := by
    rw [(placeCopy_perm _ _).length_eq, List.length_cons]
    omega
  simp only [armWays, State.setRft_rft, left, after, List.take_succ_cons, List.length_cons, Nat.add_sub_add_right]
  rfl

theorem armWays_full (full : ¬s.rft.armed.length < 4) :
    armWays i ps (v :: found) s = armWays i ps found (raise .armedOverflow s) := by
  have left : 4 - s.rft.armed.length = 0 := by omega
  have after : 4 - (raise .armedOverflow s).rft.armed.length = 0 := left
  simp only [armWays, left, after, List.take_zero, List.length_cons, Nat.sub_zero, Function.iterate_succ_apply]
  rfl

end

/-- R35, R37: candidates of different ways taken in order: those that may be armed are. -/
theorem armCandidates_eq (i : Fin 64) (ps : PointSet) {ways : List Way} (distinct : ways.Nodup) (s : State) :
    ways.foldl (fun acc w => armCandidate i w (ps.at w) acc) s =
      armWays i ps (ways.filter fun w => armable i w (ps.at w) s) s := by
  induction ways generalizing s with
  | nil => exact (armWays_nil i ps s).symm
  | cons v ways ih =>
    obtain ⟨new, distinct⟩ := List.nodup_cons.mp distinct
    rw [List.foldl_cons]
    by_cases may : armable i v (ps.at v) s = true
    · rw [List.filter_cons_of_pos (p := fun w => armable i w (ps.at w) s) may]
      by_cases room : s.rft.armed.length < 4
      · rw [armCandidate_placed may room, ih distinct, armWays_room _ _ _ _ room]
        have others : ∀ w ∈ ways, armable i w (ps.at w) _ = armable i w (ps.at w) s := fun w mem =>
          armable_placed (ne_of_mem_of_not_mem mem new).symm (ps.at v) (ps.at w) (s.par .margin) s
        rw [List.filter_congr others]
      · rw [armCandidate_full may (Nat.not_lt.mp room), ih distinct, armWays_full _ _ _ _ room]
        rfl
    · rw [List.filter_cons_of_neg (p := fun w => armable i w (ps.at w) s) may, armCandidate_not_armable may]
      exact ih distinct s

/-- R35: the ways of a set, the lower start metre first, way 0 first when equal. -/
def waysInOrder (ps : PointSet) : List Way := if ps.way1.start < ps.way0.start then [.w1, .w0] else [.w0, .w1]

theorem waysInOrder_nodup (ps : PointSet) : (waysInOrder ps).Nodup := by
  unfold waysInOrder
  split <;> decide

theorem candidates_eq (q : Nat) (ps : PointSet) : candidates q ps =
    ((waysInOrder ps).filter fun w => probeMatches q (ps.at w)).map fun w => (w, ps.at w) := by
  have one : ∀ w, ([w].filter fun w => probeMatches q (ps.at w)).map (fun w => (w, ps.at w)) =
      if probeMatches q (ps.at w) then [(w, ps.at w)] else [] := fun w => by
    cases matching : probeMatches q (ps.at w) <;> simp [matching]
  have both : ∀ v w, ([v, w].filter fun w => probeMatches q (ps.at w)).map (fun w => (w, ps.at w)) =
      (if probeMatches q (ps.at v) then [(v, ps.at v)] else []) ++ if probeMatches q (ps.at w) then [(w, ps.at w)] else [] :=
    fun v w => by rw [← List.singleton_append, List.filter_append, List.map_append, one, one]
  unfold candidates waysInOrder
  by_cases order : ps.way1.start < ps.way0.start
  · rw [if_pos order, if_pos order]
    exact (both .w1 .w0).symm
  · rw [if_neg order, if_neg order]
    exact (both .w0 .w1).symm

/-- R35: the probe arms the ways of Q's set that match and may be armed. -/
theorem probe_eq {s : State} (on : s.pt.isSet = true) : probe s =
    armWays (Machine.setOf (lookAhead s)) (entry s.rft.points (Machine.setOf (lookAhead s)))
      ((waysInOrder (entry s.rft.points (Machine.setOf (lookAhead s)))).filter fun w =>
        armable (Machine.setOf (lookAhead s)) w ((entry s.rft.points (Machine.setOf (lookAhead s))).at w) s &&
          probeMatches (lookAhead s) ((entry s.rft.points (Machine.setOf (lookAhead s))).at w))
      (s.setRft { s.rft with lastQ := lookAhead s }) := by
  rw [probe, if_pos on]
  dsimp only
  rw [candidates_eq, List.foldl_map, armCandidates_eq _ _ ((waysInOrder_nodup _).filter _), List.filter_filter]
  rfl

theorem probe_removePassed_unset {s : State} (inv : ArmedInv s) (off : s.pt.isSet = false) : probe (removePassed s) = s := by
  have empty := ((armedInv_iff s).mp inv).2 off
  have same : removePassed s = s := by
    rw [removePassed, empty, List.filter_nil, ← empty]
    rfl
  rw [same, probe, off]
  rfl

/-- Settles O43: no probe without a position; with one, the probe on the copies that are kept. -/
theorem armedAtASet : Obligations.ArmedAtASet := by
  intro s inv p q i ps kept high arms copy found
  refine ⟨probe_removePassed_unset inv, fun on => ?_⟩
  have ordered : InStartOrder kept :=
    ((armedInv_iff s).mp inv).1.2.imp (fun h => h.1) |>.filter _
  have arms_iff : ∀ w, (armable i w (ps.at w) (removePassed s) && probeMatches q (ps.at w)) = arms w := fun w => by
    refine Bool.eq_iff_iff.mpr ?_
    rw [Bool.and_eq_true, armable_iff, probeMatches, Bool.and_eq_true, Bool.and_eq_true, tagOf_eq, tagOf_eq]
    simp only [arms, decide_eq_true_eq]
    constructor
    · rintro ⟨⟨low, up, new⟩, ⟨valid, tag⟩, start⟩
      exact ⟨valid, tag, start, low, up, new⟩
    · rintro ⟨valid, tag, start, low, up, new⟩
      exact ⟨⟨low, up, new⟩, ⟨valid, tag⟩, start⟩
  refine ⟨placeCopies ((found.take (4 - kept.length)).map copy) kept, _, ?_, placeCopies_eq ordered _,
    (placeCopies_perm _ _), placeCopies_inStartOrder ordered _, rfl⟩
  have same : ((waysInOrder ps).filter fun w => armable i w (ps.at w) (removePassed s) && probeMatches q (ps.at w)) = found :=
    List.filter_congr fun w _ => arms_iff w
  rw [← same]
  exact probe_eq (s := removePassed s) on

end Sys2Proof.Machine

/-! PROOFS. The supply, the zone in effect, and stages 1 to 3 of a computation (R42, R46, R75 to R81, R86). -/

namespace Sys2Proof.Machine

/-! ### The supply and the zone in effect -/

theorem supply_line {s : State} (h : s.cm.state ∈ [.onWire, .unloading]) : s.supply = .line := by
  unfold State.supply supplyOf
  simp only [List.mem_cons, List.not_mem_nil, or_false] at h
  obtain e | e := h <;> rw [e]

theorem supply_off_line {s : State} (h : s.cm.state ∈ [.down, .raising, .gap, .suspect, .dropped, .lowering]) :
    s.supply = if s.par .battery = 1 then .battery else .none := by
  unfold State.supply supplyOf
  simp only [List.mem_cons, List.not_mem_nil, or_false] at h
  obtain e | e | e | e | e | e := h <;> rw [e]

theorem supply_congr {s t : State} (cm : t.cm = s.cm) (pm : t.pm = s.pm) : t.supply = s.supply := by
  unfold State.supply State.par
  rw [cm, pm]

theorem matchingZone_congr {s t : State} (rft : t.rft = s.rft) (pt : t.pt = s.pt) (k : ZoneKind) :
    matchingZone k t = matchingZone k s := by
  unfold matchingZone
  rw [rft, pt]

/-- R42: the entry of a kind that matches, entry by entry. -/
theorem matchingZone_eq_none (k : ZoneKind) (s : State) : matchingZone k s = none ↔
    ∀ i, ¬(zoneMatches s.pt (entry s.rft.zones i) && decide ((entry s.rft.zones i).kind = k)) = true := by
  rw [matchingZone, List.find?_eq_none, toList_eq_entries]
  simp only [List.forall_mem_map, List.mem_finRange, forall_const]

/-! ### Stages 1 to 3 -/

theorem holdV_eq (v : Option (BitVec 10)) (s : State) : holdV v s = s.setBe { s.be with heldV := v.getD s.be.heldV } := by
  cases v <;> rfl

/-- R79: the sag flag after a set. -/
theorem sagAfter_iff (v : Option (BitVec 10)) (s : State) :
    sagAfter v s = true ↔ s.be.sag = true ∨ ∃ x, v = some x ∧ x.toNat < effectiveVLow s := by
  cases v <;> simp [sagAfter]

/-- R79: outside LINE supply the window stands. -/
theorem windowStep_off_line {v : Option (BitVec 10)} {s : State} (h : s.supply ≠ .line) : windowStep v s = s := if_neg h

/-- R79: a set within the window is counted, and a sag noted. -/
theorem windowStep_counts {v : Option (BitVec 10)} {s : State} (line : s.supply = .line)
    (within : min (s.be.windowCount + 1) 255 < s.be.windowLength) : windowStep v s =
      s.setBe { s.be with windowCount := min (s.be.windowCount + 1) 255, sag := sagAfter v s } := by
  rw [windowStep, if_pos line]
  exact if_neg (Nat.not_le.mpr within)

/-- R80: the set that reaches the window's length ends it. -/
theorem windowStep_ends {v : Option (BitVec 10)} {s : State} (line : s.supply = .line)
    (ends : ¬min (s.be.windowCount + 1) 255 < s.be.windowLength) : windowStep v s = endWindow (sagAfter v s) s := by
  rw [windowStep, if_pos line]
  exact if_pos (Nat.not_lt.mp ends)

theorem supply_windowStep (v : Option (BitVec 10)) (s : State) : (windowStep v s).supply = s.supply :=
  supply_congr ((windowStep_touches v s).cm (by decide)) ((windowStep_touches v s).pm (by decide))

theorem supply_depthStage (pAvail : Nat) (s : State) : (depthStage pAvail s).state.supply = s.supply :=
  supply_congr ((depthStage_touches pAvail s).cm (by decide)) ((depthStage_touches pAvail s).pm (by decide))

theorem windowStep_heldV (v : Option (BitVec 10)) (s : State) : (windowStep v s).be.heldV = s.be.heldV := by
  unfold windowStep
  split
  · dsimp only
    split
    · unfold endWindow
      dsimp only
      split <;> rfl
    · rfl
  · rfl

/-- R78: the derate window leaves P_avail. -/
theorem availablePower_windowStep (v : Option (BitVec 10)) (s : State) :
    availablePower (windowStep v s) = availablePower s := by
  have touched := windowStep_touches v s
  have par := par_eq_of_pm (touched.pm (by decide))
  unfold availablePower effectiveILim
  rw [supply_windowStep, windowStep_heldV, matchingZone_congr (touched.rft (by decide)) (touched.pt (by decide)), par, par]

/-- R86: served, slot by slot. -/
theorem servedBy_eq (ls : Loads) (supply : Supply) : servedBy ls supply = ((List.finRange 24).map fun i =>
    if (entry ls.slots i).state = .running ∧ ¬(supply = .none ∧ (entry ls.slots i).rideThrough = true)
      then (entry ls.slots i).demand else 0).sum := by
  rw [servedBy, toList_eq_entries, List.map_map]
  congr 2
  funext i
  simp only [Function.comp_apply, Bool.and_eq_true, decide_eq_true_eq, Bool.not_eq_true', Bool.and_eq_false_iff,
    decide_eq_false_iff_not, not_and_or, Bool.not_eq_true]

/-- Settles O48: the supply, the zone in effect, then the stages on the state of the set. -/
theorem budgetInStages : Obligations.BudgetInStages := by
  intro v s matching
  have matching_iff : ∀ k i, (zoneMatches s.pt (entry s.rft.zones i) && decide ((entry s.rft.zones i).kind = k)) = true ↔
      matching k i := fun k i => zoneMatches_kind k s i
  refine ⟨supply_line, supply_off_line, fun k => ?_, fun k z h => ?_, ?_⟩
  · rw [matchingZone_eq_none]
    simp only [matching_iff]
  · obtain ⟨i, rfl, here, first⟩ := (find_entries_eq_some _ _ _).mp h
    exact ⟨i, rfl, (matching_iff k i).mp here, fun j lt other => first j lt ((matching_iff k j).mpr other)⟩
  · intro held vLow iLim sag count d ended w power stage served c
    have sag_eq : sagAfter v held = sag := Bool.eq_iff_iff.mpr ((sagAfter_iff v held).trans decide_eq_true_iff.symm)
    have window : windowStep v held = w := by
      by_cases line : s.supply = .line
      · have same : w = _ := if_neg (not_not_intro line)
        by_cases within : count < s.be.windowLength
        · rw [same, if_pos within, ← sag_eq]
          exact windowStep_counts (s := held) line within
        · rw [same, if_neg within]
          exact (windowStep_ends (s := held) line within).trans (congrArg (endWindow · held) sag_eq)
      · exact (windowStep_off_line (s := held) line).trans (if_pos line).symm
    have power_eq : availablePower w = power := window ▸ availablePower_windowStep v held
    have supply_eq : stage.state.supply = s.supply :=
      (supply_depthStage power w).trans (window ▸ supply_windowStep v held)
    have served_eq : servedBy stage.state.ls stage.state.supply = served := by
      rw [supply_eq, servedBy_eq]
    have taint : v.isNone = decide (v = none) := by cases v <;> rfl
    refine ⟨window, ?_⟩
    unfold budgetComputation
    rw [holdV_eq, window]
    dsimp only
    rw [power_eq, served_eq, taint]

end Sys2Proof.Machine

/-! PROOFS. Every step keeps the lower lines, the drop mask, the suspect record and the log as the collector state says
(R47, R53, R60, R69). -/

namespace Sys2Proof.Machine

/-! ### The lower lines -/

theorem linesOf_asserted {st : CollectorState} (h : st ∈ [.down, .lowering]) (mask : Option DropPoles) (lowerBoth : Nat) :
    linesOf st mask lowerBoth = ⟨true, true⟩ := by
  simp only [List.mem_cons, List.not_mem_nil, or_false] at h
  obtain rfl | rfl := h <;> rfl

theorem linesOf_released {st : CollectorState} (h : st ∈ [.raising, .onWire, .gap, .suspect, .unloading])
    (mask : Option DropPoles) (lowerBoth : Nat) : linesOf st mask lowerBoth = ⟨false, false⟩ := by
  simp only [List.mem_cons, List.not_mem_nil, or_false] at h
  obtain rfl | rfl | rfl | rfl | rfl := h <;> rfl

/-- R47: in DROPPED the line of every pole in the mask is asserted, whatever P_LOWER_BOTH. -/
theorem linesOf_dropped (mask : Option DropPoles) (lowerBoth : Nat) :
    (holdsPos mask = true → (linesOf .dropped mask lowerBoth).pos = true) ∧
      (holdsNeg mask = true → (linesOf .dropped mask lowerBoth).neg = true) := by
  unfold linesOf
  dsimp only
  split
  · exact ⟨fun _ => rfl, fun _ => rfl⟩
  · cases mask with
    | none => exact ⟨Bool.noConfusion, Bool.noConfusion⟩
    | some poles => cases poles <;> decide

/-! ### Entry into a state -/

theorem CollectorInv.log_le {cm : Collector} (h : CollectorInv cm) : cm.log.length ≤ 8 := by
  obtain ⟨_, _, _, _, _, _, log⟩ := h
  exact log

/-- R47: neither lower line is asserted from RAISING to UNLOADING. -/
theorem CollectorInv.lines_released {cm : Collector} (h : CollectorInv cm)
    (st : cm.state ∈ [.raising, .onWire, .gap, .suspect, .unloading]) : cm.lines = ⟨false, false⟩ := by
  obtain ⟨_, released, _⟩ := h
  exact released st

/-- R60: no mask outside DROPPED. -/
theorem CollectorInv.mask_none {cm : Collector} (h : CollectorInv cm) (st : cm.state ≠ .dropped) : cm.dropMask = none := by
  obtain ⟨_, _, _, masked, _⟩ := h
  exact Option.not_isSome_iff_eq_none.mp fun some => st (masked.mp some)

/-- R53: no loss metre and no loss epoch outside SUSPECT. -/
theorem CollectorInv.loss_none {cm : Collector} (h : CollectorInv cm) (st : cm.state ≠ .suspect) :
    cm.lossMetre = none ∧ cm.lossEpoch = none := by
  obtain ⟨_, _, _, _, metre, epoch, _⟩ := h
  exact ⟨metre st, Option.not_isSome_iff_eq_none.mp fun some => st (epoch.mp some)⟩

/-- R53: an entry into a state leaves no loss metre: a suspect's becomes absent, and there is no other. -/
theorem enterState_lossMetre {s : State} (h : CollectorInv s.cm) {st : CollectorState} {mask : Option DropPoles} :
    (enterState st mask s).cm.lossMetre = none :=
  ite_eq_left_iff.mpr fun other => (h.loss_none other).1

/-- R53: nor a loss epoch. -/
theorem enterState_lossEpoch {s : State} (h : CollectorInv s.cm) {st : CollectorState} {mask : Option DropPoles} :
    (enterState st mask s).cm.lossEpoch = none :=
  ite_eq_left_iff.mpr fun other => (h.loss_none other).2

/-- R47, R53, R60: an entry into a state other than SUSPECT, with a mask exactly when it is DROPPED. -/
theorem enterState_collectorInv {s : State} (h : CollectorInv s.cm) {st : CollectorState} {mask : Option DropPoles}
    (calm : st ≠ .suspect) (masked : mask.isSome = true ↔ st = .dropped) : CollectorInv (enterState st mask s).cm := by
  refine ⟨fun m => linesOf_asserted m _ _, fun m => linesOf_released m _ _, ?_, masked, fun _ => enterState_lossMetre h,
    ?_, h.log_le⟩
  · rintro rfl
    exact linesOf_dropped _ _
  · rw [enterState_lossEpoch h]
    exact ⟨Bool.noConfusion, fun e => absurd e calm⟩

/-- R53: entry into SUSPECT writes its record whole, from any state. -/
theorem enterSuspect_collectorInv {s : State} (log : s.cm.log.length ≤ 8) : CollectorInv (enterSuspect s).cm :=
  ⟨fun m => absurd (show CollectorState.suspect ∈ _ from m) (by decide), fun _ => rfl, CollectorState.noConfusion,
    ⟨Bool.noConfusion, CollectorState.noConfusion⟩, fun other => absurd rfl other, ⟨fun _ => rfl, fun _ => rfl⟩, log⟩

/-- R69: a record offered to the log leaves it at most 8 long. -/
theorem offerRecord_collectorInv {cm : Collector} (h : CollectorInv cm) (r : DropRecord) :
    CollectorInv (offerRecord r cm) := by
  obtain ⟨asserted, released, dropped, masked, metre, epoch, log⟩ := h
  unfold offerRecord
  split
  · next room =>
    refine ⟨asserted, released, dropped, masked, metre, epoch, ?_⟩
    rw [List.length_append]
    exact room
  · exact ⟨asserted, released, dropped, masked, metre, epoch, log⟩

/-- R60, R62: a further drop extends the mask to BOTH and keeps DROPPED. -/
theorem furtherDrop_collectorInv {cm : Collector} (h : CollectorInv cm) (st : cm.state = .dropped) (lowerBoth : Nat) :
    CollectorInv { cm with dropMask := some .both, lines := linesOf .dropped (some .both) lowerBoth } := by
  obtain ⟨_, _, _, _, metre, epoch, log⟩ := h
  refine ⟨fun m => ?_, fun m => ?_, fun _ => linesOf_dropped _ _, ⟨fun _ => st, fun _ => rfl⟩, metre, epoch, log⟩
  · exact absurd (show cm.state ∈ _ from m) (by rw [st]; decide)
  · exact absurd (show cm.state ∈ _ from m) (by rw [st]; decide)

theorem makeDrop_collectorInv {s : State} (h : CollectorInv s.cm) (poles : DropPoles) (cause : DropCause) (x : Sample) :
    CollectorInv (makeDrop poles cause x s).cm := by
  unfold makeDrop
  refine offerRecord_collectorInv ?_ _
  by_cases st : s.cm.state = .dropped
  · rw [if_pos st]
    exact furtherDrop_collectorInv h st _
  · rw [if_neg st]
    exact enterState_collectorInv h CollectorState.noConfusion ⟨fun _ => rfl, fun _ => rfl⟩

/-! ### The parts of a set -/

/-- R49: the last elevations become those of the set. -/
def seenElevations (x : Sample) (t : State) : State := t.setCm { t.cm with lastElev := ⟨x.elevPos, x.elevNeg⟩ }

section
variable {x : Sample} {prev : PerPole (Option (BitVec 10))} {offWire : Bool} {s : State}

/-- R49: an angle hit ends CM's work on the set with a drop. -/
theorem collectorTake_hit {poles : DropPoles} {cause : DropCause} (hit : angleCheck x prev s = some (poles, cause)) :
    collectorTake x prev offWire s = seenElevations x (makeDrop poles cause x (s.setCm (countEpoch s.cm))) := by
  have hit : angleCheck x prev (s.setCm (countEpoch s.cm)) = some (poles, cause) := hit
  simp only [collectorTake, hit]
  rfl

/-- R49: without an angle hit the set moves the collector by its state. -/
theorem collectorTake_noHit (noHit : angleCheck x prev s = none) :
    collectorTake x prev offWire s = seenElevations x (takeTransition x offWire (s.setCm (countEpoch s.cm))) := by
  have noHit : angleCheck x prev (s.setCm (countEpoch s.cm)) = none := noHit
  simp only [collectorTake, noHit]
  rfl

end

/-! ### A set -/

/-- R49 to R57: a property that each move of the collector keeps is kept by the transition of a set. -/
theorem takeTransition_keeps {P : State → Prop} {x : Sample} {offWire : Bool} {s : State}
    (counted : P (s.setCm (countSet (presenceOf (s.par .vPresent) x.v) s.cm)))
    (enter : ∀ st u, st ∉ [.suspect, .dropped] → P u → P (enterState st none u)) (suspect : ∀ u, P u → P (enterSuspect u))
    (drop : ∀ p c u, P u → P (makeDrop p c x u)) (learn : ∀ u, P u → P (learnGap u)) (raised : ∀ src u, P u → P (raise src u)) :
    P (takeTransition x offWire s) := by
  unfold takeTransition
  dsimp only
  generalize s.setCm (countSet (presenceOf (s.par .vPresent) x.v) s.cm) = u at counted ⊢
  generalize presenceOf (s.par .vPresent) x.v = presence
  have enters : ∀ st, st ∉ [.suspect, .dropped] → P (enterState st none u) := fun st m => enter st u m counted
  cases s.cm.state with
  | down | dropped => exact counted
  | raising =>
    unfold takeRaising
    exact iteInduction (fun _ => enters _ (by decide)) fun _ =>
      iteInduction (fun _ => raised _ _ (enters _ (by decide))) fun _ => counted
  | onWire =>
    unfold takeOnWire
    exact iteInduction (fun _ => enters _ (by decide)) fun _ => iteInduction
      (fun _ => iteInduction (fun _ => enters _ (by decide)) fun _ => suspect _ counted) fun _ => counted
  | gap =>
    unfold takeGap
    exact iteInduction (fun _ => enters _ (by decide)) fun _ => iteInduction (fun _ => enters _ (by decide)) fun _ =>
      iteInduction (fun _ => raised _ _ (suspect _ counted)) fun _ => counted
  | suspect =>
    unfold takeSuspect
    exact iteInduction (fun _ => enters _ (by decide)) fun _ => iteInduction (fun _ => drop _ _ _ counted) fun _ =>
      iteInduction (fun _ => enter _ _ (by decide) (learn _ counted)) fun _ => counted
  | unloading =>
    unfold takeUnloading
    exact iteInduction (fun _ => enters _ (by decide)) fun _ => counted
  | lowering =>
    unfold takeLowering
    exact iteInduction (fun _ => enters _ (by decide)) fun _ => counted

theorem learnGap_cm (s : State) : (learnGap s).cm = s.cm := (learnGap_touches s).cm (by decide)

theorem takeTransition_collectorInv {s : State} (h : CollectorInv s.cm) (x : Sample) (offWire : Bool) :
    CollectorInv (takeTransition x offWire s).cm := by
  refine takeTransition_keeps (P := fun u => CollectorInv u.cm) h (fun st u m h => ?_)
    (fun _ h => enterSuspect_collectorInv h.log_le) (fun p c _ h => makeDrop_collectorInv h p c x)
    (fun u h => by rw [learnGap_cm]; exact h) fun _ _ h => h
  simp only [List.mem_cons, List.not_mem_nil, or_false, not_or] at m
  exact enterState_collectorInv h m.1 ⟨Bool.noConfusion, fun e => absurd e m.2⟩

theorem collectorTake_collectorInv {s : State} (h : CollectorInv s.cm) (x : Sample) (prev : PerPole (Option (BitVec 10)))
    (offWire : Bool) : CollectorInv (collectorTake x prev offWire s).cm := by
  have ticked : CollectorInv (s.setCm (countEpoch s.cm)).cm := h
  cases hit : angleCheck x prev s with
  | none =>
    rw [collectorTake_noHit hit]
    exact takeTransition_collectorInv ticked x offWire
  | some drop =>
    rw [collectorTake_hit hit]
    exact makeDrop_collectorInv ticked drop.1 drop.2 x

theorem acceptedSet_cm (x : Sample) (s : State) : (acceptedSet x s).cm = (movedAtSet x s).cm :=
  (loadsAndBudget_touches _ _).cm (by decide)

theorem acceptedSet_collectorInv {s : State} (h : CollectorInv s.cm) (x : Sample) : CollectorInv (acceptedSet x s).cm := by
  have found : (notePrevMatch (setFound x s)).cm = s.cm :=
    ((setFound_touches x s).trans ((notePrevMatch_touches _).mono (by decide))).cm (by decide)
  rw [acceptedSet_cm]
  exact collectorTake_collectorInv (by rw [found]; exact h) x _ _

theorem unloadShare_cm (x : Sample) (s : State) : (unloadShare x s).cm = (collectorShare x s).cm := by
  unfold unloadShare
  dsimp only
  split
  · exact (supplyStep_touches _).cm (by decide)
  · rfl

/-! ### Every command -/

theorem failChannel_collectorInv {s : State} (h : CollectorInv s.cm) (ch : Channel) (why : FailReason) :
    CollectorInv (failChannel ch why s).cm := by
  by_cases active : s.si.active = some ch
  · by_cases standby : (s.si.chan.get (otherChannel ch)).health = .healthy
    · rw [failChannel_failover active standby]
      exact h
    · rw [failChannel_lost active (health_failed_of_ne standby), loseSense_eq]
      exact h
  · rw [failChannel_standby active]
    exact h

/-- R73: the reset values of CM, whatever log is kept. -/
theorem resetCollector_inv {cm : Collector} (log : cm.log.length ≤ 8) : CollectorInv (reinitCollector cm) := by
  refine ⟨fun _ => rfl, fun m => ?_, CollectorState.noConfusion, ⟨Bool.noConfusion, CollectorState.noConfusion⟩, fun _ => rfl,
    ⟨Bool.noConfusion, CollectorState.noConfusion⟩, log⟩
  exact absurd (show CollectorState.down ∈ _ from m) (by decide)

theorem requestBlocks_cm {k : Kind} (h : k ∉ [.dropSeen, .raise, .lower, .clearDrop, .popDropLog, .setPosition, .reinit]) :
    Block.cm ∉ .lp :: requestBlocks k := by
  revert h; cases k <;> decide

theorem ownRaise_collectorInv {s : State} (h : CollectorInv s.cm) : CollectorInv (ownRaise s).state.cm := by
  unfold ownRaise
  split
  · split
    · exact h
    · split
      · exact h
      · exact enterState_collectorInv h (by decide) (by decide)
  all_goals exact h

theorem ownLower_collectorInv {s : State} (h : CollectorInv s.cm) : CollectorInv (ownLower s).state.cm := by
  unfold ownLower
  split
  · exact enterState_collectorInv h (by decide) (by decide)
  · exact enterState_collectorInv h (by decide) (by decide)
  · exact enterState_collectorInv h (by decide) (by decide)
  · exact enterState_collectorInv h (by decide) (by decide)
  all_goals exact h

theorem ownClearDrop_collectorInv {s : State} (h : CollectorInv s.cm) : CollectorInv (ownClearDrop s).state.cm := by
  unfold ownClearDrop
  split
  · split
    · exact enterState_collectorInv h (by decide) (by decide)
    · exact h
  · exact h

theorem ownPopDropLog_collectorInv {s : State} (h : CollectorInv s.cm) : CollectorInv (ownPopDropLog s).state.cm := by
  obtain ⟨asserted, released, dropped, masked, metre, epoch, log⟩ := h
  unfold ownPopDropLog
  split
  · exact ⟨asserted, released, dropped, masked, metre, epoch, log⟩
  · next r rest e =>
    rw [e] at log
    exact ⟨asserted, released, dropped, masked, metre, epoch, Nat.le_of_succ_le log⟩

/-- R53: SET POSITION takes a suspect's loss metre away, and leaves the loss epoch. -/
theorem ownSetPosition_collectorInv {s : State} (h : CollectorInv s.cm) (p : List Byte) :
    CollectorInv (ownSetPosition p s).state.cm := by
  obtain ⟨asserted, released, dropped, masked, metre, epoch, log⟩ := h
  refine ⟨asserted, released, dropped, masked, fun other => ?_, epoch, log⟩
  exact (if_neg other).trans (metre other)

theorem ownerAnswer_collectorInv {s : State} (h : CollectorInv s.cm) (k : Kind) (l : Link) (p : List Byte) :
    CollectorInv (ownerAnswer k l p s).state.cm := by
  by_cases m : k ∈ [.dropSeen, .raise, .lower, .clearDrop, .popDropLog, .setPosition, .reinit]
  · simp only [List.mem_cons, List.not_mem_nil, or_false] at m
    obtain rfl | rfl | rfl | rfl | rfl | rfl | rfl := m
    · simp only [ownerAnswer, ownDropSeen]
      split <;> exact h
    · exact ownRaise_collectorInv h
    · exact ownLower_collectorInv h
    · exact ownClearDrop_collectorInv h
    · exact ownPopDropLog_collectorInv h
    · exact ownSetPosition_collectorInv h p
    · simp only [ownerAnswer, ownReinit]
      split
      · exact resetCollector_inv h.log_le
      · exact h
  · rw [(ownerAnswer_touches k l p s).cm (requestBlocks_cm m)]
    exact h

/-- R47, R53, R60, R69: each change that commands are made of keeps the collector's property. -/
theorem collectorInv_kept : Kept fun s => CollectorInv s.cm where
  port _ _ h := h
  pending _ _ h := h
  powerOn _ _ := resetCollector_inv (cm := resetCollector) (by decide)
  release _ h _ := h
  tick _ h := h
  expire ch _ h _ := failChannel_collectorInv h ch _
  rx _ _ h := h
  frame ch f _ h _ := frameArrives_keeps (P := fun s => CollectorInv s.cm) h (fun _ _ h _ => h)
    (fun _ h => failChannel_collectorInv h ch _) (fun x _ h => acceptedSet_collectorInv h x)
  share x _ h _ := collectorTake_collectorInv h x _ _
  unload x s h _ := by
    rw [unloadShare_cm]
    exact collectorTake_collectorInv h x _ _
  wrap _ _ h := h
  idle _ _ h _ := h
  observe _ h := h
  window v s h := by rw [(windowStep_touches v s).cm (by decide)]; exact h
  freeze s h _ := by rw [(frozenComputation_touches s).cm (by decide)]; exact h
  start s h _ := by rw [(startHead_touches s).cm (by decide)]; exact h
  own k l p _ h := ownerAnswer_collectorInv h k l p

/-- Settles O58: the collector's property is kept by every change that a step is made of. -/
theorem stepKeepsCollectorInv : Obligations.StepKeepsCollectorInv := fun _ _ h e => collectorInv_kept.step h e

end Sys2Proof.Machine

/-! PROOFS. The requests of CM: RAISE, LOWER, CLEAR DROP, DROP SEEN and the drop log (R63 to R65, R67, R70, R71). -/

namespace Sys2Proof.Machine

/-! ### The state entered -/

/-- R45, R47, R53: an entry into a state, under the collector's property. -/
theorem enterState_eq {s : State} (h : CollectorInv s.cm) (st : CollectorState) (mask : Option DropPoles) :
    enterState st mask s = s.setCm { s.cm with
      state := st, presentCount := 0, confirmCount := 0, epochsIn := 0, lossMetre := none, lossEpoch := none
      dropMask := mask, lines := linesOf st mask (s.par .lowerBoth) } := by
  have metre : (if s.cm.state = .suspect then none else s.cm.lossMetre) = none :=
    enterState_lossMetre h (st := st) (mask := mask)
  have epoch : (if s.cm.state = .suspect then none else s.cm.lossEpoch) = none :=
    enterState_lossEpoch h (st := st) (mask := mask)
  simp only [enterState, metre, epoch]

/-- R174, R175: what a request on a free link leaves, from its owning block's answer. -/
theorem requestCommand_answered {k : Kind} {l : Link} {body : RequestBody} {s t : State} {r : Result} {p : List Byte}
    (free : LinkFree l s) (framed : FramedAs k body) (may : permitted l k = true)
    (own : ownerAnswer k l body.payload s = ⟨t, r, p⟩) :
    requestCommand k l body s = .next (replied l (kindCode k) body r p t) := by
  rw [requestCommand_replied free framed may, own]

/-! ### RAISE, LOWER and CLEAR DROP -/

/-- R42: an entry of a kind matches at P, said entry by entry. -/
theorem matchingZone_isSome (k : ZoneKind) (s : State) : (matchingZone k s).isSome = true ↔
    ∃ i, (entry s.rft.zones i).kind = k ∧ (entry s.rft.zones i).enable = true ∧ s.pt.isSet = true ∧
      (BitVec.ofNat 12 (s.pt.metre / 16) ^^^ (entry s.rft.zones i).base) &&& (entry s.rft.zones i).mask = 0 := by
  rw [← not_iff_not, Option.not_isSome_iff_eq_none, matchingZone_eq_none]
  simp only [zoneMatches_kind, not_exists]

section
variable {s : State} (down : s.cm.state = .down)
include down

theorem ownRaise_senseLost (lost : s.si.senseLost = true) : ownRaise s = refuse .senseLost s := by
  simp only [ownRaise, down, lost, if_true]

theorem ownRaise_inZone (sensed : s.si.senseLost = false) (zone : (matchingZone .offWire s).isSome = true) :
    ownRaise s = refuse .inZone s := by
  simp only [ownRaise, down, sensed, zone, if_true, Bool.false_eq_true, if_false]

theorem ownRaise_ok (sensed : s.si.senseLost = false) (clear : (matchingZone .offWire s).isSome = false) :
    ownRaise s = answerOk (enterState .raising none s) := by
  simp only [ownRaise, down, sensed, clear, Bool.false_eq_true, if_false]

end

theorem ownRaise_already {s : State} (st : s.cm.state ∈ [.raising, .onWire, .gap, .suspect]) :
    ownRaise s = refuse .already s := by
  simp only [List.mem_cons, List.not_mem_nil, or_false] at st
  obtain st | st | st | st := st <;> simp only [ownRaise, st]

theorem ownRaise_busy {s : State} (st : s.cm.state ∈ [.unloading, .lowering]) : ownRaise s = refuse .busy s := by
  simp only [List.mem_cons, List.not_mem_nil, or_false] at st
  obtain st | st := st <;> simp only [ownRaise, st]

/-- Settles O16, by the state in which CM finds the request. -/
theorem raiseAnswered : Obligations.RaiseAnswered := by
  intro body s free framed inv answers inZone
  have sent : ∀ {r t}, ownRaise s = ⟨t, r, []⟩ → answers r t := requestCommand_answered free framed rfl
  refine ⟨fun down lost => sent (ownRaise_senseLost down lost), fun down sensed zone => sent ?_,
    fun down sensed clear => sent ?_, fun st => sent (ownRaise_already st), fun st => sent (ownRaise_busy st), fun st => sent ?_⟩
  · exact ownRaise_inZone down sensed ((matchingZone_isSome _ s).mpr zone)
  · have none : (matchingZone .offWire s).isSome = false := Bool.eq_false_iff.mpr (mt (matchingZone_isSome _ s).mp clear)
    rw [ownRaise_ok down sensed none, enterState_eq inv]
    have mask := inv.mask_none (down ▸ by decide)
    obtain ⟨metre, epoch⟩ := inv.loss_none (down ▸ by decide)
    simp only [answerOk, mask, metre, epoch, linesOf_released (st := .raising) (by decide)]
  · simp only [ownRaise, st, refuse]

theorem ownLower_onLine {s : State} (st : s.cm.state ∈ [.onWire, .gap, .suspect]) :
    ownLower s = answerOk (enterState .unloading none s) := by
  simp only [List.mem_cons, List.not_mem_nil, or_false] at st
  obtain st | st | st := st <;> simp only [ownLower, st]

theorem ownLower_already {s : State} (st : s.cm.state ∈ [.unloading, .lowering, .down]) : ownLower s = refuse .already s := by
  simp only [List.mem_cons, List.not_mem_nil, or_false] at st
  obtain st | st | st := st <;> simp only [ownLower, st]

/-- Settles O17, by the state in which CM finds the request. -/
theorem lowerAnswered : Obligations.LowerAnswered := by
  intro body s free framed inv answers entered
  have sent : ∀ {r t}, ownLower s = ⟨t, r, []⟩ → answers r t := requestCommand_answered free framed rfl
  refine ⟨fun st => sent ?_, fun st => sent ?_, fun st => sent (ownLower_already st), fun st => sent ?_⟩
  · have mask := inv.mask_none fun e => absurd st (e ▸ by decide)
    have wire : [CollectorState.onWire, .gap, .suspect] ⊆ [.raising, .onWire, .gap, .suspect, .unloading] := by decide
    have lines := inv.lines_released (wire st)
    rw [ownLower_onLine st, enterState_eq inv]
    simp only [answerOk, entered, mask, lines, linesOf_released (st := .unloading) (by decide)]
  · have mask := inv.mask_none (st ▸ by decide)
    have own : ownLower s = answerOk (enterState .lowering none s) := by simp only [ownLower, st]
    rw [own, enterState_eq inv]
    simp only [answerOk, entered, mask, linesOf_asserted (st := .lowering) (by decide)]
  · simp only [ownLower, st, refuse]

/-- R57, R65: a stowed elevation. -/
theorem stowed_iff (limit : Nat) (elev : Option (BitVec 10)) :
    stowed limit elev = true ↔ ∃ e, elev = some e ∧ e.toNat ≤ limit := by
  cases elev with
  | none => simp [stowed]
  | some e => simp [stowed]

theorem bothStowed_iff (limit : Nat) (pos neg : Option (BitVec 10)) : (stowed limit pos && stowed limit neg) = true ↔
    (∃ e, pos = some e ∧ e.toNat ≤ limit) ∧ ∃ e, neg = some e ∧ e.toNat ≤ limit := by
  rw [Bool.and_eq_true, stowed_iff, stowed_iff]

/-- Settles O18: cleared, not stowed, no drop. -/
theorem clearDropAnswered : Obligations.ClearDropAnswered := by
  intro body s free framed inv answers low
  have sent : ∀ {r t}, ownClearDrop s = ⟨t, r, []⟩ → answers r t := requestCommand_answered free framed rfl
  refine ⟨fun st pos neg => sent ?_, fun st high => sent ?_, fun st => sent (if_neg st)⟩
  · have own : ownClearDrop s = answerOk (enterState .down none s) :=
      (if_pos st).trans (if_pos ((bothStowed_iff _ _ _).mpr ⟨pos, neg⟩))
    obtain ⟨metre, epoch⟩ := inv.loss_none (st ▸ by decide)
    rw [own, enterState_eq inv]
    simp only [answerOk, metre, epoch, linesOf_asserted (st := .down) (by decide)]
  · exact (if_pos st).trans (if_neg fun both => high ((bothStowed_iff _ _ _).mp both))

/-! ### DROP SEEN and the drop log -/

/-- Table 3-1: the byte of a drop's poles and cause, with three presence flags. -/
theorem polesByte_eq (poles cause metre v i : Nat) : packByte [(poles, 0), (cause, 3), (metre, 5), (v, 6), (i, 7)] =
    BitVec.ofNat 8 (poles + 8 * cause + 32 * metre + 64 * v + 128 * i) := by
  rw [packByte_eq]
  exact congrArg (BitVec.ofNat 8) (by simp; omega)

/-- Table 3-1: the byte of the state before a drop, with five presence flags. -/
theorem beforeByte_eq (before elevPos elevNeg latPos latNeg armed : Nat) :
    packByte [(before, 0), (elevPos, 3), (elevNeg, 4), (latPos, 5), (latNeg, 6), (armed, 7)] =
      BitVec.ofNat 8 (before + 8 * elevPos + 16 * elevNeg + 32 * latPos + 64 * latNeg + 128 * armed) := by
  rw [packByte_eq]
  exact congrArg (BitVec.ofNat 8) (by simp; omega)

/-- A signed field is sent sign-extended. -/
theorem sentSigned_eq {w : Nat} (x : Option (BitVec w)) : sentSigned x = wordOf ((x.getD 0).signExtend 16).toNat := rfl

/-- Table 3-1: the payload of a record in numbers, its codes given by any functions that agree with them. -/
theorem recordPayload_eq (r : DropRecord) {poles cause before : Nat} {armed : Byte}
    (poles_eq : polesCode (some r.poles) = poles) (cause_eq : causeCode r.cause = cause) (before_eq : collectorCode r.before = before)
    (armed_eq : (r.firstArmed.map featureCode).getD 0 = armed) : recordPayload r =
      [r.number] ++ wordOf (r.stamp.toNat / 65536) ++ wordOf r.stamp.toNat ++
        [BitVec.ofNat 8 (poles + 8 * cause + 32 * r.metre.isSome.toNat + 64 * r.v.isSome.toNat + 128 * r.i.isSome.toNat),
         BitVec.ofNat 8 (before + 8 * r.elevPos.isSome.toNat + 16 * r.elevNeg.isSome.toNat +
           32 * r.latPos.isSome.toNat + 64 * r.latNeg.isSome.toNat + 128 * r.firstArmed.isSome.toNat)] ++
        wordOf (r.metre.getD 0) ++ wordOf (r.v.getD 0).toNat ++ wordOf ((r.i.getD 0).signExtend 16).toNat ++
        wordOf (r.elevPos.getD 0).toNat ++ wordOf (r.elevNeg.getD 0).toNat ++
        wordOf ((r.latPos.getD 0).signExtend 16).toNat ++ wordOf ((r.latNeg.getD 0).signExtend 16).toNat ++ [armed] := by
  subst poles_eq cause_eq before_eq armed_eq
  simp only [recordPayload, polesByte_eq, beforeByte_eq, sentSigned_eq, sentField]

theorem ownReadDropLog_cons {s : State} {r : DropRecord} {rest : List DropRecord} (log : s.cm.log = r :: rest) :
    ownReadDropLog s =
      answerWith ([byteOf s.cm.log.length, byteOf s.cm.lost, s.cm.dropNumber] ++ recordPayload r) s := by
  simp only [ownReadDropLog, log, List.head?_cons, Option.map_some, Option.getD_some]

theorem ownReadDropLog_nil {s : State} (log : s.cm.log = []) :
    ownReadDropLog s = answerWith [byteOf s.cm.log.length, byteOf s.cm.lost, s.cm.dropNumber] s := by
  simp only [ownReadDropLog, log, List.head?_nil, Option.map_none, Option.getD_none, List.append_nil]

/-- Settles O19: the mark of the link, the log read, and the log popped. -/
theorem dropSeenAndDropLog : Obligations.DropSeenAndDropLog := by
  refine ⟨fun l body s free framed => ?_, fun body s free => ?_⟩
  · intro answers
    have sent : ∀ {r t}, ownDropSeen l s = ⟨t, r, []⟩ → answers r t := by
      cases l <;> exact requestCommand_answered free framed rfl
    refine ⟨fun marked => ⟨s.cm.marks.put l false, PerLink.get_put_same _ _ _, fun k other => PerLink.get_put_other _ _ other,
      sent (if_pos marked)⟩, fun clear => sent (if_neg ?_)⟩
    rw [clear]
    exact Bool.false_ne_true
  · intro n two head code poles cause state
    refine ⟨fun framed log => ?_, fun r rest framed log => ?_, fun framed log => ?_, fun r rest framed log => ?_⟩
    · exact requestCommand_answered free framed rfl (ownReadDropLog_nil log)
    · have payload : recordPayload r = _ := recordPayload_eq r (poles := poles r.poles) (cause := cause r.cause)
        (before := state r.before) (armed := (r.firstArmed.map code).getD 0) (by cases r.poles <;> rfl)
        (by cases r.cause <;> rfl) (by cases r.before <;> rfl)
        (by cases r.firstArmed with | none => rfl | some k => cases k <;> rfl)
      refine requestCommand_answered free framed rfl ((ownReadDropLog_cons log).trans ?_)
      rw [payload]
      simp only [answerWith, List.append_assoc]
      rfl
    · exact requestCommand_answered free framed rfl (by simp only [ownerAnswer, ownPopDropLog, log, refuse])
    · exact requestCommand_answered free framed rfl (by simp only [ownerAnswer, ownPopDropLog, log, answerWith]; rfl)

end Sys2Proof.Machine

/-! PROOFS. The angle checks of a set and what a drop leaves (R58 to R62, R66, R68, R69). -/

namespace Sys2Proof.Machine

/-! ### The angle checks -/

/-- R58: a pole is checked from ON_WIRE to UNLOADING, and in DROPPED while the mask does not hold it. -/
def Checks (holds : Option DropPoles → Bool) (cm : Collector) : Prop :=
  cm.state ∈ [.onWire, .gap, .suspect, .unloading] ∨ (cm.state = .dropped ∧ holds cm.dropMask = false)

theorem polesChecked_iff (cm : Collector) :
    ((polesChecked cm).pos = true ↔ Checks holdsPos cm) ∧ ((polesChecked cm).neg = true ↔ Checks holdsNeg cm) := by
  unfold polesChecked Checks
  cases cm.state
  case dropped =>
    cases cm.dropMask with
    | none => decide
    | some poles => cases poles <;> decide
  all_goals simp

/-- R59: the RATE test; a tainted elevation or a missing previous one passes. -/
theorem rateHit_iff (limit : Nat) (elev prev : Option (BitVec 10)) :
    rateHit limit elev prev = true ↔ ∃ a b, elev = some a ∧ prev = some b ∧ b.toNat + limit < a.toNat := by
  cases elev <;> cases prev <;> simp [rateHit]

/-- R59: the ELEVATION test. -/
theorem elevationHit_iff (limit : Nat) (elev : Option (BitVec 10)) :
    elevationHit limit elev = true ↔ ∃ a, elev = some a ∧ limit < a.toNat := by
  cases elev <;> simp [elevationHit]

/-- R59: the LATERAL test. -/
theorem lateralHit_iff (limit : Nat) (lat : Option (BitVec 10)) :
    lateralHit limit lat = true ↔ ∃ a, lat = some a ∧ limit < a.toInt.natAbs := by
  cases lat <;> simp [lateralHit]

/-- R59: the lateral limit in force, by whether a FROG is armed. -/
def lateralLimit (s : State) : Nat := if frogEffective s.rft.armed then s.par .latMaxFrog else s.par .latMax

section
variable {checked : Bool} {p : Prop} (on : checked = true ↔ p) (elev prev lat : Option (BitVec 10)) (s : State)
include on

theorem poleHits_rate : (poleHits checked elev prev lat s).rate = true ↔
    p ∧ ∃ a b, elev = some a ∧ prev = some b ∧ b.toNat + s.par .rateLimit < a.toNat :=
  Bool.and_eq_true_iff.trans (and_congr on (rateHit_iff _ _ _))

theorem poleHits_elevation : (poleHits checked elev prev lat s).elevation = true ↔
    p ∧ ∃ a, elev = some a ∧ s.par .elevMax < a.toNat :=
  Bool.and_eq_true_iff.trans (and_congr on (elevationHit_iff _ _))

theorem poleHits_lateral : (poleHits checked elev prev lat s).lateral = true ↔
    p ∧ ∃ a, lat = some a ∧ lateralLimit s < a.toInt.natAbs :=
  Bool.and_eq_true_iff.trans (and_congr on (lateralHit_iff _ _))

/-- R59, R60: a pole that is checked is hit by any of the three tests. -/
theorem poleHits_any : (poleHits checked elev prev lat s).any = true ↔
    p ∧ ((∃ a b, elev = some a ∧ prev = some b ∧ b.toNat + s.par .rateLimit < a.toNat) ∨
      (∃ a, elev = some a ∧ s.par .elevMax < a.toNat) ∨ ∃ a, lat = some a ∧ lateralLimit s < a.toInt.natAbs) := by
  simp only [PoleHits.any, Bool.or_eq_true, or_assoc]
  rw [poleHits_rate on, poleHits_elevation on, poleHits_lateral on, ← and_or_left, ← and_or_left]

end

/-- R60: no drop without a hit. -/
theorem angleDrop_eq_none (pos neg : PoleHits) : angleDrop pos neg = none ↔ ¬pos.any = true ∧ ¬neg.any = true := by
  unfold angleDrop
  cases pos.any <;> cases neg.any <;> simp

/-- R60: the poles of a drop are those hit. -/
theorem angleDrop_poles {pos neg : PoleHits} {poles : DropPoles} {cause : DropCause}
    (h : angleDrop pos neg = some (poles, cause)) :
    (poles = .both ↔ pos.any = true ∧ neg.any = true) ∧ (poles = .pos ↔ pos.any = true ∧ ¬neg.any = true) ∧
      (poles = .neg ↔ ¬pos.any = true ∧ neg.any = true) := by
  unfold angleDrop at h
  revert h
  cases pos.any <;> cases neg.any <;> simp <;> rintro rfl _ <;> simp

/-- R60: the cause of a drop is the first of RATE, ELEVATION, LATERAL over both poles. -/
theorem angleDrop_cause {pos neg : PoleHits} {poles : DropPoles} {cause : DropCause}
    (h : angleDrop pos neg = some (poles, cause)) : cause =
      if pos.rate = true ∨ neg.rate = true then .rate
      else if pos.elevation = true ∨ neg.elevation = true then .elevation else .lateral := by
  unfold angleDrop at h
  simp only [Bool.or_eq_true] at h
  split at h
  · exact (congrArg Prod.snd (Option.some.inj h)).symm
  · exact (congrArg Prod.snd (Option.some.inj h)).symm
  · exact (congrArg Prod.snd (Option.some.inj h)).symm
  · cases h

/-- The cause picked by precedence, said cause by cause. -/
theorem cause_iff {p q : Prop} [Decidable p] [Decidable q] {cause : DropCause}
    (h : cause = if p then .rate else if q then .elevation else .lateral) :
    (cause = .rate ↔ p) ∧ (cause = .elevation ↔ ¬p ∧ q) ∧ cause ≠ .voltageLoss := by
  subst h
  by_cases hp : p
  · simp [hp]
  · by_cases hq : q <;> simp [hp, hq]

/-- Settles O44: the tests pole by pole, the poles and the cause, and the drop. -/
theorem angleChecksAndDrop : Obligations.AngleChecksAndDrop := by
  intro x prev entered s checks lateral rate high wide hitP hitN
  have limit : lateralLimit s = lateral := by
    simp only [lateralLimit, frogEffective_iff]
    rfl
  obtain ⟨onPos, onNeg⟩ := polesChecked_iff s.cm
  have posAny : (poleHits (polesChecked s.cm).pos x.elevPos prev.pos x.latPos s).any = true ↔ hitP := by
    rw [poleHits_any onPos, limit]
    rfl
  have negAny : (poleHits (polesChecked s.cm).neg x.elevNeg prev.neg x.latNeg s).any = true ↔ hitN := by
    rw [poleHits_any onNeg, limit]
    rfl
  refine ⟨(angleDrop_eq_none _ _).trans (by rw [posAny, negAny]), fun poles cause hit => ?_⟩
  have which := angleDrop_poles hit
  rw [posAny, negAny] at which
  obtain ⟨both, onlyPos, onlyNeg⟩ := which
  obtain ⟨byRate, byElevation, notVoltage⟩ := cause_iff (angleDrop_cause hit)
  have rates := or_congr (poleHits_rate onPos x.elevPos prev.pos x.latPos s) (poleHits_rate onNeg x.elevNeg prev.neg x.latNeg s)
  have elevations := or_congr (poleHits_elevation onPos x.elevPos prev.pos x.latPos s)
    (poleHits_elevation onNeg x.elevNeg prev.neg x.latNeg s)
  refine ⟨both, onlyPos, onlyNeg, byRate.trans rates, byElevation.trans (and_congr (not_congr rates) elevations), notVoltage, ?_⟩
  rw [collectorTake_hit hit]
  exact drops_make poles cause x s (s.setCm (countEpoch s.cm)) s.cm.presentCount s.cm.confirmCount rfl fun _ => ⟨rfl, rfl⟩

end Sys2Proof.Machine

/-! PROOFS. The collector's rules on a set without an angle hit, state by state (R45, R48 to R57). -/

namespace Sys2Proof.Machine

/-! ### The rules of each state, one equation per outcome -/

section
variable {presence : Presence} {s : State}

theorem takeRaising_enough (enough : presence = .present ∧ s.par .presentCount ≤ s.cm.presentCount) :
    takeRaising presence s = enterState .onWire none s := if_pos enough

theorem takeRaising_limit (few : ¬(presence = .present ∧ s.par .presentCount ≤ s.cm.presentCount))
    (limit : s.par .raiseLimit ≤ s.cm.epochsIn) : takeRaising presence s = raise .raiseFailed (enterState .down none s) :=
  (if_neg few).trans (if_pos limit)

theorem takeRaising_stays (few : ¬(presence = .present ∧ s.par .presentCount ≤ s.cm.presentCount))
    (early : ¬s.par .raiseLimit ≤ s.cm.epochsIn) : takeRaising presence s = s :=
  (if_neg few).trans (if_neg early)

theorem takeOnWire_zone : takeOnWire presence true s = enterState .unloading none s := if_pos rfl

theorem takeOnWire_gap (absent : presence = .absent) (gap : gapExpected s.rft.armed = true) :
    takeOnWire presence false s = enterState .gap none s :=
  (if_neg Bool.false_ne_true).trans ((if_pos absent).trans (if_pos gap))

theorem takeOnWire_suspect (absent : presence = .absent) (gap : ¬gapExpected s.rft.armed = true) :
    takeOnWire presence false s = enterSuspect s :=
  (if_neg Bool.false_ne_true).trans ((if_pos absent).trans (if_neg gap))

theorem takeOnWire_stays (here : ¬presence = .absent) : takeOnWire presence false s = s :=
  (if_neg Bool.false_ne_true).trans (if_neg here)

theorem takeGap_zone : takeGap presence true s = enterState .unloading none s := if_pos rfl

theorem takeGap_enough (enough : presence = .present ∧ s.par .presentCount ≤ s.cm.presentCount) :
    takeGap presence false s = enterState .onWire none s :=
  (if_neg Bool.false_ne_true).trans (if_pos enough)

theorem takeGap_overrun (absent : presence = .absent) (gap : gapExpected s.rft.armed = false) :
    takeGap presence false s = raise .gapOverrun (enterSuspect s) := by
  subst absent
  exact (if_neg Bool.false_ne_true).trans ((if_neg fun enough => nomatch enough.1).trans (if_pos ⟨rfl, gap⟩))

theorem takeGap_stays (few : ¬(presence = .present ∧ s.par .presentCount ≤ s.cm.presentCount))
    (within : ¬(presence = .absent ∧ gapExpected s.rft.armed = false)) : takeGap presence false s = s :=
  (if_neg Bool.false_ne_true).trans ((if_neg few).trans (if_neg within))

theorem takeSuspect_gap {x : Sample} (gap : gapExpected s.rft.armed = true) :
    takeSuspect presence x s = enterState .gap none s := if_pos gap

section
variable {x : Sample} (gap : ¬gapExpected s.rft.armed = true)
include gap

theorem takeSuspect_drop (lost : presence = .absent ∧ s.par .confirmCount ≤ s.cm.confirmCount) :
    takeSuspect presence x s = makeDrop .unknown .voltageLoss x s :=
  (if_neg gap).trans (if_pos lost)

theorem takeSuspect_recover (enough : presence = .present ∧ s.par .presentCount ≤ s.cm.presentCount) :
    takeSuspect presence x s = recoverFromSuspect s := by
  obtain ⟨rfl, count⟩ := enough
  exact (if_neg gap).trans ((if_neg fun lost => nomatch lost.1).trans (if_pos ⟨rfl, count⟩))

theorem takeSuspect_stays (held : ¬(presence = .absent ∧ s.par .confirmCount ≤ s.cm.confirmCount))
    (few : ¬(presence = .present ∧ s.par .presentCount ≤ s.cm.presentCount)) : takeSuspect presence x s = s :=
  (if_neg gap).trans ((if_neg held).trans (if_neg few))

end

variable {x : Sample}

/-- R56: a quiet current, or the limit, ends UNLOADING. -/
theorem takeUnloading_ends
    (ends : (∃ i, x.i = some i ∧ i.toInt.natAbs ≤ s.par .iQuiet) ∨ s.par .unloadLimit ≤ s.cm.epochsIn) :
    takeUnloading x s = enterState .lowering none s := by
  refine if_pos (ends.imp_left ?_)
  rintro ⟨i, e, quiet⟩
  rw [e]
  exact decide_eq_true quiet

theorem takeUnloading_stays
    (goes : ¬((∃ i, x.i = some i ∧ i.toInt.natAbs ≤ s.par .iQuiet) ∨ s.par .unloadLimit ≤ s.cm.epochsIn)) :
    takeUnloading x s = s := by
  refine if_neg fun ends => goes (ends.imp_left fun quiet => ?_)
  cases e : x.i with
  | none => rw [e] at quiet; cases quiet
  | some i => rw [e] at quiet; exact ⟨i, rfl, of_decide_eq_true quiet⟩

theorem takeLowering_down
    (low : (∃ e, x.elevPos = some e ∧ e.toNat ≤ s.par .stow) ∧ ∃ e, x.elevNeg = some e ∧ e.toNat ≤ s.par .stow) :
    takeLowering x s = enterState .down none s := if_pos ((bothStowed_iff _ _ _).mpr low)

theorem takeLowering_stays
    (high : ¬((∃ e, x.elevPos = some e ∧ e.toNat ≤ s.par .stow) ∧ ∃ e, x.elevNeg = some e ∧ e.toNat ≤ s.par .stow)) :
    takeLowering x s = s := if_neg fun both => high ((bothStowed_iff _ _ _).mp both)

/-- R55: no learned insert without the learn parameter, a position and a loss metre. -/
theorem learnGap_none (h : ¬(s.par .learn = 1 ∧ s.pt.isSet = true ∧ s.cm.lossMetre ≠ none)) : learnGap s = s := by
  unfold learnGap
  split
  · rfl
  · next loss metre =>
    refine if_neg fun learns => h ⟨learns.1, learns.2, ?_⟩
    rw [metre]
    exact Option.some_ne_none loss

section
variable {m : Nat} (learn : s.par .learn = 1) (isSet : s.pt.isSet = true) (loss : s.cm.lossMetre = some m)
include learn isSet loss

theorem learnGap_refused (made : learnedInsert m (learnedLength s.pt.metre m) (s.par .learnFactor) s.rft = none) :
    learnGap s = raise .tableRefused s := by
  unfold learnGap
  rw [loss]
  refine (if_pos ⟨learn, isSet⟩).trans ?_
  rw [made]

theorem learnGap_stored {rt : RouteTable}
    (made : learnedInsert m (learnedLength s.pt.metre m) (s.par .learnFactor) s.rft = some rt) :
    learnGap s = raise .learnedGap (s.setRft rt) := by
  unfold learnGap
  rw [loss]
  refine (if_pos ⟨learn, isSet⟩).trans ?_
  rw [made]

end

end

/-! ### A set by the state that finds it -/

/-- R45, R48: the state that the rules of a set without an angle hit read: its counts counted. -/
def countedAt (x : Sample) (s : State) : State :=
  (s.setCm (countEpoch s.cm)).setCm (countSet (presenceOf (s.par .vPresent) x.v) (countEpoch s.cm))

/-- R50 to R57: the rules of a state, on the presence of V, the sample, an entry into a zone, and the counted state. -/
def rulesOf (presence : Presence) (x : Sample) (offWire : Bool) (counted : State) : CollectorState → State
  | .down | .dropped => counted
  | .raising => takeRaising presence counted
  | .onWire => takeOnWire presence offWire counted
  | .gap => takeGap presence offWire counted
  | .suspect => takeSuspect presence x counted
  | .unloading => takeUnloading x counted
  | .lowering => takeLowering x counted

/-- R49: CM's work on a set without an angle hit is the rules of the state that finds it. -/
theorem collectorTake_in {x : Sample} {prev : PerPole (Option (BitVec 10))} {offWire : Bool} {s : State} {c : CollectorState}
    (noHit : angleCheck x prev s = none) (st : s.cm.state = c) : collectorTake x prev offWire s =
      seenElevations x (rulesOf (presenceOf (s.par .vPresent) x.v) x offWire (countedAt x s) c) := by
  rw [collectorTake_noHit noHit, ← st]
  rfl

/-! ### The counts, and the states entered from them -/

/-- R45, R48: which counts move in which states. -/
theorem countSet_eq (presence : Presence) (cm : Collector) : countSet presence cm = { cm with
    presentCount := if cm.state ∈ [.raising, .gap, .suspect]
      then if presence = .present then min (cm.presentCount + 1) 255 else if presence = .absent then 0 else cm.presentCount
      else cm.presentCount
    confirmCount := if cm.state = .suspect
      then if presence = .absent then min (cm.confirmCount + 1) 255 else cm.confirmCount else cm.confirmCount } := by
  obtain ⟨state⟩ := cm
  cases state <;> cases presence <;> rfl

/-- R45, R48: the counts after a set, by whether V is present or absent. -/
theorem countedAt_eq {x : Sample} {s : State} {present absent : Prop} [Decidable present] [Decidable absent]
    (isPresent : presenceOf (s.par .vPresent) x.v = .present ↔ present)
    (isAbsent : presenceOf (s.par .vPresent) x.v = .absent ↔ absent) :
    countedAt x s = s.setCm { s.cm with
      epochsIn := min (s.cm.epochsIn + 1) 65535
      presentCount := if s.cm.state ∈ [.raising, .gap, .suspect]
        then if present then min (s.cm.presentCount + 1) 255 else if absent then 0 else s.cm.presentCount
        else s.cm.presentCount
      confirmCount := if s.cm.state = .suspect
        then if absent then min (s.cm.confirmCount + 1) 255 else s.cm.confirmCount else s.cm.confirmCount } := by
  simp only [← isPresent, ← isAbsent]
  rw [countedAt, countSet_eq]
  rfl

section
variable {x : Sample} {s : State} {absent : Prop} [Decidable absent] (isAbsent : presenceOf (s.par .vPresent) x.v = .absent ↔ absent)
include isAbsent

theorem countedAt_presentCount {present : Prop} [Decidable present]
    (isPresent : presenceOf (s.par .vPresent) x.v = .present ↔ present) (counting : s.cm.state ∈ [.raising, .gap, .suspect]) :
    (countedAt x s).cm.presentCount =
      if present then min (s.cm.presentCount + 1) 255 else if absent then 0 else s.cm.presentCount := by
  rw [countedAt_eq isPresent isAbsent]
  exact if_pos counting

theorem countedAt_confirmCount (st : s.cm.state = .suspect) :
    (countedAt x s).cm.confirmCount = if absent then min (s.cm.confirmCount + 1) 255 else s.cm.confirmCount := by
  rw [countedAt_eq Iff.rfl isAbsent]
  exact if_pos st

end

/-- The state in which CM enters a state at a set, its elevations noted. -/
def enteredAt (x : Sample) (st : CollectorState) (s : State) : State := s.setCm { s.cm with
  state := st, presentCount := 0, confirmCount := 0, epochsIn := 0, lossMetre := none, lossEpoch := none
  lines := if st ∈ [.down, .lowering] then ⟨true, true⟩ else ⟨false, false⟩, lastElev := ⟨x.elevPos, x.elevNeg⟩ }

/-- R47: outside DROPPED the state alone gives the lower lines. -/
theorem linesOf_state {st : CollectorState} (h : st ≠ .dropped) (mask : Option DropPoles) (lowerBoth : Nat) :
    linesOf st mask lowerBoth = if st ∈ [.down, .lowering] then ⟨true, true⟩ else ⟨false, false⟩ := by
  cases st
  case dropped => exact absurd rfl h
  all_goals rfl

section
variable {x : Sample} {s : State} (inv : CollectorInv s.cm) (held : s.cm.state ≠ .dropped)
include inv held

/-- R45, R47, R53: an entry at a set, seen from the state before the set. -/
theorem seen_enterState {st : CollectorState} (h : st ≠ .dropped) :
    seenElevations x (enterState st none (countedAt x s)) = enteredAt x st s := by
  have counted : CollectorInv (countedAt x s).cm := inv
  rw [enterState_eq counted, linesOf_state h]
  simp only [enteredAt, inv.mask_none held]
  rfl

/-- R53: the entry into SUSPECT at a set. -/
theorem seen_enterSuspect : seenElevations x (enterSuspect (countedAt x s)) =
    raise .dropSuspect (s.setCm { (enteredAt x .suspect s).cm with
      lossMetre := if s.pt.isSet then some s.pt.metre else none, lossEpoch := some s.si.epoch }) := by
  rw [← seen_enterState inv held (by decide)]
  rfl

end

/-- R54, R61: the drop of a SUSPECT whose confirm count reaches its limit. -/
theorem collectorTake_confirmed {x : Sample} {prev : PerPole (Option (BitVec 10))} {offWire : Bool} {s : State}
    (noHit : angleCheck x prev s = none) (st : s.cm.state = .suspect) (gap : ¬gapExpected s.rft.armed = true)
    (absent : presenceOf (s.par .vPresent) x.v = .absent) (confirmed : s.par .confirmCount ≤ min (s.cm.confirmCount + 1) 255) :
    ∃ u, collectorTake x prev offWire s = raise .poleDrop (s.setCm u) ∧ Drops .unknown .voltageLoss x s u ∧
      u.lastElev = ⟨x.elevPos, x.elevNeg⟩ := by
  have moves : collectorTake x prev offWire s = seenElevations x
      (takeSuspect (presenceOf (s.par .vPresent) x.v) x (countedAt x s)) := collectorTake_in noHit st
  have reached : s.par .confirmCount ≤ (countedAt x s).cm.confirmCount := by
    rwa [countedAt_confirmCount Iff.rfl st, if_pos absent]
  rw [moves, takeSuspect_drop (s := countedAt x s) gap ⟨absent, reached⟩]
  exact drops_make .unknown .voltageLoss x s _ _ _ (countedAt_eq Iff.rfl Iff.rfl) fun dropped => absurd (st.symm.trans dropped) (by decide)

/-- Settles O45, by the state that finds the set: each clause is one outcome of that state's rules. -/
theorem collectorTransition : Obligations.CollectorTransition := by
  intro x prev zone s inv noHit t epochs present absent presents confirms enough gap quiet low stays entered suspect
  have isPresent : presenceOf (s.par .vPresent) x.v = .present ↔ present := presenceOf_present _ _
  have isAbsent : presenceOf (s.par .vPresent) x.v = .absent ↔ absent := presenceOf_absent _ _
  have isGap : gapExpected (countedAt x s).rft.armed = true ↔ gap := gapExpected_iff _
  have noGap : ¬gap → gapExpected (countedAt x s).rft.armed = false := fun g => Bool.eq_false_iff.mpr (mt isGap.mp g)
  have stay : seenElevations x (countedAt x s) = stays := by rw [countedAt_eq isPresent isAbsent]; rfl
  have enter : s.cm.state ≠ .dropped → ∀ st, st ≠ .dropped →
      seenElevations x (enterState st none (countedAt x s)) = entered st :=
    fun held _ => seen_enterState inv held
  have suspects : s.cm.state ≠ .dropped → seenElevations x (enterSuspect (countedAt x s)) = suspect := seen_enterSuspect inv
  have isEnough : s.cm.state ∈ [.raising, .gap, .suspect] → ((presenceOf (s.par .vPresent) x.v = .present ∧
      (countedAt x s).par .presentCount ≤ (countedAt x s).cm.presentCount) ↔ enough) := fun counting =>
    and_congr isPresent (by rw [countedAt_presentCount isAbsent isPresent counting]; exact Iff.rfl)
  have isConfirmed : s.cm.state = .suspect → ((presenceOf (s.par .vPresent) x.v = .absent ∧
      (countedAt x s).par .confirmCount ≤ (countedAt x s).cm.confirmCount) ↔ absent ∧ s.par .confirmCount ≤ confirms) :=
    fun st => and_congr isAbsent (by rw [countedAt_confirmCount isAbsent st]; exact Iff.rfl)
  refine ⟨fun st => ?_, fun st => ?_, fun st => ?_, fun st => ?_, fun st => ?_, fun st => ?_, fun st => ?_⟩
  · have moves : t = seenElevations x (countedAt x s) := by
      simp only [List.mem_cons, List.not_mem_nil, or_false] at st
      obtain st | st := st <;> exact collectorTake_in noHit st
    rw [moves, stay]
  · have moves : t = seenElevations x (takeRaising _ (countedAt x s)) := collectorTake_in noHit st
    have isEnough := isEnough (by rw [st]; decide)
    have enter := enter (by rw [st]; decide)
    refine ⟨fun e => ?_, fun few limit => ?_, fun few early => ?_⟩
    · rw [moves, takeRaising_enough (isEnough.mpr e), enter _ (by decide)]
    · rw [moves, takeRaising_limit (s := countedAt x s) (mt isEnough.mp few) limit, ← enter _ (by decide)]
      rfl
    · rw [moves, takeRaising_stays (mt isEnough.mp few) (Nat.not_le.mpr early), stay]
  · have moves : t = seenElevations x (takeOnWire _ zone (countedAt x s)) := collectorTake_in noHit st
    have held : s.cm.state ≠ .dropped := by rw [st]; decide
    refine ⟨fun z => ?_, fun z here => ?_, fun z lost => ⟨fun g => ?_, fun g => ?_⟩⟩
    · rw [moves, z, takeOnWire_zone, enter held _ (by decide)]
    · rw [moves, z, takeOnWire_stays (mt isAbsent.mp here), stay]
    · rw [moves, z, takeOnWire_gap (isAbsent.mpr lost) (isGap.mpr g), enter held _ (by decide)]
    · rw [moves, z, takeOnWire_suspect (isAbsent.mpr lost) (mt isGap.mp g), suspects held]
  · have moves : t = seenElevations x (takeGap _ zone (countedAt x s)) := collectorTake_in noHit st
    have isEnough := isEnough (by rw [st]; decide)
    have held : s.cm.state ≠ .dropped := by rw [st]; decide
    refine ⟨fun z => ?_, fun z e => ?_, fun z lost g => ?_, fun z few within => ?_⟩
    · rw [moves, z, takeGap_zone, enter held _ (by decide)]
    · rw [moves, z, takeGap_enough (isEnough.mpr e), enter held _ (by decide)]
    · rw [moves, z, takeGap_overrun (isAbsent.mpr lost) (noGap g), ← suspects held]
      rfl
    · rw [moves, z, takeGap_stays (mt isEnough.mp few) fun out => within ⟨isAbsent.mp out.1, fun g => ?_⟩, stay]
      exact Bool.false_ne_true (out.2.symm.trans (isGap.mpr g))
  · have moves : t = seenElevations x (takeSuspect _ x (countedAt x s)) := collectorTake_in noHit st
    have isEnough := isEnough (by rw [st]; decide)
    have enter := enter (by rw [st]; decide)
    refine ⟨fun g => ?_, fun g lost confirmed => ?_, fun g held few => ?_, fun g e unlearned => ?_,
      fun m g e learn isSet loss => ⟨fun refused => ?_, fun rt stored => ?_⟩⟩
    · rw [moves, takeSuspect_gap (isGap.mpr g), enter _ (by decide)]
    · refine collectorTake_confirmed noHit st (mt isGap.mp g) (isAbsent.mpr lost) ?_
      rwa [← show confirms = _ from if_pos lost]
    · rw [moves, takeSuspect_stays (mt isGap.mp g) (mt (isConfirmed st).mp held) (mt isEnough.mp few), stay]
    · rw [moves, takeSuspect_recover (mt isGap.mp g) (isEnough.mpr e), recoverFromSuspect,
        learnGap_none (s := countedAt x s) unlearned, enter _ (by decide)]
    · rw [moves, takeSuspect_recover (mt isGap.mp g) (isEnough.mpr e), recoverFromSuspect,
        learnGap_refused (s := countedAt x s) learn isSet loss refused, ← enter _ (by decide)]
      rfl
    · rw [moves, takeSuspect_recover (mt isGap.mp g) (isEnough.mpr e), recoverFromSuspect,
        learnGap_stored (s := countedAt x s) learn isSet loss stored, ← enter _ (by decide)]
      rfl
  · have moves : t = seenElevations x (takeUnloading x (countedAt x s)) := collectorTake_in noHit st
    refine ⟨fun ends => ?_, fun goes => ?_⟩
    · rw [moves, takeUnloading_ends (s := countedAt x s) ends, enter (by rw [st]; decide) _ (by decide)]
    · rw [moves, takeUnloading_stays (s := countedAt x s) goes, stay]
  · have moves : t = seenElevations x (takeLowering x (countedAt x s)) := collectorTake_in noHit st
    refine ⟨fun down => ?_, fun high => ?_⟩
    · rw [moves, takeLowering_down (s := countedAt x s) down, enter (by rw [st]; decide) _ (by decide)]
    · rw [moves, takeLowering_stays (s := countedAt x s) high, stay]

end Sys2Proof.Machine

/-! PROOFS. The collector's counting events commanded alone (R50, R52, R54, R56, R61, R115, R137). -/

namespace Sys2Proof.Machine

/-! ### When each event is due -/

theorem setsArrive_iff (s : State) : setsArrive s = true ↔ s.si.senseLost = false := by
  rw [setsArrive, Bool.not_eq_true']

theorem presentDue_iff (x : Sample) (s : State) : presentDue x s = true ↔ s.si.senseLost = false ∧
    s.cm.state ∈ [.raising, .gap, .suspect] ∧ (∃ v, x.v = some v ∧ s.par .vPresent ≤ v.toNat) ∧
      s.par .presentCount ≤ min (s.cm.presentCount + 1) 255 := by
  simp only [presentDue, Bool.and_eq_true, decide_eq_true_eq, setsArrive_iff, presenceOf_present, and_assoc, List.mem_cons,
    List.not_mem_nil, or_false]
  exact Iff.rfl

theorem confirmDue_iff (x : Sample) (s : State) : confirmDue x s = true ↔ s.si.senseLost = false ∧ s.cm.state = .suspect ∧
    (∃ v, x.v = some v ∧ v.toNat < s.par .vPresent) ∧ s.par .confirmCount ≤ min (s.cm.confirmCount + 1) 255 := by
  simp only [confirmDue, Bool.and_eq_true, decide_eq_true_eq, setsArrive_iff, presenceOf_absent, and_assoc]
  exact Iff.rfl

theorem raiseLimitDue_iff (s : State) : raiseLimitDue s = true ↔ s.si.senseLost = false ∧ s.cm.state = .raising ∧
    s.par .raiseLimit ≤ min (s.cm.epochsIn + 1) 65535 := by
  simp only [raiseLimitDue, Bool.and_eq_true, decide_eq_true_eq, setsArrive_iff, and_assoc]
  exact Iff.rfl

theorem unloadLimitDue_iff (s : State) : unloadLimitDue s = true ↔ s.si.senseLost = false ∧ s.cm.state = .unloading ∧
    s.par .unloadLimit ≤ min (s.cm.epochsIn + 1) 65535 := by
  simp only [unloadLimitDue, Bool.and_eq_true, decide_eq_true_eq, setsArrive_iff, and_assoc]
  exact Iff.rfl

/-- Log 4, log 5: an event that is the collector's share when due, and nothing otherwise. -/
theorem whilePowered_collectorShare {x : Sample} {due : State → Bool} {p : Prop} {s : State}
    (on : s.resetPin = false) (h : due s = true ↔ p) :
    (p → whilePowered (fun s => whenDue (due s) (collectorShare x) s) s = .next (collectorShare x s) ∧
      Touches [.cm, .rft, .ad] s (collectorShare x s)) ∧
    (¬p → whilePowered (fun s => whenDue (due s) (collectorShare x) s) s = .next s) := by
  obtain ⟨yes, no⟩ := whilePowered_whenDue (f := collectorShare x) on h
  exact ⟨fun d => ⟨yes d, collectorShare_touches x s⟩, no⟩

/-! ### Where each event ends -/

/-- R58: no pole is checked in DOWN, RAISING and LOWERING. -/
theorem angleCheck_unchecked {x : Sample} {prev : PerPole (Option (BitVec 10))} {s : State}
    (st : s.cm.state ∈ [.down, .raising, .lowering]) : angleCheck x prev s = none := by
  have off : ∀ holds, ¬Checks holds s.cm := fun holds => by
    simp only [List.mem_cons, List.not_mem_nil, or_false] at st
    obtain st | st | st := st <;> simp [Checks, st]
  obtain ⟨onPos, onNeg⟩ := polesChecked_iff s.cm
  refine (angleDrop_eq_none _ _).mpr ⟨fun hit => ?_, fun hit => ?_⟩
  · exact off _ ((poleHits_any onPos _ _ _ s).mp hit).1
  · exact off _ ((poleHits_any onNeg _ _ _ s).mp hit).1

section
variable {x : Sample} {prev : PerPole (Option (BitVec 10))} {s : State}

/-- R50, R52, R54: the present set that completes the count leads to ON_WIRE. -/
theorem collectorTake_present_onWire (noHit : angleCheck x prev s = none) (counting : s.cm.state ∈ [.raising, .gap, .suspect])
    (present : presenceOf (s.par .vPresent) x.v = .present) (count : s.par .presentCount ≤ min (s.cm.presentCount + 1) 255)
    (alone : ¬(s.cm.state = .suspect ∧ gapExpected s.rft.armed = true)) :
    (collectorTake x prev false s).cm.state = .onWire := by
  have enough : presenceOf (s.par .vPresent) x.v = .present ∧
      (countedAt x s).par .presentCount ≤ (countedAt x s).cm.presentCount := by
    refine ⟨present, ?_⟩
    rwa [countedAt_presentCount Iff.rfl Iff.rfl counting, if_pos present]
  simp only [List.mem_cons, List.not_mem_nil, or_false] at counting
  obtain st | st | st := counting
  · rw [collectorTake_in noHit st, rulesOf, takeRaising_enough enough]
    rfl
  · rw [collectorTake_in noHit st, rulesOf, takeGap_enough enough]
    rfl
  · have gap : ¬gapExpected (countedAt x s).rft.armed = true := fun gap => alone ⟨st, gap⟩
    rw [collectorTake_in noHit st, rulesOf, takeSuspect_recover gap enough]
    rfl

/-- R50: the set that completes the epochs in RAISING without V leads to DOWN, RAISE_FAILED raised. -/
theorem collectorTake_raiseLimit_down (st : s.cm.state = .raising) (here : ¬presenceOf (s.par .vPresent) x.v = .present)
    (limit : s.par .raiseLimit ≤ min (s.cm.epochsIn + 1) 65535) {offWire : Bool} : collectorTake x prev offWire s =
      seenElevations x (raise .raiseFailed (enterState .down none (countedAt x s))) := by
  rw [collectorTake_in (angleCheck_unchecked (by rw [st]; decide)) st, rulesOf,
    takeRaising_limit (s := countedAt x s) (fun enough => here enough.1) limit]

/-- R56: the set that completes the epochs in UNLOADING leads to LOWERING. -/
theorem collectorTake_unloadLimit_lowering (noHit : angleCheck x prev s = none) (st : s.cm.state = .unloading)
    (limit : s.par .unloadLimit ≤ min (s.cm.epochsIn + 1) 65535) {offWire : Bool} :
    collectorTake x prev offWire s = seenElevations x (enterState .lowering none (countedAt x s)) := by
  rw [collectorTake_in noHit st, rulesOf, takeUnloading_ends (s := countedAt x s) (.inr limit)]

end

/-! ### The supply shed behind the end of UNLOADING -/

/-- R137: the slots that a supply shed takes, and the queue it leaves. -/
theorem supplyShed_spec (ls : Loads) {shed : Fin 24 → Bool} (takes : ∀ i, shed i = true ↔
      ((entry ls.slots i).state = .running ∨ (entry ls.slots i).state = .waiting) ∧ (entry ls.slots i).rideThrough = false) :
    (∀ i, entry (shedWhere (fun sl => !sl.rideThrough) .supply ls).slots i =
      if shed i then { entry ls.slots i with state := .shed .supply, idle := 0 } else entry ls.slots i) ∧
    (QueueInv ls → (shedWhere (fun sl => !sl.rideThrough) .supply ls).queue = ls.queue.filter fun i => !shed i) := by
  have taken : ∀ i, (isActive (entry ls.slots i).state && !(entry ls.slots i).rideThrough) = shed i := fun i =>
    Bool.eq_iff_iff.mpr (by rw [takes, Bool.and_eq_true, isActive_iff, Bool.not_eq_true'])
  refine ⟨fun i => by rw [shedWhere_entry, taken], fun inv => ?_⟩
  obtain ⟨_, waiting, _⟩ := inv
  rw [shedWhere_queue]
  refine List.filter_congr fun i mem => ?_
  rw [← taken, (waiting i).mp mem]
  rfl

/-- Settles O53: when each event is due and what it does, then where each ends. -/
theorem collectorEvents : Obligations.CollectorEvents := by
  intro x s on share present absent epochs arrives gap event whenPresent whenConfirmed whenRaised whenUnloaded
  have isPresent : presenceOf (s.par .vPresent) x.v = .present ↔ present := presenceOf_present _ _
  have isGap : gapExpected s.rft.armed = true ↔ gap := gapExpected_iff _
  have unload := whilePowered_whenDue (f := unloadShare x) on (unloadLimitDue_iff s)
  refine ⟨whilePowered_collectorShare (due := presentDue x) on (presentDue_iff x s),
    whilePowered_collectorShare (due := confirmDue x) on (confirmDue_iff x s), whilePowered_collectorShare on (raiseLimitDue_iff s),
    unload.2, fun due => ⟨collectorShare_touches x s, fun powered => ?_, fun unpowered => ?_⟩,
    fun due noHit alone => ?_, fun due noHit still => ?_, fun due here => ?_, fun due noHit => ?_⟩
  · exact (unload.1 due).trans (congrArg _ (unloadShare_powered powered))
  · intro shed
    obtain ⟨slots, queue⟩ := supplyShed_spec s.ls (shed := shed) fun i => decide_eq_true_iff
    exact ⟨_, (unload.1 due).trans (congrArg _ (unloadShare_unpowered unpowered)), shedWhere_rest _ _ _, slots, queue⟩
  · obtain ⟨_, counting, v, count⟩ := due
    exact collectorTake_present_onWire noHit counting (isPresent.mpr v) count fun both => alone ⟨both.1, isGap.mp both.2⟩
  · obtain ⟨_, st, v, count⟩ := due
    obtain ⟨u, moves, drops, _⟩ := collectorTake_confirmed (offWire := false) noHit st (mt isGap.mp still)
      ((presenceOf_absent _ _).mpr v) count
    have cm : share.cm = u := congrArg State.cm moves
    obtain ⟨dropped, mask, _, marks, _⟩ := drops
    rw [cm, mask, if_neg (by rw [st]; decide)]
    exact ⟨dropped, rfl, marks⟩
  · obtain ⟨_, st, limit⟩ := due
    have moves : share = _ := collectorTake_raiseLimit_down st (mt isPresent.mp here) limit
    rw [moves]
    exact ⟨rfl, rfl, rfl⟩
  · obtain ⟨_, st, limit⟩ := due
    have moves : share = _ := collectorTake_unloadLimit_lowering noHit st limit
    rw [moves]
    exact ⟨rfl, rfl, rfl⟩

end Sys2Proof.Machine

/-! PROOFS. SET PARAM and READ PARAM, and Table 10-1 (R81, R184, R186 to R190). -/

namespace Sys2Proof.Machine

/-! ### The parameter named, and its bounds -/

theorem paramField_none {b : Byte} (h : 51 < b.toNat) : paramField b = none := dif_neg (by omega)

theorem paramField_some {b : Byte} {n : Fin 52} (h : n.val = b.toNat) : paramField b = some n := by
  have bound : b.toNat < 52 := h ▸ n.isLt
  rw [paramField, dif_pos bound]
  exact congrArg some (Fin.ext h.symm)

/-- R187, R188, R190: the bounds that are other parameters, and those of Table 10-1. -/
theorem paramBounds_eq (stored : Vector Nat 52) (n : Fin 52) : paramBounds stored n =
    (if n = 30 then entry stored 29 else (entry paramTable n).lower,
     if n = 29 then entry stored 30 else if n = 50 then entry stored 48 else if n = 51 then entry stored 49
       else (entry paramTable n).upper) := by
  by_cases special : n ∈ ([50, 51, 29, 30] : List (Fin 52))
  · simp only [List.mem_cons, List.not_mem_nil, or_false] at special
    obtain rfl | rfl | rfl | rfl := special <;> rfl
  · rw [paramBounds_other _ _ special]
    simp only [List.mem_cons, List.not_mem_nil, or_false, not_or] at special
    obtain ⟨aOn, bOn, low, high⟩ := special
    rw [if_neg high, if_neg low, if_neg aOn, if_neg bOn]

/-! ### A write -/

/-- R186, R188: the two bounds of D are in force at once. -/
theorem atOnce_iff (n : Fin 52) : atOnce n = true ↔ n = 29 ∨ n = 30 := decide_eq_true_iff

/-- R186: a write touches the table and D. -/
theorem writeParam_eq (n : Fin 52) (v : Nat) (s : State) : writeParam n v s =
    (s.setPm (storeParam n v s.pm)).setBe { s.be with d := (writeParam n v s).be.d } := by
  unfold writeParam
  by_cases now : atOnce n = true
  · rw [if_pos now]; rfl
  · rw [if_neg now]; rfl

theorem writeParam_d_other {n : Fin 52} (low : n ≠ 29) (high : n ≠ 30) (v : Nat) (s : State) :
    (writeParam n v s).be.d = s.be.d := by
  have later : ¬atOnce n = true := fun now => ((atOnce_iff n).mp now).elim low high
  unfold writeParam
  rw [if_neg later]
  rfl

/-- R81: D after a write to its lower bound. -/
theorem writeParam_d_dMin {s : State} (inv : ParamInv s.pm) (v : Nat) :
    (writeParam 29 v s).be.d = max (min s.be.d (entry s.pm.stored 30)) v := by
  obtain ⟨_, _, _, _, high, _⟩ := inv
  have high : entry s.pm.inForce 30 = entry s.pm.stored 30 := high
  rw [← high]
  show max (min s.be.d (entry (storeParam 29 v s.pm).inForce 30)) (entry (storeParam 29 v s.pm).inForce 29) = _
  rw [storeParam_inForce, storeParam_inForce, if_neg (by decide), if_pos (by decide)]

/-- R81: D after a write to its upper bound. -/
theorem writeParam_d_dMax {s : State} (inv : ParamInv s.pm) (v : Nat) :
    (writeParam 30 v s).be.d = max (min s.be.d v) (entry s.pm.stored 29) := by
  obtain ⟨_, _, _, low, _⟩ := inv
  have low : entry s.pm.inForce 29 = entry s.pm.stored 29 := low
  rw [← low]
  show max (min s.be.d (entry (storeParam 30 v s.pm).inForce 30)) (entry (storeParam 30 v s.pm).inForce 29) = _
  rw [storeParam_inForce, storeParam_inForce, if_pos (by decide), if_neg (by decide)]

/-! ### The answers -/

theorem ownSetParam_badValue {nb hi lo : Byte} (s : State) (h : 51 < nb.toNat) :
    ownSetParam [nb, hi, lo] s = refuse .badValue s := by
  have unknown : paramField (byteAt [nb, hi, lo] 0) = none := paramField_none h
  simp only [ownSetParam, unknown]

theorem ownSetParam_written {nb hi lo : Byte} (s : State) {n : Fin 52} (h : n.val = nb.toNat) {v fitted : Nat}
    (given : hi.toNat * 256 + lo.toNat = v) (fit : fitParam s.pm.stored n v = fitted) : ownSetParam [nb, hi, lo] s =
      { state := writeParam n fitted s
        result := if fitted = v then .ok else .clamped
        payload := [nb] ++ wordOf fitted ++ wordOf (entry (storeParam n fitted s.pm).inForce n) } := by
  have known : paramField (byteAt [nb, hi, lo] 0) = some n := paramField_some h
  have word_eq : word [nb, hi, lo] 1 = v := given
  simp only [ownSetParam, known, word_eq, fit, writeParam_pm, byteOf_eq h, storeParam_stored, if_true]

theorem ownReadParam_badValue {b : Byte} (s : State) (h : 51 < b.toNat) : ownReadParam [b] s = refuse .badValue s := by
  have unknown : paramField (byteAt [b] 0) = none := paramField_none h
  simp only [ownReadParam, unknown]

theorem ownReadParam_read {b : Byte} (s : State) {n : Fin 52} (h : n.val = b.toNat) : ownReadParam [b] s =
    answerWith ([b] ++ wordOf (entry s.pm.stored n) ++ wordOf (entry s.pm.inForce n) ++
      wordOf (paramBounds s.pm.stored n).1 ++ wordOf (paramBounds s.pm.stored n).2 ++
      wordOf (entry paramTable n).dflt) s := by
  have known : paramField (byteAt [b] 0) = some n := paramField_some h
  simp only [ownReadParam, known, byteOf_eq h]

/-- Settles O36: the table, then the answers of SET PARAM and READ PARAM. -/
theorem parametersSetAndRead : Obligations.ParametersSetAndRead := by
  refine ⟨fun s => ?_, fun s => ⟨rfl, rfl, rfl, rfl⟩, rfl, fun body s free framed inv => ?_, fun body s free framed => ?_⟩
  · rw [toList_eq_entries]
    rfl
  · obtain ⟨nb, hi, lo, payload⟩ := length_three framed.length
    have answered {a : Answer} (own : ownSetParam [nb, hi, lo] s = a) :
        exec (.setParam .v body) s = .next (replied .v 0x60 body a.result a.payload a.state) := by
      rw [← own, ← payload]
      exact requestCommand_replied free framed rfl
    have lowest : entry s.pm.stored 29 ≤ 15 := (inv.1 29).2
    refine ⟨nb, hi, lo, payload, ?_⟩
    intro v two
    refine ⟨fun unknown => answered (ownSetParam_badValue s unknown), fun n named => ?_⟩
    refine ⟨fitParam s.pm.stored n v, storeParam n (fitParam s.pm.stored n v) s.pm,
      (writeParam n (fitParam s.pm.stored n v) s).be.d, ?_, ?_, ?_, ?_, ?_, fitParam_other _ _ _,
      fun m => storeParam_stored n m _ _, fun m => ?_, fun low high => writeParam_d_other low high _ s, ?_, ?_, ?_⟩
    · rintro rfl; exact fitParam_learnFactor _ _
    · rintro rfl; exact fitParam_cycleAOn _ _
    · rintro rfl; exact fitParam_cycleBOn _ _
    · rintro rfl; exact fitParam_dMin _ _
    · rintro rfl; exact fitParam_dMax _ _ lowest
    · rw [storeParam_inForce]
      refine if_congr (and_congr_right fun same => ?_) rfl rfl
      exact atOnce_iff n
    · rintro rfl; exact writeParam_d_dMin inv _
    · rintro rfl; exact writeParam_d_dMax inv _
    · rw [← writeParam_eq]
      exact answered (ownSetParam_written s named rfl rfl)
  · obtain ⟨b, payload⟩ := length_one framed.length
    have answered {a : Answer} (own : ownReadParam [b] s = a) :
        exec (.readParam .v body) s = .next (replied .v 0x61 body a.result a.payload a.state) := by
      rw [← own, ← payload]
      exact requestCommand_replied free framed rfl
    refine ⟨b, payload, ?_⟩
    intro two
    refine ⟨fun unknown => answered (ownReadParam_badValue s unknown), fun n named => ?_⟩
    have read := answered (ownReadParam_read s named)
    rw [paramBounds_eq] at read
    exact read

end Sys2Proof.Machine

/-! PROOFS. Stage 4 (R82 to R85, R134) and stages 5 and 6 (R87 to R92) of a computation. -/

namespace Sys2Proof.Machine

/-! ### The demand of a shed depth -/

/-- R82: the states whose demand counts. -/
theorem countsInDemand_iff (st : SlotState) :
    countsInDemand st = true ↔ st = .running ∨ st = .waiting ∨ st = .shed .budget := by
  cases st with
  | shed r => cases r <;> simp [countsInDemand]
  | _ => simp [countsInDemand]

theorem inShedRange_eq_false (h : Nat) (level : Fin 4) : inShedRange h level = false ↔ level.val < 4 - h := by
  rw [inShedRange, decide_eq_false_iff_not, Nat.not_le]

/-- R82: S(h), slot by slot. -/
theorem demandSum_eq (ls : Loads) (h : Nat) : demandSum ls h = ((List.finRange 24).map fun i =>
    if ((entry ls.slots i).state = .running ∨ (entry ls.slots i).state = .waiting ∨
        (entry ls.slots i).state = .shed .budget) ∧ (entry ls.slots i).level.val < 4 - h
      then (entry ls.slots i).demand else 0).sum := by
  rw [demandSum, toList_eq_entries, List.map_map]
  congr 2
  funext i
  simp only [Function.comp_apply, Bool.and_eq_true, Bool.not_eq_true', inShedRange_eq_false, countsInDemand_iff]

/-- R82: the target is the least depth that qualifies, or 4 when none does. -/
theorem targetDepth_least (pAvail : Nat) (s : State) :
    (∀ h < targetDepth pAvail s, ¬depthFits pAvail s h = true) ∧
      (depthFits pAvail s (targetDepth pAvail s) = true ∨ targetDepth pAvail s = 4) := by
  unfold targetDepth
  cases found : [0, 1, 2, 3, 4].find? (depthFits pAvail s) with
  | none =>
    rw [List.find?_eq_none] at found
    exact ⟨fun h lt => found h (by simp only [Option.getD_none] at lt; simp; omega), .inr rfl⟩
  | some n =>
    refine ⟨fun h (lt : h < n) fits => ?_, .inl (List.find?_some found)⟩
    have range : [0, 1, 2, 3, 4] = List.range 5 := rfl
    rw [range, List.find?_range_eq_some] at found
    obtain ⟨_, _, first⟩ := found
    have none := first h lt
    rw [fits] at none
    cases none

/-- R82: SHORTFALL is caused when no depth qualifies. -/
theorem depthShortfall_iff (pAvail : Nat) (s : State) :
    depthShortfall pAvail s = true ↔ ∀ h ≤ 4, ¬depthFits pAvail s h = true := by
  rw [depthShortfall, Option.isNone_iff_eq_none, List.find?_eq_none]
  refine forall_congr' fun h => imp_congr_left ?_
  simp only [List.mem_cons, List.not_mem_nil, or_false]
  omega

/-! ### The shed at a rise of H -/

theorem budgetShed_entry (h : Nat) (ls : Loads) (i : Fin 24) : entry (budgetShed h ls).slots i =
    if ((entry ls.slots i).state = .running ∨ (entry ls.slots i).state = .waiting) ∧ 4 - h ≤ (entry ls.slots i).level.val
      then { entry ls.slots i with state := .shed .budget, idle := 0 } else entry ls.slots i := by
  rw [budgetShed, shedWhere_entry]
  refine if_congr ?_ rfl rfl
  rw [Bool.and_eq_true, isActive_iff, inShedRange, decide_eq_true_eq]

/-- R134, R146: the queue keeps the slots below the shed range. -/
theorem budgetShed_queue {ls : Loads} (inv : QueueInv ls) (h : Nat) :
    (budgetShed h ls).queue = ls.queue.filter fun i => (entry ls.slots i).level.val < 4 - h := by
  obtain ⟨_, waiting, _⟩ := inv
  rw [budgetShed, shedWhere_queue]
  refine List.filter_congr fun i mem => Bool.eq_iff_iff.mpr ?_
  rw [decide_eq_true ((waiting i).mp mem), Bool.true_and, Bool.not_eq_true', inShedRange_eq_false, decide_eq_true_eq]

/-! ### Stage 4 -/

theorem depthStage_none {s : State} (h : s.supply = .none) (pAvail : Nat) : depthStage pAvail s = ⟨s, false, false⟩ :=
  if_pos h

/-- R83: the target above H is taken at once. -/
theorem depthStage_rise {s : State} (powered : s.supply ≠ .none) {pAvail : Nat} (rise : s.be.h < targetDepth pAvail s) :
    depthStage pAvail s = ⟨raise .shedRise ((s.setBe { s.be with
        sinceH := 0, hStar := targetDepth pAvail s, h := targetDepth pAvail s }).setLs
          (budgetShed (targetDepth pAvail s) s.ls)), depthShortfall pAvail s, false⟩ :=
  (if_neg powered).trans (if_pos rise)

/-- R84: a target not above H is noted, and the fall by one left pending. -/
theorem depthStage_stay {s : State} (powered : s.supply ≠ .none) {pAvail : Nat} (stay : ¬s.be.h < targetDepth pAvail s) :
    depthStage pAvail s = ⟨s.setBe { s.be with sinceH := min (s.be.sinceH + 1) 65535, hStar := targetDepth pAvail s },
      depthShortfall pAvail s,
      decide (targetDepth pAvail s < s.be.h) && decide (s.par .restoreInterval ≤ min (s.be.sinceH + 1) 65535) &&
        decide (demandSum s.ls (s.be.h - 1) + s.par .reserve + s.par .restoreMargin ≤ pAvail)⟩ :=
  (if_neg powered).trans (if_neg stay)

theorem depthStage_shortfall {s : State} (powered : s.supply ≠ .none) (pAvail : Nat) :
    (depthStage pAvail s).shortfall = depthShortfall pAvail s := by
  by_cases rise : s.be.h < targetDepth pAvail s
  · rw [depthStage_rise powered rise]
  · rw [depthStage_stay powered rise]

/-- Settles O49: the target, then the rise and the pending fall. -/
theorem shedDepthChosen : Obligations.ShedDepthChosen := by
  intro power s counts sum fits since
  have sum_eq : ∀ h, demandSum s.ls h = sum h := demandSum_eq s.ls
  have fits_iff : ∀ h, depthFits power s h = true ↔ fits h := fun h => by
    rw [depthFits, decide_eq_true_eq, sum_eq]
  refine ⟨fun none => depthStage_none none power, fun powered => ?_⟩
  obtain ⟨first, fit⟩ := targetDepth_least power s
  refine ⟨targetDepth power s, targetDepth_le power s, fun h lt => mt (fits_iff h).mpr (first h lt),
    fit.imp_left (fits_iff _).mp, ?_, fun stay => ?_, fun rise => ?_⟩
  · rw [depthStage_shortfall powered, depthShortfall_iff]
    simp only [fits_iff]
  · rw [depthStage_stay powered (Nat.not_lt.mpr stay)]
    refine ⟨rfl, ?_⟩
    simp only [Bool.and_eq_true, decide_eq_true_eq, and_assoc, sum_eq]
    exact Iff.rfl
  · rw [depthStage_rise powered rise]
    exact ⟨rfl, _, rfl, budgetShed_entry _ s.ls, shedWhere_rest _ _ _, fun inv => budgetShed_queue inv _⟩

/-! ### Stages 5 and 6 -/

/-- R90, R91: the line share is all of P_REGEN_MAX up to the taper, and 0 from P_V_HIGH on. -/
theorem lineRegen_eq (s : State) : lineRegen s =
    if matchingZone .noRegen s ≠ none then 0
    else if s.par .vHigh ≤ s.be.heldV.toNat then 0
    else if s.par .vHigh ≤ s.par .vTaper ∨ s.be.heldV.toNat ≤ s.par .vTaper then s.par .regenMax
    else s.par .regenMax * (s.par .vHigh - s.be.heldV.toNat) / (s.par .vHigh - s.par .vTaper) := by
  unfold lineRegen
  refine if_ctx_congr Option.isSome_iff_ne_none (fun _ => rfl) fun _ => ?_
  by_cases above : s.par .vHigh ≤ s.be.heldV.toNat
  · rw [if_pos above, if_neg (Nat.not_lt.mpr above), if_pos above, ite_self]
  · rw [if_neg above, if_pos (Nat.lt_of_not_le above), if_neg above]
    by_cases noSpan : s.par .vHigh ≤ s.par .vTaper
    · rw [if_pos noSpan, if_pos (.inl noSpan)]
    · rw [if_neg noSpan]
      exact if_congr (by rw [or_iff_right noSpan]) rfl rfl

/-- Settles O50: the four cases of supply and state. -/
theorem ceilingsComputed : Obligations.CeilingsComputed := by
  intro power served s left short coast t1 v share
  refine ⟨fun none => ?_, fun battery => ?_, fun unloading => ?_, fun onWire => ?_⟩
  · rw [ceilings, none]
  · rw [ceilings, battery]
    rfl
  · have line : s.supply = .line := supply_line (by rw [unloading]; decide)
    rw [ceilings, line]
    exact if_pos unloading
  · have line : s.supply = .line := supply_line (by rw [onWire]; decide)
    have share_eq : lineRegen s = share := lineRegen_eq s
    rw [ceilings, line]
    refine (if_neg (by rw [onWire]; decide)).trans ?_
    rw [share_eq, Bool.decide_or]
    rfl

end Sys2Proof.Machine

/-! PROOFS. Stage 7 of a computation: the causes, the freeze, the SAFE record, the publication, the over-grant check and the
restoration (R84, R93 to R97, R99, R110, R136, R145). -/

namespace Sys2Proof.Machine

/-! ### The over-grant check -/

/-- R110: a grant is over when its side's ceiling does not cover it. -/
theorem grantOver_iff (r : BudgetRecord) (g : Int) :
    grantOver r g = true ↔ (0 < g ∧ (r.t : Int) < g) ∨ (g < 0 ∧ (r.g : Int) < -g) := by
  unfold grantOver
  by_cases motoring : 0 < g
  · rw [if_pos motoring, decide_eq_true_eq]
    omega
  · rw [if_neg motoring]
    by_cases braking : g < 0
    · rw [if_pos braking, decide_eq_true_eq]
      omega
    · rw [if_neg braking]
      simp only [motoring, braking, false_and, or_self, Bool.false_eq_true]

theorem overGrantCheck_eq (s : State) : overGrantCheck s = if s.tg.reported = false ∧
      ((0 < s.tg.lastGrant ∧ (s.be.record.t : Int) < s.tg.lastGrant) ∨
        (s.tg.lastGrant < 0 ∧ (s.be.record.g : Int) < -s.tg.lastGrant))
    then raise .grantOver (s.setTg { s.tg with reported := true }) else s :=
  if_congr (and_congr_right fun _ => grantOver_iff _ _) rfl rfl

theorem overGrantCheck_ls (s : State) : (overGrantCheck s).ls = s.ls := (overGrantCheck_touches s).ls (by decide)

/-! ### The causes -/

/-- R93: BE with the causes of a computation, and the sticky flags of those whose enable is clear. -/
def notedBudget (causes : Conditions) (s : State) : Budget :=
  let on := fun k => (s.par .escalate).testBit k
  { s.be with
    causes := causes
    sticky := ⟨s.be.sticky.taint || (causes.taint && !on 0), s.be.sticky.overrange || (causes.overrange && !on 1),
      s.be.sticky.shortfall || (causes.shortfall && !on 2), s.be.sticky.zeroSpan || (causes.zeroSpan && !on 3)⟩ }

theorem conclude_frozen {causes : Conditions} {s : State}
    (h : escalated causes (escalateEnables (s.par .escalate)) = true) (pAvail served : Nat) (c : Ceilings) (fall : Bool) :
    conclude pAvail served c causes fall s = frozenComputation (s.setBe (notedBudget causes s)) := if_pos h

theorem conclude_normal {causes : Conditions} {s : State}
    (h : escalated causes (escalateEnables (s.par .escalate)) = false) (pAvail served : Nat) (c : Ceilings) (fall : Bool) :
    conclude pAvail served c causes fall s =
      normalPublication pAvail served c causes.taint fall (s.setBe (notedBudget causes s)) :=
  if_neg (ne_true_of_eq_false h)

/-! ### The frozen computation -/

/-- R94: the kept record FROZEN, the freeze count gained, and BUDGET_FROZEN raised at the first frozen computation. -/
def frozenTold (s : State) : State :=
  let kept := s.setBe { s.be with record := keptRecord s, freeze := min (s.be.freeze + 1) 255 }
  if min (s.be.freeze + 1) 255 = 1 then raise .budgetFrozen kept else kept

/-- R94, R110: the kept record is offered to the check when its ceilings became 0. -/
def frozenOffered (s : State) : State := if zeroesKept s then overGrantCheck (frozenTold s) else frozenTold s

theorem frozenComputation_eq (s : State) : frozenComputation s = freezeLimitTest (frozenOffered s) := rfl

theorem frozenTold_be (s : State) :
    (frozenTold s).be = { s.be with record := keptRecord s, freeze := min (s.be.freeze + 1) 255 } := by
  unfold frozenTold
  dsimp only
  split <;> rfl

theorem frozenTold_ad (s : State) : (frozenTold s).ad =
    if min (s.be.freeze + 1) 255 = 1 then s.ad.occurrence .budgetFrozen else s.ad := by
  unfold frozenTold
  dsimp only
  split <;> rfl

theorem frozenTold_touches (s : State) : Touches [.be, .ad] s (frozenTold s) := by
  have kept : Touches [.be, .ad] s (s.setBe { s.be with record := keptRecord s, freeze := min (s.be.freeze + 1) 255 }) :=
    (State.setBe_touches s _).mono (by decide)
  exact (kept.trans ((raise_touches _ _).mono (by decide))).of_if kept

theorem frozenOffered_be (s : State) :
    (frozenOffered s).be = { s.be with record := keptRecord s, freeze := min (s.be.freeze + 1) 255 } := by
  unfold frozenOffered
  split
  · rw [overGrantCheck_be, frozenTold_be]
  · exact frozenTold_be s

theorem frozenOffered_touches (s : State) : Touches [.be, .tg, .ad] s (frozenOffered s) := by
  have told := (frozenTold_touches s).mono (cs := [.be, .tg, .ad]) (by decide)
  exact (told.trans ((overGrantCheck_touches _).mono (by decide))).of_if told

/-- R95: what a frozen computation leaves is published as the SAFE record at the freeze limit. -/
theorem frozenComputation_limit (s : State) : frozenComputation s =
    if s.par .freezeLimit ≤ min (s.be.freeze + 1) 255 ∧ s.be.record.safe = false then
      overGrantCheck (raise .budgetSafe (publish (safeRecord (keptRecord s)) (frozenOffered s)))
    else frozenOffered s := by
  rw [frozenComputation_eq, freezeLimitTest, par_eq_of_pm ((frozenOffered_touches s).pm (by decide)), frozenOffered_be]
  rfl

/-! ### The normal publication -/

/-- R136: the slots that a fall of H to `h` makes WAITING. -/
def restoredAt (h : Nat) (ls : Loads) (i : Fin 24) : Bool :=
  decide ((entry ls.slots i).state = .shed .budget ∧ (entry ls.slots i).level.val < 4 - h)

theorem restoredAt_eq (h : Nat) (ls : Loads) (i : Fin 24) : restoredAt h ls i =
    (decide ((entry ls.slots i).state = .shed .budget) && !inShedRange h (entry ls.slots i).level) := by
  rw [restoredAt, Bool.decide_and]
  congr 1
  rw [inShedRange, ← decide_not]
  exact decide_eq_decide.mpr Nat.not_le.symm

theorem budgetRestore_entry (h : Nat) (ls : Loads) (i : Fin 24) : entry (budgetRestore h ls).slots i =
    if restoredAt h ls i then { entry ls.slots i with state := .waiting, idle := 0 } else entry ls.slots i := by
  rw [restoredAt_eq]
  exact restoreWhere_entry _ _ ls i

/-- R136, R145: the queue after the slots shed for budget have rejoined it. -/
theorem budgetRestore_queue {ls : Loads} (inv : QueueInv ls) (h : Nat) : (budgetRestore h ls).queue =
    ls.queue.filter (isLevelZero ls) ++ (slotNumbers.filter (restoredAt h ls)).filter (isLevelZero ls) ++
      ls.queue.filter (fun i => !isLevelZero ls i) ++
      (slotNumbers.filter (restoredAt h ls)).filter (fun i => !isLevelZero ls i) := by
  have woken : restoredAt h ls = fun i =>
      decide ((entry ls.slots i).state = .shed .budget) && !inShedRange h (entry ls.slots i).level :=
    funext (restoredAt_eq h ls)
  rw [budgetRestore, restoreWhere_eq_wakeSlots, wakeSlots_queue _ _ (fun i shed => ?_) inv.ordered, woken]
  rw [Bool.and_eq_true, decide_eq_true_eq] at shed
  rw [shed.1]
  decide

/-- R84, R96, R97: BE after a normal publication. -/
def publishedBudget (pAvail served : Nat) (c : Ceilings) (vHeld fall : Bool) (s : State) : Budget :=
  let h := if fall then s.be.h - 1 else s.be.h
  { s.be with
    record := freshRecord pAvail served h c vHeld s, freeze := 0, h := h, sinceH := if fall then 0 else s.be.sinceH }

theorem publish_fresh (pAvail served : Nat) (c : Ceilings) (vHeld fall : Bool) (s : State) :
    publish (freshRecord pAvail served (fallDepth fall s.be).h c vHeld (s.setBe { fallDepth fall s.be with freeze := 0 }))
        (s.setBe { fallDepth fall s.be with freeze := 0 }) =
      s.setBe (publishedBudget pAvail served c vHeld fall s) := by
  cases fall <;> rfl

/-- R96: the record of this computation is published whole and checked. -/
theorem normalPublication_stays (pAvail served : Nat) (c : Ceilings) (vHeld : Bool) (s : State) :
    normalPublication pAvail served c vHeld false s =
      overGrantCheck (s.setBe (publishedBudget pAvail served c vHeld false s)) := by
  rw [← publish_fresh]
  unfold normalPublication
  exact if_neg Bool.false_ne_true

/-- R84, R136: the fall of H restores the slots below its range. -/
theorem normalPublication_falls (pAvail served : Nat) (c : Ceilings) (vHeld : Bool) (s : State) :
    normalPublication pAvail served c vHeld true s =
      (overGrantCheck (s.setBe (publishedBudget pAvail served c vHeld true s))).setLs
        (budgetRestore (s.be.h - 1) s.ls) := by
  unfold normalPublication
  refine (if_pos rfl).trans ?_
  rw [State.setBe_be, publish_fresh, overGrantCheck_be, overGrantCheck_ls]
  rfl

/-- Settles O51: the frozen computation, then the publication without and with a fall of H. -/
theorem computationConcluded : Obligations.ComputationConcluded := by
  intro power served c causes fall s on freezes noted checked n zeroed kept frozen told offered safe h fresh published
  have check_eq : ∀ u, overGrantCheck u = checked u := overGrantCheck_eq
  have zeroed_iff : zeroesKept (s.setBe noted) = true ↔ zeroed := zeroesKept_iff _
  refine ⟨fun freeze => ?_, fun normal stays => ?_, fun normal falls => ?_⟩
  · have kept_eq : keptRecord (s.setBe noted) = kept := by
      unfold keptRecord
      simp only [zeroed_iff]
      rfl
    have told_eq : frozenTold (s.setBe noted) = told := by
      unfold frozenTold
      rw [kept_eq]
      rfl
    have offered_eq : frozenOffered (s.setBe noted) = offered := by
      unfold frozenOffered
      rw [told_eq, check_eq]
      exact if_congr zeroed_iff rfl rfl
    refine (conclude_frozen freeze power served c fall).trans ((frozenComputation_limit (s.setBe noted)).trans ?_)
    rw [offered_eq, check_eq, kept_eq]
    rfl
  · subst stays
    refine (conclude_normal normal power served c false).trans ?_
    rw [normalPublication_stays]
    exact check_eq _
  · subst falls
    have published_eq : overGrantCheck ((s.setBe (notedBudget causes s)).setBe
        (publishedBudget power served c causes.taint true (s.setBe (notedBudget causes s)))) = published := check_eq _
    refine ⟨budgetRestore h s.ls, ?_, ?_⟩
    · rw [conclude_normal normal, normalPublication_falls, published_eq]
      rfl
    · intro back zero woken
      refine ⟨budgetRestore_entry h s.ls, restoreWhere_rest _ _ _, fun inv => ⟨restoreWhere_queueInv inv _ _, ?_⟩⟩
      exact budgetRestore_queue inv h

end Sys2Proof.Machine

/-! PROOFS. The end of a derate window and the freeze limit, commanded alone (R79, R80, R93 to R95, R110). -/

namespace Sys2Proof.Machine

/-! ### The end of a derate window -/

theorem windowDue_iff (s : State) : windowDue s = true ↔
    s.si.senseLost = false ∧ s.supply = .line ∧ s.be.windowLength ≤ min (s.be.windowCount + 1) 255 := by
  simp only [windowDue, Bool.and_eq_true, decide_eq_true_eq, setsArrive_iff, and_assoc]
  exact Iff.rfl

/-- R80: the end of a window writes D and begins the window afresh. -/
theorem endWindow_be (sag : Bool) (s : State) : (endWindow sag s).be =
    { s.be with d := steppedD sag s, windowCount := 0, sag := false, windowLength := s.par .window } := by
  unfold endWindow
  dsimp only
  split <;> rfl

/-- R80: DERATE_RISE is raised when D rose. -/
theorem endWindow_ad (sag : Bool) (s : State) : (endWindow sag s).ad =
    if s.be.d < steppedD sag s then s.ad.occurrence .derateRise else s.ad := by
  unfold endWindow
  dsimp only
  split <;> rfl

/-! ### The freeze limit -/

/-- R94: an escalated condition, one of the four. -/
theorem escalated_iff (causes : Conditions) (n : Nat) : escalated causes (escalateEnables n) = true ↔
    (causes.taint = true ∧ n.testBit 0 = true) ∨ (causes.overrange = true ∧ n.testBit 1 = true) ∨
      (causes.shortfall = true ∧ n.testBit 2 = true) ∨ (causes.zeroSpan = true ∧ n.testBit 3 = true) := by
  simp only [escalated, escalateEnables, Bool.or_eq_true, Bool.and_eq_true, or_assoc]

theorem freezeDue_iff (s : State) : freezeDue s = true ↔ s.si.senseLost = false ∧ s.be.record.safe = false ∧
    s.par .freezeLimit ≤ min (s.be.freeze + 1) 255 ∧ escalated s.be.causes (escalateEnables (s.par .escalate)) = true := by
  simp only [freezeDue, Bool.and_eq_true, decide_eq_true_eq, setsArrive_iff, Bool.not_eq_true']
  constructor
  · rintro ⟨⟨⟨arrives, caused⟩, notSafe⟩, limit⟩
    exact ⟨arrives, notSafe, limit, caused⟩
  · rintro ⟨arrives, notSafe, limit, caused⟩
    exact ⟨⟨⟨arrives, caused⟩, notSafe⟩, limit⟩

/-- R110: a record with both ceilings 0 covers no grant but 0. -/
theorem overGrantCheck_zero {s : State} (motoring : s.be.record.t = 0) (braking : s.be.record.g = 0) :
    (overGrantCheck s).tg = { s.tg with reported := s.tg.reported || decide (s.tg.lastGrant ≠ 0) } ∧
    (overGrantCheck s).ad =
      if s.tg.reported = true ∨ s.tg.lastGrant = 0 then s.ad else s.ad.occurrence .grantOver := by
  have uncovered := grantOver_zero s.be.record s.tg.lastGrant motoring braking
  by_cases done : s.tg.reported = true ∨ s.tg.lastGrant = 0
  · have covered : ¬(s.tg.reported = false ∧ grantOver s.be.record s.tg.lastGrant = true) := by
      rw [uncovered, decide_eq_true_eq]
      rintro ⟨live, grant⟩
      exact done.elim (ne_true_of_eq_false live) grant
    have same : (s.tg.reported || decide (s.tg.lastGrant ≠ 0)) = s.tg.reported := by
      obtain reported | none := done
      · rw [reported, Bool.true_or]
      · rw [none, decide_eq_false (not_not_intro rfl), Bool.or_false]
    rw [overGrantCheck_covered covered, if_pos done, same]
    exact ⟨rfl, rfl⟩
  · obtain ⟨live, grant⟩ := not_or.mp done
    rw [overGrantCheck_over (Bool.eq_false_of_not_eq_true live) (by rw [uncovered]; exact decide_eq_true grant), if_neg done,
      decide_eq_true grant, Bool.or_true]
    exact ⟨rfl, rfl⟩

/-- R94, R110: a kept record whose ceilings became 0 is checked. -/
theorem frozenOffered_zeroed {s : State} (zeroed : zeroesKept s = true) :
    (frozenOffered s).tg = { s.tg with reported := s.tg.reported || decide (s.tg.lastGrant ≠ 0) } ∧
    (frozenOffered s).ad =
      if s.tg.reported = true ∨ s.tg.lastGrant = 0 then (frozenTold s).ad
      else (frozenTold s).ad.occurrence .grantOver := by
  have tg : (frozenTold s).tg = s.tg := (frozenTold_touches s).tg (by decide)
  have record : (frozenTold s).be.record = keptRecord s := by rw [frozenTold_be]
  obtain ⟨motoring, braking⟩ := keptRecord_zero zeroed
  have offered : frozenOffered s = overGrantCheck (frozenTold s) := if_pos zeroed
  rw [offered, ← tg]
  exact overGrantCheck_zero (by rw [record]; exact motoring) (by rw [record]; exact braking)

/-- R94: a kept record whose ceilings stand is offered to no check. -/
theorem frozenOffered_kept {s : State} (kept : ¬zeroesKept s = true) : frozenOffered s = frozenTold s := if_neg kept

/-- R95, R110: the SAFE record published, BUDGET_SAFE raised, and the record checked. -/
theorem publish_safe (r : BudgetRecord) (s : State) :
    (overGrantCheck (raise .budgetSafe (publish (safeRecord r) s))).be = { s.be with record := safeRecord r } ∧
    (overGrantCheck (raise .budgetSafe (publish (safeRecord r) s))).tg =
      { s.tg with reported := s.tg.reported || decide (s.tg.lastGrant ≠ 0) } ∧
    (overGrantCheck (raise .budgetSafe (publish (safeRecord r) s))).ad =
      if s.tg.reported = true ∨ s.tg.lastGrant = 0 then s.ad.occurrence .budgetSafe
      else (s.ad.occurrence .budgetSafe).occurrence .grantOver :=
  ⟨overGrantCheck_be _, overGrantCheck_zero rfl rfl⟩

/-- R94, R95, R110: what the freeze limit leaves in BE, TG and AD: a grant that the kept record's check reported is not
reported again at the SAFE record. -/
theorem frozenComputation_safe {s : State} (notSafe : s.be.record.safe = false)
    (limit : s.par .freezeLimit ≤ min (s.be.freeze + 1) 255) :
    (frozenComputation s).be = { s.be with
      record := safeRecord (keptRecord s), freeze := min (s.be.freeze + 1) 255 } ∧
    (frozenComputation s).tg = { s.tg with reported := s.tg.reported || decide (s.tg.lastGrant ≠ 0) } ∧
    (frozenComputation s).ad =
      if s.tg.reported = true ∨ s.tg.lastGrant = 0 then (frozenTold s).ad.occurrence .budgetSafe
      else if zeroesKept s then ((frozenTold s).ad.occurrence .grantOver).occurrence .budgetSafe
      else ((frozenTold s).ad.occurrence .budgetSafe).occurrence .grantOver := by
  obtain ⟨be, tg, ad⟩ := publish_safe (keptRecord s) (frozenOffered s)
  rw [frozenComputation_limit, if_pos ⟨limit, notSafe⟩, be, tg, ad, frozenOffered_be]
  refine ⟨rfl, ?_⟩
  by_cases zeroed : zeroesKept s = true
  · obtain ⟨tg, ad⟩ := frozenOffered_zeroed zeroed
    have checked : (s.tg.reported || decide (s.tg.lastGrant ≠ 0)) = true ∨ s.tg.lastGrant = 0 := by
      by_cases none : s.tg.lastGrant = 0
      · exact .inr none
      · exact .inl (by rw [decide_eq_true none, Bool.or_true])
    rw [tg, ad, if_pos checked, if_pos zeroed, Bool.or_assoc, Bool.or_self, apply_ite (Alarms.occurrence .budgetSafe)]
    exact ⟨rfl, rfl⟩
  · rw [frozenOffered_kept zeroed, (frozenTold_touches s).tg (by decide), if_neg zeroed]
    exact ⟨rfl, rfl⟩

/-- Settles O55: when each event is due, and what it leaves. -/
theorem budgetEvents : Obligations.BudgetEvents := by
  intro v s on arrives windowIsDue caused freezeIsDue
  obtain ⟨windowRuns, windowIdles⟩ := whilePowered_whenDue (f := windowStep v) on (windowDue_iff s)
  obtain ⟨freezeRuns, freezeIdles⟩ := whilePowered_whenDue (f := frozenComputation) (p := freezeIsDue) on
    ((freezeDue_iff s).trans (and_congr_right fun _ => and_congr_right fun _ => and_congr_right fun _ => escalated_iff _ _))
  refine ⟨fun due => ⟨_, windowRuns due, rfl, ?_⟩, windowIdles, fun due => ⟨_, freezeRuns due, ?_⟩, freezeIdles⟩
  · intro vLow sagged
    obtain ⟨_, line, ends⟩ := due
    have step := windowStep_ends (v := v) line (Nat.not_lt.mpr ends)
    have sags : sagAfter v s = true ↔ sagged := sagAfter_iff v s
    have d : (windowStep v s).be.d = steppedD (sagAfter v s) s := by rw [step, endWindow_be]
    refine ⟨?_, fun yes => ?_, fun no => ?_, ?_, windowStep_touches v s⟩
    · rw [step, endWindow_be]
    · rw [d, steppedD, if_pos (sags.mpr yes)]
    · rw [d, steppedD, if_neg (mt sags.mp no)]
    · rw [d, step, endWindow_ad]
  · obtain ⟨_, notSafe, limit, _⟩ := due
    obtain ⟨be, tg, ad⟩ := frozenComputation_safe notSafe limit
    refine ⟨be, ?_, tg, frozenComputation_touches s⟩
    intro told
    rw [ad, frozenTold_ad]
    simp only [zeroesKept_iff]
    rfl

end Sys2Proof.Machine

/-! PROOFS. TRACTION REQUEST and READ BUDGET (R103 to R109, Table 5-1). -/

namespace Sys2Proof.Machine

/-! ### The power of a grant -/

/-- R104: a motoring request with the T mark clear is held to T alone. -/
theorem grantFor_motoring {r : Int} {s : State} (motoring : 0 ≤ r) (clear : s.cm.marks.t = false) :
    grantFor r s = min r s.be.record.t := by
  rw [grantFor, if_pos motoring, clear]
  rfl

/-- R105: a motoring request with the T mark set is held to P_B_TRAC as well. -/
theorem grantFor_marked {r : Int} {s : State} (motoring : 0 ≤ r) (mark : s.cm.marks.t = true) :
    grantFor r s = min (min r s.be.record.t) (s.par .bTrac) := by
  rw [grantFor, if_pos motoring, mark]
  rfl

/-- R106: a braking request is held to G. -/
theorem grantFor_braking {r : Int} (s : State) (braking : r < 0) : grantFor r s = -min (-r) s.be.record.g :=
  if_neg (Int.not_le.mpr braking)

theorem grantFor_nonneg {r : Int} (s : State) (motoring : 0 ≤ r) : 0 ≤ grantFor r s := by
  cases mark : s.cm.marks.t with
  | false => rw [grantFor_motoring motoring mark]; omega
  | true => rw [grantFor_marked motoring mark]; omega

theorem grantFor_nonpos {r : Int} (s : State) (braking : r < 0) : grantFor r s ≤ 0 := by
  rw [grantFor_braking s braking]
  omega

theorem grantFor_le_bTrac {r : Int} {s : State} (motoring : 0 ≤ r) (mark : s.cm.marks.t = true) :
    grantFor r s ≤ s.par .bTrac := by
  rw [grantFor_marked motoring mark]
  exact min_le_right _ _

/-! ### The flags of the reply -/

/-- R105: CAPPED needs P_B_TRAC strictly below both the request and T. -/
theorem grantCapped_iff (r : Int) (s : State) : grantCapped r s = true ↔
    0 ≤ r ∧ s.cm.marks.t = true ∧ (s.par .bTrac : Int) < r ∧ s.par .bTrac < s.be.record.t := by
  simp only [grantCapped, Bool.and_eq_true, decide_eq_true_eq, and_assoc]

/-- Table 5-1: CLIPPED in bit 0, CAPPED in bit 1. -/
theorem grantFlags_eq {clipped capped : Bool} {p q : Prop} [Decidable p] [Decidable q] (hp : clipped = true ↔ p)
    (hq : capped = true ↔ q) : packByte [(clipped.toNat, 0), (capped.toNat, 1)] =
      BitVec.ofNat 8 ((if p then 1 else 0) + (if q then 2 else 0)) := by
  rw [packByte_eq, ← if_congr hp rfl rfl, ← if_congr hq rfl rfl]
  cases clipped <;> cases capped <;> rfl

/-- Table 5-1: the reply of TRACTION REQUEST in numbers. -/
theorem grantPayload_eq (r : Int) (s : State) : grantPayload r s = wordOf (BitVec.ofInt 16 (grantFor r s)).toNat ++
    [BitVec.ofNat 8 ((if grantFor r s ≠ r then 1 else 0) +
      (if 0 ≤ r ∧ s.cm.marks.t = true ∧ (s.par .bTrac : Int) < r ∧ s.par .bTrac < s.be.record.t then 2 else 0))] ++
    wordOf s.be.record.t ++ wordOf s.be.record.g ++ [byteOf s.be.record.d, byteOf s.be.record.coast] ++
    wordOf s.be.record.epoch.toNat := by
  rw [grantPayload, grantFlags_eq decide_eq_true_iff (grantCapped_iff r s)]
  rfl

/-- Settles O28: the bounds of the grant by the sign of the request, then the reply and the last grant. -/
theorem tractionGranted : Obligations.TractionGranted := by
  intro body s free framed
  obtain ⟨hi, lo, payload⟩ := length_two framed.length
  refine ⟨hi, lo, payload, ?_⟩
  intro r rec_ two
  obtain ⟨underT, underG⟩ := grantFor_covered r s
  refine ⟨grantFor r s, grantFor_motoring, grantFor_marked, grantFor_braking s, ?_, ?_, ?_⟩
  · exact fun motoring => ⟨grantFor_nonneg s motoring, underT, grantFor_le_bTrac motoring⟩
  · exact fun braking => ⟨Int.neg_le_of_neg_le underG, grantFor_nonpos s braking⟩
  · have answered : exec (.tractionRequest .t body) s = .next (replied .t 0x10 body _ _ _) :=
      requestCommand_replied free framed rfl
    have own : ownerAnswer .tractionRequest .t body.payload s =
        answerWith (grantPayload r s) (s.setTg (grantGiven (grantFor r s) s)) := by rw [payload]; rfl
    rw [own, grantPayload_eq] at answered
    exact answered

/-! ### READ BUDGET -/

/-- Table 5-1: FROZEN, SAFE, SHORTFALL, V_HELD and SENSE_LOST in bits 0 to 4. -/
theorem recordFlags_eq (frozen safe shortfall vHeld senseLost : Nat) :
    packByte [(frozen, 0), (safe, 1), (shortfall, 2), (vHeld, 3), (senseLost, 4)] =
      BitVec.ofNat 8 (frozen + 2 * safe + 4 * shortfall + 8 * vHeld + 16 * senseLost) := by
  rw [packByte_eq]
  exact congrArg (BitVec.ofNat 8) (by simp; omega)

/-- Settles O29: the owning block answers with the record and the state as it was. -/
theorem budgetRead : Obligations.BudgetRead := by
  intro l body s free framed rec_ n two
  have may : permitted l .readBudget = true := by cases l <;> rfl
  have answered : exec (.readBudget l body) s = .next (replied l 0x02 body .ok (budgetPayload s.be.record) s) :=
    requestCommand_replied free framed may
  rw [budgetPayload, recordFlags_eq] at answered
  exact answered

end Sys2Proof.Machine

/-! PROOFS. What the operations on the loads keep, one by one: the start queue exactly the WAITING slots, and no slot RUNNING
that did not run (R114, R133, R145). -/

namespace Sys2Proof.Machine

/-! ### Operations that start no slot -/

/-- From `ls` to `ms` the queue's property stands, no slot has started, and no configuration has changed. -/
structure Orderly (ls ms : Loads) : Prop where
  queue : QueueInv ms
  runs : ∀ i, (entry ms.slots i).state = .running → (entry ls.slots i).state = .running
  mode : ∀ i, (entry ms.slots i).mode = (entry ls.slots i).mode
  level : ∀ i, (entry ms.slots i).level = (entry ls.slots i).level
  ride : ∀ i, (entry ms.slots i).rideThrough = (entry ls.slots i).rideThrough

theorem Orderly.refl {ls : Loads} (h : QueueInv ls) : Orderly ls ls :=
  ⟨h, fun _ => id, fun _ => rfl, fun _ => rfl, fun _ => rfl⟩

theorem Orderly.of_eq {ls ms : Loads} (h : QueueInv ls) (e : ms = ls) : Orderly ls ms := by
  rw [e]
  exact .refl h

theorem Orderly.trans {ls ms ns : Loads} (h : Orderly ls ms) (k : Orderly ms ns) : Orderly ls ns :=
  ⟨k.queue, fun i r => h.runs i (k.runs i r), fun i => (k.mode i).trans (h.mode i), fun i => (k.level i).trans (h.level i),
    fun i => (k.ride i).trans (h.ride i)⟩

/-- R114: a slot whose state is not OFF has a mode. -/
theorem QueueInv.mode_ne_off {ls : Loads} (h : QueueInv ls) {i : Fin 24} (on : (entry ls.slots i).state ≠ .off) :
    (entry ls.slots i).mode ≠ .off := by
  obtain ⟨_, _, _, modes⟩ := h
  exact mt (modes i).mpr on

/-- R145: the entries of the queue are WAITING. -/
theorem QueueInv.waiting {ls : Loads} (h : QueueInv ls) {i : Fin 24} (mem : i ∈ ls.queue) :
    (entry ls.slots i).state = .waiting := by
  obtain ⟨_, waiting, _, _⟩ := h
  exact (waiting i).mp mem

/-- A record that keeps its configuration, and does not start, at one slot alone. -/
theorem Orderly.of_record {ls ms : Loads} (queue : QueueInv ms) {i : Fin 24} {sl : Slot}
    (record : ∀ j, entry ms.slots j = if j = i then sl else entry ls.slots j)
    (runs : sl.state = .running → (entry ls.slots i).state = .running) (mode : sl.mode = (entry ls.slots i).mode)
    (level : sl.level = (entry ls.slots i).level) (ride : sl.rideThrough = (entry ls.slots i).rideThrough) : Orderly ls ms := by
  refine ⟨queue, fun j => ?_, fun j => ?_, fun j => ?_, fun j => ?_⟩
  all_goals
    rw [record]
    split
    · next e => subst e; assumption
    · simp

/-- R114: a move to a state other than RUNNING and OFF, at a slot that is not OFF. -/
theorem moveSlot_orderly {ls : Loads} (h : QueueInv ls) {st : SlotState} (stops : st ≠ .running) (on : st ≠ .off) {i : Fin 24}
    (was : (entry ls.slots i).state ≠ .off) : Orderly ls (moveSlot st i ls) :=
  .of_record (moveSlot_queueInv h st i (iff_of_false on (h.mode_ne_off was))) (fun j => moveSlot_entry st i j ls)
    (fun r => absurd r stops) rfl rfl rfl

/-- A write of a record that keeps its state and its configuration. -/
theorem setSlot_orderly {ls : Loads} (h : QueueInv ls) {i : Fin 24} {sl : Slot} (state : sl.state = (entry ls.slots i).state)
    (mode : sl.mode = (entry ls.slots i).mode) (level : sl.level = (entry ls.slots i).level)
    (ride : sl.rideThrough = (entry ls.slots i).rideThrough) : Orderly ls (ls.setSlot i sl) := by
  have record : ∀ j, entry (ls.setSlot i sl).slots j = if j = i then sl else entry ls.slots j := fun j =>
    entry_setEntry ls.slots i j sl
  refine .of_record (queueInv_of_same h rfl fun j => ?_) record (fun r => state ▸ r) mode level ride
  rw [record]
  split
  · next e => subst e; exact ⟨state, mode, level⟩
  · exact ⟨rfl, rfl, rfl⟩

/-- R133: a pass whose every turn is orderly. -/
theorem forSlots_orderly {p : Slot → Bool} {f : Fin 24 → Loads → Loads}
    (turn : ∀ i ls, QueueInv ls → p (entry ls.slots i) = true → Orderly ls (f i ls)) {ls : Loads} (h : QueueInv ls) :
    Orderly ls (forSlots p f ls) :=
  forSlots_keeps (P := Orderly ls) (fun i acc done passes => done.trans (turn i acc done.queue passes)) (.refl h)

theorem ne_off_of_isActive {st : SlotState} (h : isActive st = true) : st ≠ .off := by
  rintro rfl
  cases h

theorem shedWhere_orderly {ls : Loads} (h : QueueInv ls) (p : Slot → Bool) (r : ShedReason) : Orderly ls (shedWhere p r ls) :=
  forSlots_orderly (fun _ _ q passes => moveSlot_orderly q SlotState.noConfusion SlotState.noConfusion
    (ne_off_of_isActive (Bool.and_eq_true_iff.mp passes).1)) h

theorem restoreWhere_orderly {ls : Loads} (h : QueueInv ls) (p : Slot → Bool) (r : ShedReason) :
    Orderly ls (restoreWhere p r ls) := by
  refine forSlots_orderly (fun _ _ q passes => moveSlot_orderly q SlotState.noConfusion SlotState.noConfusion ?_) h
  rw [of_decide_eq_true (Bool.and_eq_true_iff.mp passes).1]
  exact SlotState.noConfusion

/-! ### The mode work -/

theorem followPhase_orderly {ls : Loads} (h : QueueInv ls) {i : Fin 24} (on : (entry ls.slots i).state ≠ .off) :
    Orderly ls (followPhase i ls) := by
  unfold followPhase
  split
  · exact moveSlot_orderly h SlotState.noConfusion SlotState.noConfusion on
  · exact moveSlot_orderly h SlotState.noConfusion SlotState.noConfusion on

theorem idlePark_orderly {ls : Loads} (h : QueueInv ls) {i : Fin 24} (on : (entry ls.slots i).state ≠ .off) :
    Orderly ls (idlePark i ls) := by
  obtain ⟨queue, runs, mode, level, ride⟩ :=
    moveSlot_orderly h (st := .parked) SlotState.noConfusion SlotState.noConfusion on
  exact ⟨queue, runs, mode, level, ride⟩

theorem demandSlot_orderly {ls : Loads} (h : QueueInv ls) (limit : Nat) (i : Fin 24) : Orderly ls (demandSlot limit i ls) := by
  unfold demandSlot
  dsimp only
  split
  · next parked =>
    split
    · exact moveSlot_orderly h SlotState.noConfusion SlotState.noConfusion (by rw [parked]; exact SlotState.noConfusion)
    · exact .refl h
  · split
    · next active =>
      split
      · exact setSlot_orderly h rfl rfl rfl rfl
      · split
        · exact idlePark_orderly h (ne_off_of_isActive active)
        · exact setSlot_orderly h rfl rfl rfl rfl
    · exact .refl h

/-- R124: a slot that its phase moves is not OFF. -/
theorem ne_off_of_phaseMoves {onA onB : Bool} {sl : Slot} (h : phaseMoves onA onB sl = true) : sl.state ≠ .off := by
  intro off
  cases mode : sl.mode <;> simp [phaseMoves, mode, off, isActive] at h

theorem modeSlot_orderly {ls : Loads} (h : QueueInv ls) {onA onB : Bool} (limit : Nat) {i : Fin 24}
    (takes : modeTakes onA onB (entry ls.slots i) = true) : Orderly ls (modeSlot limit i ls) := by
  unfold modeSlot
  split
  · exact demandSlot_orderly h limit i
  · next other =>
    refine followPhase_orderly h (ne_off_of_phaseMoves (onA := onA) (onB := onB) ?_)
    rwa [modeTakes, decide_eq_false other, Bool.or_false] at takes

/-- R126: the observation writes neither a slot nor the queue. -/
theorem advanceObservation_slots (s : State) :
    (advanceObservation s).ls.slots = s.ls.slots ∧ (advanceObservation s).ls.queue = s.ls.queue := by
  unfold advanceObservation
  dsimp only
  split <;> exact ⟨rfl, rfl⟩

/-- The records and the queue carry the property alone. -/
theorem Orderly.congr {ls ms ns : Loads} (h : Orderly ls ms) (slots : ns.slots = ms.slots) (queue : ns.queue = ms.queue) :
    Orderly ls ns := by
  refine ⟨queueInv_of_same h.queue queue fun i => ?_, ?_, ?_, ?_, ?_⟩
  · rw [slots]; exact ⟨rfl, rfl, rfl⟩
  all_goals rw [slots]
  exacts [h.runs, h.mode, h.level, h.ride]

theorem slotsFollow_ls (s : State) : (slotsFollow s).ls =
    forSlots (modeTakes (genOnPhase s .a) (genOnPhase s .b)) (modeSlot (idleLimit s)) s.ls := State.setLs_ls _ _

theorem modeWork_orderly {s : State} (h : QueueInv s.ls) : Orderly s.ls (modeWork s).ls := by
  have advanced : Orderly s.ls (advanceGens s).ls := (Orderly.refl h).congr rfl rfl
  have followed : Orderly s.ls (slotsFollow (advanceGens s)).ls := by
    rw [slotsFollow_ls]
    exact advanced.trans (forSlots_orderly (fun i _ q takes => modeSlot_orderly q _ takes) advanced.queue)
  obtain ⟨slots, queue⟩ := advanceObservation_slots (slotsFollow (advanceGens s))
  exact followed.congr slots queue

/-! ### The band step -/

theorem raiseTimes_ls (src : Source) (k : Nat) (s : State) : (raiseTimes src k s).ls = s.ls :=
  (raiseTimes_touches src k s).ls (by decide)

theorem bandShedSlot_orderly {ls : Loads} (h : QueueInv ls) (limit : Nat) {i : Fin 24}
    (taken : bandTaken (entry ls.slots i) = true) : Orderly ls (bandShedSlot limit i ls) := by
  have on : (entry ls.slots i).state ≠ .off := ne_off_of_isActive (Bool.and_eq_true_iff.mp taken).1
  have counted : Orderly ls (ls.setSlot i { entry ls.slots i with bandCount := satAdd 15 (entry ls.slots i).bandCount 1 }) :=
    setSlot_orderly h rfl rfl rfl rfl
  have still : (entry (ls.setSlot i { entry ls.slots i with
      bandCount := satAdd 15 (entry ls.slots i).bandCount 1 }).slots i).state ≠ .off := by
    rw [Loads.setSlot, entry_setEntry_same]; exact on
  unfold bandShedSlot
  dsimp only
  split
  · exact counted.trans (moveSlot_orderly counted.queue SlotState.noConfusion SlotState.noConfusion still)
  · exact counted.trans (moveSlot_orderly counted.queue SlotState.noConfusion SlotState.noConfusion still)

theorem bandReturnSlot_orderly {ls : Loads} (h : QueueInv ls) {i : Fin 24} (on : (entry ls.slots i).state ≠ .off) :
    Orderly ls (bandReturnSlot i ls) := by
  unfold bandReturnSlot
  split
  · exact moveSlot_orderly h SlotState.noConfusion SlotState.noConfusion on
  · exact moveSlot_orderly h SlotState.noConfusion SlotState.noConfusion on

theorem bandShed_ls (s : State) :
    (bandShed s).ls = forSlots bandTaken (bandShedSlot (s.par .bandRestartLimit)) s.ls := by
  unfold bandShed
  dsimp only
  have locked : ∀ k ls, (raiseTimes .loadLockout k (s.setLs ls)).ls = ls := fun k ls => raiseTimes_ls _ k (s.setLs ls)
  split
  · exact locked _ _
  · exact locked _ _

theorem bandReturn_ls (s : State) :
    (bandReturn s).ls = forSlots (fun sl => decide (sl.state = .shed .band)) bandReturnSlot s.ls :=
  (raiseTimes_ls _ _ _).trans (State.setLs_ls _ _)

theorem bandStep_orderly {s : State} (h : QueueInv s.ls) (v : Option (BitVec 10)) : Orderly s.ls (bandStep v s).ls := by
  unfold bandStep
  split
  · split
    · rw [bandShed_ls]
      exact forSlots_orderly (fun _ _ q taken => bandShedSlot_orderly q _ taken) h
    · rw [bandReturn_ls]
      refine forSlots_orderly (fun _ _ q back => bandReturnSlot_orderly q ?_) h
      rw [of_decide_eq_true back]
      exact SlotState.noConfusion
  · exact .refl h
  · exact .refl h
  · exact .refl h

/-- R139: the band step waits for LINE supply. -/
theorem bandStep_unpowered {s : State} (h : s.supply = .none) (v : Option (BitVec 10)) : bandStep v s = s := by
  unfold bandStep
  rw [h]

/-! ### The heads in the shed range, and the start -/

/-- A list of slots moved to one state, one after the other. -/
theorem moveAll_entry (st : SlotState) (l : List (Fin 24)) (ls : Loads) (j : Fin 24) :
    entry (l.foldl (fun acc i => moveSlot st i acc) ls).slots j =
      if j ∈ l then { entry ls.slots j with state := st, idle := 0 } else entry ls.slots j := by
  induction l generalizing ls with
  | nil => rfl
  | cons i l ih =>
    rw [List.foldl_cons, ih, moveSlot_entry]
    by_cases e : j = i
    · subst e; simp
    · simp [e]

/-- R146: WAITING slots moved to another state leave the queue. -/
theorem moveAll_queue {st : SlotState} (leaves : st ≠ .waiting) (l : List (Fin 24)) {ls : Loads} (nodup : l.Nodup)
    (waiting : ∀ i ∈ l, (entry ls.slots i).state = .waiting) :
    (l.foldl (fun acc i => moveSlot st i acc) ls).queue = ls.queue.filter (· ∉ l) := by
  induction l generalizing ls with
  | nil => simp
  | cons i l ih =>
    obtain ⟨fresh, nodup⟩ := List.nodup_cons.mp nodup
    have same : ∀ j ∈ l, (entry (moveSlot st i ls).slots j).state = .waiting := fun j mem => by
      rw [moveSlot_entry, if_neg fun e : j = i => fresh (e ▸ mem)]
      exact waiting j (List.mem_cons_of_mem _ mem)
    rw [List.foldl_cons, ih nodup same, moveSlot_queue_leave leaves, if_pos (waiting i (List.mem_cons_self ..)),
      List.filter_filter]
    exact List.filter_congr fun j _ => by simp [Bool.and_comm]

/-- R148: the entries of the queue ahead of the first below the shed range. -/
def headsInRange (h : Nat) (ls : Loads) : List (Fin 24) :=
  ls.queue.takeWhile fun i => inShedRange h (entry ls.slots i).level

theorem mem_queue_of_headsInRange {h : Nat} {ls : Loads} {i : Fin 24} (mem : i ∈ headsInRange h ls) : i ∈ ls.queue :=
  (List.takeWhile_prefix _).subset mem

theorem shedHeads_entry (h : Nat) (ls : Loads) (j : Fin 24) : entry (shedHeads h ls).slots j =
    if j ∈ headsInRange h ls then { entry ls.slots j with state := .shed .budget, idle := 0 } else entry ls.slots j :=
  moveAll_entry _ _ _ _

/-- R148: the queue then begins below the shed range. -/
theorem shedHeads_queue {ls : Loads} (inv : QueueInv ls) (h : Nat) :
    (shedHeads h ls).queue = ls.queue.dropWhile fun i => inShedRange h (entry ls.slots i).level := by
  have nodup : ls.queue.Nodup := inv.1
  have leaves : (shedHeads h ls).queue = ls.queue.filter (· ∉ headsInRange h ls) :=
    moveAll_queue SlotState.noConfusion _ (nodup.sublist (List.takeWhile_sublist _))
      fun i mem => inv.waiting (mem_queue_of_headsInRange mem)
  have split : headsInRange h ls ++ ls.queue.dropWhile (fun i => inShedRange h (entry ls.slots i).level) = ls.queue :=
    List.takeWhile_append_dropWhile
  rw [← split, List.nodup_append] at nodup
  obtain ⟨_, _, apart⟩ := nodup
  rw [leaves]
  conv_lhs => rw [← split]
  rw [List.filter_append, List.filter_eq_nil_iff.mpr fun i mem => by simpa using mem,
    List.filter_eq_self.mpr fun i mem => by simpa using fun front => apart i front i mem rfl, List.nil_append]

theorem shedHeads_orderly {ls : Loads} (inv : QueueInv ls) (h : Nat) : Orderly ls (shedHeads h ls) := by
  have key : ∀ (l : List (Fin 24)) (acc : Loads), Orderly ls acc → (∀ i ∈ l, i ∈ ls.queue) →
      Orderly ls (l.foldl (fun acc i => moveSlot (.shed .budget) i acc) acc) := by
    intro l
    induction l with
    | nil => exact fun _ done _ => done
    | cons i l ih =>
      intro acc done mem
      have waits : (entry ls.slots i).state ≠ .off := by
        rw [inv.waiting (mem i (List.mem_cons_self ..))]; exact SlotState.noConfusion
      have on : (entry acc.slots i).state ≠ .off := by
        obtain ⟨_, _, _, modes⟩ := done.queue
        rw [ne_eq, modes i, done.mode]
        exact inv.mode_ne_off waits
      exact ih _ (done.trans (moveSlot_orderly done.queue SlotState.noConfusion SlotState.noConfusion on))
        fun j m => mem j (List.mem_cons_of_mem _ m)
  exact key _ _ (.refl inv) fun _ => mem_queue_of_headsInRange

/-- R148: the head left to the start decision is below the shed range. -/
theorem shedHeads_head {ls : Loads} (inv : QueueInv ls) {h : Nat} {i : Fin 24} (head : (shedHeads h ls).queue.head? = some i) :
    (entry ls.slots i).level.val < 4 - h := by
  rw [shedHeads_queue inv] at head
  have first := List.head?_dropWhile_not (fun i => inShedRange h (entry ls.slots i).level) ls.queue
  rw [head] at first
  exact (inShedRange_eq_false h _).mp (by simpa using first)

theorem startSlot_entry (i j : Fin 24) (ls : Loads) : entry (startSlot i ls).slots j =
    if j = i then { entry ls.slots i with state := .running, idle := 0 } else entry ls.slots j :=
  moveSlot_entry _ _ _ _

theorem startSlot_queueInv {ls : Loads} (inv : QueueInv ls) {i : Fin 24} (mem : i ∈ ls.queue) :
    QueueInv (startSlot i ls) := by
  have on : (entry ls.slots i).mode ≠ .off :=
    inv.mode_ne_off (by rw [inv.waiting mem]; exact SlotState.noConfusion)
  exact moveSlot_queueInv inv .running i (iff_of_false SlotState.noConfusion on)

end Sys2Proof.Machine

/-! PROOFS. Every step keeps the start queue and lets no slot run that may not (R114, R115, R145). -/

namespace Sys2Proof.Machine

/-! ### What a change of the state keeps -/

/-- The queue exactly the WAITING slots, and RUNNING slots those that may run. -/
def LoadsInv (s : State) : Prop := QueueInv s.ls ∧ RunningInv s

/-- R115: the state in which a slot that is not ride-through may run. -/
def Powered (s : State) : Prop := s.supply ≠ .none ∧ s.si.senseLost = false

/-- R83: every RUNNING slot is below the shed range. -/
def BelowRange (s : State) : Prop :=
  ∀ i, (entry s.ls.slots i).state = .running → (entry s.ls.slots i).level.val < 4 - s.be.h

theorem LoadsInv.below {s : State} (h : LoadsInv s) : BelowRange s := fun i r => (h.2 i r).2.1

theorem LoadsInv.rides {s : State} (h : LoadsInv s) {i : Fin 24} (r : (entry s.ls.slots i).state = .running) :
    (entry s.ls.slots i).rideThrough = true ∨ Powered s := (h.2 i r).2.2

/-- R115 from its parts; the mode of a RUNNING slot follows from the queue's property. -/
theorem LoadsInv.mk {s : State} (queue : QueueInv s.ls) (below : BelowRange s)
    (rides : ∀ i, (entry s.ls.slots i).state = .running → (entry s.ls.slots i).rideThrough = true ∨ Powered s) : LoadsInv s :=
  ⟨queue, fun i r => ⟨queue.mode_ne_off (by rw [r]; exact SlotState.noConfusion), below i r, rides i r⟩⟩

theorem BelowRange.of_orderly {s t : State} (h : BelowRange s) (o : Orderly s.ls t.ls) (depth : t.be.h ≤ s.be.h) :
    BelowRange t := fun i r => by
  have below := h i (o.runs i r)
  rw [o.level]
  omega

/-- Where no slot starts, H does not rise and the power stands, the property stands. -/
theorem LoadsInv.of_orderly {s t : State} (h : LoadsInv s) (o : Orderly s.ls t.ls) (depth : t.be.h ≤ s.be.h)
    (power : Powered s → Powered t) : LoadsInv t :=
  .mk o.queue (h.below.of_orderly o depth) fun i r => by
    rw [o.ride]
    exact (h.rides (o.runs i r)).imp_right power

theorem LoadsInv.congr {s t : State} (h : LoadsInv s) (ls : t.ls = s.ls) (depth : t.be.h = s.be.h)
    (power : Powered s → Powered t) : LoadsInv t :=
  h.of_orderly (.of_eq h.1 ls) depth.le power

/-- A change of the loads alone. -/
theorem LoadsInv.setLs {s : State} (h : LoadsInv s) {ls : Loads} (o : Orderly s.ls ls) : LoadsInv (s.setLs ls) :=
  h.of_orderly o (Nat.le_refl _) id

/-- R137, R143: where every active slot that is not ride-through is shed, no power is needed. -/
theorem LoadsInv.shed {s t : State} (h : LoadsInv s) (r : ShedReason)
    (ls : t.ls = shedWhere (fun sl => !sl.rideThrough) r s.ls) (depth : t.be.h = s.be.h) : LoadsInv t := by
  have o : Orderly s.ls t.ls := ls ▸ shedWhere_orderly h.1 _ r
  refine .mk o.queue (h.below.of_orderly o depth.le) fun i run => .inl ?_
  rw [ls, shedWhere_entry] at run ⊢
  split at run
  · cases run
  · next stays =>
    rw [if_neg stays]
    rw [run] at stays
    simpa [isActive] using stays

/-- R149, R150: the head of the queue starts. -/
theorem LoadsInv.start {s : State} (h : LoadsInv s) {i : Fin 24} (head : s.ls.queue.head? = some i)
    (below : (entry s.ls.slots i).level.val < 4 - s.be.h) (rides : (entry s.ls.slots i).rideThrough = true ∨ Powered s) :
    LoadsInv (s.setLs (startSlot i s.ls)) := by
  refine .mk (startSlot_queueInv h.1 (List.mem_of_mem_head? head)) (fun j run => ?_) fun j run => ?_
  · rw [State.setLs_ls, startSlot_entry] at run ⊢
    split at run
    · next e => rw [if_pos e]; exact below
    · next e => rw [if_neg e]; exact h.below j run
  · rw [State.setLs_ls, startSlot_entry] at run ⊢
    split at run
    · next e => rw [if_pos e]; exact rides
    · next e => rw [if_neg e]; exact h.rides run

/-! ### The supply -/

/-- R46: on the line there is always a supply; off it the battery alone. -/
theorem supply_ne_none_iff (s : State) :
    s.supply ≠ .none ↔ s.cm.state ∈ [.onWire, .unloading] ∨ s.par .battery = 1 := by
  by_cases line : s.cm.state ∈ [.onWire, .unloading]
  · simp [supply_line line, line]
  · have off : s.cm.state ∈ [.down, .raising, .gap, .suspect, .dropped, .lowering] := by
      revert line
      cases s.cm.state <;> decide
    rw [supply_off_line off]
    by_cases battery : s.par .battery = 1 <;> simp [battery, line]

/-- R46: a collector that leaves the off-line states, or moves among them, takes no supply away. -/
theorem Powered.of_off_line {s t : State} (h : Powered s) (off : s.cm.state ∉ [.onWire, .unloading])
    (battery : t.par .battery = s.par .battery) (lost : t.si.senseLost = s.si.senseLost) : Powered t := by
  obtain ⟨supply, sensed⟩ := h
  refine ⟨(supply_ne_none_iff t).mpr (.inr ?_), lost.trans sensed⟩
  rw [battery]
  exact ((supply_ne_none_iff s).mp supply).resolve_left off

theorem Powered.congr {s t : State} (h : Powered s) (state : t.cm.state = s.cm.state)
    (battery : t.par .battery = s.par .battery) (lost : t.si.senseLost = s.si.senseLost) : Powered t := by
  obtain ⟨supply, sensed⟩ := h
  refine ⟨?_, lost.trans sensed⟩
  rw [supply_ne_none_iff] at supply ⊢
  rwa [state, battery]

/-- Blocks other than CM, PM and SI do not carry the power. -/
theorem Powered.of_touches {bs : List Block} {s t : State} (h : Powered s) (touched : Touches bs s t)
    (cm : Block.cm ∉ bs) (pm : Block.pm ∉ bs) (si : Block.si ∉ bs) : Powered t :=
  h.congr (by rw [touched.cm cm]) (par_eq_of_pm (touched.pm pm) _) (by rw [touched.si si])

/-! ### The failure of a channel -/

theorem failChannel_loadsInv {s : State} (h : LoadsInv s) (ch : Channel) (why : FailReason) :
    LoadsInv (failChannel ch why s) := by
  by_cases active : s.si.active = some ch
  · by_cases standby : (s.si.chan.get (otherChannel ch)).health = .healthy
    · rw [failChannel_failover active standby]
      exact h
    · have depth := (failChannel_be_depth ch why s).2
      rw [failChannel_lost active (health_failed_of_ne standby)] at depth ⊢
      refine h.shed .sense ?_ depth
      rw [loseSense_eq, State.setCm_ls, State.setLs_ls]
      rfl
  · rw [failChannel_standby active]
    exact h

/-! ### An accepted set -/

/-- R137: in NONE supply every active slot is ride-through. -/
def RidesUnpowered (s : State) : Prop :=
  s.supply = .none → ∀ i, isActive (entry s.ls.slots i).state = true → (entry s.ls.slots i).rideThrough = true

/-- What holds of the loads within an accepted set, behind its supply step. -/
structure SetLoads (s : State) : Prop where
  queue : QueueInv s.ls
  below : BelowRange s
  rides : RidesUnpowered s

theorem SetLoads.congr {s t : State} (h : SetLoads s) (ls : t.ls = s.ls) (depth : t.be.h ≤ s.be.h)
    (supply : t.supply = s.supply) : SetLoads t := by
  refine ⟨ls ▸ h.queue, h.below.of_orderly (.of_eq h.queue ls) depth, ?_⟩
  unfold RidesUnpowered
  rw [ls, supply]
  exact h.rides

/-- With a supply, no more than an orderly change is asked for. -/
theorem SetLoads.of_supply {s t : State} (h : SetLoads s) (o : Orderly s.ls t.ls) (depth : t.be.h ≤ s.be.h)
    (supply : t.supply ≠ .none) : SetLoads t :=
  ⟨o.queue, h.below.of_orderly o depth, fun none => absurd none supply⟩

/-- Behind a set every RUNNING slot may run: sets arrive while SENSE_LOST is clear. -/
theorem SetLoads.loadsInv {s : State} (h : SetLoads s) (sensed : s.si.senseLost = false) : LoadsInv s :=
  .mk h.queue h.below fun i run => by
    by_cases supply : s.supply = .none
    · exact .inl (h.rides supply i (by rw [run]; rfl))
    · exact .inr ⟨supply, sensed⟩

/-- R137, R138: the supply step leaves no active slot without a supply but the ride-through ones. -/
theorem supplyStep_setLoads {s : State} (queue : QueueInv s.ls) (below : BelowRange s) : SetLoads (supplyStep s) := by
  have supply : (supplyStep s).supply = s.supply :=
    supply_congr ((supplyStep_touches s).cm (by decide)) ((supplyStep_touches s).pm (by decide))
  by_cases none : s.supply = .none
  · have shed : supplyStep s = s.setLs (shedWhere (fun sl => !sl.rideThrough) .supply s.ls) := by
      unfold supplyStep
      rw [none]
    have o : Orderly s.ls (supplyStep s).ls := by rw [shed, State.setLs_ls]; exact shedWhere_orderly queue _ _
    refine ⟨o.queue, below.of_orderly o (by rw [shed]; exact Nat.le_refl _), fun _ i active => ?_⟩
    rw [shed, State.setLs_ls, shedWhere_entry] at active ⊢
    split at active
    · cases active
    · next stays =>
      rw [if_neg stays]
      rw [active] at stays
      simpa using stays
  · have restored : supplyStep s = s.setLs (restoreWhere (fun _ => true) .supply s.ls) := by
      unfold supplyStep
      split
      · next e => exact absurd e none
      · rfl
      · rfl
    have o : Orderly s.ls (supplyStep s).ls := by rw [restored, State.setLs_ls]; exact restoreWhere_orderly queue _ _
    exact ⟨o.queue, below.of_orderly o (by rw [restored]; exact Nat.le_refl _), fun e => absurd (supply.symm.trans e) none⟩

theorem bandStep_setLoads {s : State} (h : SetLoads s) (v : Option (BitVec 10)) : SetLoads (bandStep v s) := by
  by_cases none : s.supply = .none
  · rw [bandStep_unpowered none]; exact h
  · have touched := bandStep_touches v s
    have supply : (bandStep v s).supply = s.supply := supply_congr (touched.cm (by decide)) (touched.pm (by decide))
    exact h.of_supply (bandStep_orderly h.queue v) (by rw [touched.be (by decide)]) (supply ▸ none)

/-- R132: LS's work before the computation. -/
theorem loadsBeforeBudget_setLoads {s : State} (queue : QueueInv s.ls) (below : BelowRange s) (v : Option (BitVec 10)) :
    SetLoads (loadsBeforeBudget v s) := by
  have worked := modeWork_orderly queue
  have depth : (modeWork s).be = s.be := (modeWork_touches s).be (by decide)
  exact bandStep_setLoads (supplyStep_setLoads worked.queue (below.of_orderly worked (by rw [depth]))) v

theorem windowStep_h (v : Option (BitVec 10)) (s : State) : (windowStep v s).be.h = s.be.h := by
  unfold windowStep
  split
  · dsimp only
    split
    · rw [endWindow_be]
    · rfl
  · rfl

theorem riseDepth_ls (target : Nat) (s : State) : (riseDepth target s).ls = budgetShed target s.ls :=
  ((raise_touches _ _).ls (by decide)).trans (State.setLs_ls _ _)

theorem budgetShed_orderly {ls : Loads} (h : QueueInv ls) (depth : Nat) : Orderly ls (budgetShed depth ls) := by
  unfold budgetShed
  exact shedWhere_orderly h _ _

theorem budgetRestore_orderly {ls : Loads} (h : QueueInv ls) (depth : Nat) : Orderly ls (budgetRestore depth ls) := by
  unfold budgetRestore
  exact restoreWhere_orderly h _ _

/-- R83, R134: a rise of H sheds the slots that it takes into the shed range. -/
theorem riseDepth_setLoads {s : State} (h : SetLoads s) (target : Nat) : SetLoads (riseDepth target s) := by
  have ls := riseDepth_ls target s
  have o : Orderly s.ls (riseDepth target s).ls := by rw [ls]; exact budgetShed_orderly h.queue target
  have entry_eq := budgetShed_entry target s.ls
  refine ⟨o.queue, fun i run => ?_, fun none i active => ?_⟩
  · show _ < 4 - target
    rw [ls, entry_eq] at run ⊢
    split at run
    · cases run
    · next stays =>
      rw [if_neg stays]
      exact Nat.lt_of_not_le fun inRange => stays ⟨.inl run, inRange⟩
  · rw [ls, entry_eq] at active ⊢
    split at active
    · cases active
    · next stays => rw [if_neg stays]; exact h.rides none i active

theorem depthStage_setLoads {s : State} (h : SetLoads s) (pAvail : Nat) : SetLoads (depthStage pAvail s).state := by
  by_cases none : s.supply = .none
  · rw [depthStage_none none]; exact h
  · unfold depthStage
    rw [if_neg none]
    dsimp only
    split
    · refine riseDepth_setLoads ?_ _
      exact h.congr rfl (Nat.le_refl _) rfl
    · exact h.congr rfl (Nat.le_refl _) rfl

/-- R84: a fall of H is pending in a supply alone. -/
theorem supply_of_depthStage_fall {s : State} {pAvail : Nat} (fall : (depthStage pAvail s).fall = true) :
    s.supply ≠ .none := fun none => by
  rw [depthStage_none none] at fall
  cases fall

theorem frozenComputation_h (s : State) : (frozenComputation s).be.h = s.be.h := by
  obtain ⟨_, _, e⟩ := frozenComputation_be s
  rw [e]

theorem frozenComputation_ls (s : State) : (frozenComputation s).ls = s.ls := (frozenComputation_touches s).ls (by decide)

/-- R84, R136: a normal publication changes no slot but those that a fall of H restores. -/
theorem normalPublication_orderly {s : State} (queue : QueueInv s.ls) (pAvail served : Nat) (c : Ceilings)
    (vHeld fall : Bool) : Orderly s.ls (normalPublication pAvail served c vHeld fall s).ls := by
  cases fall with
  | false =>
    rw [normalPublication_stays, overGrantCheck_ls]
    exact .refl queue
  | true =>
    rw [normalPublication_falls, State.setLs_ls]
    exact budgetRestore_orderly queue _

theorem normalPublication_ls_stays (pAvail served : Nat) (c : Ceilings) (vHeld : Bool) (s : State) :
    (normalPublication pAvail served c vHeld false s).ls = s.ls := by
  rw [normalPublication_stays, overGrantCheck_ls]
  rfl

theorem conclude_setLoads {s : State} (h : SetLoads s) (pAvail served : Nat) (c : Ceilings) (causes : Conditions)
    {fall : Bool} (falls : fall = true → s.supply ≠ .none) : SetLoads (conclude pAvail served c causes fall s) := by
  have touched := conclude_touches pAvail served c causes fall s
  have supply : (conclude pAvail served c causes fall s).supply = s.supply :=
    supply_congr (touched.cm (by decide)) (touched.pm (by decide))
  have depth := (conclude_depth pAvail served c causes fall s).2
  cases freezes : escalated causes (escalateEnables (s.par .escalate)) with
  | true =>
    refine h.congr ?_ depth supply
    rw [conclude_frozen freezes, frozenComputation_ls]
    rfl
  | false =>
    rw [conclude_normal freezes] at depth supply ⊢
    cases fall with
    | false => exact h.congr (normalPublication_ls_stays _ _ _ _ _) depth supply
    | true =>
      have published := normalPublication_orderly (s := s.setBe (notedBudget causes s)) h.queue pAvail served c causes.taint true
      exact h.of_supply published depth (supply ▸ falls rfl)

theorem budgetComputation_setLoads {s : State} (h : SetLoads s) (v : Option (BitVec 10)) :
    SetLoads (budgetComputation v s) := by
  have held : SetLoads (holdV v s) := by
    rw [holdV_eq]
    exact h.congr rfl (Nat.le_refl _) rfl
  have touched := windowStep_touches v (holdV v s)
  have windowed : SetLoads (windowStep v (holdV v s)) :=
    held.congr (touched.ls (by decide)) (windowStep_h v _).le (supply_congr (touched.cm (by decide)) (touched.pm (by decide)))
  have deep := depthStage_touches (availablePower (windowStep v (holdV v s))) (windowStep v (holdV v s))
  refine conclude_setLoads (depthStage_setLoads windowed _) _ _ _ _ fun fall => ?_
  rw [supply_congr (deep.cm (by decide)) (deep.pm (by decide))]
  exact supply_of_depthStage_fall fall

/-- R148: the heads in the shed range are shed, and the epochs counted. -/
theorem shedHeads_setLoads {s : State} (h : SetLoads s) :
    SetLoads (s.setLs (shedHeads s.be.h (countSinceStart s.ls))) := by
  have counted : Orderly s.ls (countSinceStart s.ls) := (Orderly.refl h.queue).congr rfl rfl
  have o : Orderly s.ls (shedHeads s.be.h (countSinceStart s.ls)) := counted.trans (shedHeads_orderly counted.queue _)
  refine ⟨o.queue, h.below.of_orderly o (Nat.le_refl _), fun none i active => ?_⟩
  rw [State.setLs_ls, shedHeads_entry] at active ⊢
  split at active
  · cases active
  · next stays => rw [if_neg stays]; exact h.rides none i active

/-- R149 to R151: the head of the queue starts, or not. -/
theorem startDecision_loadsInv {s : State} (h : SetLoads s) (sensed : s.si.senseLost = false) :
    LoadsInv (startDecision s) := by
  have left := shedHeads_setLoads h
  have queue : QueueInv (countSinceStart s.ls) := h.queue
  have below : ∀ i, (shedHeads s.be.h (countSinceStart s.ls)).queue.head? = some i →
      (entry (shedHeads s.be.h (countSinceStart s.ls)).slots i).level.val < 4 - s.be.h := fun i head => by
    rw [(shedHeads_orderly queue s.be.h).level]
    exact shedHeads_head queue head
  unfold startDecision
  generalize shedHeads s.be.h (countSinceStart s.ls) = ls at left below ⊢
  have inv : LoadsInv (s.setLs ls) := left.loadsInv sensed
  unfold tryStart
  split
  · next i head =>
    split
    · refine inv.start head (below i head) ?_
      by_cases none : (s.setLs ls).supply = .none
      · refine .inl (left.rides none i ?_)
        rw [left.queue.waiting (List.mem_of_mem_head? head)]
        rfl
      · exact .inr ⟨none, sensed⟩
    · exact inv
  · exact inv

theorem acceptedSet_loadsInv {s : State} (h : LoadsInv s) (sensed : s.si.senseLost = false) (x : Sample) :
    LoadsInv (acceptedSet x s) := by
  have found := movedAtSet_touches x s
  have ls : (movedAtSet x s).ls = s.ls := found.ls (by decide)
  have be : (movedAtSet x s).be = s.be := found.be (by decide)
  have before : SetLoads (loadsBeforeBudget x.v (movedAtSet x s)) := by
    refine loadsBeforeBudget_setLoads (ls ▸ h.1) ?_ x.v
    unfold BelowRange
    rw [ls, be]
    exact h.below
  have clear : (budgetComputation x.v (loadsBeforeBudget x.v (movedAtSet x s))).si.senseLost = false := by
    have same : Touches [.be, .tg, .ls, .ad, .rft, .cm] (passOn x s)
        (budgetComputation x.v (loadsBeforeBudget x.v (movedAtSet x s))) :=
      ((found.mono (by decide)).trans ((loadsBeforeBudget_touches _ _).mono (by decide))).trans
        ((budgetComputation_touches _ _).mono (by decide))
    rw [same.si (by decide)]
    exact sensed
  rw [acceptedSet_eq]
  exact startDecision_loadsInv (budgetComputation_setLoads before x.v) clear

end Sys2Proof.Machine

/-! PROOFS. The requests of LS and the other commands keep the loads (R114 to R121, R128, R131, R145), and O60. -/

namespace Sys2Proof.Machine

/-! ### The requests of LS -/

theorem wakeSlots_orderly {ls : Loads} (h : QueueInv ls) {p : Fin 24 → Slot → Bool}
    (on : ∀ i sl, p i sl = true → sl.state ≠ .off) : Orderly ls (wakeSlots p ls) := by
  have key : ∀ (l : List (Fin 24)) (acc : Loads), Orderly ls acc →
      Orderly ls (l.foldl (fun acc i => if p i (entry acc.slots i) then moveSlot .waiting i acc else acc) acc) := by
    intro l
    induction l with
    | nil => exact fun _ done => done
    | cons i l ih =>
      intro acc done
      refine ih _ ?_
      dsimp only
      split
      · next passes =>
        exact done.trans (moveSlot_orderly done.queue SlotState.noConfusion SlotState.noConfusion (on i _ passes))
      · exact done
  exact key slotNumbers ls (.refl h)

/-- R121: does this demand bit unpark the slot? -/
def unparks (demand : BitVec 24) (i : Fin 24) (sl : Slot) : Bool :=
  decide (sl.state = .parked) && decide (sl.mode = .onDemand) && demand.getLsbD i.val

theorem unparkDemanded_eq (ls : Loads) : unparkDemanded ls = wakeSlots (unparks ls.demand) ls := rfl

theorem unparks_iff (demand : BitVec 24) (i : Fin 24) (sl : Slot) : unparks demand i sl = true ↔
    sl.state = .parked ∧ sl.mode = .onDemand ∧ demand.getLsbD i.val = true := by
  simp [unparks, and_assoc]

theorem unparkDemanded_orderly {ls : Loads} (h : QueueInv ls) : Orderly ls (unparkDemanded ls) := by
  rw [unparkDemanded_eq]
  refine wakeSlots_orderly h fun i sl wakes => ?_
  rw [((unparks_iff _ _ _).mp wakes).1]
  exact SlotState.noConfusion

theorem clearBand_orderly {ls : Loads} (h : QueueInv ls) (i : Fin 24) : Orderly ls (clearBand i ls) :=
  setSlot_orderly h rfl rfl rfl rfl

/-- R128: a slot re-enabled. -/
theorem reEnabled_orderly {ls : Loads} (h : QueueInv ls) {i : Fin 24} (on : (entry ls.slots i).state ≠ .off) :
    Orderly ls (moveSlot .waiting i (clearBand i ls)) := by
  have cleared := clearBand_orderly h i
  refine cleared.trans (moveSlot_orderly cleared.queue SlotState.noConfusion SlotState.noConfusion ?_)
  rw [clearBand_entry, if_pos rfl]
  exact on

theorem ownLoadReEnable_loadsInv {s : State} (h : LoadsInv s) (p : List Byte) : LoadsInv (ownLoadReEnable p s).state := by
  unfold ownLoadReEnable
  split
  · exact h
  · split
    · next locked => exact h.setLs (reEnabled_orderly h.1 (by rw [locked]; exact SlotState.noConfusion))
    · exact h

theorem ownLoadDemand_loadsInv {s : State} (h : LoadsInv s) (p : List Byte) : LoadsInv (ownLoadDemand p s).state := by
  have demanded : Orderly s.ls { s.ls with demand := demandField p } := (Orderly.refl h.1).congr rfl rfl
  exact h.setLs (demanded.trans (unparkDemanded_orderly demanded.queue))

/-- R119: a slot that the three rules leave RUNNING was RUNNING, below the shed range, and keeps its leave to run. -/
theorem setup_running {A L W I B R Q S N : Prop} [Decidable A] [Decidable L] [Decidable W] [Decidable I] [Decidable B]
    [Decidable R] [Decidable Q] [Decidable S] [Decidable N] {st one two three : SlotState}
    (one_eq : one = if A ∧ st = .parked ∧ W then .waiting else st)
    (two_eq : two = if L ∧ one = .running ∧ I then .shed .budget else if L ∧ one = .shed .budget ∧ B then .waiting else one)
    (three_eq : three = if R ∧ Q ∧ two = .running then if S then .shed .sense else if N then .shed .supply else two else two)
    (runs : three = .running) : st = .running ∧ ¬(L ∧ I) ∧ (R → Q → ¬S ∧ ¬N) := by
  have two_runs : two = .running := by
    by_contra stops
    rw [three_eq, if_neg fun c => stops c.2.2] at runs
    exact stops runs
  have one_runs : one = .running ∧ ¬(L ∧ I) := by
    rw [two_eq] at two_runs
    split at two_runs
    · cases two_runs
    · next below =>
      split at two_runs
      · cases two_runs
      · exact ⟨two_runs, fun c => below ⟨c.1, two_runs, c.2⟩⟩
  have was : st = .running := by
    rw [one_eq] at one_runs
    split at one_runs
    · cases one_runs.1
    · exact one_runs.1
  refine ⟨was, one_runs.2, fun r q => ?_⟩
  rw [three_eq, if_pos ⟨r, q, two_runs⟩] at runs
  split at runs
  · cases runs
  · next sensed =>
    split at runs
    · cases runs
    · next supplied => exact ⟨sensed, supplied⟩

/-- R116 to R119: LOAD SETUP leaves no slot RUNNING that may not run. -/
theorem setupSlot_loadsInv {s : State} (h : LoadsInv s) (i : Fin 24) (c : SlotSetup) : LoadsInv (setupSlot i c s) := by
  obtain ⟨ls, st, idle, band, done, own, other, _, _, queue, off, woken, kept⟩ := setup_shape s i c h.1
  rw [done]
  have keeps : ∀ j, (entry ls.slots j).state = .running → (entry ls.slots j).level.val < 4 - s.be.h ∧
      ((entry ls.slots j).rideThrough = true ∨ Powered s) := by
    intro j run
    by_cases e : j = i
    · subst e
      rw [own] at run ⊢
      have run : st = .running := run
      have on : c.mode ≠ .off := fun e => absurd ((off e).1.symm.trans run) SlotState.noConfusion
      have was : (entry s.ls.slots j).mode ≠ .off := fun e => absurd ((woken on e).1.symm.trans run) SlotState.noConfusion
      have three := (kept on was _ _ _ rfl rfl rfl).1.symm.trans run
      obtain ⟨ran, level, ride⟩ := setup_running rfl rfl rfl three
      refine ⟨?_, ?_⟩
      · show c.level.val < _
        by_cases same : (entry s.ls.slots j).level = c.level
        · rw [← same]; exact h.below j ran
        · exact Nat.lt_of_not_le fun inRange => level ⟨same, inRange⟩
      · show c.rideThrough = true ∨ Powered s
        cases rides : c.rideThrough with
        | true => exact .inl rfl
        | false =>
          obtain rode | power := h.rides ran
          · obtain ⟨sensed, supplied⟩ := ride rode rides
            exact .inr ⟨supplied, Bool.eq_false_iff.mpr sensed⟩
          · exact .inr power
    · rw [other j e] at run ⊢
      exact ⟨h.below j run, h.rides run⟩
  exact .mk queue (fun j run => (keeps j run).1) fun j run => (keeps j run).2

theorem ownLoadSetup_loadsInv {s : State} (h : LoadsInv s) (p : List Byte) : LoadsInv (ownLoadSetup p s).state := by
  unfold ownLoadSetup
  split
  · exact setupSlot_loadsInv h _ _
  · exact h

/-! ### REINIT and the reset -/

/-- R131: at REINIT a slot is OFF or WAITING. -/
theorem reinitLoads_entry {ls : Loads} (h : QueueInv ls) (i : Fin 24) : (entry (reinitLoads ls).slots i).state =
    if (entry ls.slots i).mode = .off then .off else .waiting := by
  have e : entry (reinitLoads ls).slots i = reinitSlot (entry ls.slots i) := entry_mapEntries _ _ _
  obtain ⟨_, _, _, modes⟩ := h
  rw [e, reinitSlot]
  split
  · next off => exact (modes i).mpr off
  · rfl

theorem reinitLoads_mode (ls : Loads) (i : Fin 24) :
    (entry (reinitLoads ls).slots i).mode = (entry ls.slots i).mode := by
  have e : entry (reinitLoads ls).slots i = reinitSlot (entry ls.slots i) := entry_mapEntries _ _ _
  rw [e, reinitSlot]
  split <;> rfl

/-- R131: the queue rebuilt, level-0 slots first. -/
theorem reinitLoads_queueInv {ls : Loads} (h : QueueInv ls) : QueueInv (reinitLoads ls) := by
  let waits : Fin 24 → Bool := fun i => decide ((entry (reinitLoads ls).slots i).state = .waiting)
  let zero : Fin 24 → Bool := fun i => decide ((entry (reinitLoads ls).slots i).level = 0)
  have queue : (reinitLoads ls).queue =
      (slotNumbers.filter waits).filter zero ++ (slotNumbers.filter waits).filter fun i => !zero i := by
    simp only [waits, zero, ← decide_not]
    rfl
  have perm := List.filter_append_perm zero (slotNumbers.filter waits)
  refine ⟨?_, fun i => ?_, ?_, fun i => ?_⟩
  · rw [queue, perm.nodup_iff]
    exact slotNumbers_nodup.filter _
  · rw [queue, perm.mem_iff, List.mem_filter, decide_eq_true_iff]
    exact and_iff_right (mem_slotNumbers i)
  · rw [queue]
    refine List.pairwise_append.mpr ⟨?_, ?_, fun i front j _ _ => ?_⟩
    · exact List.pairwise_of_forall_mem_list fun i front j _ _ => of_decide_eq_true (List.mem_filter.mp front).2
    · refine List.pairwise_of_forall_mem_list fun i _ j back level => absurd level ?_
      simpa [zero] using (List.mem_filter.mp back).2
    · exact of_decide_eq_true (List.mem_filter.mp front).2
  · rw [reinitLoads_entry h, reinitLoads_mode]
    by_cases off : (entry ls.slots i).mode = .off <;> simp [off]

theorem reinitState_loadsInv {s : State} (h : LoadsInv s) : LoadsInv (reinitState s) := by
  have still : ∀ i, (entry (reinitLoads s.ls).slots i).state ≠ .running := fun i => by
    rw [reinitLoads_entry h.1]
    split <;> exact SlotState.noConfusion
  exact .mk (reinitLoads_queueInv h.1) (fun i run => absurd run (still i)) fun i run => absurd run (still i)

theorem powerOn_loadsInv (pin : Bool) (select : PerLink Bool) (waiting : List Instr) :
    LoadsInv (State.powerOn pin select waiting) := by
  obtain ⟨_, _, _, _, _, _, _, _, _, _, queue, running, _⟩ := resetMeetsInvariants
  exact ⟨queue, running⟩

/-! ### The requests of the other blocks -/

theorem enterState_cm_state (st : CollectorState) (mask : Option DropPoles) (s : State) :
    (enterState st mask s).cm.state = st := rfl

/-- R46, R63 to R65: an entry into ON_WIRE or UNLOADING, or from a state off the line, takes no supply away. -/
theorem enterState_loadsInv {s : State} (h : LoadsInv s) {st : CollectorState} (mask : Option DropPoles)
    (line : st ∈ [.onWire, .unloading] ∨ s.cm.state ∉ [.onWire, .unloading]) : LoadsInv (enterState st mask s) := by
  refine h.congr rfl rfl fun power => ?_
  obtain on | off := line
  · exact ⟨(supply_ne_none_iff _).mpr (.inl on), power.2⟩
  · exact power.of_off_line off rfl rfl

theorem ownRaise_loadsInv {s : State} (h : LoadsInv s) : LoadsInv (ownRaise s).state := by
  unfold ownRaise
  split
  · next down =>
    split
    · exact h
    · split
      · exact h
      · exact enterState_loadsInv h _ (.inr (by rw [down]; decide))
  all_goals exact h

theorem ownLower_loadsInv {s : State} (h : LoadsInv s) : LoadsInv (ownLower s).state := by
  unfold ownLower
  split
  · exact enterState_loadsInv h _ (.inl (by decide))
  · exact enterState_loadsInv h _ (.inl (by decide))
  · exact enterState_loadsInv h _ (.inl (by decide))
  · next raising => exact enterState_loadsInv h _ (.inr (by rw [raising]; decide))
  all_goals exact h

theorem ownClearDrop_loadsInv {s : State} (h : LoadsInv s) : LoadsInv (ownClearDrop s).state := by
  unfold ownClearDrop
  split
  · next dropped =>
    split
    · exact enterState_loadsInv h _ (.inr (by rw [dropped]; decide))
    · exact h
  · exact h

theorem senseRestore_orderly {ls : Loads} (h : QueueInv ls) : Orderly ls (senseRestore ls) := by
  unfold senseRestore
  exact restoreWhere_orderly h _ _

/-- R144: the end of SENSE_LOST restores the slots shed for it, and gives power where there was none. -/
theorem restore_loadsInv {s : State} (h : LoadsInv s) (ch : Channel) : LoadsInv (restore ch s) := by
  unfold restore
  dsimp only
  split
  · exact h
  · refine LoadsInv.setLs ?_ (senseRestore_orderly (by exact h.1))
    exact h.congr rfl rfl fun power => ⟨power.1, rfl⟩

/-- R186: P_BATTERY waits for the next set. -/
theorem writeParam_battery (n : Fin 52) (v : Nat) (s : State) : (writeParam n v s).par .battery = s.par .battery := by
  have same : entry (storeParam n v s.pm).inForce (paramNumber .battery) = entry s.pm.inForce (paramNumber .battery) := by
    rw [storeParam_inForce, if_neg]
    rintro ⟨rfl, now⟩
    exact absurd now (by decide)
  unfold State.par
  rw [writeParam_pm]
  exact same

theorem writeParam_loadsInv {s : State} (h : LoadsInv s) (n : Fin 52) (v : Nat) : LoadsInv (writeParam n v s) := by
  have battery := writeParam_battery n v s
  unfold writeParam at battery ⊢
  dsimp only at battery ⊢
  split
  · next now =>
    rw [if_pos now] at battery
    exact h.congr rfl rfl fun power => power.congr rfl battery rfl
  · next later =>
    rw [if_neg later] at battery
    exact h.congr rfl rfl fun power => power.congr rfl battery rfl

/-- The kinds whose owning block may change LS, H or the power. -/
def loadKinds : List Kind :=
  [.loadSetup, .loadDemand, .loadReEnable, .restoreChannel, .reinit, .raise, .lower, .clearDrop, .popDropLog, .dropSeen,
    .setPosition, .clearConditions, .setParam]

theorem requestBlocks_loads {k : Kind} (h : k ∉ loadKinds) :
    ∀ b ∈ [Block.ls, .be, .cm, .pm, .si], b ∉ .lp :: requestBlocks k := by
  revert h; cases k <;> decide

theorem ownerAnswer_loadsInv {s : State} (h : LoadsInv s) (k : Kind) (l : Link) (p : List Byte) :
    LoadsInv (ownerAnswer k l p s).state := by
  by_cases m : k ∈ loadKinds
  · simp only [loadKinds, List.mem_cons, List.not_mem_nil, or_false] at m
    obtain rfl | rfl | rfl | rfl | rfl | rfl | rfl | rfl | rfl | rfl | rfl | rfl | rfl := m
    · exact ownLoadSetup_loadsInv h p
    · exact ownLoadDemand_loadsInv h p
    · exact ownLoadReEnable_loadsInv h p
    · simp only [ownerAnswer, ownRestoreChannel]
      split
      · exact h
      · split
        · exact h
        · exact restore_loadsInv h _
    · simp only [ownerAnswer, ownReinit]
      split
      · exact reinitState_loadsInv h
      · exact h
    · exact ownRaise_loadsInv h
    · exact ownLower_loadsInv h
    · exact ownClearDrop_loadsInv h
    · simp only [ownerAnswer, ownPopDropLog]
      split
      · exact h
      · exact h
    · simp only [ownerAnswer, ownDropSeen]
      split
      · exact h
      · exact h
    · exact h
    · exact h
    · simp only [ownerAnswer, ownSetParam]
      split
      · exact h
      · exact writeParam_loadsInv h _ _
  · have touched := ownerAnswer_touches k l p s
    have still := requestBlocks_loads m
    exact h.congr (touched.ls (still _ (by decide))) (by rw [touched.be (still _ (by decide))])
      fun power => power.of_touches touched (still _ (by decide)) (still _ (by decide)) (still _ (by decide))

/-! ### The events of a set commanded alone -/

/-- R46: the collector's counting events begin off the line. -/
theorem collectorShare_loadsInv {s : State} (h : LoadsInv s) (x : Sample)
    (counting : s.cm.state ∈ [.raising, .gap, .suspect]) : LoadsInv (collectorShare x s) := by
  have touched := collectorShare_touches x s
  have off : s.cm.state ∉ [.onWire, .unloading] := by
    revert counting
    cases s.cm.state <;> decide
  exact h.congr (touched.ls (by decide)) (by rw [touched.be (by decide)])
    fun power => power.of_off_line off (par_eq_of_pm (touched.pm (by decide)) _) (by rw [touched.si (by decide)])

/-- R115, R137: the end of UNLOADING leaves a supply, or sheds. -/
theorem unloadShare_loadsInv {s : State} (h : LoadsInv s) (x : Sample) : LoadsInv (unloadShare x s) := by
  have touched := unloadShare_touches x s
  have depth : (unloadShare x s).be.h = s.be.h := by rw [touched.be (by decide)]
  by_cases supply : (collectorShare x s).supply = .none
  · refine h.shed .supply ?_ depth
    rw [unloadShare_unpowered supply, State.setLs_ls]
  · rw [unloadShare_powered supply] at touched depth ⊢
    refine h.congr ((collectorShare_touches x s).ls (by decide)) depth fun power => ⟨supply, ?_⟩
    rw [touched.si (by decide)]
    exact power.2

theorem idleDue_isActive {i : Fin 24} {s : State} (due : idleDue i s = true) :
    isActive (entry s.ls.slots i).state = true := by
  simp only [idleDue, Bool.and_eq_true] at due
  exact due.1.1.2

/-- R149: outside NONE supply a start needs the power. -/
theorem powerTest_iff (i : Fin 24) (s : State) : powerTest i s = true ↔ s.supply = .none ∨
    servedBy s.ls s.supply + (entry s.ls.slots i).demand + s.be.record.r ≤ s.be.record.pAvail := by
  unfold powerTest
  cases s.supply <;> simp

/-- R149, R151: the conditions of a start. -/
theorem mayStart_iff (since : Nat) (i : Fin 24) (s : State) : mayStart since i s = true ↔ s.par .startGap ≤ since ∧
    (s.supply = .none ∨
      servedBy s.ls s.supply + (entry s.ls.slots i).demand + s.be.record.r ≤ s.be.record.pAvail) ∧
    (s.cm.marks.a = true → (entry s.ls.slots i).level = 0) := by
  simp only [mayStart, Bool.and_eq_true, decide_eq_true_eq, powerTest_iff, isLevelZero, and_assoc, Bool.or_eq_true,
    Bool.not_eq_true', ← Bool.not_eq_true, imp_iff_not_or]

/-- R137: in NONE supply a ride-through slot alone stands behind the supply step. -/
theorem leftBySupply_iff (i : Fin 24) (s : State) :
    leftBySupply i s = true ↔ (s.supply = .none → (entry s.ls.slots i).rideThrough = true) := by
  rw [leftBySupply, Bool.or_eq_true, decide_eq_true_eq, ne_eq, imp_iff_not_or]

/-- R137, R147 to R151: when the head is due to start. -/
theorem startDue_iff (s : State) : startDue s = true ↔ ∃ i, s.si.senseLost = false ∧ s.ls.queue.head? = some i ∧
    (entry s.ls.slots i).level.val < 4 - s.be.h ∧ s.par .startGap ≤ min (s.ls.sinceStart + 1) 65535 ∧
    (s.supply = .none → (entry s.ls.slots i).rideThrough = true) ∧
    (s.supply = .none ∨
      servedBy s.ls s.supply + (entry s.ls.slots i).demand + s.be.record.r ≤ s.be.record.pAvail) ∧
    (s.cm.marks.a = true → (entry s.ls.slots i).level = 0) := by
  unfold startDue
  cases s.ls.queue.head? with
  | none => simp
  | some i =>
    simp only [Bool.and_eq_true, Bool.not_eq_true', inShedRange_eq_false, leftBySupply_iff, mayStart_iff, setsArrive_iff,
      Option.some.injEq, satAdd]
    constructor
    · rintro ⟨arrives, ⟨left, below⟩, gap, power, mark⟩
      exact ⟨i, arrives, rfl, below, gap, left, power, mark⟩
    · rintro ⟨_, arrives, rfl, below, gap, left, power, mark⟩
      exact ⟨arrives, ⟨left, below⟩, gap, power, mark⟩

theorem startHead_loadsInv {s : State} (h : LoadsInv s) (due : startDue s = true) : LoadsInv (startHead s) := by
  obtain ⟨i, arrives, head, below, _, rides, _⟩ := (startDue_iff s).mp due
  unfold startHead
  rw [head]
  refine h.start head below ?_
  by_cases none : s.supply = .none
  · exact .inl (rides none)
  · exact .inr ⟨none, arrives⟩

/-! ### Every command -/

/-- The loads, with the sense property. -/
def SensedLoads (s : State) : Prop := SenseInv s ∧ LoadsInv s

/-- R13: sets arrive while SENSE_LOST is clear. -/
theorem SenseInv.sensed {s : State} (h : SenseInv s) {ch : Channel} (active : s.si.active = some ch) :
    s.si.senseLost = false := by
  obtain ⟨_, lost, _⟩ := h
  refine Bool.eq_false_iff.mpr fun l => ?_
  rw [lost.mp l] at active
  cases active

theorem failChannel_sensedLoads {s : State} (h : SensedLoads s) (ch : Channel) (why : FailReason) :
    SensedLoads (failChannel ch why s) :=
  ⟨failChannel_senseInv h.1 ch why, failChannel_loadsInv h.2 ch why⟩

theorem frameArrives_sensedLoads {s : State} (h : SensedLoads s) (ch : Channel) (f : OpenFrame) :
    SensedLoads (frameArrives ch f s) := by
  have hunts : SensedLoads (s.setSi { s.si with rx := s.si.rx.put ch none }) := h
  have record : ∀ u c, SensedLoads u → c.health = (u.si.chan.get ch).health → SensedLoads (setChannel ch c u) :=
    fun _ _ k health => ⟨setChannel_senseInv k.1 health, k.2⟩
  generalize hu : s.setSi { s.si with rx := s.si.rx.put ch none } = u at hunts
  cases healthy : (s.si.chan.get ch).health with
  | failed => rw [frameArrives_failed healthy, hu]; exact hunts
  | healthy =>
    cases good : frameSample f with
    | none =>
      rw [frameArrives_bad healthy good, hu]
      unfold takeBadFrame
      refine iteInduction (fun _ => failChannel_sensedLoads (record _ _ hunts ?_) ch _) fun _ => record _ _ hunts ?_
      · rfl
      · rfl
    | some x =>
      rw [frameArrives_good healthy good, hu]
      by_cases within : plausAfter (implausible (u.si.chan.get ch) x u) (u.si.chan.get ch).plaus ≤ u.par .plausLimit
      · have judged : SensedLoads (judgedState ch x u) := record _ _ hunts rfl
        by_cases active : u.si.active = some ch
        · rw [takeGoodFrame_active within active]
          exact ⟨acceptedSet_senseInv judged.1 x, acceptedSet_loadsInv judged.2 (hunts.1.sensed active) x⟩
        · rw [takeGoodFrame_standby within active]
          exact judged
      · rw [takeGoodFrame_fails (Nat.lt_of_not_le within)]
        refine failChannel_sensedLoads (record _ _ hunts ?_) ch _
        rfl

/-- R114, R115, R145: each change that commands are made of keeps the loads' property. -/
theorem sensedLoads_kept : Kept SensedLoads where
  port _ _ h := h
  pending _ _ h := h
  powerOn sel q := ⟨senseInv_kept.powerOn sel q, powerOn_loadsInv true sel q⟩
  release s h pin := ⟨senseInv_kept.release s h.1 pin, h.2⟩
  tick s h := ⟨senseInv_kept.tick s h.1, h.2⟩
  expire ch _ h _ := failChannel_sensedLoads h ch _
  rx _ _ h := h
  frame ch f _ h _ := frameArrives_sensedLoads h ch f
  share x s h m := ⟨senseInv_kept.share x s h.1 m, collectorShare_loadsInv h.2 x m⟩
  unload x s h m := ⟨senseInv_kept.unload x s h.1 m, unloadShare_loadsInv h.2 x⟩
  wrap g s h := ⟨h.1, h.2.setLs ((Orderly.refl h.2.1).congr rfl rfl)⟩
  idle i s h due := ⟨h.1, h.2.setLs (idlePark_orderly h.2.1 (ne_off_of_isActive (idleDue_isActive due)))⟩
  observe s h := ⟨h.1, h.2.setLs ((Orderly.refl h.2.1).congr rfl rfl)⟩
  window v s h := by
    have touched := windowStep_touches v s
    exact ⟨senseInv_kept.window v s h.1, h.2.congr (touched.ls (by decide)) (windowStep_h v s)
      fun power => power.of_touches touched (by decide) (by decide) (by decide)⟩
  freeze s h due := by
    have touched := frozenComputation_touches s
    exact ⟨senseInv_kept.freeze s h.1 due, h.2.congr (frozenComputation_ls s) (frozenComputation_h s)
      fun power => power.of_touches touched (by decide) (by decide) (by decide)⟩
  start s h due := ⟨senseInv_kept.start s h.1 due, startHead_loadsInv h.2 due⟩
  own k l p _ h := ⟨ownerAnswer_senseInv h.1 k l p, ownerAnswer_loadsInv h.2 k l p⟩

/-- Settles O60: the loads' property is kept by every change that a step is made of; in NONE supply it leaves the ride-through
slots alone to run. -/
theorem stepKeepsLoads : Obligations.StepKeepsLoads := by
  intro s t sense queue running
  have inv : SensedLoads s := ⟨sense, queue, running⟩
  refine ⟨fun e => (sensedLoads_kept.step inv e).2, fun ch x _ e none i run => ?_⟩
  have after : LoadsInv t := (sensedLoads_kept.exec inv e).2
  exact (after.rides run).resolve_right fun power => power.1 none

end Sys2Proof.Machine

/-! PROOFS. LOAD SETUP: its checks, its payload and the place of the slot in the queue (R116 to R119, R145). -/

namespace Sys2Proof.Machine

/-! ### The fields of the payload -/

theorem slotField_none {b : Byte} (h : 23 < b.toNat) : slotField b = none := dif_neg (by omega)

theorem slotField_some {b : Byte} {i : Fin 24} (h : i.val = b.toNat) : slotField b = some i := by
  unfold slotField
  rw [dif_pos (h ▸ i.isLt)]
  exact congrArg some (Fin.ext h.symm)

theorem levelField_none {b : Byte} (h : 3 < b.toNat) : levelField b = none := dif_neg (by omega)

theorem levelField_some {b : Byte} {level : Fin 4} (h : level.val = b.toNat) : levelField b = some level := by
  unfold levelField
  rw [dif_pos (h ▸ level.isLt)]
  exact congrArg some (Fin.ext h.symm)

theorem modeField_none {b : Byte} (h : 4 < b.toNat) : modeField b = none := by
  unfold modeField
  iterate 5 rw [if_neg (by rintro rfl; exact absurd h (by decide))]

theorem modeField_byteOf (m : SlotMode) : modeField (byteOf (modeCode m)) = some m := by
  cases m with
  | cycle g => cases g <;> rfl
  | _ => rfl

theorem modeField_some {b : Byte} {m : SlotMode} (h : modeCode m = b.toNat) : modeField b = some m := by
  rw [← byteOf_eq h]
  exact modeField_byteOf m

theorem flagField_toNat {b : Byte} {flag : Bool} (h : flag.toNat = b.toNat) : flagField b = some flag := by
  rw [← byteOf_eq h]
  cases flag <;> rfl

/-! ### The answer -/

theorem ownLoadSetup_badValue {sb db lb mb rb ab : Byte} (s : State)
    (h : 23 < sb.toNat ∨ 3 < lb.toNat ∨ 4 < mb.toNat ∨ 1 < rb.toNat ∨ 1 < ab.toNat) :
    ownLoadSetup [sb, db, lb, mb, rb, ab] s = refuse .badValue s := by
  unfold ownLoadSetup
  split
  · next i level mode ride auto slot levelled moded rides recovers =>
    obtain wrong | wrong | wrong | wrong | wrong := h
    · cases (slotField_none wrong).symm.trans slot
    · cases (levelField_none wrong).symm.trans levelled
    · cases (modeField_none wrong).symm.trans moded
    · cases (flagField_none wrong).symm.trans rides
    · cases (flagField_none wrong).symm.trans recovers
  · rfl

/-- R116: the setup of a slot from fields within their ranges. -/
theorem ownLoadSetup_checked {sb db lb mb rb ab : Byte} (s : State) {i : Fin 24} {level : Fin 4} {mode : SlotMode}
    {ride auto : Bool} (slot : i.val = sb.toNat) (levelled : level.val = lb.toNat) (moded : modeCode mode = mb.toNat)
    (rides : ride.toNat = rb.toNat) (recovers : auto.toNat = ab.toNat) :
    ownLoadSetup [sb, db, lb, mb, rb, ab] s =
      ⟨setupSlot i ⟨min db.toNat 63, level, mode, ride, auto⟩ s, if 63 < db.toNat then .clamped else .ok,
        setupPayload i (setupSlot i ⟨min db.toNat 63, level, mode, ride, auto⟩ s)⟩ := by
  have slot : slotField (byteAt [sb, db, lb, mb, rb, ab] 0) = some i := slotField_some slot
  have levelled : levelField (byteAt [sb, db, lb, mb, rb, ab] 2) = some level := levelField_some levelled
  have moded : modeField (byteAt [sb, db, lb, mb, rb, ab] 3) = some mode := modeField_some moded
  have rides : flagField (byteAt [sb, db, lb, mb, rb, ab] 4) = some ride := flagField_toNat rides
  have recovers : flagField (byteAt [sb, db, lb, mb, rb, ab] 5) = some auto := flagField_toNat recovers
  simp only [ownLoadSetup, slot, levelled, moded, rides, recovers]
  rfl

/-! ### The place in the queue -/

/-- R145: the slot joins behind the level-0 entries with its new level 0, and at the tail with another. -/
theorem insertBy_zeroAfter {ls : Loads} (inv : QueueInv ls) (i : Fin 24) (c : SlotSetup) :
    insertBy (zeroAfter ls i c) i (ls.queue.filter (· ≠ i)) =
      if c.level = 0 then (ls.queue.filter (· ≠ i)).filter (fun j => (entry ls.slots j).level = 0) ++ i ::
        (ls.queue.filter (· ≠ i)).filter (fun j => (entry ls.slots j).level ≠ 0)
      else ls.queue.filter (· ≠ i) ++ [i] := by
  have others : ∀ j ∈ ls.queue.filter (· ≠ i), zeroAfter ls i c j = isLevelZero ls j := fun j mem => by
    rw [List.mem_filter, decide_eq_true_eq] at mem
    exact if_neg mem.2
  have ordered : (ls.queue.filter (· ≠ i)).Pairwise fun a b => zeroAfter ls i c b = true → zeroAfter ls i c a = true := by
    refine (inv.ordered.sublist List.filter_sublist).imp_of_mem fun {a b} ma mb front => ?_
    rw [others a ma, others b mb]
    exact front
  rw [insertBy_eq ordered]
  refine if_congr ?_ ?_ rfl
  · rw [zeroAfter, if_pos rfl, decide_eq_true_iff]
  · congr 1
    · exact List.filter_congr fun j mem => others j mem
    · refine congrArg (i :: ·) (List.filter_congr fun j mem => ?_)
      rw [others j mem, isLevelZero, decide_not]

/-- Settles O30: the checks of the payload, then what the setup leaves of the slot and of the queue. -/
theorem loadSetupAnswered : Obligations.LoadSetupAnswered := by
  intro body s free framed inv
  obtain ⟨sb, db, lb, mb, rb, ab, payload⟩ := length_six framed.length
  refine ⟨sb, db, lb, mb, rb, ab, payload, ?_⟩
  intro modeNumber stateNumber
  refine ⟨fun wrong => ?_, fun i level mode ride auto slot levelled moded rides recovers => ?_⟩
  · refine requestCommand_answered free framed rfl ?_
    rw [payload]
    exact ownLoadSetup_badValue s wrong
  · have code : modeCode mode = modeNumber mode := by
      cases mode with
      | cycle g => cases g <;> rfl
      | _ => rfl
    obtain ⟨ls, st, idle, band, done, own, other, rest, queue, kept, off, woken, stays⟩ :=
      setup_shape s i ⟨min db.toNat 63, level, mode, ride, auto⟩ inv
    have answer := ownLoadSetup_checked (db := db) s slot levelled (code.trans moded) rides recovers
    rw [done] at answer
    have answered : exec (.loadSetup .a body) s = .next (replied .a 0x20 body _ _ _) :=
      requestCommand_answered free framed rfl ((congrArg (ownLoadSetup · s) payload).trans answer)
    refine ⟨ls, ?_⟩
    intro old sl
    have sl_eq : sl = { storeSetup ⟨min db.toNat 63, level, mode, ride, auto⟩ old with
      state := st, idle := idle, bandCount := band } := own
    have state : sl.state = st := congrArg Slot.state sl_eq
    have counted : sl.bandCount = band := congrArg Slot.bandCount sl_eq
    have idled : sl.idle = idle := congrArg Slot.idle sl_eq
    refine ⟨?_, congrArg Slot.demand sl_eq, congrArg Slot.level sl_eq, congrArg Slot.mode sl_eq,
      congrArg Slot.rideThrough sl_eq, congrArg Slot.autoRecover sl_eq, ?_, ?_, ?_, other, ?_, kept, rest⟩
    · refine answered.trans ?_
      have number : byteOf i.val = sb := byteOf_eq slot
      have stated : byteOf (slotStateCode sl.state) = stateNumber sl.state := by cases sl.state <;> rfl
      have payload_eq : setupPayload i (s.setLs ls) = [sb, stateNumber sl.state, reasonByte sl.state, byteOf sl.demand] := by
        rw [← number, ← stated]
        rfl
      rw [payload_eq]
      cases sl.state with
      | shed r => cases r <;> rfl
      | _ => rfl
    · rw [state, counted, idled]
      exact off
    · rw [state, counted, idled]
      exact woken
    · intro on was wants one two three
      rw [state, counted, idled]
      have wants_eq : wantsNow i s mode = wants := by cases mode <;> rfl
      exact stays on was one two three (by rw [wants_eq]) rfl rfl
    · intro others
      rw [state, queue, insertBy_zeroAfter inv]

end Sys2Proof.Machine

/-! PROOFS. LOAD DEMAND and LOAD RE-ENABLE: the slots that wake, the queue they join, and the replies (R121, R128, R145). -/

namespace Sys2Proof.Machine

/-! ### LOAD DEMAND -/

theorem ne_waiting_of_unparks {demand : BitVec 24} {i : Fin 24} {sl : Slot} (h : unparks demand i sl = true) :
    sl.state ≠ .waiting := by
  rw [((unparks_iff _ _ _).mp h).1]
  exact SlotState.noConfusion

theorem unparkDemanded_entry (ls : Loads) (i : Fin 24) : entry (unparkDemanded ls).slots i =
    if unparks ls.demand i (entry ls.slots i) = true then { entry ls.slots i with state := .waiting, idle := 0 }
    else entry ls.slots i := by
  rw [unparkDemanded_eq]
  exact wakeSlots_entry _ ls (fun _ => ne_waiting_of_unparks) i

/-- R121, R145: the unparked slots join in ascending order by the insertion rule. -/
theorem unparkDemanded_queue {ls : Loads} (inv : QueueInv ls) : (unparkDemanded ls).queue =
    ls.queue.filter (isLevelZero ls) ++
      (slotNumbers.filter fun i => unparks ls.demand i (entry ls.slots i)).filter (isLevelZero ls) ++
      ls.queue.filter (fun j => !isLevelZero ls j) ++
      (slotNumbers.filter fun i => unparks ls.demand i (entry ls.slots i)).filter fun j => !isLevelZero ls j := by
  rw [unparkDemanded_eq]
  exact wakeSlots_queue _ ls (fun _ => ne_waiting_of_unparks) inv.ordered

theorem unparkDemanded_rest (ls : Loads) : unparkDemanded ls =
    { ls with slots := (unparkDemanded ls).slots, queue := (unparkDemanded ls).queue } := by
  rw [unparkDemanded_eq]
  exact wakeSlots_rest _ ls fun _ => ne_waiting_of_unparks

/-- R121: a new demand set starts and stops no slot. -/
theorem unparkDemanded_running (ls : Loads) (i : Fin 24) :
    (entry (unparkDemanded ls).slots i).state = .running ↔ (entry ls.slots i).state = .running := by
  rw [unparkDemanded_entry]
  split
  · next wakes => simp [((unparks_iff _ _ _).mp wakes).1]
  · exact Iff.rfl

/-- Table 6-1: a bit of the three payload bytes is the permit of its slot. -/
theorem permitPayload_bit (ls : Loads) (i : Fin 24) :
    (byteOf (permitMask ls / 65536) ++ byteOf (permitMask ls / 256) ++ byteOf (permitMask ls) : BitVec 24).getLsbD i.val =
      true ↔ (entry ls.slots i).state = .running := by
  have whole : (byteOf (permitMask ls / 65536) ++ byteOf (permitMask ls / 256) ++ byteOf (permitMask ls) : BitVec 24) =
    BitVec.ofNat 24 (permitMask ls) := three_bytes_eq _
  rw [whole, BitVec.getLsbD_ofNat, testBit_permitMask, decide_eq_true i.isLt, Bool.true_and, permit, decide_eq_true_iff]

/-! ### LOAD RE-ENABLE -/

theorem ownLoadReEnable_badValue {b : Byte} (s : State) (h : 23 < b.toNat) : ownLoadReEnable [b] s = refuse .badValue s := by
  have none : slotField (byteAt [b] 0) = none := slotField_none h
  simp only [ownLoadReEnable, none]

section
variable {b : Byte} {s : State} {i : Fin 24} (slot : i.val = b.toNat)
include slot

theorem ownLoadReEnable_already (h : (entry s.ls.slots i).state ≠ .lockedOut) :
    ownLoadReEnable [b] s = ⟨s, .already, [byteOf (slotStateCode (entry s.ls.slots i).state)]⟩ := by
  have named : slotField (byteAt [b] 0) = some i := slotField_some slot
  simp only [ownLoadReEnable, named]
  exact if_neg h

theorem ownLoadReEnable_ok (h : (entry s.ls.slots i).state = .lockedOut) :
    ownLoadReEnable [b] s = answerWith [1] (s.setLs (moveSlot .waiting i (clearBand i s.ls))) := by
  have named : slotField (byteAt [b] 0) = some i := slotField_some slot
  have waits : (entry (moveSlot .waiting i (clearBand i s.ls)).slots i).state = .waiting := by
    rw [moveSlot_entry, if_pos rfl]
  simp only [ownLoadReEnable, named]
  refine (if_pos h).trans ?_
  rw [State.setLs_ls, waits]
  rfl

end

theorem reEnabled_entry (ls : Loads) (i j : Fin 24) : entry (moveSlot .waiting i (clearBand i ls)).slots j =
    if j = i then { entry ls.slots i with state := .waiting, bandCount := 0, idle := 0 } else entry ls.slots j := by
  rw [moveSlot_entry, clearBand_entry, clearBand_entry, if_pos rfl]
  split <;> rfl

/-- R128, R145: a slot re-enabled joins the queue by the insertion rule. -/
theorem reEnabled_queue {ls : Loads} (inv : QueueInv ls) {i : Fin 24} (locked : (entry ls.slots i).state = .lockedOut) :
    (moveSlot .waiting i (clearBand i ls)).queue = if (entry ls.slots i).level = 0
      then ls.queue.filter (fun j => (entry ls.slots j).level = 0) ++ i ::
        ls.queue.filter (fun j => (entry ls.slots j).level ≠ 0)
      else ls.queue ++ [i] := by
  have still : ¬(entry (clearBand i ls).slots i).state = .waiting := by
    rw [clearBand_entry, if_pos rfl]
    exact fun waits => SlotState.noConfusion (locked.symm.trans waits)
  have levels : isLevelZero (clearBand i ls) = isLevelZero ls := by
    funext j
    rw [isLevelZero, isLevelZero, (clearBand_orderly inv i).level]
  rw [moveSlot_queue_join, if_neg still, levels]
  refine (insertBy_eq inv.ordered).trans (if_congr decide_eq_true_iff ?_ rfl)
  simp only [isLevelZero_eq, decide_not]

/-- Settles O31: LOAD DEMAND by the pass that unparks, LOAD RE-ENABLE by the state of its slot. -/
theorem loadDemandAndReEnable : Obligations.LoadDemandAndReEnable := by
  refine ⟨?_, ?_⟩
  · intro body s free framed inv
    obtain ⟨b0, b1, b2, payload⟩ := length_three framed.length
    let asked : Loads := { s.ls with demand := b2 ++ b1 ++ b0 }
    let done := unparkDemanded asked
    have queued : QueueInv asked := inv
    refine ⟨b0, b1, b2, byteOf (permitMask done), byteOf (permitMask done / 256), byteOf (permitMask done / 65536), done,
      payload, ?_⟩
    intro wakes zero woken
    have unparks_eq : ∀ i, unparks asked.demand i (entry asked.slots i) = decide (wakes i) := fun i =>
      Bool.eq_iff_iff.mpr ((unparks_iff _ _ _).trans decide_eq_true_iff.symm)
    refine ⟨?_, fun i => ?_, ?_, ?_, fun i => ?_⟩
    · refine requestCommand_answered free framed rfl ?_
      rw [payload]
      rfl
    · refine (unparkDemanded_entry asked i).trans ?_
      rw [unparks_eq]
      exact if_congr decide_eq_true_iff rfl rfl
    · refine (unparkDemanded_queue queued).trans ?_
      simp only [unparks_eq, decide_not]
      rfl
    · exact unparkDemanded_rest asked
    · exact (permitPayload_bit done i).trans (unparkDemanded_running asked i)
  · intro body s free framed inv
    obtain ⟨b, payload⟩ := length_one framed.length
    refine ⟨b, payload, ?_⟩
    intro stateNumber
    have answered : ∀ {t r p}, ownLoadReEnable [b] s = ⟨t, r, p⟩ →
        exec (.loadReEnable .a body) s = .next (replied .a 0x22 body r p t) := fun own =>
      requestCommand_answered free framed rfl ((congrArg (ownLoadReEnable · s) payload).trans own)
    have code : ∀ st, byteOf (slotStateCode st) = stateNumber st := fun st => by cases st <;> rfl
    refine ⟨fun wrong => answered (ownLoadReEnable_badValue s wrong), fun i slot => ⟨fun other => ?_, fun locked => ?_⟩⟩
    · rw [← code]
      exact answered (ownLoadReEnable_already slot other)
    · exact ⟨_, answered (ownLoadReEnable_ok slot locked), reEnabled_entry s.ls i, reEnabled_queue inv locked, moveSlot_rest _ _ _⟩

end Sys2Proof.Machine

/-! PROOFS. READ LOADS (R129, Table 6-1). -/

namespace Sys2Proof.Machine

/-- Table 6-1: the state of a slot with its shed reason, and its two flags. -/
theorem slotByte_eq (state shed reason ride recovers : Nat) :
    packByte [(state, 0), (shed, 3), (reason, 4), (ride, 6), (recovers, 7)] =
      BitVec.ofNat 8 (state + 8 * shed + 16 * reason + 64 * ride + 128 * recovers) := by
  rw [packByte_eq]
  exact congrArg (BitVec.ofNat 8) (by simp; omega)

/-- Table 6-1: the demand and the level of a slot. -/
theorem demandByte_eq (demand level : Nat) :
    packByte [(demand, 0), (level, 6)] = BitVec.ofNat 8 (demand + 64 * level) := by
  rw [packByte_eq]
  exact congrArg (BitVec.ofNat 8) (by simp; omega)

/-- Table 6-1: the mode, the demand bit and the band shed count of a slot. -/
theorem modeByte_eq (mode asked count : Nat) :
    packByte [(mode, 0), (asked, 3), (count, 4)] = BitVec.ofNat 8 (mode + 8 * asked + 16 * count) := by
  rw [packByte_eq]
  exact congrArg (BitVec.ofNat 8) (by simp; omega)

/-- Table 6-1: the phases of the two generators. -/
theorem phaseByte_eq (onA onB : Nat) : packByte [(onA, 0), (onB, 1)] = BitVec.ofNat 8 (onA + 2 * onB) := by
  rw [packByte_eq]
  exact congrArg (BitVec.ofNat 8) (by simp; omega)

theorem slotNumbers_eq_finRange : slotNumbers = List.finRange 24 := by decide

/-- Settles O32: the owning block answers with the table and the state as it was. -/
theorem loadsRead : Obligations.LoadsRead := by
  intro l body s other free framed n two on reason state mode slot
  have may : permitted l .readLoads = true := by
    cases l with
    | t => exact absurd rfl other
    | a | v => rfl
  have answered : exec (.readLoads l body) s = .next (replied l 0x23 body .ok (ownReadLoads s).payload s) :=
    requestCommand_replied free framed may
  have phase : ∀ g, (genOnPhase s g).toNat = on g := fun g => by
    rw [genOnPhase, Bool.toNat, Bool.cond_decide]
  have shed : ∀ st, (shedReason st).isSome.toNat = (reason st).1 ∧ ((shedReason st).map shedCode).getD 0 = (reason st).2 :=
    fun st => by
      cases st with
      | shed r => cases r <;> exact ⟨rfl, rfl⟩
      | _ => exact ⟨rfl, rfl⟩
  have stated : ∀ st, slotStateCode st = state st := fun st => by cases st <;> rfl
  have moded : ∀ m, modeCode m = mode m := fun m => by
    cases m with
    | cycle g => cases g <;> rfl
    | _ => rfl
  have slots : slotPayload s.ls = slot := funext fun i => by
    simp only [slotPayload, slotByte_eq, demandByte_eq, modeByte_eq, shed, stated, moded]
    rfl
  have idle : idleCode s.ls.idlePeriod = match s.ls.idlePeriod with | .short => 0 | .long => 1 := by
    cases s.ls.idlePeriod <;> rfl
  rw [ownReadLoads, phaseByte_eq, phase, phase, slots, slotNumbers_eq_finRange, idle] at answered
  exact answered

end Sys2Proof.Machine

/-! PROOFS. The loads' events commanded alone (R123, R125, R126, R137, R149, R150). -/

namespace Sys2Proof.Machine

/-! ### When each event is due -/

theorem wrapDue_iff (g : CycleGen) (s : State) :
    wrapDue g s = true ↔ s.si.senseLost = false ∧ genPeriod s g ≤ s.ls.gens.get g + 1 := by
  rw [wrapDue, Bool.and_eq_true, setsArrive_iff, decide_eq_true_iff]

theorem idleDue_iff (i : Fin 24) (s : State) : idleDue i s = true ↔ s.si.senseLost = false ∧
    (entry s.ls.slots i).mode = .onDemand ∧
    ((entry s.ls.slots i).state = .running ∨ (entry s.ls.slots i).state = .waiting) ∧
    s.ls.demand.getLsbD i.val = false ∧ idleLimit s ≤ min ((entry s.ls.slots i).idle + 1) 65535 := by
  simp only [idleDue, Bool.and_eq_true, setsArrive_iff, decide_eq_true_eq, isActive_iff, Bool.not_eq_true', and_assoc]
  exact Iff.rfl

theorem observationDue_iff (s : State) : observationDue s = true ↔
    s.si.senseLost = false ∧ s.par .parkObs ≤ min (s.ls.observation + 1) 65535 := by
  rw [observationDue, Bool.and_eq_true, setsArrive_iff, decide_eq_true_iff, satAdd]

/-! ### What each event leaves -/

/-- Log 4, log 5: an event that writes LS when it is due, and nothing otherwise. -/
theorem loadsEvent {f : State → State} {due : State → Bool} {p : Prop} {s : State} {ls : Loads} {after : Loads → Prop}
    (on : s.resetPin = false) (h : due s = true ↔ p) (acts : p → f s = s.setLs ls) (leaves : p → after ls) :
    (p → ∃ ls, whilePowered (fun s => whenDue (due s) f s) s = .next (s.setLs ls) ∧ after ls) ∧
      (¬p → whilePowered (fun s => whenDue (due s) f s) s = .next s) := by
  obtain ⟨yes, no⟩ := whilePowered_whenDue (f := f) on h
  exact ⟨fun d => ⟨ls, (yes d).trans (congrArg _ (acts d)), leaves d⟩, no⟩

/-- R123: the counter of a generator that reaches its period returns to 0. -/
theorem advanceCounter_wraps {period n : Nat} (h : period ≤ n + 1) : advanceCounter period n = 0 := if_pos h

theorem idlePark_entry (i j : Fin 24) (ls : Loads) : entry (idlePark i ls).slots j =
    if j = i then { entry ls.slots i with state := .parked, idle := 0 } else entry ls.slots j :=
  moveSlot_entry .parked i j ls

theorem idlePark_queue (i : Fin 24) (ls : Loads) : (idlePark i ls).queue =
    if (entry ls.slots i).state = .waiting then ls.queue.filter (· ≠ i) else ls.queue :=
  moveSlot_queue_leave SlotState.noConfusion i ls

/-- R125: a park is counted. -/
theorem idlePark_rest (i : Fin 24) (ls : Loads) : idlePark i ls =
    { ls with slots := (idlePark i ls).slots, queue := (idlePark i ls).queue, parkEntries := min (ls.parkEntries + 1) 65535 } := by
  have moved := moveSlot_rest .parked i ls
  unfold idlePark satAdd
  dsimp only
  generalize moveSlot .parked i ls = ms at moved ⊢
  rw [moved]

/-- R146, R150: a head that starts leaves the queue to the entries behind it. -/
theorem startSlot_queue {ls : Loads} (inv : QueueInv ls) {i : Fin 24} (head : ls.queue.head? = some i) :
    (startSlot i ls).queue = ls.queue.tail := by
  have waits := inv.waiting (List.mem_of_mem_head? head)
  have leaves : (startSlot i ls).queue = ls.queue.filter (· ≠ i) :=
    (moveSlot_queue_leave SlotState.noConfusion i ls).trans (if_pos waits)
  obtain ⟨rest, queue⟩ : ∃ rest, ls.queue = i :: rest := List.head?_eq_some_iff.mp head
  have nodup : (i :: rest).Nodup := queue ▸ inv.1
  rw [leaves, queue, List.tail_cons, List.filter_cons_of_neg (by simp)]
  exact List.filter_eq_self.mpr fun j mem => decide_eq_true fun e : j = i => (List.nodup_cons.mp nodup).1 (e ▸ mem)

theorem startSlot_rest (i : Fin 24) (ls : Loads) : startSlot i ls =
    { ls with slots := (startSlot i ls).slots, queue := (startSlot i ls).queue, sinceStart := 0 } := by
  have moved := moveSlot_rest .running i ls
  unfold startSlot
  generalize moveSlot .running i ls = ms at moved ⊢
  rw [moved]

theorem startHead_eq {s : State} {i : Fin 24} (head : s.ls.queue.head? = some i) :
    startHead s = s.setLs (startSlot i s.ls) := by
  unfold startHead
  rw [head]

/-- Settles O54: when each event is due, and what it leaves of the loads. -/
theorem loadEvents : Obligations.LoadEvents := by
  intro s on sl arrives event moved limit active served
  have served_eq : servedBy s.ls s.supply = served := servedBy_eq _ _
  refine ⟨fun g => ?_, fun i => ?_, ?_, ?_⟩
  · refine loadsEvent on (wrapDue_iff g s) (fun _ => rfl) fun due => ⟨?_, fun k other => ?_, rfl⟩
    · rw [PerGen.get_put_same, advanceCounter_wraps due.2]
    · exact PerGen.get_put_other _ _ other
  · exact loadsEvent (f := fun s => s.setLs (idlePark i s.ls)) on (idleDue_iff i s) (fun _ => rfl)
      fun _ => ⟨fun j => idlePark_entry i j s.ls, idlePark_queue i s.ls, idlePark_rest i s.ls⟩
  · exact loadsEvent on (observationDue_iff s) (fun _ => rfl) fun _ => ⟨rfl, rfl⟩
  · intro starts
    have due_iff : startDue s = true ↔ ∃ i, starts i := by
      rw [startDue_iff, served_eq]
    obtain ⟨yes, no⟩ := whilePowered_whenDue (f := startHead) on due_iff
    refine ⟨fun i due inv => ?_, fun none => no (not_exists.mpr none)⟩
    have head : s.ls.queue.head? = some i := due.2.1
    refine ⟨startSlot i s.ls, (yes ⟨i, due⟩).trans (congrArg _ (startHead_eq head)), fun j => startSlot_entry i j s.ls, ?_⟩
    rw [← startSlot_queue inv head]
    exact startSlot_rest i s.ls

end Sys2Proof.Machine

/-! PROOFS. The mode work of a set (R122 to R126, R133, R145). -/

namespace Sys2Proof.Machine

/-! ### One slot -/

/-- R124: a cycle slot whose generator is in the given phase, on or off. -/
def inPhase (onA onB phase : Bool) : SlotMode → Bool
  | .cycle .a => onA == phase
  | .cycle .b => onB == phase
  | .off | .on | .onDemand => false

/-- R124, R125: the mode work wakes the slot. -/
def modeWakes (onA onB asked : Bool) (sl : Slot) : Bool :=
  decide (sl.state = .parked) && (inPhase onA onB true sl.mode || (decide (sl.mode = .onDemand) && asked))

/-- R125: the idle limit parks the slot. -/
def modeIdles (limit : Nat) (asked : Bool) (sl : Slot) : Bool :=
  decide (sl.mode = .onDemand) && idlesOut limit asked sl

/-- R124, R125: the mode work parks the slot. -/
def modeParks (onA onB : Bool) (limit : Nat) (asked : Bool) (sl : Slot) : Bool :=
  (isActive sl.state && inPhase onA onB false sl.mode) || modeIdles limit asked sl

section
variable (onA onB : Bool) (limit : Nat) (asked : Bool) (sl : Slot)

theorem inPhase_eq (phase : Bool) (mode : SlotMode) : inPhase onA onB phase mode =
    decide ((mode = .cycle .a ∧ onA = phase) ∨ (mode = .cycle .b ∧ onB = phase)) := by
  cases mode with
  | cycle g => cases g <;> simp [inPhase, Bool.beq_eq_decide_eq]
  | _ => simp [inPhase]

theorem isActive_eq_decide (st : SlotState) : isActive st = decide (st = .running ∨ st = .waiting) := by
  rw [Bool.eq_iff_iff, isActive_iff, decide_eq_true_iff]

theorem modeIdles_eq : modeIdles limit asked sl = (decide (sl.state = .running ∨ sl.state = .waiting) &&
    decide (sl.mode = .onDemand) && !asked && decide (limit ≤ min (sl.idle + 1) 65535)) := by
  rw [modeIdles, idlesOut, isActive_eq_decide, Bool.and_assoc (decide _) (!asked), Bool.and_left_comm,
    Bool.and_assoc (decide _ && decide _), Bool.and_assoc]

/-- A cycle slot has its turn when it is parked in the on phase or active outside it. -/
theorem phaseMoves_eq : phaseMoves onA onB sl =
    ((decide (sl.state = .parked) && inPhase onA onB true sl.mode) || (isActive sl.state && inPhase onA onB false sl.mode)) := by
  cases mode : sl.mode with
  | cycle g => cases g <;> cases onA <;> cases onB <;> simp [phaseMoves, inPhase, mode]
  | _ => simp [phaseMoves, inPhase, mode]

/-- The slots that join the queue in their turn are those that wake. -/
theorem modeTurn_joins : (modeTakes onA onB sl && if decide (sl.mode = .onDemand) then decide (sl.state = .parked) && asked
    else decide (sl.state = .parked)) = modeWakes onA onB asked sl := by
  rw [modeTakes, phaseMoves_eq, modeWakes]
  by_cases mode : sl.mode = .onDemand
  · simp [mode, inPhase]
  · by_cases parked : sl.state = .parked
    · simp [mode, parked, isActive]
    · simp [mode, parked]

/-- The WAITING slots that leave the queue in their turn are those that park. -/
theorem modeTurn_leaves (waiting : sl.state = .waiting) : (modeTakes onA onB sl &&
      if decide (sl.mode = .onDemand) then decide (sl.state = .waiting) && idlesOut limit asked sl
      else decide (sl.state = .waiting)) = modeParks onA onB limit asked sl := by
  rw [modeTakes, phaseMoves_eq, modeParks, modeIdles]
  by_cases mode : sl.mode = .onDemand
  · simp [mode, waiting, inPhase]
  · simp [mode, waiting, isActive]

theorem modeTurn_idles : (modeTakes onA onB sl && (decide (sl.mode = .onDemand) && idlesOut limit asked sl)) =
    modeIdles limit asked sl := by
  rw [modeTakes, modeIdles]
  by_cases mode : sl.mode = .onDemand <;> simp [mode]

/-- R124: the turn of a slot that is not ON_DEMAND. -/
theorem phaseTurn_record (mode : sl.mode ≠ .onDemand) : (if phaseMoves onA onB sl then phaseRecord sl else sl) =
    if modeWakes onA onB asked sl then { sl with state := .waiting, idle := 0 }
    else if modeParks onA onB limit asked sl then { sl with state := .parked, idle := 0 } else sl := by
  rw [phaseMoves_eq, modeWakes, modeParks, modeIdles, phaseRecord]
  by_cases parked : sl.state = .parked
  · simp [mode, parked, isActive]
  · simp [mode, parked]

/-- R125: the turn of an ON_DEMAND slot. -/
theorem demandTurn_record (mode : sl.mode = .onDemand) : demandRecord limit asked sl =
    if modeWakes onA onB asked sl then { sl with state := .waiting, idle := 0 }
    else if modeParks onA onB limit asked sl then { sl with state := .parked, idle := 0 }
    else if isActive sl.state then { sl with idle := if asked then 0 else min (sl.idle + 1) 65535 } else sl := by
  rw [demandRecord, modeWakes, modeParks, modeIdles, idlesOut]
  by_cases parked : sl.state = .parked
  · simp [mode, parked, inPhase, isActive]
  · by_cases active : isActive sl.state = true
    · cases asked <;> simp [mode, parked, active, inPhase]
    · simp [mode, parked, active, inPhase]

/-- R124, R125: what a turn makes of the record. -/
theorem modeTurn_record : (if modeTakes onA onB sl then
      if decide (sl.mode = .onDemand) then demandRecord limit asked sl else phaseRecord sl else sl) =
    if modeWakes onA onB asked sl then { sl with state := .waiting, idle := 0 }
    else if modeParks onA onB limit asked sl then { sl with state := .parked, idle := 0 }
    else if isActive sl.state && decide (sl.mode = .onDemand) then
      { sl with idle := if asked then 0 else min (sl.idle + 1) 65535 }
    else sl := by
  by_cases mode : sl.mode = .onDemand
  · rw [modeTakes, decide_eq_true mode, Bool.or_true, if_pos rfl, if_pos rfl, Bool.and_true]
    exact demandTurn_record onA onB limit asked sl mode
  · rw [modeTakes, decide_eq_false mode, Bool.or_false, Bool.and_false]
    exact phaseTurn_record onA onB limit asked sl mode

end

/-! ### All slots -/

/-- R124, R125: the loads after the slots have followed their modes, given the phases and the idle limit.
Irreducible, so that no unification evaluates the pass. -/
@[irreducible] def followed (onA onB : Bool) (limit : Nat) (ls : Loads) : Loads := forSlots (modeTakes onA onB) (modeSlot limit) ls

theorem slotsFollow_eq (s : State) :
    slotsFollow s = s.setLs (followed (genOnPhase s .a) (genOnPhase s .b) (idleLimit s) s.ls) := by
  unfold slotsFollow followed
  rfl

section
variable (onA onB : Bool) (limit : Nat) (ls : Loads)

theorem followed_entry (i : Fin 24) : entry (followed onA onB limit ls).slots i =
    let sl := entry ls.slots i
    let asked := ls.demand.getLsbD i.val
    if modeWakes onA onB asked sl then { sl with state := .waiting, idle := 0 }
    else if modeParks onA onB limit asked sl then { sl with state := .parked, idle := 0 }
    else if isActive sl.state && decide (sl.mode = .onDemand) then
      { sl with idle := if asked then 0 else min (sl.idle + 1) 65535 }
    else sl := by
  unfold followed
  exact (forSlots_record (modeSlot_turn onA onB limit ls.demand) ls rfl i).trans (modeTurn_record ..)

theorem followed_queue (inv : QueueInv ls) :
    let kept := ls.queue.filter fun i => !modeParks onA onB limit (ls.demand.getLsbD i.val) (entry ls.slots i)
    let woken := slotNumbers.filter fun i => modeWakes onA onB (ls.demand.getLsbD i.val) (entry ls.slots i)
    (followed onA onB limit ls).queue = kept.filter (isLevelZero ls) ++ woken.filter (isLevelZero ls) ++
      kept.filter (fun i => !isLevelZero ls i) ++ woken.filter fun i => !isLevelZero ls i := by
  intro kept woken
  obtain ⟨queue, _, _⟩ := forSlots_queue (modeSlot_turn onA onB limit ls.demand) ls rfl inv.ordered
  have leaves : kept = ls.queue.filter fun i => !(modeTakes onA onB (entry ls.slots i) &&
      if decide ((entry ls.slots i).mode = .onDemand) then decide ((entry ls.slots i).state = .waiting) &&
        idlesOut limit (ls.demand.getLsbD i.val) (entry ls.slots i)
      else decide ((entry ls.slots i).state = .waiting)) :=
    List.filter_congr fun i mem => by rw [modeTurn_leaves _ _ _ _ _ (inv.waiting mem)]
  rw [leaves]
  unfold followed
  simp only [modeTurn_joins] at queue
  exact queue

theorem followed_parkEntries : (followed onA onB limit ls).parkEntries =
    let parked := (List.finRange 24).countP fun i => modeIdles limit (ls.demand.getLsbD i.val) (entry ls.slots i)
    if parked = 0 then ls.parkEntries else min (ls.parkEntries + parked) 65535 := by
  have counts := forSlots_parkEntries (modeSlot_turn onA onB limit ls.demand)
    (idl := fun i sl => decide (sl.mode = .onDemand) && idlesOut limit (ls.demand.getLsbD i.val) sl)
    (fun i acc same _ => by rw [modeSlot_parkEntries, same]) ls rfl
  simp only [modeTurn_idles, slotNumbers_eq_finRange] at counts
  unfold followed
  exact counts

theorem followed_rest : followed onA onB limit ls = { ls with
    slots := (followed onA onB limit ls).slots, queue := (followed onA onB limit ls).queue
    parkEntries := (followed onA onB limit ls).parkEntries } := by
  unfold followed
  refine forSlots_keeps (P := fun acc => acc = { ls with
    slots := acc.slots, queue := acc.queue, parkEntries := acc.parkEntries }) (fun i acc same _ => ?_) rfl
  rw [modeSlot_rest, same]

theorem followed_observation : (followed onA onB limit ls).observation = ls.observation := by
  rw [followed_rest]

theorem followed_idlePeriod : (followed onA onB limit ls).idlePeriod = ls.idlePeriod := by
  rw [followed_rest]

theorem followed_gens : (followed onA onB limit ls).gens = ls.gens := by
  rw [followed_rest]

theorem followed_demand : (followed onA onB limit ls).demand = ls.demand := by
  rw [followed_rest]

theorem followed_sinceStart : (followed onA onB limit ls).sinceStart = ls.sinceStart := by
  rw [followed_rest]

end

/-! ### The generators and the observation -/

/-- R123: the phase of a generator after its advance. -/
theorem advanceGens_phase (s : State) (g : CycleGen) : genOnPhase (advanceGens s) g =
    decide (advanceCounter (genPeriod s g) (s.ls.gens.get g) < min (genOn s g) (genPeriod s g)) := by
  cases g <;> rfl

/-- R126: within the observation period the set is counted. -/
theorem advanceObservation_counts {s : State} (h : min (s.ls.observation + 1) 65535 < s.par .parkObs) :
    advanceObservation s = s.setLs { s.ls with observation := min (s.ls.observation + 1) 65535 } :=
  if_neg (Nat.not_le.mpr h)

/-- R126: the set that completes it ends it. -/
theorem advanceObservation_ends {s : State} (h : s.par .parkObs ≤ min (s.ls.observation + 1) 65535) :
    advanceObservation s = endObservation s := if_pos h

/-- R126: the observation writes the counts and the idle period alone. -/
theorem advanceObservation_rest (s : State) : advanceObservation s = s.setLs { s.ls with
    observation := (advanceObservation s).ls.observation, parkEntries := (advanceObservation s).ls.parkEntries
    idlePeriod := (advanceObservation s).ls.idlePeriod } := by
  by_cases ends : s.par .parkObs ≤ min (s.ls.observation + 1) 65535
  · rw [advanceObservation_ends ends]
    rfl
  · rw [advanceObservation_counts (Nat.lt_of_not_le ends)]
    rfl

/-- Settles O46: the generators, the pass over the slots and the observation, each by its own lemmas. -/
theorem modeWorkDone : Obligations.ModeWorkDone := by
  intro s inv sl period count next on limit active asked idled cycles idles wakes parks zero kept woken parked entries seen
  let gens : Loads := (advanceGens s).ls
  let done := followed (on .a) (on .b) limit gens
  have phase : ∀ g, genOnPhase (advanceGens s) g = on g := fun g => by
    rw [advanceGens_phase]
    cases g <;> rfl
  have work : modeWork s = advanceObservation (s.setLs done) := by
    rw [modeWork, slotsFollow_eq, phase, phase]
    rfl
  have cycles_eq : ∀ i b, inPhase (on .a) (on .b) b (sl i).mode = cycles i b := fun i b => inPhase_eq ..
  have active_eq : ∀ i, isActive (sl i).state = active i := fun i => isActive_eq_decide _
  have idles_eq : ∀ i, modeIdles limit (asked i) (sl i) = idles i := fun i => modeIdles_eq ..
  have wakes_eq : ∀ i, modeWakes (on .a) (on .b) (asked i) (sl i) = wakes i := fun i => by rw [modeWakes, cycles_eq]
  have parks_eq : ∀ i, modeParks (on .a) (on .b) limit (asked i) (sl i) = parks i := fun i => by
    rw [modeParks, cycles_eq, active_eq, idles_eq]
  have observation : done.observation = s.ls.observation := followed_observation ..
  have idlePeriod : done.idlePeriod = s.ls.idlePeriod := followed_idlePeriod ..
  have parkEntries : done.parkEntries = entries := by
    refine (followed_parkEntries (on .a) (on .b) limit gens).trans ?_
    have counts : ((List.finRange 24).countP fun i => modeIdles limit (asked i) (sl i)) = parked :=
      congrArg ((List.finRange 24).countP ·) (funext idles_eq)
    exact congrArg (fun n => if n = 0 then s.ls.parkEntries else min (s.ls.parkEntries + n) 65535) counts
  have written := advanceObservation_rest (s.setLs done)
  rw [← work] at written
  have field := congrArg State.ls written
  obtain ⟨slots, queue⟩ := advanceObservation_slots (s.setLs done)
  rw [← work] at slots queue
  refine ⟨(modeWork s).ls, ?_, ?_, fun i => ?_, ?_, fun within => ?_, fun ends => ?_, ?_, ?_⟩
  · conv_lhs => rw [written]
    conv_rhs => rw [field]
    rfl
  · exact (congrArg Loads.gens field).trans (followed_gens ..)
  · rw [slots, ← wakes_eq, ← parks_eq, ← active_eq]
    exact followed_entry (on .a) (on .b) limit gens i
  · rw [queue]
    have stay : (s.ls.queue.filter fun i => !modeParks (on .a) (on .b) limit (asked i) (sl i)) = kept :=
      List.filter_congr fun i _ => congrArg (!·) (parks_eq i)
    have wake : (slotNumbers.filter fun i => modeWakes (on .a) (on .b) (asked i) (sl i)) = woken :=
      List.filter_congr fun i _ => wakes_eq i
    rw [← stay, ← wake]
    exact followed_queue (on .a) (on .b) limit gens inv
  · have counted : modeWork s = (s.setLs done).setLs { done with observation := min (done.observation + 1) 65535 } :=
      work.trans (advanceObservation_counts (observation ▸ within))
    rw [counted]
    exact ⟨congrArg (fun n => min (n + 1) 65535) observation, parkEntries, idlePeriod⟩
  · have ended : modeWork s = endObservation (s.setLs done) :=
      work.trans (advanceObservation_ends (observation ▸ ends))
    rw [ended]
    refine ⟨rfl, rfl, ?_⟩
    rw [← parkEntries, ← idlePeriod]
    rfl
  · exact (congrArg Loads.demand field).trans (followed_demand ..)
  · exact (congrArg Loads.sinceStart field).trans (followed_sinceStart ..)

end Sys2Proof.Machine

/-! PROOFS. The supply step and the band step of a set (R133, R137 to R141, R145). -/

namespace Sys2Proof.Machine

/-! ### The supply step -/

theorem supplyStep_none {s : State} (h : s.supply = .none) :
    supplyStep s = s.setLs (shedWhere (fun sl => !sl.rideThrough) .supply s.ls) := by
  unfold supplyStep
  rw [h]

theorem supplyStep_powered {s : State} (h : s.supply ≠ .none) :
    supplyStep s = s.setLs (restoreWhere (fun _ => true) .supply s.ls) := by
  unfold supplyStep
  split
  · next none => exact absurd none h
  · rfl
  · rfl

/-- R138, R145: the queue after every slot shed with one reason has rejoined it. -/
theorem restoreAll_queue {ls : Loads} (inv : QueueInv ls) (r : ShedReason) :
    let woken := slotNumbers.filter fun i => decide ((entry ls.slots i).state = .shed r)
    (restoreWhere (fun _ => true) r ls).queue =
      ls.queue.filter (isLevelZero ls) ++ woken.filter (isLevelZero ls) ++
        ls.queue.filter (fun i => !isLevelZero ls i) ++ woken.filter fun i => !isLevelZero ls i := by
  intro woken
  have notWaiting : ∀ i, (decide ((entry ls.slots i).state = .shed r) && true) = true →
      (entry ls.slots i).state ≠ .waiting := fun i shed => by
    rw [Bool.and_true, decide_eq_true_eq] at shed
    rw [shed]
    exact SlotState.noConfusion
  rw [restoreWhere_eq_wakeSlots, wakeSlots_queue _ _ notWaiting inv.ordered]
  simp only [Bool.and_true]
  rfl

/-! ### A pass whose turns all leave the queue, or all join it -/

section
variable {J : Loads → Prop} {p : Slot → Bool} {own : Fin 24 → Slot → Slot} {change : Fin 24 → Slot → Bool}
  {f : Fin 24 → Loads → Loads} {ls : Loads}

/-- R146: a pass in which no slot joins the queue keeps the order of those that stay. -/
theorem forSlots_queue_leaving (t : Turn J p own (fun _ _ => false) change f) (j0 : J ls) (inv : QueueInv ls) :
    (forSlots p f ls).queue = ls.queue.filter fun i => !(p (entry ls.slots i) && change i (entry ls.slots i)) := by
  obtain ⟨queue, _, _⟩ := forSlots_queue t ls j0 inv.ordered
  simp only [Bool.and_false, List.filter_false, List.filter_nil, List.append_nil] at queue
  exact queue.trans (queue_split (inv.ordered.sublist List.filter_sublist)).symm

/-- R145: a pass in which no slot leaves the queue. -/
theorem forSlots_queue_joining (t : Turn J p own change (fun _ _ => false) f) (j0 : J ls) (inv : QueueInv ls) :
    let woken := slotNumbers.filter fun i => p (entry ls.slots i) && change i (entry ls.slots i)
    (forSlots p f ls).queue = ls.queue.filter (isLevelZero ls) ++ woken.filter (isLevelZero ls) ++
      ls.queue.filter (fun i => !isLevelZero ls i) ++ woken.filter fun i => !isLevelZero ls i := by
  intro woken
  obtain ⟨queue, _, _⟩ := forSlots_queue t ls j0 inv.ordered
  simp only [Bool.and_false, Bool.not_false, List.filter_true] at queue
  exact queue

end

/-! ### One slot out of the band, or back in it -/

/-- R140: the record of a slot that an out-of-band set takes. -/
def bandShedRecord (limit : Nat) (sl : Slot) : Slot :=
  { sl with state := if bandLocks limit sl then .lockedOut else .shed .band, idle := 0, bandCount := min (sl.bandCount + 1) 15 }

/-- R141: the record of a slot that an in-band set returns. -/
def bandReturnRecord (sl : Slot) : Slot :=
  { sl with state := if sl.autoRecover then .waiting else .lockedOut, idle := 0 }

/-- R140: the slot is counted and then moved. -/
theorem bandShedSlot_eq (limit : Nat) (i : Fin 24) (ls : Loads) : bandShedSlot limit i ls =
    moveSlot (if bandLocks limit (entry ls.slots i) then .lockedOut else .shed .band) i
      (ls.setSlot i { entry ls.slots i with bandCount := min ((entry ls.slots i).bandCount + 1) 15 }) :=
  (apply_ite (moveSlot · i _) _ _ _).symm

theorem bandReturnSlot_eq (i : Fin 24) (ls : Loads) : bandReturnSlot i ls =
    moveSlot (if (entry ls.slots i).autoRecover then .waiting else .lockedOut) i ls :=
  (apply_ite (moveSlot · i ls) _ _ _).symm

/-- R140, R146: a slot shed for the band or locked out leaves the queue. -/
theorem bandShedSlot_turn (limit : Nat) : Turn (fun _ => True) bandTaken (fun _ => bandShedRecord limit)
    (fun _ _ => false) (fun _ sl => decide (sl.state = .waiting)) (bandShedSlot limit) where
  keeps _ _ _ := trivial
  record i acc j _ _ := by
    rw [bandShedSlot_eq, moveSlot_entry, Loads.setSlot, entry_setEntry_same, entry_setEntry]
    by_cases same : j = i
    · rw [if_pos same, if_pos same]
      rfl
    · rw [if_neg same, if_neg same, if_neg same]
  level _ _ := rfl
  queue i acc _ _ := by
    have leaves : (if bandLocks limit (entry acc.slots i) then SlotState.lockedOut else .shed .band) ≠ .waiting := by
      split <;> exact SlotState.noConfusion
    rw [bandShedSlot_eq, moveSlot_queue_leave leaves, Loads.setSlot, entry_setEntry_same, if_neg Bool.false_ne_true]
    exact if_congr decide_eq_true_iff.symm rfl rfl
  apart _ _ _ joins := absurd joins Bool.false_ne_true

/-- R141, R145: a slot that recovers joins the queue, and one that does not was not in it. -/
theorem bandReturnSlot_turn : Turn (fun _ => True) (fun sl => decide (sl.state = .shed .band)) (fun _ => bandReturnRecord)
    (fun _ sl => sl.autoRecover) (fun _ _ => false) bandReturnSlot where
  keeps _ _ _ := trivial
  record i acc j _ _ := by
    rw [bandReturnSlot_eq]
    exact moveSlot_entry _ i j acc
  level _ _ := rfl
  queue i acc _ shed := by
    have out : ¬(entry acc.slots i).state = .waiting := by
      rw [of_decide_eq_true shed]
      exact SlotState.noConfusion
    rw [bandReturnSlot_eq]
    by_cases recovers : (entry acc.slots i).autoRecover = true
    · rw [if_pos recovers, if_pos recovers, moveSlot_queue_join, if_neg out]
    · rw [if_neg recovers, if_neg recovers, if_neg Bool.false_ne_true, moveSlot_queue_leave SlotState.noConfusion, if_neg out]
  apart _ _ _ _ := rfl

theorem bandShedSlot_rest (limit : Nat) (i : Fin 24) (ls : Loads) : bandShedSlot limit i ls =
    { ls with slots := (bandShedSlot limit i ls).slots, queue := (bandShedSlot limit i ls).queue } := by
  rw [bandShedSlot_eq]
  exact moveSlot_rest ..

theorem bandReturnSlot_rest (i : Fin 24) (ls : Loads) : bandReturnSlot i ls =
    { ls with slots := (bandReturnSlot i ls).slots, queue := (bandReturnSlot i ls).queue } := by
  rw [bandReturnSlot_eq]
  exact moveSlot_rest ..

/-! ### The loads after the band step -/

section
variable (ls : Loads)

/-- R140: the loads after an out-of-band set. -/
def bandShedLoads (limit : Nat) : Loads := forSlots bandTaken (bandShedSlot limit) ls

/-- R141: the loads after an in-band set. -/
def bandReturnLoads : Loads := forSlots (fun sl => decide (sl.state = .shed .band)) bandReturnSlot ls

theorem bandShedLoads_entry (limit : Nat) (i : Fin 24) : entry (bandShedLoads ls limit).slots i =
    if bandTaken (entry ls.slots i) then bandShedRecord limit (entry ls.slots i) else entry ls.slots i :=
  forSlots_record (bandShedSlot_turn limit) ls trivial i

theorem bandReturnLoads_entry (i : Fin 24) : entry (bandReturnLoads ls).slots i =
    if (entry ls.slots i).state = .shed .band then bandReturnRecord (entry ls.slots i) else entry ls.slots i :=
  (forSlots_record bandReturnSlot_turn ls trivial i).trans (if_congr decide_eq_true_iff rfl rfl)

theorem bandShedLoads_rest (limit : Nat) : bandShedLoads ls limit =
    { ls with slots := (bandShedLoads ls limit).slots, queue := (bandShedLoads ls limit).queue } :=
  forSlots_rest (bandShedSlot_rest limit) ls

theorem bandReturnLoads_rest : bandReturnLoads ls =
    { ls with slots := (bandReturnLoads ls).slots, queue := (bandReturnLoads ls).queue } :=
  forSlots_rest bandReturnSlot_rest ls

end

/-- R140, R146: the slots that an out-of-band set takes leave the queue. -/
theorem bandShedLoads_queue {ls : Loads} (inv : QueueInv ls) (limit : Nat) :
    (bandShedLoads ls limit).queue = ls.queue.filter fun i => !bandTaken (entry ls.slots i) := by
  refine (forSlots_queue_leaving (bandShedSlot_turn limit) trivial inv).trans (List.filter_congr fun i mem => ?_)
  rw [decide_eq_true (inv.waiting mem), Bool.and_true]

/-! ### The alarms of the band step -/

theorem raiseTimes_eq_iterate (src : Source) (k : Nat) (s : State) : raiseTimes src k s = (raise src)^[k] s := by
  induction k generalizing s with
  | zero => rfl
  | succ k ih => exact ih (raise src s)

/-- A count over the slot records, slot by slot. -/
theorem countP_slots (p : Slot → Bool) (ls : Loads) :
    ls.slots.toList.countP p = (List.finRange 24).countP fun i => p (entry ls.slots i) := by
  rw [toList_eq_entries, List.countP_map]
  rfl

theorem any_slots_iff (p : Slot → Bool) (ls : Loads) : ls.slots.toList.any p = true ↔ ∃ i, p (entry ls.slots i) = true := by
  simp only [toList_eq_entries, List.any_map, List.any_eq_true, List.mem_finRange, true_and, Function.comp_apply]

/-- R140: LOAD_LOCKOUT for each slot locked out, and BAND_SHED once when a slot was taken. -/
theorem bandShed_eq (s : State) {taken locks : Fin 24 → Bool} (taken_eq : ∀ i, bandTaken (entry s.ls.slots i) = taken i)
    (locks_eq : ∀ i, (bandTaken (entry s.ls.slots i) && bandLocks (s.par .bandRestartLimit) (entry s.ls.slots i)) = locks i)
    [Decidable (∃ i, taken i = true)] :
    bandShed s = (raise .bandShed)^[if ∃ i, taken i = true then 1 else 0]
      ((raise .loadLockout)^[(List.finRange 24).countP locks] (s.setLs (bandShedLoads s.ls (s.par .bandRestartLimit)))) := by
  obtain rfl := funext taken_eq
  obtain rfl := funext locks_eq
  rw [← raiseTimes_eq_iterate .loadLockout,
    ← countP_slots fun sl => bandTaken sl && bandLocks (s.par .bandRestartLimit) sl]
  by_cases any : ∃ i, bandTaken (entry s.ls.slots i) = true
  · rw [if_pos any]
    exact if_pos ((any_slots_iff _ _).mpr any)
  · rw [if_neg any]
    exact if_neg (mt (any_slots_iff _ _).mp any)

/-- R141: LOAD_LOCKOUT for each slot that does not recover. -/
theorem bandReturn_eq (s : State) : bandReturn s =
    (raise .loadLockout)^[(List.finRange 24).countP fun i =>
        decide ((entry s.ls.slots i).state = .shed .band) && !(entry s.ls.slots i).autoRecover]
      (s.setLs (bandReturnLoads s.ls)) := by
  rw [← raiseTimes_eq_iterate, ← countP_slots fun sl => decide (sl.state = .shed .band) && !sl.autoRecover]
  rfl

/-! ### The band step -/

theorem bandStep_not_line {s : State} (h : s.supply ≠ .line) (v : Option (BitVec 10)) : bandStep v s = s := by
  unfold bandStep
  split
  · next line => exact absurd line h
  · rfl
  · rfl
  · rfl

theorem bandStep_invalid (s : State) : bandStep none s = s := by
  unfold bandStep
  cases s.supply <;> rfl

theorem bandStep_line {s : State} (h : s.supply = .line) (v : BitVec 10) : bandStep (some v) s =
    if outOfBand (s.par .vAuxLow) (s.par .vAuxHigh) v then bandShed s else bandReturn s := by
  unfold bandStep
  rw [h]

theorem outOfBand_iff (low high : Nat) (v : BitVec 10) :
    outOfBand low high v = true ↔ v.toNat < low ∨ high < v.toNat := by
  rw [outOfBand, Bool.or_eq_true, decide_eq_true_iff, decide_eq_true_iff]

theorem bandTaken_eq (sl : Slot) :
    bandTaken sl = decide ((sl.state = .running ∨ sl.state = .waiting) ∧ sl.rideThrough = false) := by
  rw [Bool.eq_iff_iff, bandTaken, Bool.and_eq_true, isActive_iff, Bool.not_eq_true', decide_eq_true_iff]

/-- Settles O47: the supply step in its two cases, then the band step out of the band and in it. -/
theorem supplyAndBandSteps : Obligations.SupplyAndBandSteps := by
  intro s inv sl taken zero joined moves
  have taken_eq : ∀ i, bandTaken (sl i) = taken i := fun i => bandTaken_eq _
  refine ⟨fun none => ?_, fun powered => ?_, bandStep_not_line, bandStep_invalid s, fun v line => ⟨fun out => ?_, fun within => ?_⟩⟩
  · obtain ⟨slots, queue⟩ := supplyShed_spec s.ls (shed := taken) fun i => decide_eq_true_iff
    exact ⟨_, supplyStep_none none, shedWhere_rest _ _ _, queue inv, slots⟩
  · intro wakes
    refine ⟨_, supplyStep_powered powered, restoreWhere_rest _ _ _, restoreAll_queue inv .supply, fun i => ?_⟩
    exact (restoreAll_entry .supply s.ls i).trans (if_congr decide_eq_true_iff.symm rfl rfl)
  · intro count locks
    have locks_eq : ∀ i, (bandTaken (sl i) && bandLocks (s.par .bandRestartLimit) (sl i)) = locks i := fun i => by
      rw [taken_eq]
      rfl
    refine ⟨bandShedLoads s.ls (s.par .bandRestartLimit), ?_, bandShedLoads_rest _ _, ?_, fun i => ?_⟩
    · rw [bandStep_line line, if_pos ((outOfBand_iff _ _ _).mpr out)]
      exact bandShed_eq s taken_eq locks_eq
    · simp only [← taken_eq]
      exact bandShedLoads_queue inv _
    · rw [bandShedLoads_entry, ← locks_eq, ← taken_eq]
      by_cases took : bandTaken (sl i) = true
      · rw [if_pos took, if_pos took, took, Bool.true_and, bandShedRecord]
        split <;> rfl
      · rw [if_neg took, if_neg took, eq_false_of_ne_true took, Bool.false_and, if_neg Bool.false_ne_true]
  · intro wakes locks
    have inside : ¬outOfBand (s.par .vAuxLow) (s.par .vAuxHigh) v = true := by
      rw [outOfBand_iff]
      omega
    refine ⟨bandReturnLoads s.ls, ?_, bandReturnLoads_rest _, forSlots_queue_joining bandReturnSlot_turn trivial inv, fun i => ?_⟩
    · rw [bandStep_line line, if_neg inside]
      exact bandReturn_eq s
    · refine (bandReturnLoads_entry s.ls i).trans ?_
      by_cases shed : (sl i).state = .shed .band
      · rw [if_pos shed]
        cases recovers : (sl i).autoRecover <;> simp [wakes, locks, shed, recovers, bandReturnRecord, sl]
      · rw [if_neg shed]
        simp [wakes, locks, shed, sl]

end Sys2Proof.Machine

/-! PROOFS. The start decision of a set (R147 to R151). -/

namespace Sys2Proof.Machine

/-! ### The heads in the shed range -/

/-- R146: a list of slots moved to one state, one after the other, changes the slots and the queue alone. -/
theorem moveAll_rest (st : SlotState) (l : List (Fin 24)) (ls : Loads) :
    l.foldl (fun acc i => moveSlot st i acc) ls = { ls with
      slots := (l.foldl (fun acc i => moveSlot st i acc) ls).slots
      queue := (l.foldl (fun acc i => moveSlot st i acc) ls).queue } := by
  induction l generalizing ls with
  | nil => rfl
  | cons i l ih =>
    have moved := moveSlot_rest st i ls
    rw [List.foldl_cons]
    generalize moveSlot st i ls = ms at moved ⊢
    refine (ih ms).trans ?_
    rw [moved]

/-- R147, R148: the loads that the start decision tests: the epochs counted, the heads in the shed range shed.
Irreducible, so that no unification evaluates the moves. -/
@[irreducible] def headsShed (s : State) : Loads := shedHeads s.be.h (countSinceStart s.ls)

theorem startDecision_eq (s : State) : startDecision s = tryStart (s.setLs (headsShed s)) := by
  unfold startDecision headsShed
  rfl

section
variable (s : State)

theorem headsShed_entry (i : Fin 24) : entry (headsShed s).slots i =
    if i ∈ headsInRange s.be.h s.ls then { entry s.ls.slots i with state := .shed .budget, idle := 0 }
    else entry s.ls.slots i := by
  unfold headsShed
  exact shedHeads_entry s.be.h (countSinceStart s.ls) i

theorem headsShed_rest : headsShed s = { s.ls with
    slots := (headsShed s).slots, queue := (headsShed s).queue, sinceStart := min (s.ls.sinceStart + 1) 65535 } := by
  unfold headsShed
  exact moveAll_rest (.shed .budget) _ (countSinceStart s.ls)

theorem headsShed_sinceStart : (headsShed s).sinceStart = min (s.ls.sinceStart + 1) 65535 := by
  rw [headsShed_rest]

end

section
variable {s : State} (inv : QueueInv s.ls)
include inv

theorem headsShed_queue : (headsShed s).queue = s.ls.queue.dropWhile fun i => inShedRange s.be.h (entry s.ls.slots i).level := by
  have counted : QueueInv (countSinceStart s.ls) := inv
  unfold headsShed
  exact shedHeads_queue counted s.be.h

theorem headsShed_queueInv : QueueInv (headsShed s) := by
  have counted : QueueInv (countSinceStart s.ls) := inv
  unfold headsShed
  exact (shedHeads_orderly counted s.be.h).queue

/-- R148: the head that is left was not shed. -/
theorem headsShed_head {i : Fin 24} (head : (headsShed s).queue.head? = some i) : i ∉ headsInRange s.be.h s.ls := by
  have waits : (entry (headsShed s).slots i).state = .waiting :=
    (headsShed_queueInv inv).waiting (List.mem_of_mem_head? head)
  intro shed
  rw [headsShed_entry, if_pos shed] at waits
  cases waits

theorem headsShed_head_entry {i : Fin 24} (head : (headsShed s).queue.head? = some i) :
    entry (headsShed s).slots i = entry s.ls.slots i := by
  rw [headsShed_entry, if_neg (headsShed_head inv head)]

/-- R86: the heads were WAITING, so their shed leaves the running demand. -/
theorem headsShed_served (supply : Supply) : servedBy (headsShed s) supply = servedBy s.ls supply := by
  rw [servedBy_eq, servedBy_eq]
  congr 2
  funext i
  rw [headsShed_entry]
  by_cases shed : i ∈ headsInRange s.be.h s.ls
  · have waits := inv.waiting (mem_queue_of_headsInRange shed)
    rw [if_pos shed, if_neg fun run => SlotState.noConfusion run.1,
      if_neg fun run => SlotState.noConfusion (waits.symm.trans run.1)]
  · rw [if_neg shed]

/-- R149, R151: the tests of the head that is left, on what the set found. -/
theorem mayStart_headsShed {i : Fin 24} (head : (headsShed s).queue.head? = some i) :
    mayStart (headsShed s).sinceStart i (s.setLs (headsShed s)) = true ↔
      s.par .startGap ≤ min (s.ls.sinceStart + 1) 65535 ∧
        (s.supply = .none ∨
          servedBy s.ls s.supply + (entry s.ls.slots i).demand + s.be.record.r ≤ s.be.record.pAvail) ∧
        (s.cm.marks.a = true → (entry s.ls.slots i).level = 0) := by
  have supply : (s.setLs (headsShed s)).supply = s.supply := supply_congr rfl rfl
  rw [mayStart_iff, par_eq_of_pm (State.setLs_pm s _), supply, headsShed_sinceStart, State.setLs_ls,
    headsShed_served inv, headsShed_head_entry inv head]
  rfl

end

/-! ### The test of the head -/

theorem tryStart_empty {s : State} (empty : s.ls.queue.head? = none) : tryStart s = s := by
  unfold tryStart
  rw [empty]

theorem tryStart_head {s : State} {i : Fin 24} (head : s.ls.queue.head? = some i) :
    tryStart s = if mayStart s.ls.sinceStart i s then s.setLs (startSlot i s.ls) else s := by
  unfold tryStart
  rw [head]

/-- Settles O52: the heads are shed, and then the head that is left is tested. -/
theorem startDecided : Obligations.StartDecided := by
  intro s inv sl since high heads rest served starts leaves
  have queue : (headsShed s).queue = rest := headsShed_queue inv
  have record : ∀ i, entry (headsShed s).slots i =
      if i ∈ heads then { sl i with state := .shed .budget, idle := 0 } else sl i := headsShed_entry s
  have served_eq : servedBy s.ls s.supply = served := servedBy_eq _ _
  have starts_iff : ∀ {i}, (headsShed s).queue.head? = some i →
      (mayStart (headsShed s).sinceStart i (s.setLs (headsShed s)) = true ↔ starts i) := fun head => by
    rw [mayStart_headsShed inv head, served_eq]
  have waits : tryStart (s.setLs (headsShed s)) = s.setLs (headsShed s) → leaves none rest since := fun stays => by
    refine ⟨(headsShed s).slots, ?_, fun i => (record i).trans (if_congr Iff.rfl rfl (if_neg nofun).symm)⟩
    rw [startDecision_eq, stays, ← queue]
    exact congrArg s.setLs (headsShed_rest s)
  refine ⟨fun empty => ?_, fun i q left may => ?_, fun i q left mayNot => ?_⟩
  · rw [← empty]
    exact waits (tryStart_empty (by rw [State.setLs_ls, queue, empty]; rfl))
  · have head : (headsShed s).queue.head? = some i := by rw [queue, left]; rfl
    have started : startDecision s = s.setLs (startSlot i (headsShed s)) := by
      exact (startDecision_eq s).trans ((tryStart_head head).trans (if_pos ((starts_iff head).mpr may)))
    have behind : (startSlot i (headsShed s)).queue = q := by
      rw [startSlot_queue (headsShed_queueInv inv) head, queue, left]
      rfl
    refine ⟨(startSlot i (headsShed s)).slots, ?_, fun j => ?_⟩
    · rw [started, ← behind]
      refine congrArg s.setLs ((startSlot_rest i _).trans ?_)
      rw [headsShed_rest s]
    · rw [startSlot_entry, headsShed_head_entry inv head, record]
      by_cases same : j = i
      · subst same
        have stays : j ∉ heads := headsShed_head inv head
        rw [if_pos rfl, if_neg stays, if_pos rfl]
      · rw [if_neg same, if_neg fun e : some i = some j => same (Option.some.inj e).symm]
  · have head : (headsShed s).queue.head? = some i := by rw [queue, left]; rfl
    exact waits ((tryStart_head head).trans (if_neg fun may => mayNot ((starts_iff head).mp may)))

end Sys2Proof.Machine

/-! PROOFS. The alarms: an occurrence on each link, TAKE ALARM and DONE ALARM, and the routes (R153 to R165). -/

namespace Sys2Proof.Machine

/-! ### An occurrence -/

/-- R154: the bit of a link in a route mask, as a mask of its own. -/
def linkBit : Link → BitVec 3
  | .t => 1#3 | .a => 2#3 | .v => 4#3

theorem routedTo_iff (mask : BitVec 3) (l : Link) : routedTo mask l = true ↔ mask &&& linkBit l ≠ 0 := by
  revert mask
  cases l <;> decide

theorem occurEntry_eq (level : Fin 4) (e : PendingEntry) : occurEntry level e =
    if e.pending then ⟨true, min (e.count + 1) 15, e.level⟩ else ⟨true, 1, level⟩ := by
  obtain ⟨pending, count, held⟩ := e
  cases pending <;> rfl

/-- Settles O33: the link is in the source's mask or not; there the entry that occurs and the others, and the line. -/
theorem alarmOccurs : Obligations.AlarmOccurs := by
  intro src s
  refine ⟨raise_touches src s, occurrence_sources src s.ad, fun l => ?_⟩
  intro a b row e routed
  have reached : routedTo row.mask l = true ↔ routed := by cases l <;> exact routedTo_iff _ _
  have after : b = if routedTo row.mask l then occurOnLink (sourceNumber src) row.level a else a := occurrence_get src s.ad l
  refine ⟨fun missed => after.trans (if_neg (mt reached.mp missed)), fun hit => ?_⟩
  have hb : b = occurOnLink (sourceNumber src) row.level a := after.trans (if_pos (reached.mpr hit))
  rw [hb]
  refine ⟨occurOnLink_stack _ _ _, fun m other => ?_, ?_, attention_iff rfl⟩
  · rw [occurOnLink_entry, if_neg other]
  · rw [occurOnLink_entry, if_pos rfl, occurEntry_eq]

/-! ### TAKE ALARM -/

/-- R163, R164: nothing is chosen exactly when no entry is eligible. -/
theorem chooseAlarm_eq_none_iff (a : LinkAlarms) :
    chooseAlarm a = none ↔ ∀ m, ¬eligible a.stack (entry a.pending m) = true := by
  have levels : ∀ level : Fin 4, level ∈ [(0 : Fin 4), 1, 2, 3] := by decide
  rw [chooseAlarm, List.findSome?_eq_none_iff]
  refine ⟨fun missed m can => ?_, fun never level _ => ?_⟩
  · refine List.find?_eq_none.mp (missed _ (levels (entry a.pending m).level)) m (mem_sourceNumbers m) ?_
    rw [can, decide_eq_true rfl, Bool.and_true]
  · exact List.find?_eq_none.mpr fun m _ found => never m (Bool.and_eq_true_iff.mp found).1

/-- R163: the eligible entry of lowest level, then of lowest source number, is the one chosen. -/
theorem chooseAlarm_eq_some {a : LinkAlarms} {m : Fin 16} (can : eligible a.stack (entry a.pending m) = true)
    (first : ∀ k, eligible a.stack (entry a.pending k) = true → (entry a.pending m).level < (entry a.pending k).level ∨
      ((entry a.pending m).level = (entry a.pending k).level ∧ m ≤ k)) : chooseAlarm a = some m := by
  cases chosen : chooseAlarm a with
  | none => exact absurd can ((chooseAlarm_eq_none_iff a).mp chosen m)
  | some n =>
    have before := chooseAlarm_first chosen can
    have behind := first n (chooseAlarm_eligible chosen)
    exact congrArg some (by omega)

theorem takeNothing_eq (a : LinkAlarms) : takeNothing a =
    [byteOf ((List.finRange 16).countP fun m => (entry a.pending m).pending), byteOf a.stack.length] := by
  rw [takeNothing, pendingCount_eq]

theorem takeEntry_entry (n k : Fin 16) (a : LinkAlarms) : entry (takeEntry n a).pending k =
    if k = n then clearEntry else entry a.pending k := entry_setEntry _ _ _ _

theorem takePayload_eq (n : Fin 16) (a : LinkAlarms) : takePayload n a =
    [byteOf n.val, byteOf (entry a.pending n).level.val, byteOf (entry a.pending n).count,
      byteOf ((List.finRange 16).countP fun m => (entry (takeEntry n a).pending m).pending), byteOf (a.stack.length + 1)] := by
  have depth : (takeEntry n a).stack.length = a.stack.length + 1 := List.length_append
  rw [takePayload, pendingCount_eq, depth]

section
variable {l : Link} {s : State}

theorem ownTakeAlarm_stackFull (full : 4 ≤ (s.ad.links.get l).stack.length) :
    ownTakeAlarm l s = ⟨s, .stackFull, takeNothing (s.ad.links.get l)⟩ := if_pos full

variable (room : (s.ad.links.get l).stack.length < 4)
include room

theorem ownTakeAlarm_none (missed : chooseAlarm (s.ad.links.get l) = none) :
    ownTakeAlarm l s = ⟨s, .none, takeNothing (s.ad.links.get l)⟩ := by
  rw [ownTakeAlarm, if_neg (Nat.not_le.mpr room), missed]

theorem ownTakeAlarm_taken {n : Fin 16} (chosen : chooseAlarm (s.ad.links.get l) = some n) :
    ownTakeAlarm l s =
      answerWith (takePayload n (s.ad.links.get l)) (setLinkAlarms l (takeEntry n (s.ad.links.get l)) s) := by
  rw [ownTakeAlarm, if_neg (Nat.not_le.mpr room), chosen]

end

/-! ### DONE ALARM -/

theorem ownDoneAlarm_empty {l : Link} {s : State} (empty : (s.ad.links.get l).stack = []) :
    ownDoneAlarm l s = refuse .notInService s := by
  simp only [ownDoneAlarm, empty, List.getLast?_nil]

/-- R165: the top frame is the last of the stack, and the depth of the others is sent. -/
theorem ownDoneAlarm_top {l : Link} {s : State} {rest : List AlarmFrame} {f : AlarmFrame}
    (stack : (s.ad.links.get l).stack = rest ++ [f]) : ownDoneAlarm l s =
      answerWith [byteOf f.source.val, byteOf f.level.val, byteOf rest.length]
        (setLinkAlarms l (dropTop (s.ad.links.get l)) s) := by
  simp only [ownDoneAlarm, stack, List.getLast?_concat, List.length_append, List.length_singleton, Nat.add_sub_cancel]

/-- Settles O34: TAKE ALARM by the room on the stack and the entry chosen, DONE ALARM by the top frame. -/
theorem alarmTakenAndDone : Obligations.AlarmTakenAndDone := by
  intro l body s free a n waiting can lit leaves
  have can_iff : ∀ m, eligible a.stack (entry a.pending m) = true ↔ can a m := fun m => eligible_iff _ _
  refine ⟨fun framed => ?_, fun framed => ?_⟩
  · intro answers
    have sent : ∀ {r t p}, ownTakeAlarm l s = ⟨t, r, p⟩ → answers r p t :=
      requestCommand_answered free framed (by cases l <;> rfl)
    have nothing : takeNothing a = [n (waiting a), n a.stack.length] := takeNothing_eq a
    refine ⟨fun full => ?_, fun room never => ?_, fun m room may first => ?_⟩
    · rw [← nothing]
      exact sent (ownTakeAlarm_stackFull full)
    · rw [← nothing]
      exact sent (ownTakeAlarm_none room ((chooseAlarm_eq_none_iff a).mpr fun m => mt (can_iff m).mp (never m)))
    · have chosen : chooseAlarm a = some m :=
        chooseAlarm_eq_some ((can_iff m).mpr may) fun k other => first k ((can_iff k).mp other)
      refine ⟨takeEntry m a, fun k => takeEntry_entry m k a, rfl, attention_iff rfl, ?_⟩
      have taken := sent (ownTakeAlarm_taken room chosen)
      rw [takePayload_eq] at taken
      exact taken
  · intro answers
    have sent : ∀ {r t p}, ownDoneAlarm l s = ⟨t, r, p⟩ → answers r p t :=
      requestCommand_answered free framed (by cases l <;> rfl)
    refine ⟨fun empty => sent (ownDoneAlarm_empty empty), fun rest f stack => ?_⟩
    refine ⟨dropTop a, rfl, ?_, attention_iff rfl, sent (ownDoneAlarm_top stack)⟩
    exact (congrArg List.dropLast stack).trans List.dropLast_concat

/-! ### ALARM ROUTE SET and READ ALARM ROUTES -/

theorem sourceField_none {b : Byte} (h : 15 < b.toNat) : sourceField b = none := dif_neg (by omega)

theorem sourceField_some {b : Byte} {src : Fin 16} (h : src.val = b.toNat) : sourceField b = some src := by
  rw [sourceField, dif_pos (h ▸ src.isLt)]
  exact congrArg some (Fin.ext h.symm)

/-- R157: a mask field within its range is the mask itself. -/
theorem extractMask_eq {b : Byte} {mask : BitVec 3} (h : mask.toNat = b.toNat) : b.extractLsb' 0 3 = mask := by
  apply BitVec.eq_of_toNat_eq
  rw [BitVec.extractLsb'_toNat, ← h, Nat.shiftRight_zero, Nat.mod_eq_of_lt mask.isLt]

/-- R157: the links on which a source is pending, in numbers. -/
theorem pendingMask_eq (n : Fin 16) (ad : Alarms) : pendingMask n ad =
    BitVec.ofNat 8 ((entry ad.links.t.pending n).pending.toNat + 2 * (entry ad.links.a.pending n).pending.toNat +
      4 * (entry ad.links.v.pending n).pending.toNat) := by
  rw [pendingMask, packByte_eq]
  exact congrArg (BitVec.ofNat 8) (by simp; omega)

/-- R159: the byte of a row of the source table. -/
theorem routeByte_eq (level mask : Nat) : packByte [(level, 0), (mask, 2)] = BitVec.ofNat 8 (level + 4 * mask) := by
  rw [packByte_eq]
  exact congrArg (BitVec.ofNat 8) (by simp; omega)

section
variable {sb lb mb : Byte} (s : State)

theorem ownAlarmRouteSet_badValue (h : 15 < sb.toNat ∨ 3 < lb.toNat ∨ 7 < mb.toNat) :
    ownAlarmRouteSet [sb, lb, mb] s = refuse .badValue s := by
  unfold ownAlarmRouteSet
  split
  · next src level sourced levelled =>
    obtain wrong | wrong | wrong := h
    · cases (sourceField_none wrong).symm.trans sourced
    · cases (levelField_none wrong).symm.trans levelled
    · exact if_neg (Nat.not_lt.mpr wrong)
  · rfl

theorem ownAlarmRouteSet_stored {src : Fin 16} {level : Fin 4} {mask : BitVec 3} (sourced : src.val = sb.toNat)
    (levelled : level.val = lb.toNat) (masked : mask.toNat = mb.toNat) : ownAlarmRouteSet [sb, lb, mb] s =
      answerWith [sb, lb, mb, pendingMask src s.ad]
        (s.setAd { s.ad with sources := setEntry s.ad.sources src ⟨level, mask⟩ }) := by
  have first : sourceField (byteAt [sb, lb, mb] 0) = some src := sourceField_some sourced
  have second : levelField (byteAt [sb, lb, mb] 1) = some level := levelField_some levelled
  have third : byteAt [sb, lb, mb] 2 = mb := rfl
  have fits : mb.toNat < 8 := masked ▸ mask.isLt
  simp only [ownAlarmRouteSet, first, second, third, fits, if_true, byteOf_eq sourced, byteOf_eq levelled,
    extractMask_eq masked]

end

theorem ownReadAlarmRoutes_eq (s : State) : ownReadAlarmRoutes s =
    answerWith ((List.finRange 16).map fun m =>
      BitVec.ofNat 8 ((entry s.ad.sources m).level.val + 4 * (entry s.ad.sources m).mask.toNat)) s := by
  simp only [ownReadAlarmRoutes, toList_eq_entries, List.map_map, Function.comp_def, routeByte_eq]

/-- Settles O35: the route refused and stored, and the table read. -/
theorem alarmRoutesSetAndRead : Obligations.AlarmRoutesSetAndRead := by
  intro body s free
  refine ⟨fun framed => ?_, fun framed => requestCommand_answered free framed rfl (ownReadAlarmRoutes_eq s)⟩
  obtain ⟨sb, lb, mb, payload⟩ := length_three framed.length
  have sent : ∀ {t r p}, ownAlarmRouteSet [sb, lb, mb] s = ⟨t, r, p⟩ →
      exec (.alarmRouteSet .v body) s = .next (replied .v 0x58 body r p t) := fun own =>
    requestCommand_answered free framed rfl ((congrArg (ownAlarmRouteSet · s) payload).trans own)
  refine ⟨sb, lb, mb, payload, fun wrong => sent (ownAlarmRouteSet_badValue s wrong), ?_⟩
  intro src level mask sourced levelled masked
  refine ⟨setEntry s.ad.sources src ⟨level, mask⟩, fun m => entry_setEntry _ _ _ _, ?_⟩
  rw [← pendingMask_eq]
  exact sent (ownAlarmRouteSet_stored s sourced levelled masked)

end Sys2Proof.Machine

/-! PROOFS. READ STATUS: the 70 bytes of Table 9-4, block by block (R181). -/

namespace Sys2Proof.Machine

/-! ### SI and PT -/

/-- A packed byte is the sum that Table 9-4 writes for it. -/
theorem packByte_of_sum {fs : List (Nat × Nat)} {m : Nat} (sum : (fs.map fun f => f.1 * 2 ^ f.2).sum = m) :
    packByte fs = BitVec.ofNat 8 m := sum ▸ packByte_eq fs

theorem channelStatus_eq (c : SenseChannel) : channelStatus c =
    [BitVec.ofNat 8 ((decide (c.health = .failed)).toNat + 2 * failCode c.reason + 16 * c.status.toNat),
      BitVec.ofNat 8 c.plaus] :=
  congrArg (· :: _) (packByte_of_sum (by simp; omega))

theorem statusSense_eq (s : State) : statusSense s =
    [BitVec.ofNat 8 s.lp.t.bad, BitVec.ofNat 8 s.lp.a.bad, BitVec.ofNat 8 s.lp.v.bad] ++ channelStatus s.si.chan.a ++
      channelStatus s.si.chan.b ++
      [BitVec.ofNat 8 (activeCode s.si.active + 4 * s.si.senseLost.toNat + 8 * s.pt.isSet.toNat)] ++
      wordOf s.si.epoch.toNat ++ wordOf s.pt.metre ++ [BitVec.ofNat 8 s.pt.cm] := by
  have flags : packByte [(activeCode s.si.active, 0), (s.si.senseLost.toNat, 2), (s.pt.isSet.toNat, 3)] =
      BitVec.ofNat 8 (activeCode s.si.active + 4 * s.si.senseLost.toNat + 8 * s.pt.isSet.toNat) :=
    packByte_of_sum (by simp; omega)
  rw [statusSense, flags]
  rfl

/-! ### CM -/

/-- Bit 15 says that an elevation is present; an absent one reads 0. -/
theorem elevStatus_eq (e : Option (BitVec 10)) : elevStatus e = wordOf (32768 * e.isSome.toNat + (e.getD 0).toNat) := by
  cases e <;> rfl

theorem statusCollector_eq (s : State) : statusCollector s =
    [BitVec.ofNat 8 (collectorCode s.cm.state + 8 * supplyCode s.supply + 32 * s.cm.lines.pos.toNat +
        64 * s.cm.lines.neg.toNat),
      BitVec.ofNat 8 s.cm.presentCount, BitVec.ofNat 8 s.cm.confirmCount] ++ wordOf s.cm.epochsIn ++
    [BitVec.ofNat 8 (polesCode s.cm.dropMask + 8 * s.cm.marks.t.toNat + 16 * s.cm.marks.a.toNat +
        32 * s.cm.marks.v.toNat + 64 * s.cm.lossMetre.isSome.toNat + 128 * s.cm.lossEpoch.isSome.toNat)] ++
    wordOf (s.cm.lossMetre.getD 0) ++ wordOf (s.cm.lossEpoch.getD 0).toNat ++ elevStatus s.cm.lastElev.pos ++
    elevStatus s.cm.lastElev.neg := by
  have first : packByte [(collectorCode s.cm.state, 0), (supplyCode s.supply, 3), (s.cm.lines.pos.toNat, 5),
      (s.cm.lines.neg.toNat, 6)] = BitVec.ofNat 8 (collectorCode s.cm.state + 8 * supplyCode s.supply +
        32 * s.cm.lines.pos.toNat + 64 * s.cm.lines.neg.toNat) := packByte_of_sum (by simp; omega)
  have drop : packByte [(polesCode s.cm.dropMask, 0), (s.cm.marks.t.toNat, 3), (s.cm.marks.a.toNat, 4),
      (s.cm.marks.v.toNat, 5), (s.cm.lossMetre.isSome.toNat, 6), (s.cm.lossEpoch.isSome.toNat, 7)] =
      BitVec.ofNat 8 (polesCode s.cm.dropMask + 8 * s.cm.marks.t.toNat + 16 * s.cm.marks.a.toNat +
        32 * s.cm.marks.v.toNat + 64 * s.cm.lossMetre.isSome.toNat + 128 * s.cm.lossEpoch.isSome.toNat) :=
    packByte_of_sum (by simp; omega)
  simp only [statusCollector, first, drop]
  rfl

/-! ### BE -/

/-- The four flags of a half byte, TAINT lowest, as a number. -/
def conditionNumber (c : Conditions) : Nat :=
  c.taint.toNat + 2 * c.overrange.toNat + 4 * c.shortfall.toNat + 8 * c.zeroSpan.toNat

theorem sum_conditionBits (c : Conditions) (k : Nat) :
    ((conditionBits c k).map fun f => f.1 * 2 ^ f.2).sum = 2 ^ k * conditionNumber c := by
  simp only [conditionBits, conditionNumber, List.map_cons, List.map_nil, List.sum_cons, List.sum_nil, pow_add]
  ring

/-- R184: the escalate enables are sent as the low half byte of P_ESCALATE. -/
theorem conditionNumber_escalateEnables (n : Nat) : conditionNumber (escalateEnables n) = n % 16 := by
  simp only [conditionNumber, escalateEnables, Nat.toNat_testBit]
  omega

theorem statusBudget_eq (s : State) : statusBudget s = wordOf s.be.heldV.toNat ++
    [BitVec.ofNat 8 (s.be.d + 16 * s.be.sag.toNat), BitVec.ofNat 8 s.be.windowCount, BitVec.ofNat 8 s.be.windowLength,
      BitVec.ofNat 8 (s.be.h + 8 * s.be.hStar)] ++ wordOf s.be.sinceH ++
    [BitVec.ofNat 8 (conditionNumber s.be.causes + 16 * conditionNumber s.be.sticky),
      BitVec.ofNat 8 (s.par .escalate % 16), BitVec.ofNat 8 s.be.freeze] := by
  have depth : packByte [(s.be.d, 0), (s.be.sag.toNat, 4)] = BitVec.ofNat 8 (s.be.d + 16 * s.be.sag.toNat) :=
    packByte_of_sum (by simp; omega)
  have shed : packByte [(s.be.h, 0), (s.be.hStar, 3)] = BitVec.ofNat 8 (s.be.h + 8 * s.be.hStar) :=
    packByte_of_sum (by simp; omega)
  have conditions : packByte (conditionBits s.be.causes 0 ++ conditionBits s.be.sticky 4) =
      BitVec.ofNat 8 (conditionNumber s.be.causes + 16 * conditionNumber s.be.sticky) :=
    packByte_of_sum (by rw [List.map_append, List.sum_append, sum_conditionBits, sum_conditionBits]; omega)
  have enables : packByte (conditionBits (escalateEnables (s.par .escalate)) 0) =
      BitVec.ofNat 8 (s.par .escalate % 16) :=
    packByte_of_sum (by rw [sum_conditionBits, conditionNumber_escalateEnables, Nat.pow_zero, Nat.one_mul])
  simp only [statusBudget, depth, shed, conditions, enables]
  rfl

/-! ### The alarms of a link -/

theorem sourceStatus_eq (e : PendingEntry) :
    sourceStatus e = if e.pending then BitVec.ofNat 8 (e.count + 16 * e.level.val + 64) else 0 := by
  rw [sourceStatus, packByte_of_sum (m := e.count + 16 * e.level.val + 64) (by simp; omega)]

theorem frameStatus_eq (stack : List AlarmFrame) (k : Nat) : frameStatus stack k =
    (stack[k]?).elim [0xFF, 0xFF] fun f => [BitVec.ofNat 8 f.source.val, BitVec.ofNat 8 f.level.val] := by
  unfold frameStatus
  cases stack[k]? <;> rfl

theorem statusAlarms_eq (a : LinkAlarms) : statusAlarms a =
    (List.finRange 16).map (fun m => sourceStatus (entry a.pending m)) ++
      [BitVec.ofNat 8 (a.stack.length + 8 * a.attention.toNat)] ++ frameStatus a.stack 0 ++ frameStatus a.stack 1 ++
      frameStatus a.stack 2 ++ frameStatus a.stack 3 := by
  have depth : packByte [(a.stack.length, 0), (a.attention.toNat, 3)] =
      BitVec.ofNat 8 (a.stack.length + 8 * a.attention.toNat) := packByte_of_sum (by simp; omega)
  have sources : sourceNumbers = List.finRange 16 := by decide
  simp only [statusAlarms, depth, sources, List.flatMap_cons, List.flatMap_nil, List.append_assoc, List.append_nil]

/-! ### The reply -/

/-- R181: 13 bytes of SI and PT, 14 of CM, 11 of BE, 7 of TG and LS, 25 of AD. -/
theorem statusPayload_length (l : Link) (s : State) : (ownReadStatus l s).payload.length = 70 := by
  have alarms : ∀ k, (frameStatus (s.ad.links.get l).stack k).length = 2 := fun k => by
    unfold frameStatus
    split <;> rfl
  simp only [ownReadStatus, answerWith, statusSense_eq, channelStatus_eq, statusCollector_eq, elevStatus_eq,
    statusBudget_eq, statusGrants, signedWordOf, word16, statusAlarms_eq, wordOf, List.length_append, List.length_map,
    List.length_finRange, alarms, List.length_cons, List.length_nil]

/-- Settles O38: the payload is the blocks' bytes in order, each packed as Table 9-4 says, and nothing is changed. -/
theorem statusRead : Obligations.StatusRead := by
  intro l body s free framed n two channel elevation flags state supply mask a source frame
  refine ⟨_, statusPayload_length l s, requestCommand_answered free framed (by cases l <;> rfl) rfl, ?_⟩
  have channels : ∀ c, channelStatus c = channel c := fun c => by
    obtain ⟨health, _⟩ := c
    rw [channelStatus_eq]
    cases health <;> rfl
  have sources : ∀ m, sourceStatus (entry (s.ad.links.get l).pending m) = source m := fun m => sourceStatus_eq _
  have frames : ∀ k, frameStatus (s.ad.links.get l).stack k = frame k := frameStatus_eq _
  simp only [ownReadStatus, answerWith, statusSense_eq, statusCollector_eq, statusBudget_eq, statusGrants, signedWordOf,
    word16, statusAlarms_eq, channels, elevStatus_eq, sources, frames, List.append_assoc]
  rfl

end Sys2Proof.Machine

/-! PROOFS. The link ports: what each line event and each byte writes in its own port (R170 to R173, R177, R182). -/

namespace Sys2Proof.Machine

/-! ### One write of a port -/

@[simp] theorem setPort_setPort (l : Link) (p q : Port) (s : State) : setPort l q (setPort l p s) = setPort l q s :=
  congrArg s.setLp (PerLink.put_put _ _ _ _)

@[simp] theorem setPort_get (l : Link) (s : State) : setPort l (s.lp.get l) s = s :=
  congrArg s.setLp (PerLink.put_get _ _)

@[simp] theorem setPort_get_same (l : Link) (p : Port) (s : State) : (setPort l p s).lp.get l = p :=
  PerLink.get_put_same _ _ _

theorem setPort_get_other {l k : Link} (other : k ≠ l) (p : Port) (s : State) : (setPort l p s).lp.get k = s.lp.get k :=
  PerLink.get_put_other _ _ other

/-- R177: the counter of a port gains 1, up to 255. -/
theorem countBadFrame_eq (l : Link) (s : State) : countBadFrame l s =
    setPort l { s.lp.get l with bad := min ((s.lp.get l).bad + 1) 255 } s := rfl

/-! ### The select line and the malformed frame -/

theorem malformed_eq (l : Link) (s : State) : malformed l s =
    setPort l { s.lp.get l with phase := .fill, pos := 0, bad := min ((s.lp.get l).bad + 1) 255 } s := by
  rw [malformed, countBadFrame_eq, setPort_setPort, setPort_get_same]

theorem assertSelect_asserted {l : Link} {s : State} (select : (s.lp.get l).select = true) : assertSelect l s = s :=
  if_pos select

theorem assertSelect_released {l : Link} {s : State} (select : (s.lp.get l).select = false) :
    assertSelect l s = setPort l ⟨true, .request, 0, [], [], (s.lp.get l).bad⟩ s :=
  if_neg (ne_true_of_eq_false select)

theorem abandons_iff (l : Link) (edges : BitVec 3) (s : State) : abandons l edges s = true ↔
    (s.lp.get l).phase = .request ∧ (0 < (s.lp.get l).pos ∨ edges ≠ 0) := by
  simp only [abandons, Bool.and_eq_true, Bool.or_eq_true, decide_eq_true_eq]

theorem releaseSelect_eq (l : Link) (edges : BitVec 3) (s : State) : releaseSelect l edges s =
    setPort l ⟨false, .idle, 0, (s.lp.get l).request, [],
      if abandons l edges s then min ((s.lp.get l).bad + 1) 255 else (s.lp.get l).bad⟩ s := by
  unfold releaseSelect
  split
  · rw [countBadFrame_eq, setPort_setPort, setPort_get_same]
  · rfl

theorem overrangeDue_iff (l : Link) (n : Byte) (s : State) : overrangeDue l n s = true ↔
    (s.lp.get l).phase = .request ∧ (s.lp.get l).pos = 1 ∧ 28 < n.toNat := by
  simp only [overrangeDue, Bool.and_eq_true, decide_eq_true_eq, and_assoc]

/-! ### A byte in each phase -/

section
variable {l : Link} {s : State} (b : Byte)

theorem exec_linkByteComplete (on : s.resetPin = false) :
    exec (.linkByteComplete l b) s = .next (byteCompletes l b s) := whilePowered_free on

theorem byteCompletes_idle (phase : (s.lp.get l).phase = .idle) : byteCompletes l b s = s := by
  simp only [byteCompletes, phase]

theorem byteCompletes_request (phase : (s.lp.get l).phase = .request) : byteCompletes l b s = requestByte l b s := by
  simp only [byteCompletes, phase]

theorem byteCompletes_turnaround (phase : (s.lp.get l).phase = .turnaround) : byteCompletes l b s =
    if (s.lp.get l).pos = 0 then setPort l { s.lp.get l with pos := 1 } s
    else setPort l { s.lp.get l with phase := .reply, pos := 0 } s := by
  simp only [byteCompletes, phase]

theorem byteCompletes_reply (phase : (s.lp.get l).phase = .reply) : byteCompletes l b s =
    if (s.lp.get l).reply.length ≤ (s.lp.get l).pos + 1 then setPort l { s.lp.get l with phase := .fill, pos := 0 } s
    else setPort l { s.lp.get l with pos := (s.lp.get l).pos + 1 } s := by
  simp only [byteCompletes, phase]

theorem byteCompletes_fill (phase : (s.lp.get l).phase = .fill) : byteCompletes l b s =
    setPort l { s.lp.get l with pos := min ((s.lp.get l).pos + 1) 255 } s := by
  simp only [byteCompletes, phase, satAdd]

/-- R171: an over-range length byte. -/
theorem requestByte_overlong (pos : (s.lp.get l).pos = 1) (long : 28 < b.toNat) : requestByte l b s = malformed l s :=
  if_pos ⟨pos, long⟩

/-- R170: every other byte ahead of the check byte is stored. -/
theorem requestByte_stored (inRange : ¬((s.lp.get l).pos = 1 ∧ 28 < b.toNat))
    (ahead : ¬(2 ≤ (s.lp.get l).pos ∧ (s.lp.get l).pos = (byteAt ((s.lp.get l).request ++ [b]) 1).toNat + 2)) :
    requestByte l b s =
      setPort l { s.lp.get l with request := (s.lp.get l).request ++ [b], pos := (s.lp.get l).pos + 1 } s :=
  (if_neg inRange).trans (if_neg ahead)

theorem requestByte_kind (pos : (s.lp.get l).pos = 0) : requestByte l b s =
    setPort l { s.lp.get l with request := (s.lp.get l).request ++ [b], pos := 1 } s := by
  rw [requestByte_stored b (by omega) (by omega), pos]

theorem requestByte_length (pos : (s.lp.get l).pos = 1) (short : b.toNat ≤ 28) : requestByte l b s =
    setPort l { s.lp.get l with request := (s.lp.get l).request ++ [b], pos := 2 } s := by
  rw [requestByte_stored b (by omega) (by omega), pos]

theorem requestByte_payload {code n : Byte} (pos : 2 ≤ (s.lp.get l).pos)
    (begins : (s.lp.get l).request.take 2 = [code, n]) (ahead : (s.lp.get l).pos ≠ n.toNat + 2) : requestByte l b s =
    setPort l { s.lp.get l with request := (s.lp.get l).request ++ [b], pos := (s.lp.get l).pos + 1 } s := by
  have length : byteAt ((s.lp.get l).request ++ [b]) 1 = n := by
    rw [← List.take_append_drop 2 (s.lp.get l).request, begins]
    rfl
  exact requestByte_stored b (by omega) fun last => ahead (length ▸ last.2)

/-- R173: the byte behind the payload is the check byte. -/
theorem requestByte_check {code : Byte} {payload : List Byte} (short : payload.length ≤ 28)
    (pos : (s.lp.get l).pos = payload.length + 2)
    (request : (s.lp.get l).request = code :: byteOf payload.length :: payload) :
    requestByte l b s = completeFrame l code ⟨payload, b⟩ s := by
  have length : (byteOf payload.length).toNat = payload.length := Nat.mod_eq_of_lt (by omega)
  have behind : ¬((s.lp.get l).pos = 1 ∧ 28 < b.toNat) := by omega
  have last : 2 ≤ (s.lp.get l).pos ∧ (s.lp.get l).pos = (byteAt ((s.lp.get l).request ++ [b]) 1).toNat + 2 := by
    rw [request]
    exact ⟨by omega, pos.trans (congrArg (· + 2) length.symm)⟩
  rw [requestByte, if_neg behind, if_pos last, request]
  simp only [byteAt, List.cons_append, List.getD_cons_zero, List.drop_succ_cons, List.drop_zero, List.dropLast_concat]

end

/-! ### The frame byte by byte, and the frame as one command (log 8) -/

/-- A port in REQUEST takes the check byte as the request's own command does on the link while free. -/
theorem completeFrame_setPort {l : Link} {code : Byte} {body : RequestBody} {s : State} {p : Port} (free : LinkFree l s)
    (short : body.payload.length ≤ 28) (select : p.select = true) (phase : p.phase = .request)
    (bad : p.bad = (s.lp.get l).bad) : completeFrame l code body (setPort l p s) = frameOnLink l code body s := by
  rw [frameOnLink_free free short, completeFrame, setPort_setPort, setPort_get_same]
  have held : { p with
      request := checkedBytes code body.payload ++ [body.check], pos := body.payload.length + 2, reply := [] } =
      heldPort l code body s := by
    rw [heldPort, ← bad, ← select, ← phase]
    rfl
  rw [held]
  rfl

/-- A link whose transaction is closed, its port's counter as it stands. -/
def closedLink (l : Link) (s : State) : State := s.setLp (s.lp.put l ⟨false, .idle, 0, [], [], (s.lp.get l).bad⟩)

theorem closedLink_free {l : Link} {s : State} (on : s.resetPin = false) : LinkFree l (closedLink l s) :=
  ⟨on, congrArg Port.select (PerLink.get_put_same _ _ _), congrArg Port.phase (PerLink.get_put_same _ _ _)⟩

theorem completeFrame_eq_unknownKind {l : Link} {code : Byte} {body : RequestBody} {s : State} (on : s.resetPin = false)
    (short : body.payload.length ≤ 28) (select : (s.lp.get l).select = true) (phase : (s.lp.get l).phase = .request) :
    .next (completeFrame l code body s) = exec (.unknownKind l code body) (closedLink l s) := by
  have free : LinkFree l (closedLink l s) := closedLink_free on
  have bad : (s.lp.get l).bad = ((closedLink l s).lp.get l).bad := by rw [closedLink, State.setLp_lp, PerLink.get_put_same]
  have back : setPort l (s.lp.get l) (closedLink l s) = s := (setPort_setPort l _ _ s).trans (setPort_get l s)
  rw [exec_unknownKind free.powered, ← completeFrame_setPort free short select phase bad, back]

end Sys2Proof.Machine

/-! PROOFS. A port in each phase: the select line, a byte, and the data-out line (R170 to R173, R182, R183). -/

namespace Sys2Proof.Machine

/-- R170, R183: what a port drives in each phase. -/
theorem Port.dataOut_cases (p : Port) : (p.select = false → p.dataOut = none) ∧
    (p.select = true → p.phase ≠ .reply → p.dataOut = some 0xFF) ∧
    (p.select = true → p.phase = .reply → p.dataOut = some (p.reply.getD p.pos 0xFF)) := by
  refine ⟨fun select => if_neg (ne_true_of_eq_false select), fun select phase => ?_, fun select phase => ?_⟩
  · rw [Port.dataOut, if_pos select]
    cases h : p.phase with
    | reply => exact absurd h phase
    | idle | request | turnaround | fill => rfl
  · rw [Port.dataOut, if_pos select, phase]

/-- Settles O40: the line events by whether they are due, a byte by the phase that it finds, the data-out line by phase. -/
theorem portPhases : Obligations.PortPhases := by
  refine ⟨fun l s on => ?_, fun l b s on => ?_, fun p => ?_⟩
  · intro p leaves bad abandons overlong
    have released : ∀ edges, releaseSelect l edges s = s.setLp (s.lp.put l ⟨false, .idle, 0, p.request, [],
        if p.phase = .request ∧ (0 < p.pos ∨ edges ≠ 0) then bad else p.bad⟩) := fun edges => by
      simp only [releaseSelect_eq, abandons_iff]
      rfl
    have asserted : exec (.selectAsserted l) s = .next (assertSelect l s) :=
      congrArg Host.Outcome.next (if_neg (ne_true_of_eq_false on))
    have release : ∀ edges, exec (.selectReleased l edges) s = .next (releaseSelect l edges s) := fun edges =>
      congrArg Host.Outcome.next (if_neg (ne_true_of_eq_false on))
    have abandon := fun edges => whilePowered_whenDue (f := releaseSelect l edges) on (abandons_iff l edges s)
    have overrange := fun n => whilePowered_whenDue (f := malformed l) on (overrangeDue_iff l n s)
    refine ⟨fun select => ?_, fun select => ?_, fun edges => ?_, fun edges due => ?_, fun edges => (abandon edges).2,
      fun n due => ?_, fun n => (overrange n).2⟩
    · rw [asserted, assertSelect_asserted select]
    · exact asserted.trans (congrArg _ (assertSelect_released select))
    · exact (release edges).trans (congrArg _ (released edges))
    · refine ((abandon edges).1 due).trans (congrArg _ ((released edges).trans ?_))
      rw [if_pos due]
    · exact ((overrange n).1 due).trans (congrArg _ (malformed_eq l s))
  · intro p leaves
    have run : ∀ {t}, byteCompletes l b s = t → exec (.linkByteComplete l b) s = .next t := fun e =>
      (exec_linkByteComplete b on).trans (congrArg _ e)
    have request : p.phase = .request → ∀ {t}, requestByte l b s = t → exec (.linkByteComplete l b) s = .next t :=
      fun phase _ e => run ((byteCompletes_request b phase).trans e)
    refine ⟨fun phase => run (byteCompletes_idle b phase), fun phase first => ?_, fun phase second long => ?_,
      fun phase second inRange => ?_, fun code n phase later length begins ahead => ?_,
      fun code payload phase select short pos frame => ?_, fun phase first => ?_, fun phase second => ?_,
      fun phase more => ?_, fun phase last => ?_, fun phase => run (byteCompletes_fill b phase)⟩
    · exact request phase (requestByte_kind b first)
    · exact request phase ((requestByte_overlong b second long).trans (malformed_eq l s))
    · exact request phase (requestByte_length b second inRange)
    · exact request phase (requestByte_payload b later begins ahead)
    · exact (request phase (requestByte_check b short pos frame)).trans (completeFrame_eq_unknownKind on short select phase)
    · exact run ((byteCompletes_turnaround b phase).trans (if_pos first))
    · exact run ((byteCompletes_turnaround b phase).trans (if_neg second))
    · exact run ((byteCompletes_reply b phase).trans (if_neg (Nat.not_le.mpr more)))
    · exact run ((byteCompletes_reply b phase).trans (if_pos last))
  · obtain ⟨released, filled, replies⟩ := p.dataOut_cases
    refine ⟨released, filled, fun select phase b found => ?_⟩
    rw [replies select phase, List.getD_eq_getElem?_getD, found]
    rfl

end Sys2Proof.Machine

/-! PROOFS. A command on one link and the ports of the others (R170, R177, R179). -/

namespace Sys2Proof.Machine

/-! ### The answer of a request, and the ports that it leaves -/

/-- R175: a request is refused with nothing changed, counted as a bad frame, or answered by its owning block. -/
theorem takeRequest_cases (l : Link) (code : Byte) (body : RequestBody) (s : State) :
    (∃ r, takeRequest l code body s = refuse r s) ∨ takeRequest l code body s = refuse .checkFail (countBadFrame l s) ∨
      ∃ k, kindCode k = code ∧ permitted l k = true ∧
        takeRequest l code body s = ownerAnswer k l body.payload s := by
  cases good : goodCheck code body with
  | false => exact .inr (.inl (if_neg (ne_true_of_eq_false good)))
  | true =>
    cases known : kindOfCode code with
    | none => exact .inl ⟨_, takeRequest_unknown good s known⟩
    | some k =>
      by_cases fits : body.payload.length = kindLength k
      · cases may : permitted l k with
        | false => exact .inl ⟨_, takeRequest_denied good s known fits may⟩
        | true =>
          refine .inr (.inr ⟨k, kindCode_of_kindOfCode known, may, ?_⟩)
          rw [takeRequest, if_pos good, known]
          exact (if_pos fits).trans (if_pos may)
      · exact .inl ⟨_, takeRequest_length good s known fits⟩

theorem reinitState_lp_get (k : Link) (s : State) : (reinitState s).lp.get k = { s.lp.get k with bad := 0 } := by
  cases k <;> rfl

/-- R177, R179: an owning block leaves every port as it is, but for the counters that an accepted REINIT clears. -/
theorem ownerAnswer_lp_get (kd : Kind) (l : Link) (p : List Byte) (s : State) (k : Link) :
    (ownerAnswer kd l p s).state.lp.get k = s.lp.get k ∨
      (kd = .reinit ∧ s.cm.state = .down ∧ (ownerAnswer kd l p s).state.lp.get k = { s.lp.get k with bad := 0 }) := by
  by_cases reinit : kd = .reinit
  · subst reinit
    by_cases down : s.cm.state = .down
    · refine .inr ⟨rfl, down, ?_⟩
      rw [ownerAnswer, ownReinit_down down]
      exact reinitState_lp_get k s
    · refine .inl ?_
      rw [ownerAnswer, ownReinit_busy down]
      rfl
  · exact .inl (congrArg (PerLink.get · k) (ownerAnswer_lp kd reinit l p s))

/-! ### The other ports -/

/-- From `s` to `t` the port of link `k` stays as it is, but for its counter where a REINIT was accepted. -/
def OtherPortStays (reinits : Prop) (k : Link) (s t : State) : Prop :=
  t.lp.get k = s.lp.get k ∨ (reinits ∧ s.cm.state = .down ∧ t.lp.get k = { s.lp.get k with bad := 0 })

theorem OtherPortStays.mono {r q : Prop} {k : Link} {s t : State} (h : OtherPortStays r k s t) (sub : r → q) :
    OtherPortStays q k s t :=
  h.imp_right fun ⟨reinit, rest⟩ => ⟨sub reinit, rest⟩

theorem whilePowered_otherPortStays {reinits : Prop} {k : Link} {f : State → State} {s t : State} (e : whilePowered f s = .next t)
    (h : OtherPortStays reinits k s (f s)) : OtherPortStays reinits k s t :=
  whilePowered_keeps (P := OtherPortStays reinits k s) (.inl rfl) (fun _ => h) e

theorem permitted_reinit {l : Link} (may : permitted l .reinit = true) : l = .v := by
  revert may
  cases l <;> decide

section
variable {l k : Link} (other : k ≠ l)
include other

theorem setPort_otherPortStays (reinits : Prop) (p : Port) (s : State) : OtherPortStays reinits k s (setPort l p s) :=
  .inl (setPort_get_other other p s)

theorem OtherPortStays.of_setPort {reinits : Prop} {p : Port} {s t : State}
    (h : OtherPortStays reinits k (setPort l p s) t) : OtherPortStays reinits k s t := by
  have collector : (setPort l p s).cm = s.cm := rfl
  simpa only [OtherPortStays, setPort_get_other other, collector] using h

theorem OtherPortStays.setPort {reinits : Prop} (p : Port) {s t : State} (h : OtherPortStays reinits k s t) :
    OtherPortStays reinits k s (setPort l p t) := by
  simpa only [OtherPortStays, setPort_get_other other] using h

theorem takeRequest_otherPortStays (code : Byte) (body : RequestBody) (s : State) :
    OtherPortStays (l = .v ∧ code = 0x7E) k s (takeRequest l code body s).state := by
  obtain ⟨r, refused⟩ | failed | ⟨kd, rfl, may, owned⟩ := takeRequest_cases l code body s
  · rw [refused]
    exact .inl rfl
  · rw [failed]
    exact setPort_otherPortStays other _ _ s
  · rw [owned]
    obtain same | ⟨rfl, down, cleared⟩ := ownerAnswer_lp_get kd l body.payload s k
    · exact .inl same
    · exact .inr ⟨⟨permitted_reinit may, rfl⟩, down, cleared⟩

/-- R177, R179: a frame on a link changes another port only as an accepted REINIT. -/
theorem completeFrame_otherPortStays (code : Byte) (body : RequestBody) (s : State) :
    OtherPortStays (l = .v ∧ code = 0x7E) k s (completeFrame l code body s) :=
  ((takeRequest_otherPortStays other code body _).of_setPort other).setPort other _

theorem assertSelect_otherPortStays (reinits : Prop) (s : State) : OtherPortStays reinits k s (assertSelect l s) := by
  cases select : (s.lp.get l).select with
  | true => exact .inl (congrArg (·.lp.get k) (assertSelect_asserted select))
  | false =>
    rw [assertSelect_released select]
    exact setPort_otherPortStays other _ _ s

theorem releaseSelect_otherPortStays (reinits : Prop) (edges : BitVec 3) (s : State) :
    OtherPortStays reinits k s (releaseSelect l edges s) := by
  rw [releaseSelect_eq]
  exact setPort_otherPortStays other _ _ s

theorem malformed_otherPortStays (reinits : Prop) (s : State) : OtherPortStays reinits k s (malformed l s) := by
  rw [malformed_eq]
  exact setPort_otherPortStays other _ _ s

theorem frameOnLink_otherPortStays (code : Byte) (body : RequestBody) (s : State) :
    OtherPortStays (l = .v ∧ code = 0x7E) k s (frameOnLink l code body s) := by
  have released : ((releaseSelect l 0 s).lp.get l).select = false := by rw [releaseSelect_eq, setPort_get_same]
  rw [frameOnLink, assertSelect_released released, releaseSelect_eq, setPort_setPort]
  split
  · exact (completeFrame_otherPortStays other code body _).of_setPort other
  · exact ((malformed_otherPortStays other _ _).of_setPort other).of_setPort other

/-- R173: a byte that completes a frame is told by the length byte received. -/
theorem byteCompletes_otherPortStays (b : Byte) (s : State) :
    OtherPortStays (l = .v ∧ (s.lp.get l).phase = .request ∧ byteAt ((s.lp.get l).request ++ [b]) 0 = 0x7E ∧
      (s.lp.get l).pos = (byteAt ((s.lp.get l).request ++ [b]) 1).toNat + 2) k s (byteCompletes l b s) := by
  cases phase : (s.lp.get l).phase with
  | idle => exact .inl (congrArg (·.lp.get k) (byteCompletes_idle b phase))
  | request =>
    rw [byteCompletes_request b phase, requestByte]
    split
    · exact malformed_otherPortStays other _ s
    · split
      · next last =>
        exact (completeFrame_otherPortStays other _ _ s).mono fun ⟨link, code⟩ => ⟨link, rfl, code, last.2⟩
      · exact setPort_otherPortStays other _ _ s
  | turnaround =>
    rw [byteCompletes_turnaround b phase]
    split <;> exact setPort_otherPortStays other _ _ s
  | reply =>
    rw [byteCompletes_reply b phase]
    split <;> exact setPort_otherPortStays other _ _ s
  | fill =>
    rw [byteCompletes_fill b phase]
    exact setPort_otherPortStays other _ _ s

/-- R177: a request of another kind than REINIT leaves the other ports as they are. -/
theorem requestCommand_otherPort {kd : Kind} {body : RequestBody} {s t : State} (e : requestCommand kd l body s = .next t)
    (kind : kindCode kd ≠ 0x7E) : t.lp.get k = s.lp.get k :=
  (whilePowered_otherPortStays e (frameOnLink_otherPortStays other _ _ _)).resolve_right fun reinit => kind reinit.1.2

end

theorem head?_received (bytes : List Byte) (b : Byte) : (bytes ++ [b]).head? = some (byteAt (bytes ++ [b]) 0) := by
  cases bytes <;> rfl

/-- Settles O3: a command that is no link's changes no port; a line event, a byte or a frame writes its own, and another
only as an accepted REINIT. -/
theorem otherPortsUntouched : Obligations.OtherPortsUntouched := by
  intro c s t k reset link e
  have untouched : Block.lp ∉ commandBlocks c → t.lp.get k = s.lp.get k := fun notPorts => by
    obtain ⟨u, next, touches⟩ := everyCommandCompletesInItsFrame c s
    cases next.symm.trans e
    rw [touches.lp notPorts]
  have others : ∀ {l}, linkOf c = some l → k ≠ l := fun own same => link (own.trans (congrArg some same.symm))
  cases c with
  | powerOnReset => exact absurd rfl reset
  | resetRelease | millisecondTick | sampleFrame | presentCountReached | confirmCountReached | raiseLimitExpiry
  | unloadLimitExpiry | cyclePeriodWrap | idleLimitPark | observationPeriodEnd | derateWindowEnd | freezeLimitReached
  | slotStart | silenceTimerExpiry | senseCharacter =>
    exact .inl (untouched (by simp [commandBlocks, setBlocks, failBlocks]))
  | selectAsserted l =>
    cases e
    split
    · exact setPort_otherPortStays (others rfl) _ _ s
    · exact assertSelect_otherPortStays (others rfl) _ s
  | selectReleased l edges =>
    cases e
    split
    · exact setPort_otherPortStays (others rfl) _ _ s
    · exact releaseSelect_otherPortStays (others rfl) _ edges s
  | frameAbandoned l edges =>
    refine whilePowered_otherPortStays e (whenDue_keeps (.inl rfl) fun _ => ?_)
    exact releaseSelect_otherPortStays (others rfl) _ edges s
  | requestLengthOverrange l n =>
    refine whilePowered_otherPortStays e (whenDue_keeps (.inl rfl) fun _ => ?_)
    exact malformed_otherPortStays (others rfl) _ s
  | linkByteComplete l b =>
    refine (whilePowered_otherPortStays e (byteCompletes_otherPortStays (others rfl) b s)).mono ?_
    rintro ⟨rfl, phase, code, last⟩
    exact .inr (.inr ⟨b, rfl, phase, (head?_received _ b).trans (congrArg some code), last⟩)
  | unknownKind l code body =>
    refine (whilePowered_otherPortStays e (frameOnLink_otherPortStays (others rfl) code body s)).mono ?_
    rintro ⟨rfl, rfl⟩
    exact .inr (.inl ⟨body, rfl⟩)
  | reinit l body =>
    refine (whilePowered_otherPortStays e (frameOnLink_otherPortStays (others rfl) _ body s)).mono ?_
    rintro ⟨rfl, -⟩
    exact .inl ⟨body, rfl⟩
  | readStatus | readBudget | dropSeen | takeAlarm | doneAlarm | tractionRequest | loadSetup | loadDemand | loadReEnable
  | readLoads | raise | lower | clearDrop | readDropLog | popDropLog | setPosition | restoreChannel | featurePut
  | featureEvict | featureRead | tableClear | armedRead | zoneSet | zoneRead | clearConditions | alarmRouteSet
  | readAlarmRoutes | setParam | readParam =>
    exact .inl (requestCommand_otherPort (others rfl) e (by decide))

end Sys2Proof.Machine

/-! PROOFS. A request frame sent byte by byte, and its reply read out byte by byte (R170, R171, R173, R174). -/

namespace Sys2Proof.Machine

/-! ### The port of a request taken -/

/-- The select line of a port is not the request's to change. -/
theorem takeRequest_select (l : Link) (code : Byte) (body : RequestBody) (s : State) :
    ((takeRequest l code body s).state.lp.get l).select = (s.lp.get l).select := by
  obtain ⟨r, refused⟩ | failed | ⟨kd, -, -, owned⟩ := takeRequest_cases l code body s
  · rw [refused]
    rfl
  · simp only [failed, refuse, countBadFrame_eq, setPort_get_same]
  · rw [owned]
    obtain same | ⟨-, -, cleared⟩ := ownerAnswer_lp_get kd l body.payload s l
    · rw [same]
    · rw [cleared]

theorem frameOnLink_resetPin (l : Link) (code : Byte) (body : RequestBody) (s : State) :
    (frameOnLink l code body s).resetPin = s.resetPin :=
  have touches : Touches (.lp :: setBlocks) s (frameOnLink l code body s) :=
    frameOnLink_touches (List.mem_cons_self ..) (fun k _ => requestBlocks_subset k) l body s
  touches.resetPin (by decide)

/-- R170: a port that was free holds a reply and waits in TURNAROUND. -/
structure HoldsReply (p : Port) : Prop where
  select : p.select = true
  phase : p.phase = .turnaround
  pos : p.pos = 0
  reply : 6 ≤ p.reply.length

theorem frameOnLink_holdsReply {l : Link} {body : RequestBody} {s : State} (free : LinkFree l s) (code : Byte)
    (short : body.payload.length ≤ 28) : HoldsReply ((frameOnLink l code body s).lp.get l) := by
  rw [frameOnLink_free free short, enterTurnaround, setPort_get_same]
  refine ⟨?_, rfl, rfl, ?_⟩
  · refine (takeRequest_select l code body _).trans ?_
    rw [State.setLp_lp, PerLink.get_put_same]
    rfl
  · simp [replyFrame]

/-! ### The frame, byte by byte -/

theorem execAll_byte {l : Link} {b : Byte} {rest : List Instr} {s t : State} (on : s.resetPin = false)
    (e : byteCompletes l b s = t) : execAll (.linkByteComplete l b :: rest) s = execAll rest t := by
  rw [execAll, exec_linkByteComplete b on, e]

/-- The port of a link that was free, in REQUEST with these bytes of a frame. -/
def openPort (l : Link) (s : State) (bytes : List Byte) : Port :=
  ⟨true, .request, bytes.length, bytes, [], (s.lp.get l).bad⟩

/-- R170: a byte ahead of the check byte is stored behind the others. -/
theorem byteCompletes_openPort {l : Link} {s : State} {bytes : List Byte} {b : Byte}
    (inRange : ¬(bytes.length = 1 ∧ 28 < b.toNat))
    (ahead : ¬(2 ≤ bytes.length ∧ bytes.length = (byteAt (bytes ++ [b]) 1).toNat + 2)) :
    byteCompletes l b (setPort l (openPort l s bytes) s) = setPort l (openPort l s (bytes ++ [b])) s := by
  have port : (setPort l (openPort l s bytes) s).lp.get l = openPort l s bytes := setPort_get_same _ _ _
  rw [byteCompletes_request b (congrArg Port.phase port), requestByte_stored b (by rw [port]; exact inRange)
    (by rw [port]; exact ahead), setPort_setPort, port, openPort, openPort, List.length_append]
  rfl

/-- R173: the check byte leads where the frame as one command does (log 8). -/
theorem byteCompletes_check {l : Link} {s : State} (free : LinkFree l s) (code check : Byte) {payload : List Byte}
    (short : payload.length ≤ 28) :
    byteCompletes l check (setPort l (openPort l s (code :: byteOf payload.length :: payload)) s) =
      frameOnLink l code ⟨payload, check⟩ s := by
  have port : (setPort l (openPort l s (code :: byteOf payload.length :: payload)) s).lp.get l = openPort l s _ :=
    setPort_get_same _ _ _
  rw [byteCompletes_request check (congrArg Port.phase port),
    requestByte_check check short (congrArg Port.pos port) (congrArg Port.request port)]
  exact completeFrame_setPort free short rfl rfl rfl

theorem execAll_payload {l : Link} {s : State} (free : LinkFree l s) (code check : Byte) (rest done : List Byte)
    (short : (done ++ rest).length ≤ 28) :
    execAll ((rest ++ [check]).map (.linkByteComplete l))
        (setPort l (openPort l s (code :: byteOf (done ++ rest).length :: done)) s) =
      .next (frameOnLink l code ⟨done ++ rest, check⟩ s) := by
  induction rest generalizing done with
  | nil =>
    rw [List.append_nil] at short ⊢
    exact execAll_byte (by exact free.powered) (byteCompletes_check free code check short)
  | cons b rest ih =>
    have next := ih (done ++ [b]) (by rwa [List.append_assoc])
    rw [List.append_assoc, List.singleton_append] at next
    rw [← next]
    have length : (byteOf (done ++ b :: rest).length).toNat = (done ++ b :: rest).length := Nat.mod_eq_of_lt (by omega)
    have ahead : done.length < (byteOf (done ++ b :: rest).length).toNat := by
      rw [length, List.length_append, List.length_cons]
      omega
    refine execAll_byte (by exact free.powered) (byteCompletes_openPort (fun first => ?_) fun last => ?_)
    · simp at first
    · exact ahead.ne (Nat.add_right_cancel (m := 2) last.2)

/-- Log 8: select and the bytes of a frame, one at a time, lead where the frame as one command does. -/
theorem execAll_frame {l : Link} {s : State} (free : LinkFree l s) (code : Byte) (body : RequestBody)
    (short : body.payload.length ≤ 28) :
    execAll (.selectAsserted l ::
        (code :: byteOf body.payload.length :: body.payload ++ [body.check]).map (.linkByteComplete l)) s =
      .next (frameOnLink l code body s) := by
  have opened : exec (.selectAsserted l) s = .next (setPort l (openPort l s []) s) :=
    congrArg Host.Outcome.next ((if_neg (ne_true_of_eq_false free.powered)).trans (assertSelect_released free.released))
  have inRange : (byteOf body.payload.length).toNat ≤ 28 := by
    rw [byteOf, BitVec.toNat_ofNat]
    omega
  rw [execAll, opened]
  refine (execAll_byte (by exact free.powered) (byteCompletes_openPort (by simp) (by simp))).trans ?_
  refine (execAll_byte (by exact free.powered) (byteCompletes_openPort (fun long => ?_) (by simp))).trans ?_
  · exact absurd long.2 (Nat.not_lt.mpr inRange)
  · exact execAll_payload free code body.check body.payload [] short

/-! ### The reply, byte by byte -/

/-- R170: the phase and the position of a port with a reply of some length, when so many bytes were clocked. -/
def readPosition (length n : Nat) : Phase × Nat :=
  if n < 2 then (.turnaround, n) else if n < length + 2 then (.reply, n - 2) else (.fill, min (n - (length + 2)) 255)

/-- A port that was in TURNAROUND, when so many bytes were clocked. -/
def Port.afterBytes (p : Port) (n : Nat) : Port :=
  { p with phase := (readPosition p.reply.length n).1, pos := (readPosition p.reply.length n).2 }

section
variable (p : Port)

theorem Port.afterBytes_turnaround {n : Nat} (h : n < 2) : p.afterBytes n = { p with phase := .turnaround, pos := n } := by
  rw [Port.afterBytes, readPosition, if_pos h]

theorem Port.afterBytes_reply {n : Nat} (h : n < p.reply.length) :
    p.afterBytes (n + 2) = { p with phase := .reply, pos := n } := by
  rw [Port.afterBytes, readPosition, if_neg (by omega), if_pos (by omega), Nat.add_sub_cancel]

theorem Port.afterBytes_fill (n : Nat) :
    p.afterBytes (p.reply.length + 2 + n) = { p with phase := .fill, pos := min n 255 } := by
  rw [Port.afterBytes, readPosition, if_neg (by omega), if_neg (by omega), Nat.add_sub_cancel_left]

/-- The three phases of a reply that is read out. -/
theorem readOut_cases (n : Nat) :
    n < 2 ∨ (∃ k, n = k + 2 ∧ k < p.reply.length) ∨ ∃ k, n = p.reply.length + 2 + k := by
  rcases Nat.lt_or_ge n 2 with early | late
  · exact .inl early
  · rcases Nat.lt_or_ge (n - 2) p.reply.length with within | behind
    · exact .inr (.inl ⟨n - 2, by omega, within⟩)
    · exact .inr (.inr ⟨n - (p.reply.length + 2), by omega⟩)

/-- R170, R183: 0xFF in TURNAROUND, the reply's bytes in their order, and 0xFF behind them. -/
theorem Port.dataOut_afterBytes (select : p.select = true) (n : Nat) :
    (p.afterBytes n).dataOut = some (if n < 2 then 0xFF else p.reply.getD (n - 2) 0xFF) := by
  obtain early | ⟨k, rfl, within⟩ | ⟨k, rfl⟩ := readOut_cases p n
  · rw [p.afterBytes_turnaround early, if_pos early, Port.dataOut, if_pos select]
  · rw [p.afterBytes_reply within, if_neg (by omega), Nat.add_sub_cancel, Port.dataOut, if_pos select]
  · rw [p.afterBytes_fill, if_neg (by omega), List.getD_eq_default _ _ (by omega), Port.dataOut, if_pos select]

/-- R170: one byte more. -/
theorem byteCompletes_afterBytes {l : Link} {s : State} (replies : 0 < p.reply.length) (b : Byte) (n : Nat) :
    byteCompletes l b (setPort l (p.afterBytes n) s) = setPort l (p.afterBytes (n + 1)) s := by
  have port : ∀ q, (setPort l q s).lp.get l = q := fun q => setPort_get_same l q s
  obtain early | ⟨k, rfl, within⟩ | ⟨k, rfl⟩ := readOut_cases p n
  · rw [p.afterBytes_turnaround early, byteCompletes_turnaround b (congrArg Port.phase (port _)), port, setPort_setPort,
      setPort_setPort]
    obtain rfl | rfl : n = 0 ∨ n = 1 := by omega
    · rw [p.afterBytes_turnaround (by decide)]
      rfl
    · rw [p.afterBytes_reply replies]
      rfl
  · rw [p.afterBytes_reply within, byteCompletes_reply b (congrArg Port.phase (port _)), port, setPort_setPort,
      setPort_setPort]
    rcases Nat.lt_or_ge (k + 1) p.reply.length with more | last
    · rw [if_neg (Nat.not_le.mpr more), Nat.add_right_comm, p.afterBytes_reply more]
    · have behind : k + 2 + 1 = p.reply.length + 2 + 0 := by omega
      rw [if_pos last, behind, p.afterBytes_fill]
      rfl
  · have saturates : min (min k 255 + 1) 255 = min (k + 1) 255 := by omega
    rw [p.afterBytes_fill, byteCompletes_fill b (congrArg Port.phase (port _)), port, setPort_setPort, Nat.add_assoc,
      p.afterBytes_fill, saturates]

end

theorem execAll_readOut {l : Link} {s : State} {p : Port} (on : s.resetPin = false) (replies : 0 < p.reply.length)
    (filler : List Byte) (n : Nat) : execAll (filler.map (.linkByteComplete l)) (setPort l (p.afterBytes n) s) =
      .next (setPort l (p.afterBytes (n + filler.length)) s) := by
  induction filler generalizing n with
  | nil => rfl
  | cons b filler ih =>
    rw [List.length_cons, Nat.add_comm filler.length, ← Nat.add_assoc, ← ih]
    exact execAll_byte (by exact on) (byteCompletes_afterBytes p replies b n)

/-- Settles O41: the frame's bytes lead to the request's own state, and its port is read out from TURNAROUND on. -/
theorem requestByteByByte : Obligations.RequestByteByByte := by
  intro l code body filler s free short
  have holds := frameOnLink_holdsReply free code short
  have on : (frameOnLink l code body s).resetPin = false := (frameOnLink_resetPin l code body s).trans free.powered
  generalize ht : frameOnLink l code body s = t at holds on
  have start : setPort l ((t.lp.get l).afterBytes 0) t = t := by
    rw [Port.afterBytes_turnaround _ (by decide), ← holds.phase, ← holds.pos, setPort_get]
  have read := execAll_readOut (l := l) on (Nat.lt_of_lt_of_le (by decide) holds.reply) filler 0
  rw [start, Nat.zero_add] at read
  refine ⟨t, ?_, ?_, holds.phase, holds.reply, ⟨_, _, read, Port.dataOut_afterBytes _ holds.select _⟩, fun all => ?_⟩
  · rw [exec_unknownKind free.powered, ht]
  · rw [execAll_frame free code body short, ht]
  · rw [read, all]
    exact congrArg (fun q => Host.Outcome.next (setPort l q t)) ((t.lp.get l).afterBytes_fill 0)

end Sys2Proof.Machine

/-! PROOFS. A step and the queue of commands: the front command is run, and an empty queue idles (log 1). -/

namespace Sys2Proof.Machine

theorem step_of_pending_cons {s : State} {c : Instr} {rest : List Instr} (waiting : s.pending = c :: rest) :
    step s = exec c (s.setPending rest) := by
  simp only [step, waiting]

theorem step_of_pending_nil {s : State} (idle : s.pending = []) : step s = .next s := by
  simp only [step, idle]

/-- Settles O1: the two cases of the queue; the rest that the step writes replaces the whole queue. -/
theorem stepRunsFrontCommand : Obligations.StepRunsFrontCommand := by
  intro c rest s
  have front := step_of_pending_cons (s.setPending_pending (c :: rest))
  rw [State.setPending_setPending] at front
  exact ⟨front, step_of_pending_nil (s.setPending_pending [])⟩

end Sys2Proof.Machine
